-- ==== Sys2Proof/Word.lean ====
section
/-! DEFINITION. The word types of the CX-16 and their plainest arithmetic. -/

namespace Sys2Proof

/-- One byte of a cell (R1). -/
abbrev Byte := BitVec 8

/-- A 32-bit value: an NT value, a booking reference, a bill sequence number, or a wrapping 32-bit counter
(00_scope.md, "Counters"). -/
abbrev Word := BitVec 32

/-- A cell sequence, 0 to 4,095, wrapping (R1). -/
abbrev Seq := BitVec 12

/-- One of the sixteen fibre ports (1.10, pin summary). -/
abbrev Port := Fin 16

/-- The largest value of a saturating 32-bit counter (00_scope.md, "Counters"). -/
abbrev counterMax : Nat := 4294967295

/-- Addition that holds at 4,294,967,295 (00_scope.md, "Counters"; R136). -/
def satAdd (n k : Nat) : Nat := min (n + k) counterMax

end Sys2Proof
end

