-- ==== Sys2Proof/Syntax.lean ====
section
/-! DEFINITION. The commands of the CX-16: one constructor for each row of spec/opcode_table.json, in its order.

The first rows are events at the part's pins and lines; the rows from `identify` on are the taking of the head order of the
order queue (R162), so their operands stand in the order cell and not in the command (assumption log 1). -/

namespace Sys2Proof

/-- A command: one step of the part (95_what_each_step_holds.md). -/
inductive Instr
  /-- RESET is asserted (R17). -/
  | hardResetAssert
  /-- RESET is released, with the levels of ADDR[9:0] and, bit by port, whether the receiver reports light (R17, R157). -/
  | hardResetRelease (straps : BitVec 10) (light : BitVec 16)
  /-- The receiver of a port reports loss of light (R3, R8). -/
  | lossOfLight (p : Port)
  /-- Light returns on a port (R3). -/
  | lightReturns (p : Port)
  /-- A cell of 256 bytes arrives on a port (R1, R2, R4). -/
  | cellArrival (p : Port) (bytes : List Byte)
  /-- The hunt on a port finds 8 consecutive cells that pass the header check (R3). -/
  | delineationFound (p : Port)
  /-- A run of 16 consecutive header-check failures completes on a port (R3, R8). -/
  | lossOfDelineation (p : Port)
  /-- The line of a port can take one cell (R14). -/
  | lineSend (p : Port)
  /-- The feed queue of a DRAINING port becomes empty (R7). -/
  | drained (p : Port)
  /-- A freed place takes the waiting answer (R13, R162). -/
  | answerAppended
  /-- The head notice is offered to the controller port (R165). -/
  | noticeDelivery
  /-- The local tick schedule comes due (R21). -/
  | localTick
  /-- The time-cell deadline passes (R23). -/
  | timeCellDeadline
  /-- The Source Unit takes a tick (R42). -/
  | tokenRefill
  /-- The Fault Watch takes a tick for one source (R101). -/
  | sourceTick (p : Port) (label : Byte)
  /-- A source's tick on which its silent run reaches F (R108). -/
  | silent (p : Port) (label : Byte)
  /-- A source's tick on which its good run reaches C (R110). -/
  | cleared (p : Port) (label : Byte)
  /-- A source's tick that is a window end (R106, R111). -/
  | windowEnd (p : Port) (label : Byte)
  /-- The Booking Engine takes a tick (R79). -/
  | bookingTick
  /-- A booking tick on which a booking's hold-off reaches 0 and it is switched to spare (R120). -/
  | holdOffExpiry (slot : Fin 512)
  /-- A booking tick on which a booking's wait-to-restore reaches 0 and it is switched to main (R122). -/
  | wtrExpiry (slot : Fin 512)
  | identify
  | setMode
  | managementRestart
  /-- The restart acts, its answer having left (R169). -/
  | restartAction
  | setHoldThreshold
  | setRoute
  | clearTraffic
  | portEnable
  | portDisable
  | portStatus
  | portCapacity
  | timeSource
  | timeSet
  | timePolicy
  | timeStatus
  | sourceStatus
  | sourceWatch
  | book
  /-- The admission computation of a BOOK completes (R65). -/
  | bookAccepted
  | modify
  /-- The admission computation of a MODIFY completes (R70). -/
  | modifyAccepted
  | cancel
  | endBooking
  | select
  | bookingRead
  | groupHold
  | groupRelease
  | tariffWrite
  | tariffLock
  | tariffClearAll
  | tariffRead
  | tariffCheck
  | billRead
  | billRelease
  deriving DecidableEq, Repr

end Sys2Proof
end

