-- ==== Sys2Proof/Decode.lean ====
section
/-! DEFINITION. The command a word spells by the bits of spec/opcode_table.json.

No row of the table gives bits: every row's "fields" is empty and no row has "fixed". So no word spells a command. What the
part does decode, the bytes of an arriving cell and the parameters of an order, stands in Machine/Layout.lean and
Machine/Operands.lean. -/

namespace Sys2Proof

/-- The command that `nbits` bits `w` spell: none, since the table gives no row any bits. -/
def decodeTableWord (_nbits _w : Nat) : Option Instr := none

end Sys2Proof
end

