-- ==== Sys2Proof/Machine/Records.lean ====
section
/-! DEFINITION. The records the blocks of the CX-16 keep: cells, port records, sources and legs, bookings with their
selector and meter parts, bills, answers and notices. Every field cites the rule that names it. -/

namespace Sys2Proof.Machine

/-! ## Named values -/

/-- The line condition of a port's receive side (R3). -/
inductive LineCond
  | noLight | searching | delineated
  deriving DecidableEq, Repr

/-- The return state a DARK port holds (1.4, R8, R9). -/
inductive ReturnState
  | enabled | disabled
  deriving DecidableEq, Repr

/-- The state of a port (1.4). Only DARK holds a return state. -/
inductive PortState
  | enabled | draining | disabled
  | dark (ret : ReturnState)
  deriving DecidableEq, Repr

/-- The cause a PORT_STATE notice carries (R15). -/
inductive PortCause
  | order | drained | lossOfLight | lossOfDelineation | lineRestored
  deriving DecidableEq, Repr

/-- The time state (2.1). `localRef` is the state the manual names LOCAL. -/
inductive TimeState
  | free | localRef | locked | holdover
  deriving DecidableEq, Repr

/-- The cause a TIME_STATE notice carries (R31). -/
inductive TimeCause
  | timeCell | timeout | stepAccepted | stepRefused | sourceOrder | setOrder
  deriving DecidableEq, Repr

/-- The step policy (2.1). -/
inductive StepPolicy
  | accept | refuse
  deriving DecidableEq, Repr

/-- The disposition a TIME_STEP notice carries (R31). -/
inductive StepDisposition
  | accepted | refused | set
  deriving DecidableEq, Repr

/-- The watch state of a source (R99). -/
inductive WatchState
  | unwatched | recovering | ok | degraded | failed
  deriving DecidableEq, Repr

/-- The cause a SOURCE_STATE notice carries (R114). -/
inductive WatchCause
  | demandStarted | demandEnded | silent | portDark | arrivals | cleared | erroredWindow | cleanWindow
  deriving DecidableEq, Repr

/-- The node mode (R167). -/
inductive NodeMode
  | commissioning | service | frozen
  deriving DecidableEq, Repr

/-- The state of a start group (R74). `opened` is the state the manual names OPEN. -/
inductive GroupState
  | opened | holding | releasing
  deriving DecidableEq, Repr

/-- The selector position (R116). -/
inductive Position
  | onMain | onSpare
  deriving DecidableEq, Repr

/-- The selector's standing request (R116). `noRequest` is the value the manual names NONE. -/
inductive Request
  | noRequest | forceMain | forceSpare | lockMain
  deriving DecidableEq, Repr

/-- The cause a SELECTOR_SWITCH notice carries (R128). -/
inductive SwitchCause
  | failure | spareFailed | restore | forceSpare | forceMain | lockMain
  deriving DecidableEq, Repr

/-- The outcome of a bill (R147). -/
inductive BillOutcome
  | endedByOrder | endedAtLimit | cut | cancelledLate | aborted
  deriving DecidableEq, Repr

/-- The result of an answer: DONE or one refusal reason (R163). -/
inductive Result
  | done | queueFull | format | mode | range | state | unknown | duplicateRef | bandwidthMismatch | noSlot
  | noSourceSlot | conflict | capacity | legLimit | locked | notOldest
  deriving DecidableEq, Repr

/-- A field an answer names: of a booking (R58, R67, R68), or of a tariff class (R131, R135). `leg i` is the leg at
position `i` of the list carried. -/
inductive FieldName
  | tariffClass | mainSource | spareSource | bandwidth | leg (i : Nat) | legsToAdd | legsToDrop
  | start | plannedDuration | allowance | extendPermitted | preroll | startGroup | account
  | revertive | switchOnDegrade | holdOff | waitToRestore
  | cls | clsState | baseRate | overrunRate | outageGrace | minimumCharge | rounding | cancelWindow | cancelFee
  deriving DecidableEq, Repr

/-! ## Cells, sources and legs -/

/-- A cell by its header fields and payload (R1). The spare bits are ignored on arrival and the header check is
computed afresh at every send, so neither is held. -/
structure Cell where
  label : Byte
  seq : Seq
  payload : List Byte
  deriving DecidableEq, Repr

/-- The pair by which a source is known outside the part: ingress port and label (R33). -/
structure SrcId where
  port : Port
  label : Byte
  deriving DecidableEq, Repr

/-- An (egress port, out label) pair of a leg (R43, R53). -/
structure Pair where
  port : Port
  label : Byte
  deriving DecidableEq, Repr

/-- A leg record (R43). -/
structure Leg where
  pair : Pair
  owner : Nat
  seq : Seq
  sent : Word
  dropped : Word
  deriving DecidableEq, Repr

/-- One tick as the Time Unit hands it on: NT after the advance, and the stepped mark (R19). -/
structure Tick where
  nt : Word
  stepped : Bool
  deriving DecidableEq, Repr

/-- Fail count, clear count and degrade threshold (R99, R100). -/
structure WatchParams where
  failCount : Nat
  clearCount : Nat
  degrade : Nat
  deriving DecidableEq, Repr

/-- The watch part of a source record (R99). -/
structure Watch where
  state : WatchState
  params : WatchParams
  silentRun : Nat
  goodRun : Nat
  position : Nat
  errored : Nat
  lastErrored : Option Nat
  failures : Word
  degradations : Word
  lastChange : Option Word
  deriving DecidableEq, Repr

/-- A source record (R33). `ticks` holds the ticks handed to the Fault Watch that this source has not taken yet
(R19, R101: each is taken as the Fault Watch reaches the source). -/
structure Source where
  id : SrcId
  bandwidth : Nat
  refs : Nat
  watch : Watch
  expected : Seq
  resync : Bool
  arrivals : Word
  errored : Bool
  tokens : Nat
  received : Word
  missing : Word
  late : Word
  excess : Word
  legs : List Leg
  ticks : List Tick
  deriving DecidableEq, Repr

/-! ## Bookings -/

/-- The fields of a booking (R53), with the effective start (R54), which MODIFY sets together with the start. The
reference stands in the booking itself. -/
structure Fields where
  account : BitVec 16
  tariffClass : Nat
  main : SrcId
  spare : Option SrcId
  bandwidth : Nat
  legs : List Pair
  start : Word
  effStart : Word
  duration : Nat
  allowance : Nat
  extend : Bool
  preroll : Nat
  group : Nat
  revertive : Bool
  switchOnDegrade : Bool
  holdOff : Nat
  wtr : Nat
  deriving DecidableEq, Repr

/-- A pending modification: the fields one accepted MODIFY names, with their new values; for legs, the resulting
list (R70). -/
structure Mod where
  start : Option (Word × Word)
  main : Option SrcId
  group : Option Nat
  preroll : Option Nat
  account : Option (BitVec 16)
  tariffClass : Option Nat
  duration : Option Nat
  allowance : Option Nat
  extend : Option Bool
  legs : Option (List Pair)
  spare : Option (Option SrcId)
  revertive : Option Bool
  switchOnDegrade : Option Bool
  holdOff : Option Nat
  wtr : Option Nat
  deriving DecidableEq, Repr

/-- A tariff class in SET (R130). -/
structure Tariff where
  baseRate : Nat
  overRate : Nat
  grace : Nat
  minimum : Nat
  roundUp : Bool
  window : Nat
  fee : Nat
  deriving DecidableEq, Repr

/-- The tariff snapshot of a meter part (R136, R137). -/
structure Snapshot where
  cls : Nat
  baseRate : Nat
  overRate : Nat
  grace : Nat
  minimum : Nat
  roundUp : Bool
  noTariff : Bool
  deriving DecidableEq, Repr

/-- The meter part of a booking record (R136). -/
structure Meter where
  snapshot : Option Snapshot
  firstLive : Option Word
  acc : Nat
  uBase : Nat
  uOver : Nat
  held : Nat
  scheduled : Nat
  overrun : Nat
  extended : Nat
  outage : Nat
  credited : Nat
  degraded : Nat
  outageRun : Nat
  switches : Nat
  forced : Nat
  saturated : Bool
  timeStepped : Bool
  deriving DecidableEq, Repr

/-- A closed bill: every field of R147 but the bill sequence, all fixed at the close. -/
structure Bill where
  ref : Word
  account : BitVec 16
  cls : Nat
  outcome : BillOutcome
  firstLive : Option Word
  endNt : Word
  held : Nat
  scheduled : Nat
  overrun : Nat
  extended : Nat
  outage : Nat
  credited : Nat
  degraded : Nat
  uBase : Nat
  uOver : Nat
  round : Nat
  total : Nat
  switches : Nat
  forced : Nat
  delivered : Word
  dropped : Word
  noTariff : Bool
  saturated : Bool
  timeStepped : Bool
  minimumApplied : Bool
  early : Bool
  deriving DecidableEq, Repr

/-- A bill record of the Bill Queue: a closed bill with the sequence number given at writing (R146, R147). -/
structure BillRec where
  seq : Word
  bill : Bill
  deriving DecidableEq, Repr

/-- The state of a booking slot that is not FREE (R77). A FREE slot has no entry in the booking table. ENDED holds the
closed bill (R149). -/
inductive BookingState
  | booked | preroll | held | live | overrun | extended
  | ended (bill : Bill)
  deriving DecidableEq, Repr

/-- A booking record (R53, R54, R116). `afresh` is the model's own mark: SELECT CLEAR has ended a request since stage 4 last took the
booking, so that both countdowns start from absent there (R126; assumption log 29). -/
structure Booking where
  ref : Word
  fields : Fields
  state : BookingState
  position : Position
  request : Request
  holdOffLeft : Option Nat
  wtrLeft : Option Nat
  afresh : Bool
  meter : Meter
  pending : Option Mod
  endPending : Bool
  delivered : Word
  dropped : Word
  deriving DecidableEq, Repr

/-- A start group (R74). -/
structure Group where
  state : GroupState
  held : Nat
  deriving DecidableEq, Repr

/-! ## Answers and notices -/

/-- A route list entry that is not empty (R158). -/
structure Route where
  low : Nat
  high : Nat
  port : Port
  deriving DecidableEq, Repr

/-- A value stored by an order, with the mark that it was clamped (00_scope.md, "Out-of-range values"). -/
structure Clamped where
  value : Nat
  clamped : Bool
  deriving DecidableEq, Repr

/-- The record PORT STATUS returns (R16). The return state stands inside the state when that is DARK. -/
structure PortStatusData where
  state : PortState
  line : LineCond
  capacity : Nat
  installed : Nat
  mgmtFill : Nat
  feedFill : Nat
  mgmtSeq : Seq
  headerErrors : Word
  unbooked : Word
  deriving DecidableEq, Repr

/-- The record TIME STATUS returns (R29). -/
structure TimeStatusData where
  state : TimeState
  nt : Word
  valid : Bool
  selection : Option Port
  policy : StepPolicy
  stepCount : Word
  lastRefused : Option Word
  stepMark : Bool
  deriving DecidableEq, Repr

/-- What IDENTIFY returns (R166). -/
structure IdentifyData where
  vendor : BitVec 16
  part : BitVec 16
  revision : Nat
  address : Nat
  strapFault : Bool
  mode : NodeMode
  timeState : TimeState
  freeSlots : Nat
  freeSources : Nat
  bills : Nat
  deriving DecidableEq, Repr

/-- The record SOURCE STATUS returns (R50). The tick account is neither reported nor cleared. -/
structure SourceStatusData where
  id : SrcId
  bandwidth : Nat
  bucket : Nat
  refs : Nat
  watch : Watch
  expected : Seq
  resync : Bool
  tokens : Nat
  received : Word
  missing : Word
  late : Word
  excess : Word
  legCount : Nat
  legs : List Leg
  deriving DecidableEq, Repr

/-- The instants of a booking as NT values (R55). -/
structure Instants where
  effStart : Word
  prerollPoint : Word
  plannedEnd : Word
  windowEnd : Word
  deriving DecidableEq, Repr

/-- The value TARIFF CHECK reports the table to hold for a differing field (R135). -/
inductive TariffValue
  | blank
  | setClass
  | num (n : Nat)
  | roundUp (up : Bool)
  deriving DecidableEq, Repr

/-- The waiter a BILL RELEASE wrote (R152). -/
structure WrittenWaiter where
  slot : Nat
  ref : Word
  outcome : BillOutcome
  seq : Word
  deriving DecidableEq, Repr

/-- The result data of an answer, by the named fields its chapter gives. -/
inductive AnswerData
  | empty
  | identify (d : IdentifyData)
  | nodeMode (m : NodeMode)
  | notFree (m : NodeMode) (slots bills : Nat)
  | threshold (v : Clamped)
  | route (entry : Nat) (r : Option Route)
  | trafficCleared (aborted freed written waiters : Nat)
  | portState (p : Port) (st : PortState)
  | portStatus (d : PortStatusData)
  | portCapacity (v : Clamped)
  | overCapacity (p : Port) (instant : Word) (load : Nat)
  | timeSource (sel : Option Port) (st : TimeState)
  | timeSet (nt : Word) (st : TimeState)
  | timePolicy (p : StepPolicy)
  | timeStatus (d : TimeStatusData)
  | sourceStatus (d : SourceStatusData)
  | watch (target : Option SrcId) (f c d : Clamped)
  | badField (f : FieldName)
  | heldBy (slot : Nat)
  | otherBandwidth (src : SrcId) (bandwidth : Nat)
  | sourceRecords (needed free : Nat)
  | conflictWith (ref : Word) (slot : Nat) (pair : Pair)
  | overLegs (src : SrcId) (instant : Word) (count : Nat)
  | booked (slot : Nat) (effStart plannedEnd windowEnd : Word) (preroll holdOff wtr : Nat)
  | modified (slot : Nat) (replaced : Bool) (plannedEnd windowEnd : Word)
  | cancelled
  | cancelledLate (seq : Option Word)
  | endPending (st : BookingState)
  | selector (req : Request) (pos : Position) (holdOff wtr : Option Nat)
  | freeSlot
  | booking (slot : Nat) (b : Booking) (at_ : Instants)
  | group (st : GroupState) (held : Nat)
  | tariffWritten (cls : Nat) (t : Tariff)
  | tariffLock (locked : Bool)
  | tariff (cls : Nat) (t : Option Tariff) (locked : Bool)
  | checkMatch (locked : Bool)
  | checkMismatch (cls : Nat) (f : FieldName) (v : TariffValue) (locked : Bool)
  | bill (count waiters : Nat) (next : Word) (r : BillRec)
  | noBill (count waiters : Nat)
  | oldest (seq : Option Word) (count waiters : Nat)
  | released (seq : Word) (count : Nat) (oldest : Option Word) (written : Option WrittenWaiter) (waiters : Nat)
  deriving DecidableEq, Repr

/-- An answer as the Order Engine builds it: header fields and common fields (R163), and the result data. -/
structure Answer where
  dest : BitVec 10
  origin : BitVec 10
  ctrl : Byte
  tag : BitVec 16
  code : BitVec 16
  result : Result
  freeSlots : Nat
  hold : Bool
  data : AnswerData
  deriving DecidableEq, Repr

/-- The content of a notice, by the named fields its chapter gives (R15, R31, R96, R97, R114, R128, R154). -/
inductive NoticeContent
  | portState (p : Port) (old new : PortState) (line : LineCond) (cause : PortCause)
  | timeState (old new : TimeState) (cause : TimeCause) (nt : Word) (sel : Option Port)
  | timeStep (disp : StepDisposition) (difference value nt : Word) (sel : Option Port) (stepCount : Word)
  | sourceState (src : SrcId) (old new : WatchState) (cause : WatchCause) (nt : Word) (silentRun goodRun : Nat)
      (lastErrored : Option Nat) (failures degradations : Word)
  | bookingLive (slot : Nat) (ref : Word) (account : BitVec 16) (nt : Word) (pos : Position) (src : SrcId)
      (noTariff : Bool) (cuts : Nat) (st : BookingState)
  | bookingEnded (slot : Nat) (ref : Word) (account : BitVec 16) (outcome : BillOutcome) (endNt : Word)
      (total : Nat) (seq : Option Word)
  | selectorSwitch (slot : Nat) (ref : Word) (account : BitVec 16) (nt : Word) (old new : Position)
      (cause : SwitchCause) (src : SrcId) (mainState : WatchState) (spareState : WatchState) (cuts : Nat)
      (switches forced : Nat)
  | billLevel (count : Nat) (oldest newest : Word) (waiters : Nat)
  | billFull (count : Nat) (oldest newest : Word) (waiters : Nat)
  deriving DecidableEq, Repr

/-- A notice in the notice queue: NT when it was raised (R172) and its content, fixed at the raising (R165). -/
structure Notice where
  nt : Word
  content : NoticeContent
  deriving DecidableEq, Repr

/-- A notice as appended to a management egress queue (R165). -/
structure NoticeCell where
  dest : BitVec 10
  origin : BitVec 10
  ctrl : Byte
  discarded : Nat
  notice : Notice
  deriving DecidableEq, Repr

/-- A cell in a management egress queue: an answer or a notice with its management sequence (R1), or a forwarded cell
with the label, sequence and payload it arrived with (R158). -/
inductive MgmtCell
  | answer (seq : Seq) (a : Answer)
  | notice (seq : Seq) (n : NoticeCell)
  | forwarded (c : Cell)
  deriving DecidableEq, Repr

/-- What a port put on its line: a management cell, a feed copy, or an idle cell (R14). -/
inductive LineCell
  | mgmt (m : MgmtCell)
  | feed (c : Cell)
  | idle
  deriving DecidableEq, Repr

/-! ## The port record and the order engine's records -/

/-- A port record of the Port Unit (1.3 to 1.8). `failRun` is the run of consecutive failing cells (R3); `lineOut` is the
cell most recently put on the send side (R14). -/
structure PortRec where
  state : PortState
  line : LineCond
  failRun : Nat
  capacity : Nat
  mgmtQ : List MgmtCell
  feedQ : List Cell
  mgmtSeq : Seq
  headerErrors : Word
  unbooked : Word
  lineOut : Option LineCell
  deriving DecidableEq, Repr

/-- An order in the order queue: the order cell and its arrival port (R161). -/
structure Order where
  arrival : Port
  cell : Cell
  deriving DecidableEq, Repr

/-- The field changes a MODIFY carries, before the range checks of R68: port and label bytes and values as carried. -/
structure Change where
  start : Option Word
  main : Option (Byte × Byte)
  group : Option Nat
  preroll : Option Nat
  account : Option (BitVec 16)
  tariffClass : Option Nat
  duration : Option Nat
  allowance : Option Nat
  extend : Option Bool
  adds : Option (List (Byte × Byte))
  drops : Option (List (Byte × Byte))
  spare : Option (Option (Byte × Byte))
  revertive : Option Bool
  switchOnDegrade : Option Bool
  holdOff : Option Nat
  wtr : Option Nat
  deriving DecidableEq, Repr

/-- The candidate of an admission computation: a BOOK's booking, or a MODIFY of the booking in a slot with the record
the candidate was built from (R60, R64). -/
inductive JobKind
  | book (ref : Word) (f : Fields)
  | modify (slot : Nat) (c : Change) (m : Mod) (built : Booking)
  deriving DecidableEq, Repr

/-- An order in hand whose admission computation runs (R64): the order, NT at its taking, and how far the computation
has read the booking table: the slots below `nextSlot`, as they stood when it reached them. -/
structure Job where
  order : Order
  nt : Word
  kind : JobKind
  nextSlot : Nat
  read : List (Nat × Booking)
  deriving DecidableEq, Repr

/-- The state of the Order Engine's work (R162). -/
inductive Engine
  | ready
  | working (j : Job)
  | answerWait (p : Port) (a : Answer)
  deriving DecidableEq, Repr

/-- The controller record (R164). -/
structure Controller where
  port : Port
  id : Byte
  origin : BitVec 10
  deriving DecidableEq, Repr

end Sys2Proof.Machine
end

