-- ==== Sys2Proof/Config.lean ====
section
/-! DEFINITION. What the part fixes (sizes, codes, reset values), and the free values: constants with no body for what
the manual leaves open (assumption log 2 and 3). -/

namespace Sys2Proof.Config

open Sys2Proof.Machine

/-- Places in a management egress queue (1.6). -/
abbrev mgmtPlaces : Nat := 64

/-- Places in a feed egress queue (1.6). -/
abbrev feedPlaces : Nat := 2048

/-- The most a port's capacity can be, and its default (R11, R17). -/
abbrev capacityMax : Nat := 48000

/-- Places in the order queue (R161). -/
abbrev orderPlaces : Nat := 16

/-- Places in the notice queue (R165). -/
abbrev noticePlaces : Nat := 32

/-- Bill records the Bill Queue holds (R146). -/
abbrev billPlaces : Nat := 64

/-- Slots of the booking table (R52). -/
abbrev slots : Nat := 512

/-- Records of the source table (R33). -/
abbrev sourceRecords : Nat := 512

/-- Legs a leg list holds (R44). -/
abbrev legPlaces : Nat := 16

/-- Charge is counted in this many parts of a unit (chapter 8). -/
abbrev unitParts : Nat := 360000

/-- The grace at which every outage tick is charged (R130, R140). -/
abbrev graceAll : Nat := 65535

/-- The time between local ticks, in ms (R21). -/
abbrev localPeriod : Nat := 10

/-- The time from a tick made by a time cell to the time-cell deadline, in ms (2.1). -/
abbrev deadlineAfter : Nat := 15

/-- Consecutive failing cells that lose delineation (R3). -/
abbrev failRunLimit : Nat := 16

/-- What IDENTIFY reports (00_scope.md, "Identification"; R166). -/
abbrev vendorCode : BitVec 16 := 0xB2C7#16
abbrev partCode : BitVec 16 := 0x0C16#16
abbrev revision : Nat := 3

/-- The watch defaults after hard reset (R100). -/
abbrev watchDefaults : WatchParams := ⟨5, 100, 10⟩

/-- The hold threshold after hard reset and after MANAGEMENT RESTART (R163). -/
abbrev holdDefault : Nat := 12

/-- FREE VALUE (assumption log 2). Whether the PORT_STATE notice of a port entering DARK enters the notice queue before
the SOURCE_STATE notices of its sources: R112 says that they "may reach the notice queue in either order". Applied to
the state's counter of free values read. -/
opaque portStateFirst : Nat → Bool

/-- FREE VALUE (assumption log 3). The bytes of an answer's result data from parameter byte 4 on, for every answer but
BILL READ's: the manual lays out no others (00_scope.md, "Layouts"). -/
opaque answerBytes : AnswerData → List Byte

/-- FREE VALUE (assumption log 3). The bytes of a notice's content from parameter byte 6 on: R172 lays out only the
common fields. -/
opaque noticeBytes : NoticeContent → List Byte

end Sys2Proof.Config
end

