-- ==== Sys2Proof/Machine/State.lean ====
section
/-! DEFINITION. The state of the CX-16, block by block, the reasons a step can stop, and the state after hard reset. -/

namespace Sys2Proof.Machine

/-- The Time Unit record (2.1). NT is valid in every time state but FREE, so validity is not held apart. `nextLocal` is
the instant of the next local tick, absent while the schedule is stopped; `deadline` is the time-cell deadline. Both are
instants of the REFCLK clock `State.now`, in ms. -/
structure TimeUnit where
  nt : Word
  state : TimeState
  selection : Option Port
  policy : StepPolicy
  stepCount : Word
  lastRefused : Option Word
  stepMark : Bool
  nextLocal : Option Nat
  deadline : Option Nat
  deriving DecidableEq, Repr

/-- The tariff table: 32 classes, absent when BLANK, and the lock (R130). -/
structure TariffTable where
  classes : Vector (Option Tariff) 32
  locked : Bool
  deriving DecidableEq, Repr

/-- The Bill Queue: its records, oldest first, and the next bill sequence number (R146). -/
structure BillQueue where
  records : List BillRec
  next : Word
  deriving DecidableEq, Repr

/-- The Order Engine (chapter 10). `restart` is set from the taking of a MANAGEMENT RESTART until the restart has acted
(R169). -/
structure OrderEngine where
  engine : Engine
  restart : Bool
  orders : List Order
  notices : List Notice
  discarded : Nat
  holdThreshold : Nat
  mode : NodeMode
  controller : Option Controller
  routes : Vector (Option Route) 16
  address : Nat
  strapFault : Bool
  deriving DecidableEq, Repr

/-- The whole part. Source and booking tables list only the records in use, by rising key: `srcKey` for a source, the slot
number for a booking. -/
structure State where
  /-- The commands waiting, first in, first out (the model's own). -/
  pending : List Instr
  /-- RESET is asserted (R17). -/
  inReset : Bool
  /-- The REFCLK clock in ms, against which the Time Unit's instants are set (the model's own; assumption log 4). -/
  now : Nat
  /-- How many free values have been read (the model's own; assumption log 2). -/
  freeRead : Nat
  /-- The sixteen port records (chapter 1). -/
  ports : Vector PortRec 16
  /-- The Time Unit (chapter 2). -/
  time : TimeUnit
  /-- Ticks handed to the Source Unit that it has not taken yet (R19). -/
  refillTicks : List Tick
  /-- Ticks handed to the Booking Engine that it has not taken yet (R19). -/
  bookingTicks : List Tick
  /-- The source table, which is the ingress map too (R33, R35, 3.2). -/
  sources : List (Nat × Source)
  /-- The watch defaults (R100). -/
  defaults : WatchParams
  /-- The booking table: the slots that are not FREE (R52). -/
  bookings : List (Nat × Booking)
  /-- The 32 start groups; group g at place g − 1 (R74). -/
  groups : Vector Group 32
  /-- The tariff table and lock (R130). -/
  tariffs : TariffTable
  /-- The Bill Queue (R146). -/
  bills : BillQueue
  /-- The Order Engine (chapter 10). -/
  mgmt : OrderEngine
  deriving DecidableEq, Repr

/-- The machine never stops with a fault: the manual gives the part's behaviour under any orders and events
(00_scope.md, "Scope of this manual"), so no constructor is needed. -/
inductive Fault
  deriving DecidableEq, Repr

/-- The reasons a step refuses a command. -/
inductive Refusal
  /-- Raised by an arm of exec whose command has no meaning yet; safe. No arm raises it. -/
  | notModelled (mnemonic : String)
  deriving DecidableEq, Repr

/-- A port after hard reset, by whether its receiver reports light (R17). -/
def resetPort (light : Bool) : PortRec :=
  { state := if light then .enabled else .dark .enabled
    line := if light then .searching else .noLight
    failRun := 0
    capacity := Config.capacityMax
    mgmtQ := []
    feedQ := []
    mgmtSeq := 0
    headerErrors := 0
    unbooked := 0
    lineOut := none }

/-- A strap value from 1 to 1,000 is a valid address (R157). -/
def strapValid (straps : BitVec 10) : Bool := 1 ≤ straps.toNat && straps.toNat ≤ 1000

/-- The state after the release of RESET, from the straps and the light at the release, with no command waiting (R17,
R32, R51, R52, R74, R100, R115, R130, R155, R157, R171). -/
def State.hardReset (straps : BitVec 10) (light : BitVec 16) : State :=
  { pending := []
    inReset := false
    now := 0
    freeRead := 0
    ports := Vector.ofFn fun p => resetPort (light.getLsbD p.val)
    time :=
      { nt := 0
        state := .free
        selection := none
        policy := .refuse
        stepCount := 0
        lastRefused := none
        stepMark := false
        nextLocal := some Config.localPeriod
        deadline := none }
    refillTicks := []
    bookingTicks := []
    sources := []
    defaults := Config.watchDefaults
    bookings := []
    groups := Vector.replicate 32 ⟨.opened, 0⟩
    tariffs := ⟨Vector.replicate 32 none, false⟩
    bills := ⟨[], 1⟩
    mgmt :=
      { engine := .ready
        restart := false
        orders := []
        notices := []
        discarded := 0
        holdThreshold := Config.holdDefault
        mode := .commissioning
        controller := none
        routes := Vector.replicate 16 none
        address := if strapValid straps then straps.toNat else 1000
        strapFault := !strapValid straps } }

/-- The machine right after hard reset. The straps and the light are pins: this state takes straps of 1 and light on
every port (DESIGN CHOICE, assumption log 5). -/
def State.reset : State := State.hardReset 1#10 0xFFFF#16

end Sys2Proof.Machine
end

