-- ==== Sys2Proof/Machine/Ops.lean ====
section
/-! DEFINITION. The named operations over the state that the blocks share: serial time, the two sparse tables, the ports and
their queues, the notice queue, sources and their leg requests, and bookings. -/

namespace Sys2Proof.Machine

/-! ## Serial time (R20) -/

/-- `t` is reached at `nt`: (NT − t) mod 2^32 is less than 2^31 (R20). -/
def reached (nt t : Word) : Bool := (nt - t).toNat < 2 ^ 31

/-- The ticks until `t` at `nt`: (t − NT) mod 2^32, read signed (R20). -/
def ticksUntil (nt t : Word) : Int := (t - nt).toInt

/-- NT is valid in every time state but FREE (2.1). -/
def State.ntValid (s : State) : Bool := s.time.state != .free

/-! ## Sparse tables: lists of key and record by strictly rising key -/

/-- The record under a key. -/
def tabFind {α : Type} : List (Nat × α) → Nat → Option α
  | [], _ => none
  | (j, x) :: r, k => if j = k then some x else tabFind r k

/-- The table with the record under a key set. -/
def tabPut {α : Type} : List (Nat × α) → Nat → α → List (Nat × α)
  | [], k, x => [(k, x)]
  | (j, y) :: r, k, x =>
    if k < j then (k, x) :: (j, y) :: r else if k = j then (k, x) :: r else (j, y) :: tabPut r k x

/-- The table without the record under a key. -/
def tabDel {α : Type} (t : List (Nat × α)) (k : Nat) : List (Nat × α) := t.filter fun e => e.1 != k

/-! ## The notice queue (R165) -/

/-- Raise a notice: appended while the queue holds fewer than 32, else discarded and counted, the count saturating at
65,535 (R165). -/
def State.raise (s : State) (c : NoticeContent) : State :=
  if s.mgmt.notices.length < Config.noticePlaces then
    { s with mgmt.notices := s.mgmt.notices ++ [⟨s.time.nt, c⟩] }
  else
    { s with mgmt.discarded := min (s.mgmt.discarded + 1) 65535 }

/-! ## Ports and their queues (chapter 1) -/

def State.port (s : State) (p : Port) : PortRec := s.ports[p]

def State.setPort (s : State) (p : Port) (r : PortRec) : State := { s with ports := s.ports.set p r }

/-- Every port's record is changed alike. -/
def State.mapPorts (s : State) (f : PortRec → PortRec) : State := { s with ports := Vector.ofFn fun p => f s.ports[p] }

def PortRec.isDark (r : PortRec) : Bool :=
  match r.state with
  | .dark _ => true
  | _ => false

/-- A DARK port's management queue takes no cell; any other takes one while it holds fewer than 64 (R10, R13). -/
def PortRec.mgmtRoom (r : PortRec) : Bool := !r.isDark && r.mgmtQ.length < Config.mgmtPlaces

/-- Append an answer or notice the part originates: it takes the port's management sequence, which advances by one (R1). -/
def State.appendOwn (s : State) (p : Port) (c : Seq → MgmtCell) : State :=
  let r := s.port p
  s.setPort p { r with mgmtQ := r.mgmtQ ++ [c r.mgmtSeq], mgmtSeq := r.mgmtSeq + 1 }

/-- Offer a forwarded cell: appended where there is room, else discarded (R10, R13, R158). -/
def State.offerForward (s : State) (p : Port) (c : Cell) : State :=
  let r := s.port p
  if r.mgmtRoom then s.setPort p { r with mgmtQ := r.mgmtQ ++ [.forwarded c] } else s

/-- A port's state changes, with its PORT_STATE notice (R15). -/
def State.changePort (s : State) (p : Port) (new : PortState) (cause : PortCause) : State :=
  let r := s.port p
  (s.setPort p { r with state := new }).raise (.portState p r.state new r.line cause)

/-- A DRAINING port whose feed queue has become empty becomes DISABLED, with cause DRAINED (R7). -/
def State.drainIfEmpty (s : State) (p : Port) : State :=
  let r := s.port p
  if r.state = .draining ∧ r.feedQ = [] then s.changePort p .disabled .drained else s

/-- Count a feed cell that carries no booked traffic (R5). -/
def State.countUnbooked (s : State) (p : Port) : State :=
  let r := s.port p
  s.setPort p { r with unbooked := r.unbooked + 1 }

/-! ## Sources (chapter 3) -/

/-- The key of a source in the table: by port, then by label. -/
def srcKey (i : SrcId) : Nat := i.port.val * 256 + i.label.toNat

/-- The source the ingress map entry names (R35, R38). -/
def State.source (s : State) (i : SrcId) : Option Source := tabFind s.sources (srcKey i)

def State.setSource (s : State) (x : Source) : State := { s with sources := tabPut s.sources (srcKey x.id) x }

def State.delSource (s : State) (i : SrcId) : State := { s with sources := tabDel s.sources (srcKey i) }

/-- The watch state read for a source; a source that is not in the table reads as UNWATCHED (no booking names one). -/
def State.watchOf (s : State) (i : SrcId) : WatchState :=
  match s.source i with
  | some x => x.watch.state
  | none => .unwatched

/-- The bucket size B: the bandwidth plus the burst allowance (R37). -/
def bucket (bandwidth : Nat) : Nat := bandwidth + bandwidth / 4

/-- A source at its creation (R34, R99). -/
def newSource (i : SrcId) (bandwidth : Nat) (d : WatchParams) : Source :=
  { id := i
    bandwidth := bandwidth
    refs := 1
    watch := ⟨.unwatched, d, 0, 0, 0, 0, none, 0, 0, none⟩
    expected := 0
    resync := true
    arrivals := 0
    errored := false
    tokens := 0
    received := 0
    missing := 0
    late := 0
    excess := 0
    legs := []
    ticks := [] }

/-- A source's reference count gains 1; a source not in the table is created (R34, R35). -/
def State.gainRef (s : State) (bandwidth : Nat) (i : SrcId) : State :=
  match s.source i with
  | some x => s.setSource { x with refs := x.refs + 1 }
  | none => s.setSource (newSource i bandwidth s.defaults)

/-- A source's reference count loses 1; at 0 the source is freed in the same operation (R35, R36). -/
def State.loseRef (s : State) (i : SrcId) : State :=
  match s.source i with
  | some x => if x.refs ≤ 1 then s.delSource i else s.setSource { x with refs := x.refs - 1 }
  | none => s

/-- How many legs of a list are on a port. -/
def legsOn (p : Port) (ls : List Leg) : Nat := ls.countP fun l => l.pair.port == p

/-- How many pairs of a list are on a port. -/
def pairsOn (p : Port) (ps : List Pair) : Nat := ps.countP fun x => x.port == p

/-- The installed bandwidth of a port: over every leg on it, the bandwidth of the source owning its list (R11, R44). -/
def State.installed (s : State) (p : Port) : Nat := (s.sources.map fun e => e.2.bandwidth * legsOn p e.2.legs).sum

/-- A leg holds this pair, on whichever list (R44). -/
def State.pairHeld (s : State) (x : Pair) : Bool := s.sources.any fun e => e.2.legs.any fun l => l.pair == x

/-- The answer to an install or move request (section 3.5). -/
inductive ReqResult
  | taken | pairInUse | overCapacity | noRoom
  deriving DecidableEq, Repr

/-- A leg as it is installed (R43, R47). -/
def newLeg (slot : Nat) (x : Pair) : Leg := ⟨x, slot, 0, 0, 0⟩

/-- The check of an install request, in order (R47). A source that is not in the table has no place. -/
def State.installCheck (s : State) (i : SrcId) (ps : List Pair) : ReqResult :=
  match s.source i with
  | none => .noRoom
  | some x =>
    if ps.any s.pairHeld then .pairInUse
    else if ps.any fun q => (s.port q.port).capacity < s.installed q.port + x.bandwidth * pairsOn q.port ps then
      .overCapacity
    else if Config.legPlaces < x.legs.length + ps.length then .noRoom
    else .taken

/-- An install request: when TAKEN, a leg for each pair is appended in the order named (R47). -/
def State.install (s : State) (slot : Nat) (i : SrcId) (ps : List Pair) : State :=
  match s.installCheck i ps, s.source i with
  | .taken, some x => s.setSource { x with legs := x.legs ++ ps.map (newLeg slot) }
  | _, _ => s

/-- The wrapping sum of one counter over some legs (R48). -/
def sumLegs (f : Leg → Word) (ls : List Leg) : Word := (ls.map f).foldl (· + ·) 0

/-- A remove request for the legs of a booking on a source that `named` picks: the legs go, the others keep their order,
and the sums of the removed legs' sent and dropped counters are handed back (R48). -/
def State.removeLegs (s : State) (slot : Nat) (i : SrcId) (named : Pair → Bool) : State × Word × Word :=
  match s.source i with
  | none => (s, 0, 0)
  | some x =>
    let gone := x.legs.filter fun l => l.owner == slot && named l.pair
    let kept := x.legs.filter fun l => !(l.owner == slot && named l.pair)
    (s.setSource { x with legs := kept }, sumLegs Leg.sent gone, sumLegs Leg.dropped gone)

/-- A move request: refused with NO_ROOM when the target list holds more than 16 legs less the number moved; otherwise the
booking's legs leave the first list and are appended to the target list in their order, fields unchanged (R49). -/
def State.moveLegs (s : State) (slot : Nat) (src dst : SrcId) : ReqResult × State :=
  match s.source src, s.source dst with
  | some x, some y =>
    let moved := x.legs.filter fun l => l.owner == slot
    if Config.legPlaces < y.legs.length + moved.length then (.noRoom, s)
    else
      (.taken, (s.setSource { x with legs := x.legs.filter fun l => l.owner != slot }).setSource
        { y with legs := y.legs ++ moved })
  | _, _ => (.noRoom, s)

/-! ## Bookings (chapters 4 and 5) -/

/-- The booking in a slot; none when the slot is FREE. -/
def State.booking (s : State) (k : Nat) : Option Booking := tabFind s.bookings k

def State.setBooking (s : State) (k : Nat) (b : Booking) : State := { s with bookings := tabPut s.bookings k b }

/-- The slot becomes FREE. -/
def State.freeSlot (s : State) (k : Nat) : State := { s with bookings := tabDel s.bookings k }

/-- The slot and booking a reference names, among the slots that are not FREE (R52). -/
def State.byRef (s : State) (ref : Word) : Option (Nat × Booking) := s.bookings.find? fun e => e.2.ref == ref

/-- The lowest-numbered FREE slot, given the slots in use in rising order (R65). -/
def lowestFree : List Nat → Nat → Nat
  | [], n => n
  | k :: r, n => if k = n then lowestFree r (n + 1) else n

/-- The planned end of a booking (R55). -/
def Fields.plannedEnd (f : Fields) : Word := f.start + BitVec.ofNat 32 f.duration

/-- The window end of a booking (R55). -/
def Fields.windowEnd (f : Fields) : Word := f.plannedEnd + BitVec.ofNat 32 f.allowance

/-- The preroll point of a booking (R55). -/
def Fields.prerollPoint (f : Fields) : Word := f.start - BitVec.ofNat 32 f.preroll

def Fields.instants (f : Fields) : Instants := ⟨f.effStart, f.prerollPoint, f.plannedEnd, f.windowEnd⟩

/-- The fields with a modification's named fields changed (R66, R80). -/
def Mod.apply (m : Mod) (f : Fields) : Fields :=
  { f with
    start := (m.start.map Prod.fst).getD f.start
    effStart := (m.start.map Prod.snd).getD f.effStart
    main := m.main.getD f.main
    group := m.group.getD f.group
    preroll := m.preroll.getD f.preroll
    account := m.account.getD f.account
    tariffClass := m.tariffClass.getD f.tariffClass
    duration := m.duration.getD f.duration
    allowance := m.allowance.getD f.allowance
    extend := m.extend.getD f.extend
    legs := m.legs.getD f.legs
    spare := m.spare.getD f.spare
    revertive := m.revertive.getD f.revertive
    switchOnDegrade := m.switchOnDegrade.getD f.switchOnDegrade
    holdOff := m.holdOff.getD f.holdOff
    wtr := m.wtr.getD f.wtr }

/-- The sources the fields name: the main, then the spare if there is one (R35). -/
def Fields.named (f : Fields) : List SrcId := f.main :: f.spare.toList

/-- The sources a pending modification names (R35). -/
def Mod.named (m : Mod) : List SrcId := m.main.toList ++ (m.spare.getD none).toList

/-- The list with each entry once, in order of first appearance. -/
def once {α : Type} [DecidableEq α] (xs : List α) : List α :=
  xs.foldl (fun acc x => if x ∈ acc then acc else acc ++ [x]) []

/-- The sources a booking names, each once (R35). -/
def Booking.named (b : Booking) : List SrcId :=
  once (b.fields.named ++ (b.pending.map Mod.named).getD [])

/-- The selected source of a booking (R116). -/
def Booking.selected (b : Booking) : SrcId :=
  match b.position with
  | .onMain => b.fields.main
  | .onSpare => b.fields.spare.getD b.fields.main

/-- The sources move from one naming to another: gains first, then losses (R35). -/
def State.moveRefs (s : State) (bandwidth : Nat) (before after : List SrcId) : State :=
  let gained := (after.filter fun i => !before.contains i).foldl (State.gainRef · bandwidth ·) s
  (before.filter fun i => !after.contains i).foldl State.loseRef gained

/-- The place of a start group, 1 to 32, in the list of groups (R74). -/
def groupPlace (g : Nat) : Nat := g - 1

/-- The state of a booking's start group; 0 is no group (R53, R74). -/
def State.groupOf (s : State) (g : Nat) : Option Group := if g = 0 then none else s.groups[groupPlace g]?

/-- A start group is written. -/
def State.setGroup (s : State) (g : Nat) (x : Group) : State :=
  if g = 0 then s else { s with groups := s.groups.setIfInBounds (groupPlace g) x }

/-- A booking naming the group enters HELD (R74). -/
def State.joinGroup (s : State) (g : Nat) : State :=
  match s.groupOf g with
  | some x => s.setGroup g { x with held := x.held + 1 }
  | none => s

/-- A HELD booking naming the group leaves HELD; a RELEASING group whose count falls to 0 becomes OPEN (R74). -/
def State.leaveGroup (s : State) (g : Nat) : State :=
  match s.groupOf g with
  | some x =>
    let n := x.held - 1
    s.setGroup g ⟨if x.state = .releasing ∧ n = 0 then .opened else x.state, n⟩
  | none => s

end Sys2Proof.Machine
end

