-- ==== Sys2Proof/Machine/Flags.lean ====
section
/-! DEFINITION. The conditions the blocks read off the state: which bookings are live, running or reserve, which sources are
demanded, and how a selector judges its sources. -/

namespace Sys2Proof.Machine

/-- A booking in LIVE, OVERRUN or EXTENDED is called live (R77). -/
def BookingState.isLive : BookingState → Bool
  | .live | .overrun | .extended => true
  | _ => false

/-- A booking in HELD, LIVE, OVERRUN or EXTENDED is called running (R77). -/
def BookingState.isRunning : BookingState → Bool
  | .held | .live | .overrun | .extended => true
  | _ => false

/-- The states whose bookings demand their sources (R77, R78). -/
def BookingState.demands : BookingState → Bool
  | .preroll | .held | .live | .overrun | .extended => true
  | _ => false

/-- The states whose current fields hold a reservation (R55). -/
def BookingState.reserves : BookingState → Bool
  | .booked | .preroll | .held | .live | .overrun => true
  | _ => false

def BookingState.isEnded : BookingState → Bool
  | .ended _ => true
  | _ => false

/-- A source is demanded while a booking in a demanding state names it as main or spare in its record (R78). -/
def State.demanded (s : State) (i : SrcId) : Bool :=
  s.bookings.any fun e => e.2.state.demands && e.2.fields.named.contains i

/-- The main source is bad (R117). -/
def mainBad (switchOnDegrade : Bool) : WatchState → Bool
  | .failed => true
  | .degraded => switchOnDegrade
  | _ => false

/-- The spare source is usable (R117). -/
def spareUsable (switchOnDegrade : Bool) : WatchState → Bool
  | .failed => false
  | .degraded => !switchOnDegrade
  | _ => true

/-- The watch state of a booking's spare, if it has one. -/
def State.spareWatch (s : State) (f : Fields) : Option WatchState := f.spare.map s.watchOf

/-- The condition for failure: the main is bad and there is a usable spare (R117, R118, R120). -/
def State.failureCondition (s : State) (f : Fields) : Bool :=
  mainBad f.switchOnDegrade (s.watchOf f.main)
    && (match s.spareWatch f with
      | some w => spareUsable f.switchOnDegrade w
      | none => false)

/-- The bookings in ENDED, the Bill Queue's waiters (R146). -/
def State.waiters (s : State) : Nat := s.bookings.countP fun e => e.2.state.isEnded

/-- The occupancy of the order queue (R161). -/
def State.occupancy (s : State) : Nat := s.mgmt.orders.length

/-- HOLD is set when the occupancy is at least the hold threshold (R163). -/
def State.hold (s : State) : Bool := s.mgmt.holdThreshold ≤ s.occupancy

end Sys2Proof.Machine
end

