-- ==== Sys2Proof/Machine/Layout.lean ====
section
/-! DEFINITION. The byte layouts of R172: the cell header with its check, the management cell header, the common fields of
answers and notices, and the bill record. Every field is sent most significant byte first. -/

namespace Sys2Proof.Machine

/-! ## Reading bytes -/

/-- The byte at a position, 0 past the end. -/
def byteAt (bs : List Byte) (i : Nat) : Byte := bs.getD i 0#8

/-- Two bytes, most significant first (R172). -/
def word16 (bs : List Byte) (i : Nat) : BitVec 16 := byteAt bs i ++ byteAt bs (i + 1)

/-- Four bytes, most significant first (R172). -/
def word32 (bs : List Byte) (i : Nat) : Word := word16 bs i ++ word16 bs (i + 2)

/-- A yes-or-no byte holds 0 or 1 (R172). -/
def isYesNo (b : Byte) : Bool := b == 0#8 || b == 1#8

/-- A yes-or-no byte that is known to hold 0 or 1. -/
def isYes (b : Byte) : Bool := b == 1#8

/-! ## Writing bytes -/

def bytes16 (x : BitVec 16) : List Byte := [x.extractLsb' 8 8, x.extractLsb' 0 8]

def bytes32 (x : Word) : List Byte := bytes16 (x.extractLsb' 16 16) ++ bytes16 (x.extractLsb' 0 16)

def nat8 (n : Nat) : List Byte := [BitVec.ofNat 8 n]
def nat16 (n : Nat) : List Byte := bytes16 (BitVec.ofNat 16 n)
def nat32 (n : Nat) : List Byte := bytes32 (BitVec.ofNat 32 n)

/-- The list cut or filled with zeros to `n` bytes. -/
def padTo (n : Nat) (bs : List Byte) : List Byte := (bs ++ List.replicate n 0#8).take n

/-! ## The cell header (R1, R2, R172) -/

/-- One bit of the check: the generator is x^8 + x^7 + x^6 + x^4 + x^2 + 1 (R2). -/
def crcBit (c : Byte) : Byte := if c.msb then (c <<< 1) ^^^ 0xD5#8 else c <<< 1

/-- One byte of the check, most significant bit first (R2). -/
def crcByte (c b : Byte) : Byte :=
  crcBit (crcBit (crcBit (crcBit (crcBit (crcBit (crcBit (crcBit (c ^^^ b))))))))

/-- The header check over three header bytes, the register starting at zero and not inverted at the end (R2). -/
def headerCheck (b0 b1 b2 : Byte) : Byte := crcByte (crcByte (crcByte 0#8 b0) b1) b2

/-- The arriving cell passes the header check (R2). -/
def checkPasses (bytes : List Byte) : Bool :=
  headerCheck (byteAt bytes 0) (byteAt bytes 1) (byteAt bytes 2) == byteAt bytes 3

/-- The fields of an arriving cell: label, sequence (bits 11–4 in byte 1, bits 3–0 in the top of byte 2), payload. The spare
bits are ignored (R1, R172). -/
def cellOf (bytes : List Byte) : Cell :=
  { label := byteAt bytes 0
    seq := byteAt bytes 1 ++ (byteAt bytes 2).extractLsb' 4 4
    payload := (bytes.drop 4).take 252 }

/-- The 256 bytes of a sent cell: the spare bits are 0 and the check is computed afresh (R1, R172). -/
def cellBytes (c : Cell) : List Byte :=
  let b1 : Byte := c.seq.extractLsb' 4 8
  let b2 : Byte := (c.seq.extractLsb' 0 4 : BitVec 4) ++ 0#4
  [c.label, b1, b2, headerCheck c.label b1 b2] ++ padTo 252 c.payload

/-- The value V of a time cell, payload bytes 0 to 3 (R172). -/
def timeValue (c : Cell) : Word := word32 c.payload 0

/-! ## The management cell header (R156, R172) -/

/-- The type field of a management cell (R156). -/
inductive CellType
  | order | answer | notice | none
  deriving DecidableEq, Repr

/-- The destination node, carried as 1,023 less the address (R172). -/
def destOf (c : Cell) : Nat := 1023 - ((word16 c.payload 0).extractLsb' 0 10 : BitVec 10).toNat
def originOf (c : Cell) : BitVec 10 := (word16 c.payload 2).extractLsb' 0 10
def ctrlOf (c : Cell) : Byte := byteAt c.payload 4
def hopOf (c : Cell) : BitVec 4 := (byteAt c.payload 5).extractLsb' 4 4

def typeOf (c : Cell) : CellType :=
  let t : BitVec 2 := (byteAt c.payload 5).extractLsb' 2 2
  if t = 0#2 then .order else if t = 1#2 then .answer else if t = 2#2 then .notice else .none

def tagOf (c : Cell) : BitVec 16 := word16 c.payload 6
def codeOf (c : Cell) : BitVec 16 := word16 c.payload 8
def lengthOf (c : Cell) : Nat := (byteAt c.payload 10).toNat
def paramsOf (c : Cell) : List Byte := c.payload.drop 12

/-- The cell with its hop limit decreased by 1 and every other field as it arrived (R158). -/
def hopDown (c : Cell) : Cell :=
  { c with payload := c.payload.set 5 ((hopOf c - 1#4) ++ ((byteAt c.payload 5).extractLsb' 0 4 : BitVec 4)) }

/-! ## Codes (R172) -/

/-- The orders of the code table (R172). -/
inductive OrderKind
  | identify | setMode | managementRestart | setHoldThreshold | setRoute | clearTraffic
  | portEnable | portDisable | portStatus | portCapacity
  | timeSource | timeSet | timePolicy | timeStatus
  | sourceStatus | sourceWatch
  | book | modify | cancel | endBooking | select | bookingRead | groupHold | groupRelease
  | tariffWrite | tariffLock | tariffClearAll | tariffRead | tariffCheck
  | billRead | billRelease
  deriving DecidableEq, Repr

/-- The code of an order (R172). -/
def OrderKind.code : OrderKind → BitVec 16
  | .identify => 0x0001#16
  | .setMode => 0x0002#16
  | .managementRestart => 0x0003#16
  | .setHoldThreshold => 0x0004#16
  | .setRoute => 0x0005#16
  | .clearTraffic => 0x0006#16
  | .portEnable => 0x0010#16
  | .portDisable => 0x0011#16
  | .portStatus => 0x0012#16
  | .portCapacity => 0x0013#16
  | .timeSource => 0x0020#16
  | .timeSet => 0x0021#16
  | .timePolicy => 0x0022#16
  | .timeStatus => 0x0023#16
  | .sourceStatus => 0x0030#16
  | .sourceWatch => 0x0031#16
  | .book => 0x0040#16
  | .modify => 0x0041#16
  | .cancel => 0x0042#16
  | .endBooking => 0x0043#16
  | .select => 0x0044#16
  | .bookingRead => 0x0045#16
  | .groupHold => 0x0046#16
  | .groupRelease => 0x0047#16
  | .tariffWrite => 0x0050#16
  | .tariffLock => 0x0051#16
  | .tariffClearAll => 0x0052#16
  | .tariffRead => 0x0053#16
  | .tariffCheck => 0x0054#16
  | .billRead => 0x0060#16
  | .billRelease => 0x0061#16

/-- All the orders of the code table (R172). -/
def OrderKind.all : List OrderKind :=
  [.identify, .setMode, .managementRestart, .setHoldThreshold, .setRoute, .clearTraffic, .portEnable, .portDisable,
    .portStatus, .portCapacity, .timeSource, .timeSet, .timePolicy, .timeStatus, .sourceStatus, .sourceWatch, .book,
    .modify, .cancel, .endBooking, .select, .bookingRead, .groupHold, .groupRelease, .tariffWrite, .tariffLock,
    .tariffClearAll, .tariffRead, .tariffCheck, .billRead, .billRelease]

/-- The code is one of the order table's (R172). -/
def knownCode (code : BitVec 16) : Bool := OrderKind.all.any fun k => k.code == code

/-- The four orders of the broadcast set (R159). -/
def inBroadcastSet (code : BitVec 16) : Bool :=
  code == OrderKind.timeSet.code || code == OrderKind.setMode.code || code == OrderKind.groupHold.code
    || code == OrderKind.groupRelease.code

/-- The result field of an answer (R172). -/
def resultCode : Result → Nat
  | .done => 0
  | .queueFull => 1
  | .format => 2
  | .mode => 3
  | .range => 4
  | .state => 5
  | .unknown => 6
  | .duplicateRef => 7
  | .bandwidthMismatch => 8
  | .noSlot => 9
  | .noSourceSlot => 10
  | .conflict => 11
  | .capacity => 12
  | .legLimit => 13
  | .locked => 14
  | .notOldest => 15

/-- The code of a notice's kind (R172). -/
def noticeCode : NoticeContent → BitVec 16
  | .portState .. => 0x0101#16
  | .timeState .. => 0x0102#16
  | .timeStep .. => 0x0103#16
  | .sourceState .. => 0x0104#16
  | .bookingLive .. => 0x0105#16
  | .bookingEnded .. => 0x0106#16
  | .selectorSwitch .. => 0x0107#16
  | .billLevel .. => 0x0108#16
  | .billFull .. => 0x0109#16

/-- The outcome byte of a bill record (R172). -/
def outcomeCode : BillOutcome → Nat
  | .endedByOrder => 1
  | .endedAtLimit => 2
  | .cut => 3
  | .cancelledLate => 4
  | .aborted => 5

/-! ## Cells the part originates (R163, R165, R172) -/

/-- The twelve header bytes of a management cell the part originates, with hop limit 15 (R163, R165). -/
def mgmtHeader (dest origin : BitVec 10) (ctrl : Byte) (type : BitVec 2) (tag code : BitVec 16) (len : Nat) :
    List Byte :=
  bytes16 ((~~~dest).setWidth 16) ++ bytes16 (origin.setWidth 16)
    ++ [ctrl, (15#4 ++ type ++ 0#2 : BitVec 8)] ++ bytes16 tag ++ bytes16 code ++ nat8 len ++ [0#8]

/-- The flags byte of a bill record: bits 0 to 5 (R172). DESIGN CHOICE: bits 6 and 7, of which R172 says nothing, are sent as 0
(assumption log 41). -/
def flagBits (b : Bill) : Nat :=
  b.noTariff.toNat + 2 * b.saturated.toNat + 4 * b.timeStepped.toNat + 8 * b.minimumApplied.toNat
    + 16 * b.early.toNat + 32 * b.firstLive.isSome.toNat

/-- The 80 bytes of a bill record (R172). -/
def billBytes (r : BillRec) : List Byte :=
  let b := r.bill
  bytes32 r.seq ++ bytes32 b.ref ++ bytes16 b.account ++ nat8 b.cls ++ nat8 (outcomeCode b.outcome)
    ++ nat8 (flagBits b) ++ nat8 b.round ++ [0#8, 0#8]
    ++ bytes32 (b.firstLive.getD 0) ++ bytes32 b.endNt ++ nat32 b.held ++ nat32 b.scheduled ++ nat32 b.overrun
    ++ nat32 b.extended ++ nat32 b.outage ++ nat32 b.credited ++ nat32 b.degraded ++ nat32 b.uBase ++ nat32 b.uOver
    ++ nat32 b.total ++ nat32 b.switches ++ nat32 b.forced ++ bytes32 b.delivered ++ bytes32 b.dropped

/-- The result data of an answer: laid out by R172 for BILL READ; none where the order returns nothing; otherwise a free
value, since the manual lays out no other answer. That BILL READ's layout places the count and the waiters of its UNKNOWN refusal
too (R151) is read from R172 (DEDUCED, assumption log 3). -/
def answerDataBytes : AnswerData → List Byte
  | .empty => []
  | .bill count waiters next r => nat16 count ++ nat16 waiters ++ bytes32 next ++ billBytes r
  | .noBill count waiters => nat16 count ++ nat16 waiters
  | d => (Config.answerBytes d).take 236

/-- The parameters of an answer: the common fields, then the result data (R163, R172). -/
def answerParams (a : Answer) : List Byte :=
  nat16 (resultCode a.result) ++ nat8 a.freeSlots ++ nat8 a.hold.toNat ++ answerDataBytes a.data

/-- The parameters of a notice: the common fields, then its content (R165, R172). -/
def noticeParams (n : NoticeCell) : List Byte :=
  nat16 n.discarded ++ bytes32 n.notice.nt ++ (Config.noticeBytes n.notice.content).take 234

/-- The cell a management queue entry is sent as (R1, R163, R165, R172). DESIGN CHOICE: the payload bytes of an answer or a notice past
its parameter length are 0; R156 and R172 do not say what they hold (assumption log 30). -/
def MgmtCell.toCell : MgmtCell → Cell
  | .answer seq a =>
    let ps := answerParams a
    ⟨0#8, seq, padTo 252 (mgmtHeader a.dest a.origin a.ctrl 1#2 a.tag a.code ps.length ++ ps)⟩
  | .notice seq n =>
    let ps := noticeParams n
    ⟨0#8, seq, padTo 252
      (mgmtHeader n.dest n.origin n.ctrl 2#2 0#16 (noticeCode n.notice.content) ps.length ++ ps)⟩
  | .forwarded c => c

/-- The 256 bytes a port puts on its line. An idle cell has label 0, sequence 0, a zero payload and a correct check
(R14). -/
def LineCell.bytes : LineCell → List Byte
  | .mgmt m => cellBytes m.toCell
  | .feed c => cellBytes c
  | .idle => cellBytes ⟨0#8, 0#12, []⟩

end Sys2Proof.Machine
end

