-- ==== Sys2Proof/Machine/Engine.lean ====
section
/-! DEFINITION. The Order Engine's own work: disposing of arriving management cells, the order queue, taking orders and
answering them, and delivering notices (chapter 10). -/

namespace Sys2Proof.Machine

/-- A command's effect, while RESET is not asserted. While it is, the part takes no cells, sends none and makes no tick
(R17), so nothing changes. Every command but the two of RESET itself is run through this one, and none ever stops. -/
def State.awake (s : State) (f : State → State) : Host.Outcome State Fault Refusal :=
  .next (if s.inReset then s else f s)

/-! ## Answers (R162, R163) -/

def Engine.isReady : Engine → Bool
  | .ready => true
  | _ => false

def Engine.isWaiting : Engine → Bool
  | .answerWait _ _ => true
  | _ => false

/-- An order is a broadcast when its destination is node 0 (R159). -/
def Order.broadcast (o : Order) : Bool := destOf o.cell == 0

/-- The answer to an order, with its header and common fields; the occupancy is read when the answer is built (R163). -/
def State.answerTo (s : State) (o : Order) (r : Result) (d : AnswerData) : Answer :=
  { dest := originOf o.cell
    origin := BitVec.ofNat 10 s.mgmt.address
    ctrl := ctrlOf o.cell
    tag := tagOf o.cell
    code := codeOf o.cell
    result := r
    freeSlots := Config.orderPlaces - s.occupancy
    hold := s.hold
    data := d }

def State.setEngine (s : State) (e : Engine) : State := { s with mgmt.engine := e }

/-- An order's work completes: no answer for a broadcast; otherwise the answer is built and offered to the arrival port:
discarded when that port is DARK, appended where there is room, else it waits (R10, R13, R162). -/
def State.finish (s : State) (o : Order) (r : Result) (d : AnswerData) : State :=
  if o.broadcast then s.setEngine .ready
  else if (s.port o.arrival).isDark then s.setEngine .ready
  else if (s.port o.arrival).mgmtRoom then
    (s.appendOwn o.arrival fun q => .answer q (s.answerTo o r d)).setEngine .ready
  else s.setEngine (.answerWait o.arrival (s.answerTo o r d))

/-- An answer waiting for room in a port's queue is discarded when that port enters DARK (R10, R162). -/
def State.discardWaiting (s : State) (p : Port) : State :=
  match s.mgmt.engine with
  | .answerWait q _ => if q = p then s.setEngine .ready else s
  | _ => s

/-- The answer waiting for room in this port's queue is appended where there is room, and the engine becomes READY
(R13, R162). -/
def State.appendWaiting (s : State) (p : Port) : State :=
  match s.mgmt.engine with
  | .answerWait q a =>
    if q = p ∧ (s.port p).mgmtRoom then (s.appendOwn p fun n => .answer n a).setEngine .ready else s
  | _ => s

/-! ## Notices (R165) -/

/-- The cell the head notice leaves in, with the discarded-notice count written into it (R165). -/
def State.noticeCell (s : State) (c : Controller) (n : Notice) : NoticeCell :=
  { dest := c.origin
    origin := BitVec.ofNat 10 s.mgmt.address
    ctrl := c.id
    discarded := s.mgmt.discarded
    notice := n }

/-- The head notice is offered to the controller port: a controller port is known, it is not DARK, and no answer waits.
Where the queue has room the notice is appended and the discarded-notice count becomes 0 (R13, R165). DESIGN CHOICE: a restart
that is due and has not acted does not hold a notice back (R169, assumption log 36). -/
def State.deliverNotice (s : State) : State :=
  match s.mgmt.controller, s.mgmt.notices with
  | some c, n :: rest =>
    if !s.mgmt.engine.isWaiting ∧ (s.port c.port).mgmtRoom then
      { s.appendOwn c.port (fun q => .notice q (s.noticeCell c n)) with
        mgmt := { s.mgmt with notices := rest, discarded := 0 } }
    else s
  | _, _ => s

/-! ## Arriving management cells (R156, R158, R159, R161) -/

/-- An order is offered to the order queue: appended below 16; at 16 a broadcast is dropped, and an order addressed to this
node gets a QUEUE_FULL answer, discarded where its port cannot take it (R161). -/
def State.offerOrder (s : State) (o : Order) : State :=
  if s.occupancy < Config.orderPlaces then { s with mgmt.orders := s.mgmt.orders ++ [o] }
  else if o.broadcast then s
  else if (s.port o.arrival).mgmtRoom then
    s.appendOwn o.arrival fun q =>
      .answer q { s.answerTo o .queueFull .empty with freeSlots := 0, hold := true }
  else s

/-- The first non-empty route entry that matches a destination (R158). -/
def State.routeTo (s : State) (dest : Nat) : Option Port :=
  (s.mgmt.routes.toList.findSome? fun r =>
    match r with
    | some x => if x.low ≤ dest ∧ dest ≤ x.high then some x.port else none
    | none => none)

/-- A cell for another node is forwarded with its hop limit decreased by 1 (R158). -/
def State.forward (s : State) (c : Cell) : State :=
  match s.routeTo (destOf c) with
  | none => s
  | some q => if hopOf c = 0#4 then s else s.offerForward q (hopDown c)

/-- A port is named by a non-empty route entry (R159). -/
def State.routed (s : State) (p : Port) : Bool :=
  s.mgmt.routes.toList.any fun r => r.any fun x => x.port == p

/-- The ports a broadcast is sent on over: each routed port but its arrival port, in ascending order (R159). -/
def State.onwardPorts (s : State) (arrival : Port) : List Port :=
  (List.finRange 16).filter fun q => s.routed q && q != arrival

/-- A broadcast: an order of the broadcast set is offered to the order queue; then, with a hop limit above 0, the cell is
sent on over every routed port but its own (R159). -/
def State.broadcast (s : State) (p : Port) (c : Cell) : State :=
  let local_ := if typeOf c = .order ∧ inBroadcastSet (codeOf c) then s.offerOrder ⟨p, c⟩ else s
  if hopOf c = 0#4 then local_
  else (s.onwardPorts p).foldl (fun t q => t.offerForward q (hopDown c)) local_

/-- The disposal of an arriving management cell, by the first row that fits (R156). -/
def State.managementCell (s : State) (p : Port) (c : Cell) : State :=
  if 1001 ≤ destOf c ∨ typeOf c = .none then s
  else if destOf c ≠ s.mgmt.address ∧ destOf c ≠ 0 then s.forward c
  else if destOf c = 0 then s.broadcast p c
  else if typeOf c = .order then s.offerOrder ⟨p, c⟩
  else s

/-! ## Taking an order (R162, R164) -/

/-- What an order's work comes to: the state, the result, and the result data. -/
structure Reply where
  state : State
  result : Result
  data : AnswerData
  deriving DecidableEq, Repr

/-- A refusal: its reason and what its answer reports. -/
structure Refused where
  result : Result
  data : AnswerData
  deriving DecidableEq, Repr

/-- The first of the steps, in order, that fails. -/
def firstFail : List (Bool × Refused) → Option Refused
  | [] => none
  | (fails, r) :: rest => if fails then some r else firstFail rest

/-- A step of an order's checks whose refusal reports nothing. -/
def checkStep (fails : Bool) (r : Result) : Bool × Refused := (fails, ⟨r, .empty⟩)

/-- An order whose checks are made in order: the first failing step is answered and nothing is changed; otherwise the order
acts (R162). -/
def State.checked (s : State) (steps : List (Bool × Refused)) (act : Reply) : Reply :=
  match firstFail steps with
  | some r => ⟨s, r.result, r.data⟩
  | none => act

/-- The engine can take an order: it is READY, and no restart is about to act (R162, R169). -/
def State.canTake (s : State) : Bool := s.mgmt.engine.isReady && !s.mgmt.restart

/-- The order leaves the queue, and the controller record takes its arrival port, controller id and origin, unless it is a
broadcast (R161, R164). -/
def State.taken (s : State) (o : Order) (rest : List Order) : State :=
  { s with
    mgmt.orders := rest
    mgmt.controller :=
      if o.broadcast then s.mgmt.controller else some ⟨o.arrival, ctrlOf o.cell, originOf o.cell⟩ }

/-- The parameter length is not the one given for the order's code (R172). -/
def Order.badLength (o : Order) (n : Nat) : Bool := lengthOf o.cell != n

/-- The order queue's head order, if the engine can take it and it is of this kind. -/
def State.headOrder (s : State) (k : OrderKind) : Option (Order × List Order) :=
  match s.mgmt.orders with
  | o :: rest => if s.canTake ∧ codeOf o.cell = k.code then some (o, rest) else none
  | [] => none

/-- The Order Engine takes its head order, of this kind, carries it out and answers it. When the head order is of another
kind, or none can be taken, the event does not occur and nothing changes (R162; assumption log 1). -/
def State.takeOrder (s : State) (k : OrderKind) (work : Order → State → Reply) : State :=
  match s.headOrder k with
  | none => s
  | some (o, rest) =>
    let r := work o (s.taken o rest)
    r.state.finish o r.result r.data

/-- The head order has a code that is no order's: it is taken and refused with FORMAT (R162, R172). No row of the table
takes such an order, so a step with no command waiting does (assumption log 1). -/
def State.takeUnknown (s : State) : State :=
  match s.mgmt.orders with
  | o :: rest =>
    if s.canTake ∧ !knownCode (codeOf o.cell) then (s.taken o rest).finish o .format .empty else s
  | [] => s

end Sys2Proof.Machine
end

