-- ==== Sys2Proof/Machine/Operands.lean ====
section
/-! DEFINITION. The operands an order carries in its parameter bytes: ports, sources, clamped values, and the BOOK, MODIFY and
tariff parameter blocks (R58, R66, R130, R172). -/

namespace Sys2Proof.Machine

/-- A port carried in a byte; none when it is above 15 (R172). -/
def portOf (b : Byte) : Option Port := if h : b.toNat < 16 then some ⟨b.toNat, h⟩ else none

/-- A port and a feed label carried in two bytes; none when either is out of range (R50, R53, R113). -/
def srcOf (p l : Byte) : Option SrcId :=
  match portOf p with
  | some q => if l = 0#8 ∨ l = 255#8 then none else some ⟨q, l⟩
  | none => none

/-- An egress port and an out label carried in two bytes; none when either is out of range (R53). -/
def pairOf (x : Byte × Byte) : Option Pair :=
  match portOf x.1 with
  | some q => if x.2 = 0#8 ∨ x.2 = 255#8 then none else some ⟨q, x.2⟩
  | none => none

/-- A value clamped to the nearest end of its range, with the mark when clamping changed it. -/
def clamp (lo hi n : Nat) : Clamped :=
  let v := max lo (min hi n)
  ⟨v, v != n⟩

/-- `n` (port, label) byte pairs from a position on. -/
def pairBytes (ps : List Byte) (at_ : Nat) : Nat → List (Byte × Byte)
  | 0 => []
  | n + 1 => (byteAt ps at_, byteAt ps (at_ + 1)) :: pairBytes ps (at_ + 2) n

/-- The work of an order that names one port in parameter byte 0: FORMAT on a wrong length, RANGE on a port above 15. -/
def onPort (o : Order) (n : Nat) (s : State) (act : Port → Reply) : Reply :=
  if o.badLength n then ⟨s, .format, .empty⟩
  else
    match portOf (byteAt (paramsOf o.cell) 0) with
    | none => ⟨s, .range, .empty⟩
    | some p => act p

/-- A time source carried in a byte: 255 for LOCAL, otherwise a port (R172). -/
def selectionOf (b : Byte) : Option (Option Port) :=
  if b = 255#8 then some none else (portOf b).map some

/-- A step policy carried in a byte (R172). -/
def policyOf (b : Byte) : Option StepPolicy :=
  if b = 0#8 then some .accept else if b = 1#8 then some .refuse else none

/-- A node mode carried in a byte (R172). -/
def modeOf (b : Byte) : Option NodeMode :=
  if b = 0#8 then some .commissioning else if b = 1#8 then some .service else if b = 2#8 then some .frozen else none

/-- A SELECT value carried in a byte: 0 CLEAR, 1 FORCE_MAIN, 2 FORCE_SPARE, 3 LOCK_MAIN (R172). -/
def requestOf (b : Byte) : Option Request :=
  if b = 0#8 then some .noRequest
  else if b = 1#8 then some .forceMain
  else if b = 2#8 then some .forceSpare
  else if b = 3#8 then some .lockMain
  else none

/-! ## Ranges of the booking fields (R53) -/

abbrev startAheadMax : Int := 1073741824
abbrev durationMax : Nat := 8640000
abbrev allowanceMax : Nat := 1080000
abbrev prerollMax : Nat := 60000
abbrev holdOffMax : Nat := 10000
abbrev wtrMax : Nat := 60000

/-! ## The BOOK parameter block (R172) -/

/-- The fields of a BOOK as carried. -/
structure BookBlock where
  ref : Word
  account : BitVec 16
  tariffClass : Nat
  group : Nat
  main : Byte × Byte
  spare : Option (Byte × Byte)
  extend : Bool
  revertive : Bool
  switchOnDegrade : Bool
  bandwidth : Nat
  holdOff : Nat
  start : Word
  duration : Nat
  allowance : Nat
  preroll : Nat
  wtr : Nat
  legs : List (Byte × Byte)
  deriving DecidableEq, Repr

/-- The BOOK block is malformed: the length does not match its leg count, or a yes-or-no byte holds another value
(R58, R172). -/
def bookMalformed (len : Nat) (ps : List Byte) : Bool :=
  240 < len || len != 41 + 2 * (byteAt ps 40).toNat
    || !(isYesNo (byteAt ps 10) && isYesNo (byteAt ps 13) && isYesNo (byteAt ps 14) && isYesNo (byteAt ps 15))

/-- The BOOK block by its byte positions (R172). -/
def bookBlock (ps : List Byte) : BookBlock :=
  { ref := word32 ps 0
    account := word16 ps 4
    tariffClass := (byteAt ps 6).toNat
    group := (byteAt ps 7).toNat
    main := (byteAt ps 8, byteAt ps 9)
    spare := if isYes (byteAt ps 10) then some (byteAt ps 11, byteAt ps 12) else none
    extend := isYes (byteAt ps 13)
    revertive := isYes (byteAt ps 14)
    switchOnDegrade := isYes (byteAt ps 15)
    bandwidth := (word16 ps 16).toNat
    holdOff := (word16 ps 18).toNat
    start := word32 ps 20
    duration := (word32 ps 24).toNat
    allowance := (word32 ps 28).toNat
    preroll := (word32 ps 32).toNat
    wtr := (word32 ps 36).toNat
    legs := pairBytes ps 41 (byteAt ps 40).toNat }

/-! ## The MODIFY parameter block (R172) -/

/-- A bit of the field mask, bytes 4 to 6 (R172). -/
def maskBit (ps : List Byte) (i : Nat) : Bool :=
  let mask : BitVec 24 := byteAt ps 4 ++ word16 ps 5
  mask.getLsbD i

/-- The MODIFY block is malformed (R66, R172). The yes-or-no bytes of fields whose mask bit is clear are ignored. -/
def modifyMalformed (len : Nat) (ps : List Byte) : Bool :=
  let adds := (byteAt ps 41).toNat
  let drops := (byteAt ps 42).toNat
  240 < len || len != 43 + 2 * (adds + drops)
    || (List.range 16).all (fun i => !maskBit ps i)
    || maskBit ps 16 || maskBit ps 17
    || (maskBit ps 9 != (adds != 0)) || (maskBit ps 10 != (drops != 0))
    || (maskBit ps 8 && !isYesNo (byteAt ps 29)) || (maskBit ps 11 && !isYesNo (byteAt ps 30))
    || (maskBit ps 12 && !isYesNo (byteAt ps 33)) || (maskBit ps 13 && !isYesNo (byteAt ps 34))

/-- A field whose mask bit is set. -/
def field {α : Type} (ps : List Byte) (bit : Nat) (v : α) : Option α := if maskBit ps bit then some v else none

/-- The field changes of a MODIFY by their byte positions (R172). -/
def modifyBlock (ps : List Byte) : Change :=
  let adds := (byteAt ps 41).toNat
  { start := field ps 0 (word32 ps 7)
    main := field ps 1 (byteAt ps 11, byteAt ps 12)
    group := field ps 2 (byteAt ps 13).toNat
    preroll := field ps 3 (word32 ps 14).toNat
    account := field ps 4 (word16 ps 18)
    tariffClass := field ps 5 (byteAt ps 20).toNat
    duration := field ps 6 (word32 ps 21).toNat
    allowance := field ps 7 (word32 ps 25).toNat
    extend := field ps 8 (isYes (byteAt ps 29))
    adds := field ps 9 (pairBytes ps 43 adds)
    drops := field ps 10 (pairBytes ps (43 + 2 * adds) (byteAt ps 42).toNat)
    spare := field ps 11 (if isYes (byteAt ps 30) then some (byteAt ps 31, byteAt ps 32) else none)
    revertive := field ps 12 (isYes (byteAt ps 33))
    switchOnDegrade := field ps 13 (isYes (byteAt ps 34))
    holdOff := field ps 14 (word16 ps 35).toNat
    wtr := field ps 15 (word32 ps 37).toNat }

/-! ## The tariff class fields (R130, R172) -/

/-- The 23 bytes of class fields from a position on (R172). -/
def tariffBlock (ps : List Byte) (at_ : Nat) : Tariff :=
  { baseRate := (word32 ps at_).toNat
    overRate := (word32 ps (at_ + 4)).toNat
    grace := (word16 ps (at_ + 8)).toNat
    minimum := (word32 ps (at_ + 10)).toNat
    roundUp := isYes (byteAt ps (at_ + 14))
    window := (word32 ps (at_ + 15)).toNat
    fee := (word32 ps (at_ + 19)).toNat }

/-- The first of a class's fields out of range, in the order of R130. The outage grace is 16 bits wide and always in range. -/
def tariffOut (t : Tariff) : Option FieldName :=
  if 1000000 < t.baseRate then some .baseRate
  else if 1000000 < t.overRate then some .overrunRate
  else if 1000000 < t.minimum then some .minimumCharge
  else if 8640000 < t.window then some .cancelWindow
  else if 1000000 < t.fee then some .cancelFee
  else none

end Sys2Proof.Machine
end

