-- ==== Sys2Proof/Machine/Bills.lean ====
section
/-! DEFINITION. The Bill Queue: writing bills, waiters, and the bill orders (chapter 9). -/

namespace Sys2Proof.Machine

/-- The bill sequence number after one, from 4,294,967,295 to 1 (R146). -/
def nextSeq (n : Word) : Word := if n = 0xFFFFFFFF#32 then 1#32 else n + 1

/-- The oldest record's sequence number (R152). -/
def State.oldestBill (s : State) : Option Word := s.bills.records.head?.map BillRec.seq

/-- BILL_LEVEL is raised when the count rises from 47 to 48, BILL_FULL when it rises from 63 to 64 (R154). `s` is the state
after the write. -/
def State.noteLevel (s : State) (seq : Word) : State :=
  let n := s.bills.records.length
  let old := s.oldestBill.getD seq
  if n = 48 then s.raise (.billLevel n old seq s.waiters)
  else if n = Config.billPlaces then s.raise (.billFull n old seq s.waiters)
  else s

/-- A bill is written: it takes the next sequence number and is appended as the newest record, and its slot becomes FREE
(R148, R150). -/
def State.writeBill (s : State) (k : Nat) (bill : Bill) : State :=
  let seq := s.bills.next
  let s1 : State := { s with bills := { records := s.bills.records ++ [⟨seq, bill⟩], next := nextSeq seq } }
  (s1.freeSlot k).noteLevel seq

/-- The Bill Queue has room (R148). -/
def State.billRoom (s : State) : Bool := s.bills.records.length < Config.billPlaces

/-- The sequence number a bill handed over now would take; none when it would wait (R148). -/
def State.seqIfRoom (s : State) : Option Word := if s.billRoom then some s.bills.next else none

/-- A closed bill is handed over: written where the queue has room, else its booking enters ENDED holding it (R148, R149). -/
def State.handBill (s : State) (k : Nat) (b : Booking) (bill : Bill) : State :=
  if s.billRoom then s.writeBill k bill else s.setBooking k { b with state := .ended bill }

/-- Of two waiters, the one with the earlier end NT, ties to the first (R150). -/
def earlierWaiter (nt : Word) (a b : Nat × Booking × Bill) : Nat × Booking × Bill :=
  if ticksUntil nt b.2.2.endNt < ticksUntil nt a.2.2.endNt then b else a

/-- The waiters with their closed bills, in rising slot order. -/
def State.waiterList (s : State) : List (Nat × Booking × Bill) :=
  s.bookings.filterMap fun e =>
    match e.2.state with
    | .ended bill => some (e.1, e.2, bill)
    | _ => none

/-- The waiter with the earliest end NT, ties to the lowest slot (R150). -/
def State.firstWaiter (s : State) : Option (Nat × Booking × Bill) :=
  match s.waiterList with
  | [] => none
  | w :: rest => some (rest.foldl (earlierWaiter s.time.nt) w)

/-- The oldest record is removed and one waiter, if there is any, is written (R150, R152). -/
def State.releaseOldest (s : State) (seq : Word) : Reply :=
  let s1 : State := { s with bills.records := s.bills.records.tail }
  match s1.firstWaiter with
  | some (k, b, bill) =>
    let s2 := s1.writeBill k bill
    ⟨s2, .done, .released seq s2.bills.records.length s2.oldestBill (some ⟨k, b.ref, bill.outcome, s1.bills.next⟩)
      s2.waiters⟩
  | none => ⟨s1, .done, .released seq s1.bills.records.length s1.oldestBill none s1.waiters⟩

/-- BILL_READ (R151). -/
def execBillRead (s : State) : Host.Outcome State Fault Refusal :=
  s.awake fun s => s.takeOrder .billRead fun o s =>
    let k := (byteAt (paramsOf o.cell) 0).toNat
    let n := s.bills.records.length
    if o.badLength 1 then ⟨s, .format, .empty⟩
    else if 63 < k then ⟨s, .range, .empty⟩
    else
      match s.bills.records[k]? with
      | some r => ⟨s, .done, .bill n s.waiters s.bills.next r⟩
      | none => ⟨s, .unknown, .noBill n s.waiters⟩

/-- What a refusal of BILL RELEASE reports (R152). -/
def State.billRefusal (s : State) (r : Result) : Refused :=
  ⟨r, .oldest s.oldestBill s.bills.records.length s.waiters⟩

/-- BILL_RELEASE, its checks in the order of R152. -/
def execBillRelease (s : State) : Host.Outcome State Fault Refusal :=
  s.awake fun s => s.takeOrder .billRelease fun o s =>
    let seq := word32 (paramsOf o.cell) 0
    s.checked
      [(o.badLength 4, s.billRefusal .format),
        (seq == 0, s.billRefusal .range),
        (!(s.bills.records.any fun r => r.seq == seq), s.billRefusal .unknown),
        (s.oldestBill != some seq, s.billRefusal .notOldest)]
      (s.releaseOldest seq)

end Sys2Proof.Machine
end

