-- ==== Sys2Proof/Machine/Meter.lean ====
section
/-! DEFINITION. The Meter: snapshot, the charging of a tick, the close, and the tariff orders (chapter 8). -/

namespace Sys2Proof.Machine

/-! ## The meter part (R136, R137) -/

/-- The meter part at BOOK: snapshot and first LIVE tick absent, every number 0, flags clear (R54, R136). -/
def Meter.new : Meter :=
  { snapshot := none, firstLive := none, acc := 0, uBase := 0, uOver := 0, held := 0, scheduled := 0, overrun := 0
    extended := 0, outage := 0, credited := 0, degraded := 0, outageRun := 0, switches := 0, forced := 0
    saturated := false, timeStepped := false }

/-- The snapshot of a class, SET or BLANK (R137). -/
def snapshotOf (cls : Nat) : Option Tariff → Snapshot
  | some t => ⟨cls, t.baseRate, t.overRate, t.grace, t.minimum, t.roundUp, false⟩
  | none => ⟨cls, 0, 0, Config.graceAll, 0, false, true⟩

/-- The class of the tariff table; a class above 31 reads as BLANK (R53 refuses one). -/
def State.tariff (s : State) (cls : Nat) : Option Tariff := (s.tariffs.classes[cls]?).getD none

/-- Step 1 of LIVE entry: the snapshot is taken and the accumulator becomes 0 (R137). -/
def Meter.snap (m : Meter) (snap : Snapshot) : Meter := { m with snapshot := some snap, acc := 0 }

/-! ## One tick (R138 to R141) -/

/-- The class of a metered tick (R139). -/
inductive FeedClass
  | good | degraded | outage
  deriving DecidableEq, Repr

/-- The class of a tick, from the selected source's watch state and, leg by leg, whether its port is ENABLED (R139). -/
def feedClass (w : WatchState) (enabled : List Bool) : FeedClass :=
  if w = .failed ∨ !enabled.any id then .outage
  else if w = .degraded ∨ !enabled.all id then .degraded
  else .good

/-- The phase of a metered tick: the state of the booking (R138). -/
inductive Phase
  | scheduled | overrun | extended
  deriving DecidableEq, Repr

/-- The phase of a live booking's tick (R138). -/
def phaseOf : BookingState → Option Phase
  | .live => some .scheduled
  | .overrun => some .overrun
  | .extended => some .extended
  | _ => none

/-- A counter is at its maximum, so that an increment sets SATURATED (R136). -/
def atMax (n : Nat) : Bool := counterMax ≤ n

/-- Step 1: the phase count (R138). -/
def Meter.countPhase (m : Meter) : Phase → Meter
  | .scheduled => { m with scheduled := satAdd m.scheduled 1, saturated := m.saturated || atMax m.scheduled }
  | .overrun => { m with overrun := satAdd m.overrun 1, saturated := m.saturated || atMax m.overrun }
  | .extended => { m with extended := satAdd m.extended 1, saturated := m.saturated || atMax m.extended }

/-- The grace in force: every outage tick is charged when there is no snapshot to say otherwise. -/
def Meter.grace (m : Meter) : Nat := (m.snapshot.map Snapshot.grace).getD Config.graceAll

/-- A tick is metered unless it is an OUTAGE tick past the grace (R140). -/
def Meter.metered (m : Meter) : FeedClass → Bool
  | .outage => m.grace == Config.graceAll || satAdd m.outageRun 1 ≤ m.grace
  | _ => true

/-- Steps 2 and 3: the degraded, outage and credited counts and the outage run (R139, R140). -/
def Meter.countClass (m : Meter) : FeedClass → Meter
  | .good => { m with outageRun := 0 }
  | .degraded =>
    { m with degraded := satAdd m.degraded 1, outageRun := 0, saturated := m.saturated || atMax m.degraded }
  | .outage =>
    let credit := !m.metered .outage
    { m with
      outage := satAdd m.outage 1
      outageRun := satAdd m.outageRun 1
      credited := if credit then satAdd m.credited 1 else m.credited
      saturated :=
        m.saturated || atMax m.outage || atMax m.outageRun || (credit && atMax m.credited) }

/-- The rate in force (R141). -/
def Meter.rate (m : Meter) : Phase → Nat
  | .scheduled => (m.snapshot.map Snapshot.baseRate).getD 0
  | _ => (m.snapshot.map Snapshot.overRate).getD 0

/-- Step 4: a metered tick is charged; each whole unit of the accumulator is carried, to U_base in LIVE and to U_over in
OVERRUN and EXTENDED. A carry that finds its counter at the maximum leaves it there and sets SATURATED (R141). -/
def Meter.charge (m : Meter) (ph : Phase) : Meter :=
  let a := m.acc + m.rate ph
  let units := a / Config.unitParts
  let m' := { m with acc := a % Config.unitParts }
  match ph with
  | .scheduled =>
    { m' with uBase := satAdd m.uBase units, saturated := m.saturated || decide (counterMax < m.uBase + units) }
  | _ => { m' with uOver := satAdd m.uOver units, saturated := m.saturated || decide (counterMax < m.uOver + units) }

/-- Step 5: the step mark (R138). -/
def Meter.mark (m : Meter) (stepped : Bool) : Meter := { m with timeStepped := m.timeStepped || stepped }

/-- Stage 5 for a HELD booking: the held count and the step mark only (R138). -/
def Meter.heldTick (m : Meter) (stepped : Bool) : Meter :=
  { m with held := satAdd m.held 1, saturated := m.saturated || atMax m.held }.mark stepped

/-- Stage 5 for a live booking: the five steps in order (R138). -/
def Meter.liveTick (m : Meter) (ph : Phase) (c : FeedClass) (stepped : Bool) : Meter :=
  let m1 := m.countPhase ph
  let m2 := m1.countClass c
  let m3 := if m1.metered c then m2.charge ph else m2
  m3.mark stepped

/-- A switch is counted: forced or not (R123, R136). -/
def Meter.countSwitch (m : Meter) (isForced : Bool) : Meter :=
  if isForced then { m with forced := satAdd m.forced 1, saturated := m.saturated || atMax m.forced }
  else { m with switches := satAdd m.switches 1, saturated := m.saturated || atMax m.switches }

/-! ## The close (R143, R144) -/

/-- Ticks on which some of the feed reached some leg (R143). -/
def Meter.delivered (m : Meter) : Nat := m.scheduled + m.overrun + m.extended - m.outage

/-- The one part unit charged at the close under rounding UP (R143). -/
def Meter.roundUnit (m : Meter) : Nat :=
  match m.snapshot with
  | some sn => if sn.roundUp ∧ 0 < m.acc then 1 else 0
  | none => 0

/-- U_base + U_over + round, saturating (R143). -/
def Meter.meteredUnits (m : Meter) : Nat := satAdd (m.uBase + m.uOver) m.roundUnit

/-- The minimum charge applies and is the larger (R143). -/
def Meter.minimumApplies (m : Meter) : Bool :=
  match m.snapshot with
  | some sn => 0 < m.delivered && m.meteredUnits < sn.minimum
  | none => false

/-- The bill of a booking that went live, closed from its snapshot (R143). DESIGN CHOICE: a metered sum that saturates sets
SATURATED in the bill alone, and the meter part stands as it was (assumption log 34). -/
def closeLive (b : Booking) (sn : Snapshot) (outcome : BillOutcome) (endNt : Word) : Bill :=
  let m := b.meter
  { ref := b.ref
    account := b.fields.account
    cls := sn.cls
    outcome := outcome
    firstLive := m.firstLive
    endNt := endNt
    held := m.held
    scheduled := m.scheduled
    overrun := m.overrun
    extended := m.extended
    outage := m.outage
    credited := m.credited
    degraded := m.degraded
    uBase := m.uBase
    uOver := m.uOver
    round := m.roundUnit
    total := if m.minimumApplies then sn.minimum else m.meteredUnits
    switches := m.switches
    forced := m.forced
    delivered := b.delivered
    dropped := b.dropped
    noTariff := sn.noTariff
    saturated := m.saturated || decide (counterMax < m.uBase + m.uOver + m.roundUnit)
    timeStepped := m.timeStepped
    minimumApplied := m.minimumApplies
    early := !reached endNt b.fields.plannedEnd }

/-- The bill of a booking that never went live: its held count, and every other tick count and figure 0 but the total given;
the class comes from the record (R72, R144). -/
def closeUnlive (b : Booking) (outcome : BillOutcome) (endNt : Word) (noTariff : Bool) (total : Nat) : Bill :=
  { ref := b.ref
    account := b.fields.account
    cls := b.fields.tariffClass
    outcome := outcome
    firstLive := none
    endNt := endNt
    held := b.meter.held
    scheduled := 0
    overrun := 0
    extended := 0
    outage := 0
    credited := 0
    degraded := 0
    uBase := 0
    uOver := 0
    round := 0
    total := total
    switches := b.meter.switches
    forced := b.meter.forced
    delivered := 0
    dropped := 0
    noTariff := noTariff
    saturated := b.meter.saturated
    timeStepped := b.meter.timeStepped
    minimumApplied := false
    early := !reached endNt b.fields.plannedEnd }

/-- The close of an ending's bill (R83, R143, R144). -/
def closeBill (b : Booking) (outcome : BillOutcome) (endNt : Word) : Bill :=
  match b.meter.snapshot with
  | some sn => closeLive b sn outcome endNt
  | none => closeUnlive b outcome endNt false 0

/-! ## Tariff orders (R131 to R135) -/

/-- A tariff class carried in a byte; none when it is above 31. -/
def classOf (b : Byte) : Option (Fin 32) := if h : b.toNat < 32 then some ⟨b.toNat, h⟩ else none

/-- TARIFF WRITE, its checks in the order of R131. -/
def tariffWrite (o : Order) (s : State) : Reply :=
  let ps := paramsOf o.cell
  let t := tariffBlock ps 1
  if o.badLength 24 || !isYesNo (byteAt ps 15) then ⟨s, .format, .empty⟩
  else if s.mgmt.mode = .frozen then ⟨s, .mode, .empty⟩
  else
    match classOf (byteAt ps 0), tariffOut t with
    | none, _ => ⟨s, .range, .badField .cls⟩
    | _, some f => ⟨s, .range, .badField f⟩
    | some k, none =>
      if s.tariffs.locked then ⟨s, .locked, .empty⟩
      else ⟨{ s with tariffs.classes := s.tariffs.classes.set k (some t) }, .done, .tariffWritten k.val t⟩

/-- TARIFF_WRITE (R131). -/
def execTariffWrite (s : State) : Host.Outcome State Fault Refusal :=
  s.awake fun s => s.takeOrder .tariffWrite tariffWrite

/-- TARIFF_LOCK (R132). -/
def execTariffLock (s : State) : Host.Outcome State Fault Refusal :=
  s.awake fun s => s.takeOrder .tariffLock fun o s =>
    s.checked [checkStep (o.badLength 0) .format, checkStep (s.mgmt.mode = .frozen) .mode]
      ⟨{ s with tariffs.locked := true }, .done, .tariffLock true⟩

/-- TARIFF_CLEAR_ALL (R133). -/
def execTariffClearAll (s : State) : Host.Outcome State Fault Refusal :=
  s.awake fun s => s.takeOrder .tariffClearAll fun o s =>
    s.checked [checkStep (o.badLength 0) .format, checkStep (s.mgmt.mode = .frozen) .mode]
      ⟨{ s with tariffs := ⟨Vector.replicate 32 none, false⟩ }, .done, .empty⟩

/-- TARIFF_READ (R134). -/
def execTariffRead (s : State) : Host.Outcome State Fault Refusal :=
  s.awake fun s => s.takeOrder .tariffRead fun o s =>
    if o.badLength 1 then ⟨s, .format, .empty⟩
    else
      match classOf (byteAt (paramsOf o.cell) 0) with
      | none => ⟨s, .range, .empty⟩
      | some k => ⟨s, .done, .tariff k.val (s.tariffs.classes[k]) s.tariffs.locked⟩

/-- The first field in which a class of the image differs from the table, with the value the table holds (R135). -/
def classDiffers (image held : Option Tariff) : Option (FieldName × TariffValue) :=
  match image, held with
  | none, none => none
  | none, some _ => some (.clsState, .setClass)
  | some _, none => some (.clsState, .blank)
  | some i, some t =>
    if i.baseRate ≠ t.baseRate then some (.baseRate, .num t.baseRate)
    else if i.overRate ≠ t.overRate then some (.overrunRate, .num t.overRate)
    else if i.grace ≠ t.grace then some (.outageGrace, .num t.grace)
    else if i.minimum ≠ t.minimum then some (.minimumCharge, .num t.minimum)
    else if i.roundUp ≠ t.roundUp then some (.rounding, .roundUp t.roundUp)
    else if i.window ≠ t.window then some (.cancelWindow, .num t.window)
    else if i.fee ≠ t.fee then some (.cancelFee, .num t.fee)
    else none

/-- An image entry of TARIFF CHECK at a position: BLANK, or SET with its fields (R135, R172). -/
def imageEntry (ps : List Byte) (at_ : Nat) : Option Tariff :=
  if byteAt ps at_ = 0#8 then none else some (tariffBlock ps (at_ + 1))

/-- An image entry is malformed: its state is neither BLANK nor SET, or its rounding neither UP nor DOWN (R135). The fields of a
BLANK entry are not looked at. -/
def imageBad (ps : List Byte) (at_ : Nat) : Bool :=
  !isYesNo (byteAt ps at_) || (isYes (byteAt ps at_) && !isYesNo (byteAt ps (at_ + 15)))

/-- The first class of a part that differs (R135). -/
def State.firstDifference (s : State) (part : Nat) (ps : List Byte) : Option (Nat × FieldName × TariffValue) :=
  (List.range 8).findSome? fun j =>
    (classDiffers (imageEntry ps (1 + 24 * j)) (s.tariff (8 * part + j))).map fun r => (8 * part + j, r)

/-- TARIFF_CHECK (R135). -/
def execTariffCheck (s : State) : Host.Outcome State Fault Refusal :=
  s.awake fun s => s.takeOrder .tariffCheck fun o s =>
    let ps := paramsOf o.cell
    let part := (byteAt ps 0).toNat
    if o.badLength 193 || decide (3 < part) || (List.range 8).any (fun j => imageBad ps (1 + 24 * j)) then
      ⟨s, .format, .empty⟩
    else
      match s.firstDifference part ps with
      | some (k, f, v) => ⟨s, .done, .checkMismatch k f v s.tariffs.locked⟩
      | none => ⟨s, .done, .checkMatch s.tariffs.locked⟩

end Sys2Proof.Machine
end

