-- ==== Sys2Proof/Machine/Reserve.lean ====
section
/-! DEFINITION. Reservations and the three questions of admission: pairs, port loads and leg counts (R55, R56, R60 to R63). -/

namespace Sys2Proof.Machine

/-- One part of a booking's reservation, current or pending: its window as offsets from NT, and what it reserves (R55, R60). -/
structure Part where
  from_ : Int
  upTo : Int
  legs : List Pair
  bandwidth : Nat
  main : SrcId
  spare : Option SrcId
  deriving DecidableEq, Repr

/-- The window of some fields as offsets from `nt`, negative ones raised to 0; a running booking's window starts at 0
(R60). -/
def partOf (nt : Word) (running : Bool) (f : Fields) : Part :=
  { from_ := if running then 0 else max 0 (ticksUntil nt f.effStart)
    upTo := max 0 (ticksUntil nt f.windowEnd)
    legs := f.legs
    bandwidth := f.bandwidth
    main := f.main
    spare := f.spare }

/-- The parts of a booking's reservation: its current fields, unless it is EXTENDED or ENDED, and its pending modification
(R55, R56). -/
def partsOf (nt : Word) (b : Booking) : List Part :=
  (if b.state.reserves then [partOf nt b.state.isRunning b.fields] else [])
    ++ (match b.pending with
      | some m => if b.state.isEnded then [] else [partOf nt b.state.isRunning (m.apply b.fields)]
      | none => [])

/-- The window holds an offset (R60). -/
def Part.holds (p : Part) (x : Int) : Bool := p.from_ ≤ x && x < p.upTo

/-- Two windows overlap (R60). -/
def Part.overlaps (p q : Part) : Bool := p.from_ < q.upTo && q.from_ < p.upTo

/-- The part's bandwidth on a port (R55). -/
def Part.onPort (q : Port) (p : Part) : Nat := p.bandwidth * pairsOn q p.legs

/-- The part's places on a source: its number of legs when the source is its main or spare (R55, R56). -/
def Part.onSource (i : SrcId) (p : Part) : Nat := if p.main = i ∨ p.spare = some i then p.legs.length else 0

/-- What a booking counts for at an offset: the larger of its parts that hold it (R56). -/
def countsAt (f : Part → Nat) (x : Int) (ps : List Part) : Nat :=
  ((ps.filter fun p => p.holds x).map f).foldl max 0

/-- The sum over the compared bookings at an offset (R62, R63). -/
def sumAt (f : Part → Nat) (x : Int) (compared : List (List Part)) : Nat := (compared.map (countsAt f x)).sum

/-- The window starts of the compared bookings, in either part. -/
def starts (compared : List (List Part)) : List Int := compared.flatMap fun ps => ps.map Part.from_

/-- The evaluation points of a candidate window: its own start, and each compared start inside it (R60). -/
def pointsIn (c : Part) (compared : List (List Part)) : List Int :=
  c.from_ :: (starts compared).filter fun a => c.from_ ≤ a && a < c.upTo

/-- The earliest of some offsets. -/
def earliest : List Int → Option Int
  | [] => none
  | x :: xs =>
    match earliest xs with
    | some y => some (min x y)
    | none => some x

/-- The earliest of the points at which the sum and the candidate's own share exceed the limit, with the load there. -/
def overAt (f : Part → Nat) (own limit : Nat) (points : List Int) (compared : List (List Part)) :
    Option (Int × Nat) :=
  (earliest (points.filter fun x => limit < sumAt f x compared + own)).map fun x => (x, sumAt f x compared + own)

/-- An offset reported as the NT value NT + offset (R60). -/
def instantAt (nt : Word) (x : Int) : Word := nt + BitVec.ofInt 32 x

/-- How a compared booking conflicts with the candidate: the earliest start of its parts that overlap the candidate window
and hold a pair the candidate names, and the first such pair in the candidate's leg order (R61). DESIGN CHOICE: R61 does not
say which window ranks a booking that reserves with a current and a pending part, nor whether a part that does not overlap
counts for the pair reported (assumption log 32). -/
def conflictWith (c : Part) (ps : List Part) : Option (Int × Pair) :=
  let hits := ps.filter fun p => p.overlaps c && c.legs.any fun x => p.legs.contains x
  match earliest (hits.map Part.from_), c.legs.find? fun x => hits.any fun p => p.legs.contains x with
  | some a, some x => some (a, x)
  | _, _ => none

/-- Step 8: the conflicting booking whose window starts earliest, ties to the lower slot (R61). `compared` is in rising slot
order. -/
def firstConflict (nt : Word) (c : Part) : List (Nat × Booking) → Option (Int × Nat × Booking × Pair)
  | [] => none
  | (k, b) :: rest =>
    match conflictWith c (partsOf nt b), firstConflict nt c rest with
    | some (a, x), some (a', r) => if a' < a then some (a', r) else some (a, k, b, x)
    | some (a, x), none => some (a, k, b, x)
    | none, r => r

/-- Step 9: the first port the candidate names, in ascending number, where the load at some point exceeds the capacity
(R62). -/
def firstOverPort (s : State) (c : Part) (compared : List (List Part)) : Option (Port × Int × Nat) :=
  ((List.finRange 16).filter fun q => c.legs.any fun x => x.port == q).findSome? fun q =>
    (overAt (Part.onPort q) (c.onPort q) (s.port q).capacity (pointsIn c compared) compared).map fun r => (q, r)

/-- Step 10: the first of the main and the spare where the count at some point exceeds 16 (R63). -/
def firstOverSource (c : Part) (compared : List (List Part)) : Option (SrcId × Int × Nat) :=
  (c.main :: c.spare.toList).findSome? fun i =>
    (overAt (Part.onSource i) c.legs.length Config.legPlaces (pointsIn c compared) compared).map fun r => (i, r)

/-- The admitted peak of a port from NT on, against a new capacity: the earliest instant, at the current NT or at a later
window start, where the sum over the guaranteed bookings exceeds it, pending modifications counted with their own windows.
EXTENDED bookings do not count (R11; assumption log 15). -/
def peakOver (s : State) (q : Port) (limit : Nat) : Option (Int × Nat) :=
  let compared := (s.bookings.filter fun e => e.2.state.reserves).map fun e => partsOf s.time.nt e.2
  overAt (Part.onPort q) 0 limit (0 :: (starts compared).filter fun a => 0 < a) compared

end Sys2Proof.Machine
end

