-- ==== Sys2Proof/Machine/Watch.lean ====
section
/-! DEFINITION. The Fault Watch (chapter 6): a source's tick, the dark-port event, and the meanings of the commands of its
ticks. -/

namespace Sys2Proof.Machine

/-- The class of a watched, demanded source's tick (R104). -/
inductive TickClass
  | silent | errored | good
  deriving DecidableEq, Repr

/-- A tick is classified from the tick account (R104). -/
def classify (x : Source) : TickClass :=
  if x.arrivals = 0 then .silent else if x.errored then .errored else .good

/-- The two runs after a classified tick, holding at 1,000 and 60,000 (R105). -/
def runsAfter (w : Watch) : TickClass → Watch
  | .silent => { w with silentRun := min (w.silentRun + 1) 1000, goodRun := 0 }
  | .errored => { w with silentRun := 0, goodRun := 0 }
  | .good => { w with silentRun := 0, goodRun := min (w.goodRun + 1) 60000 }

/-- The window's errored count with this tick counted (R106). -/
def windowCount (w : Watch) (c : TickClass) : Nat := w.errored + (if c = .errored then 1 else 0)

/-- The tick is a window end: the position reaches 100 (R106). -/
def isWindowEnd (w : Watch) : Bool := 100 ≤ w.position + 1

/-- The window after a classified tick (R106). -/
def windowAfter (w : Watch) (c : TickClass) : Watch :=
  if isWindowEnd w then { w with position := 0, errored := 0, lastErrored := some (windowCount w c) }
  else { w with position := w.position + 1, errored := windowCount w c }

/-- What one tick does to a source: its record, the cause of its change of watch state if there is one, and whether the
tick is a window end. -/
structure WatchStep where
  src : Source
  cause : Option WatchCause
  windowEnd : Bool
  deriving DecidableEq, Repr

/-- A change of watch state at a tick: the state and the last change (R102, R103, R108 to R111). -/
def Watch.change (w : Watch) (st : WatchState) (nt : Word) : Watch := { w with state := st, lastChange := some nt }

/-- The tick account cleared (R104). -/
def Source.clearAccount (x : Source) : Source := { x with arrivals := 0, errored := false }

/-- The watch starts: an UNWATCHED source's tick finds it demanded (R102). -/
def watchStart (t : Tick) (x : Source) : Source :=
  { x.clearAccount with
    watch :=
      { x.watch with
        state := .recovering, silentRun := 0, goodRun := 0, position := 0, errored := 0, lastErrored := none
        lastChange := some t.nt }
    tokens := bucket x.bandwidth
    resync := true }

/-- The watch ends: a watched source's tick finds it not demanded (R103). -/
def watchStop (t : Tick) (x : Source) : Source := { x.clearAccount with watch := x.watch.change .unwatched t.nt }

/-- The one change of watch state a classified tick makes, if any: the first condition of R107 that holds, read after the
runs and the window (R107 to R111). `count` is the errored count of a window that ends on this tick. -/
def changeAt (w : Watch) (c : TickClass) (windowEnds : Bool) (count : Nat) : Option WatchCause :=
  if (w.state = .recovering ∨ w.state = .ok ∨ w.state = .degraded) ∧ w.params.failCount ≤ w.silentRun then some .silent
  else if w.state = .failed ∧ c ≠ .silent then some .arrivals
  else if w.state = .recovering ∧ w.params.clearCount ≤ w.goodRun then some .cleared
  else if windowEnds ∧ w.state = .ok ∧ w.params.degrade ≤ count then some .erroredWindow
  else if windowEnds ∧ w.state = .degraded ∧ count < (w.params.degrade + 1) / 2 then some .cleanWindow
  else none

/-- A change of watch state carried out on a record: the new state, the counter of entries, and resync pending
(R108 to R111). -/
def applyChange (nt : Word) (x : Source) : WatchCause → Source
  | .silent => { x with watch := { x.watch.change .failed nt with failures := x.watch.failures + 1 }, resync := true }
  | .arrivals => { x with watch := x.watch.change .recovering nt, resync := true }
  | .cleared => { x with watch := x.watch.change .ok nt }
  | .erroredWindow =>
    { x with watch := { x.watch.change .degraded nt with degradations := x.watch.degradations + 1 } }
  | .cleanWindow => { x with watch := x.watch.change .ok nt }
  | _ => x

/-- A classified tick: account read and cleared, runs, window, and at most one change of state (R104 to R107). -/
def classifiedTick (t : Tick) (x : Source) : WatchStep :=
  let c := classify x
  let w := runsAfter x.watch c
  let x1 := { x.clearAccount with watch := windowAfter w c }
  match changeAt w c (isWindowEnd w) (windowCount w c) with
  | some k => ⟨applyChange t.nt x1 k, some k, isWindowEnd w⟩
  | none => ⟨x1, none, isWindowEnd w⟩

/-- One tick of a source, by its watch state and its demand (R101). -/
def watchTick (demanded : Bool) (t : Tick) (x : Source) : WatchStep :=
  if x.watch.state = .unwatched then
    if demanded then ⟨watchStart t x, some .demandStarted, false⟩ else ⟨x, none, false⟩
  else if demanded then classifiedTick t x
  else ⟨watchStop t x, some .demandEnded, false⟩

/-- The SOURCE_STATE notice of a change (R114). -/
def sourceNotice (old : WatchState) (x : Source) (cause : WatchCause) (nt : Word) : NoticeContent :=
  .sourceState x.id old x.watch.state cause nt x.watch.silentRun x.watch.goodRun x.watch.lastErrored
    x.watch.failures x.watch.degradations

/-- The source's next tick, with the record as it stands when the Fault Watch takes it; none when the source is not in the
table or every tick handed to it has been taken. -/
def State.nextTick (s : State) (i : SrcId) : Option (Source × Tick) :=
  match s.source i with
  | some x =>
    match x.ticks with
    | t :: rest => some ({ x with ticks := rest }, t)
    | [] => none
  | none => none

/-- A source's tick is taken when it is due and its outcome is wanted; a change of state raises its notice (R101, R114). -/
def State.sourceTickIf (s : State) (i : SrcId) (want : WatchStep → Bool) : State :=
  match s.nextTick i with
  | none => s
  | some (x, t) =>
    let r := watchTick (s.demanded i) t x
    if want r then
      let s1 := s.setSource r.src
      match r.cause with
      | some k => s1.raise (sourceNotice x.watch.state r.src k t.nt)
      | none => s1
    else s

/-! ## The dark-port event (R112) -/

/-- A watched source of a port that goes dark (R112). -/
def darkSource (nt : Word) (x : Source) : Source :=
  let w := { x.watch with silentRun := x.watch.params.failCount, goodRun := 0 }
  { x.clearAccount with
    resync := true
    watch :=
      if x.watch.state = .failed then w
      else { w with state := .failed, failures := w.failures + 1, lastChange := some nt } }

/-- The dark-port event for one source (R112). -/
def State.darkOne (s : State) (i : SrcId) : State :=
  match s.source i with
  | none => s
  | some x =>
    if x.watch.state = .unwatched then s
    else
      let y := darkSource s.time.nt x
      let s1 := s.setSource y
      if x.watch.state = .failed then s1 else s1.raise (sourceNotice x.watch.state y .portDark s.time.nt)

/-- The sources whose ingress port is this one, in ascending label order. -/
def State.sourcesOn (s : State) (p : Port) : List SrcId :=
  (s.sources.filter fun e => e.2.id.port == p).map fun e => e.2.id

/-- The dark-port event: every source of the port whose watch state is not UNWATCHED, in ascending label order (R112). -/
def State.darkEvent (s : State) (p : Port) : State := (s.sourcesOn p).foldl State.darkOne s

/-- The dark-port event will raise a SOURCE_STATE notice. -/
def State.darkRaises (s : State) (p : Port) : Bool :=
  s.sources.any fun e =>
    e.2.id.port == p && e.2.watch.state != .unwatched && e.2.watch.state != .failed

/-! ## Commands -/

/-- SOURCE_TICK: a source's tick, whatever its outcome (R101). -/
def execSourceTick (p : Port) (l : Byte) (s : State) : Host.Outcome State Fault Refusal :=
  s.awake fun s => s.sourceTickIf ⟨p, l⟩ fun _ => true

/-- SILENT: a source's tick on which its silent run reaches F and it enters FAILED (R108; assumption log 6). -/
def execSilent (p : Port) (l : Byte) (s : State) : Host.Outcome State Fault Refusal :=
  s.awake fun s => s.sourceTickIf ⟨p, l⟩ fun r => r.cause == some .silent

/-- CLEARED: a source's tick on which its good run reaches C and it enters OK (R110; assumption log 6). -/
def execCleared (p : Port) (l : Byte) (s : State) : Host.Outcome State Fault Refusal :=
  s.awake fun s => s.sourceTickIf ⟨p, l⟩ fun r => r.cause == some .cleared

/-- WINDOW_END: a source's tick that is the 100th of its window (R106, R111; assumption log 6). -/
def execWindowEnd (p : Port) (l : Byte) (s : State) : Host.Outcome State Fault Refusal :=
  s.awake fun s => s.sourceTickIf ⟨p, l⟩ fun r => r.windowEnd

end Sys2Proof.Machine
end

