-- ==== Sys2Proof/Machine/Ports.lean ====
section
/-! DEFINITION. The Port Unit's line events and the port orders (chapter 1). -/

namespace Sys2Proof.Machine

/-! ## Entering DARK (R8, R9, R10) -/

/-- A port enters DARK: its return state is set, both egress queues are flushed, a waiting answer on it is discarded, the DARK
event goes to the Fault Watch and a PORT_STATE notice is raised. Which of the two blocks' notices come first is a free
value (R112; assumption log 2). -/
def State.enterDark (s : State) (p : Port) (ret : ReturnState) (cause : PortCause) : State :=
  let r := s.port p
  let note := NoticeContent.portState p r.state (.dark ret) r.line cause
  let s1 := (s.setPort p { r with state := .dark ret, mgmtQ := [], feedQ := [] }).discardWaiting p
  if s1.darkRaises p then
    let s2 := { s1 with freeRead := s1.freeRead + 1 }
    if Config.portStateFirst s.freeRead then (s2.raise note).darkEvent p else (s2.darkEvent p).raise note
  else (s1.raise note).darkEvent p

/-- A loss event: the line condition changes, and a port that is ENABLED or DRAINING enters DARK (R3, R8). -/
def State.loseLine (s : State) (p : Port) (line : LineCond) (cause : PortCause) : State :=
  let r := s.port p
  let s1 := s.setPort p { r with line := line, failRun := 0 }
  match r.state with
  | .enabled => s1.enterDark p .enabled cause
  | .draining => s1.enterDark p .disabled cause
  | _ => s1

/-- The state a DARK port takes when its line is restored (R9). -/
def returned : ReturnState → PortState
  | .enabled => .enabled
  | .disabled => .disabled

/-- The line is delineated; a DARK port takes its return state (R3, R9). -/
def State.restoreLine (s : State) (p : Port) : State :=
  let r := s.port p
  let s1 := s.setPort p { r with line := .delineated, failRun := 0 }
  match r.state with
  | .dark ret => s1.changePort p (returned ret) .lineRestored
  | _ => s1

/-- A failing cell: counted as a header error; the 16th in a row loses delineation (R2, R3). -/
def State.failCell (s : State) (p : Port) : State :=
  let r := s.port p
  let s1 := s.setPort p { r with headerErrors := r.headerErrors + 1, failRun := r.failRun + 1 }
  if Config.failRunLimit ≤ r.failRun + 1 then s1.loseLine p .searching .lossOfDelineation else s1

/-- LOSS_OF_LIGHT (R3, R8). -/
def execLossOfLight (p : Port) (s : State) : Host.Outcome State Fault Refusal :=
  s.awake fun s => if (s.port p).line = .noLight then s else s.loseLine p .noLight .lossOfLight

/-- LIGHT_RETURNS (R3). -/
def execLightReturns (p : Port) (s : State) : Host.Outcome State Fault Refusal :=
  s.awake fun s =>
    if (s.port p).line = .noLight then s.setPort p { s.port p with line := .searching } else s

/-- DELINEATION_FOUND (R3, R9). -/
def execDelineationFound (p : Port) (s : State) : Host.Outcome State Fault Refusal :=
  s.awake fun s => if (s.port p).line = .searching then s.restoreLine p else s

/-- LOSS_OF_DELINEATION: the run of 16 failing cells completes. The failing cells of the run that no CELL_ARRIVAL has brought
are counted here, since each of the 16 is counted as it fails (R3, R8; assumption log 6). -/
def execLossOfDelineation (p : Port) (s : State) : Host.Outcome State Fault Refusal :=
  s.awake fun s =>
    let r := s.port p
    if r.line = .delineated then
      (s.setPort p { r with headerErrors := r.headerErrors + BitVec.ofNat 32 (Config.failRunLimit - r.failRun) }).loseLine
        p .searching .lossOfDelineation
    else s

/-! ## Port orders (R6, R9, R11, R16) -/

/-- PORT ENABLE by the port's state (R9). -/
def State.enablePort (s : State) (p : Port) : State :=
  let r := s.port p
  match r.state with
  | .enabled => s
  | .draining => s.changePort p .enabled .order
  | .disabled =>
    if r.line = .delineated then s.changePort p .enabled .order else s.enterDark p .enabled .order
  | .dark _ => s.setPort p { r with state := .dark .enabled }

/-- PORT DISABLE by the port's state (R6). -/
def State.disablePort (s : State) (p : Port) : State :=
  let r := s.port p
  match r.state with
  | .enabled => if r.feedQ = [] then s.changePort p .disabled .order else s.changePort p .draining .order
  | .draining => s
  | .disabled => s
  | .dark _ => s.setPort p { r with state := .dark .disabled }

/-- PORT_ENABLE (R9). -/
def execPortEnable (s : State) : Host.Outcome State Fault Refusal :=
  s.awake fun s => s.takeOrder .portEnable fun o s =>
    onPort o 1 s fun p => let s' := s.enablePort p; ⟨s', .done, .portState p (s'.port p).state⟩

/-- PORT_DISABLE (R6). -/
def execPortDisable (s : State) : Host.Outcome State Fault Refusal :=
  s.awake fun s => s.takeOrder .portDisable fun o s =>
    onPort o 1 s fun p => let s' := s.disablePort p; ⟨s', .done, .portState p (s'.port p).state⟩

/-- The record PORT STATUS returns (R16). -/
def State.portStatus (s : State) (p : Port) : PortStatusData :=
  let r := s.port p
  { state := r.state
    line := r.line
    capacity := r.capacity
    installed := s.installed p
    mgmtFill := r.mgmtQ.length
    feedFill := r.feedQ.length
    mgmtSeq := r.mgmtSeq
    headerErrors := r.headerErrors
    unbooked := r.unbooked }

/-- PORT_STATUS (R16). -/
def execPortStatus (s : State) : Host.Outcome State Fault Refusal :=
  s.awake fun s => s.takeOrder .portStatus fun o s =>
    onPort o 1 s fun p => ⟨s, .done, .portStatus (s.portStatus p)⟩

/-- PORT CAPACITY, its port and mode in order: the clamped value is compared with the installed bandwidth now, then with the
admitted peak from now on. Raising the capacity always succeeds, and only a value above the capacity raises it (R11). -/
def State.setCapacity (s : State) (p : Port) (value : Nat) : Reply :=
  let v := min value Config.capacityMax
  let stored : Reply := ⟨s.setPort p { s.port p with capacity := v }, .done, .portCapacity ⟨v, value != v⟩⟩
  if (s.port p).capacity < v then stored
  else if v < s.installed p then ⟨s, .capacity, .overCapacity p s.time.nt (s.installed p)⟩
  else
    match peakOver s p v with
    | some (x, load) => ⟨s, .capacity, .overCapacity p (instantAt s.time.nt x) load⟩
    | none => stored

/-- PORT_CAPACITY (R11). -/
def execPortCapacity (s : State) : Host.Outcome State Fault Refusal :=
  s.awake fun s => s.takeOrder .portCapacity fun o s =>
    if o.badLength 3 then ⟨s, .format, .empty⟩
    else if s.mgmt.mode = .frozen then ⟨s, .mode, .empty⟩
    else onPort o 3 s fun p => s.setCapacity p (word16 (paramsOf o.cell) 1).toNat

end Sys2Proof.Machine
end

