-- ==== Sys2Proof/Machine/Sources.lean ====
section
/-! DEFINITION. The Source Unit: the path of a feed cell, the refill of policing tokens, and the source orders (chapter 3,
R113). -/

namespace Sys2Proof.Machine

/-! ## The five stages of a feed cell (R38 to R45) -/

/-- The continuity stage: the record after it, and whether the cell is late (R39). -/
def continuity (q : Seq) (x : Source) : Source × Bool :=
  if x.resync then ({ x with expected := q + 1, resync := false }, false)
  else
    let d := q - x.expected
    if d = 0 then ({ x with expected := q + 1 }, false)
    else if d.toNat ≤ 2047 then
      ({ x with missing := x.missing + d.setWidth 32, errored := true, expected := q + 1 }, false)
    else ({ x with late := x.late + 1, errored := true }, true)

/-- The counting stage (R40). -/
def counting (x : Source) : Source := { x with received := x.received + 1, arrivals := x.arrivals + 1 }

/-- The policing stage: the record after it, and whether the cell is passed (R41). -/
def policing (x : Source) : Source × Bool :=
  if 0 < x.tokens then ({ x with tokens := x.tokens - 1 }, true) else ({ x with excess := x.excess + 1 }, false)

/-- One copy is offered to its leg's port: queued while the port is ENABLED with fewer than 2,048 cells, else dropped on the
leg (R12, R45). -/
def offerCopy (payload : List Byte) (r : PortRec) (l : Leg) : PortRec × Leg :=
  if r.state = .enabled ∧ r.feedQ.length < Config.feedPlaces then
    ({ r with feedQ := r.feedQ ++ [⟨l.pair.label, l.seq, payload⟩] }, { l with seq := l.seq + 1, sent := l.sent + 1 })
  else (r, { l with dropped := l.dropped + 1 })

/-- The replication stage: one copy for each leg, in list order (R45). -/
def replicate (payload : List Byte) : List Leg → Vector PortRec 16 → Vector PortRec 16 × List Leg
  | [], ports => (ports, [])
  | l :: rest, ports =>
    let (r, l') := offerCopy payload ports[l.pair.port] l
    let (ports', rest') := replicate payload rest (ports.set l.pair.port r)
    (ports', l' :: rest')

/-- A feed cell of a watched source, from continuity to replication (R39 to R45). -/
def State.watchedCell (s : State) (x : Source) (c : Cell) : State :=
  let (x1, late) := continuity c.seq x
  let x2 := counting x1
  if late then s.setSource x2
  else
    let (x3, pass) := policing x2
    if pass then
      let (ports, legs) := replicate c.payload x3.legs s.ports
      { s with ports := ports }.setSource { x3 with legs := legs }
    else s.setSource x3

/-- A feed cell sorted to the Source Unit: with no source, or an UNWATCHED one, it is counted unbooked on its port (R38). -/
def State.feedCell (s : State) (p : Port) (c : Cell) : State :=
  match s.source ⟨p, c.label⟩ with
  | none => s.countUnbooked p
  | some x => if x.watch.state = .unwatched then s.countUnbooked p else s.watchedCell x c

/-! ## Tokens (R42) -/

/-- The refill of one source (R42). -/
def refill (x : Source) : Source := { x with tokens := min (bucket x.bandwidth) (x.tokens + x.bandwidth) }

/-- TOKEN_REFILL: the Source Unit takes its next tick, and every source in the table is refilled (R42). -/
def execTokenRefill (s : State) : Host.Outcome State Fault Refusal :=
  s.awake fun s =>
    match s.refillTicks with
    | [] => s
    | _ :: rest => { s with refillTicks := rest, sources := s.sources.map fun e => (e.1, refill e.2) }

/-! ## Source orders (R50, R113) -/

/-- The record SOURCE STATUS returns (R50). -/
def Source.status (x : Source) : SourceStatusData :=
  { id := x.id
    bandwidth := x.bandwidth
    bucket := bucket x.bandwidth
    refs := x.refs
    watch := x.watch
    expected := x.expected
    resync := x.resync
    tokens := x.tokens
    received := x.received
    missing := x.missing
    late := x.late
    excess := x.excess
    legCount := x.legs.length
    legs := x.legs }

/-- SOURCE_STATUS (R50). -/
def execSourceStatus (s : State) : Host.Outcome State Fault Refusal :=
  s.awake fun s => s.takeOrder .sourceStatus fun o s =>
    if o.badLength 2 then ⟨s, .format, .empty⟩
    else
      match srcOf (byteAt (paramsOf o.cell) 0) (byteAt (paramsOf o.cell) 1) with
      | none => ⟨s, .range, .empty⟩
      | some i =>
        match s.source i with
        | none => ⟨s, .unknown, .empty⟩
        | some x => ⟨s, .done, .sourceStatus x.status⟩

/-- The three values of a SOURCE WATCH, clamped (R113). -/
def watchValues (ps : List Byte) : Clamped × Clamped × Clamped :=
  (clamp 1 1000 (word16 ps 3).toNat, clamp 1 60000 (word16 ps 5).toNat, clamp 1 100 (byteAt ps 7).toNat)

/-- SOURCE WATCH, its checks made in the order of R113. -/
def sourceWatch (o : Order) (s : State) : Reply :=
  let ps := paramsOf o.cell
  let (f, c, d) := watchValues ps
  let params : WatchParams := ⟨f.value, c.value, d.value⟩
  if o.badLength 8 then ⟨s, .format, .empty⟩
  else if byteAt ps 0 = 1#8 then ⟨{ s with defaults := params }, .done, .watch none f c d⟩
  else if byteAt ps 0 = 0#8 then
    match srcOf (byteAt ps 1) (byteAt ps 2) with
    | none => ⟨s, .range, .empty⟩
    | some i =>
      match s.source i with
      | none => ⟨s, .unknown, .empty⟩
      | some x => ⟨s.setSource { x with watch.params := params }, .done, .watch (some i) f c d⟩
  else ⟨s, .format, .empty⟩

/-- SOURCE_WATCH (R113). -/
def execSourceWatch (s : State) : Host.Outcome State Fault Refusal :=
  s.awake fun s => s.takeOrder .sourceWatch sourceWatch

end Sys2Proof.Machine
end

