-- ==== Sys2Proof/Machine/Bookings.lean ====
section
/-! DEFINITION. The ending of a booking, the cuts, and LIVE entry (R83, R88, R89). -/

namespace Sys2Proof.Machine

/-! ## Endings (R83) -/

/-- The BOOKING_ENDED notice (R97). -/
def endedNotice (k : Nat) (b : Booking) (bill : Bill) (seq : Option Word) : NoticeContent :=
  .bookingEnded k b.ref b.fields.account bill.outcome bill.endNt bill.total seq

/-- The bill is handed over and BOOKING_ENDED is raised: steps 6 and 7 of an ending (R83), and of a late cancel (R72). -/
def State.handAndNote (s : State) (k : Nat) (b : Booking) (bill : Bill) : State :=
  (s.handBill k b bill).raise (endedNotice k b bill s.seqIfRoom)

/-- Step 1: a live booking's legs leave its selected source, and their sums are added to its totals (R48, R83). -/
def State.takeLegs (s : State) (k : Nat) (b : Booking) (named : Pair → Bool) : State × Booking :=
  let (s1, sent, dropped) := s.removeLegs k b.selected named
  (s1, { b with delivered := b.delivered + sent, dropped := b.dropped + dropped })

/-- Both countdowns are absent, and none waits to start afresh (R118, R119, R126). -/
def Booking.stopCountdowns (b : Booking) : Booking := { b with holdOffLeft := none, wtrLeft := none, afresh := false }

/-- Step 4: the pending modification, end-pending and the countdowns are cleared (R83). -/
def Booking.clear (b : Booking) : Booking := { b.stopCountdowns with pending := none, endPending := false }

/-- An ending of the booking in a slot with a bill, its seven steps in order (R83). The close leaves the meter part as it was,
its SATURATED flag included, where the booking waits in ENDED (DESIGN CHOICE, assumption log 34). -/
def State.endBooking (s : State) (k : Nat) (b : Booking) (outcome : BillOutcome) (endNt : Word) : State :=
  let (s1, b1) := if b.state.isLive then s.takeLegs k b fun _ => true else (s, b)
  let s2 := if b.state = .held then s1.leaveGroup b.fields.group else s1
  let bill := closeBill b1 outcome endNt
  let b2 := b1.clear
  let s3 := b.named.foldl State.loseRef s2
  s3.handAndNote k b2 bill

/-- The ending of whatever booking a slot holds. -/
def State.endSlot (s : State) (k : Nat) (outcome : BillOutcome) (endNt : Word) : State :=
  match s.booking k with
  | some b => s.endBooking k b outcome endNt
  | none => s

/-! ## Cuts (R89) -/

/-- The slot of the EXTENDED booking that holds a leg with this pair. -/
def State.extendedHolding (s : State) (x : Pair) : Option Nat :=
  (s.sources.findSome? fun e => (e.2.legs.find? fun l => l.pair == x).map Leg.owner).bind fun k =>
    match s.booking k with
    | some b => if b.state = .extended then some k else none
    | none => none

/-- Of two EXTENDED bookings, the one to be cut: the higher extended tick count, ties to the lowest slot (R89). -/
def cutFirst (a b : Nat × Booking) : Nat × Booking := if a.2.meter.extended < b.2.meter.extended then b else a

/-- The EXTENDED booking to be cut among those with a leg that `at_` picks, by its leg list and the leg (R89). -/
def State.toCut (s : State) (at_ : SrcId → Leg → Bool) : Option Nat :=
  let hasLeg (k : Nat) : Bool := s.sources.any fun e => e.2.legs.any fun l => l.owner == k && at_ e.2.id l
  match s.bookings.filter fun e => e.2.state == .extended && hasLeg e.1 with
  | [] => none
  | e :: rest => some (rest.foldl cutFirst e).1

/-- A state and how many bookings have been cut. -/
abbrev Cuts := State × Nat

/-- One booking is cut: it ends with outcome CUT at the tick's NT, whole (R89). -/
def cutSlot (nt : Word) (c : Cuts) (k : Nat) : Cuts := (c.1.endSlot k .cut nt, c.2 + 1)

/-- While `tooMuch` holds and an EXTENDED booking can be cut, one is cut. `fuel` bounds the cuts; the number of bookings is
enough, since each cut takes one from EXTENDED. -/
def cutWhile (nt : Word) (tooMuch : State → Bool) (at_ : SrcId → Leg → Bool) : Nat → Cuts → Cuts
  | 0, c => c
  | fuel + 1, c =>
    if tooMuch c.1 then
      match c.1.toCut at_ with
      | some k => cutWhile nt tooMuch at_ fuel (cutSlot nt c k)
      | none => c
    else c

/-- Pass 1: for each leg, the EXTENDED booking holding the same pair is cut (R89). -/
def cutPairs (nt : Word) (ps : List Pair) (c : Cuts) : Cuts :=
  ps.foldl (fun c x =>
    match c.1.extendedHolding x with
    | some k => cutSlot nt c k
    | none => c) c

/-- Pass 2: for each port in the order of its first appearance, while the legs would exceed its capacity (R89). -/
def cutCapacity (nt : Word) (bandwidth : Nat) (ps : List Pair) (c : Cuts) : Cuts :=
  (once (ps.map Pair.port)).foldl (fun c q =>
    cutWhile nt (fun s => (s.port q).capacity < s.installed q + bandwidth * pairsOn q ps)
      (fun _ l => l.pair.port == q) c.1.bookings.length c) c

/-- The number of legs on a source's list. -/
def State.legCount (s : State) (i : SrcId) : Nat :=
  match s.source i with
  | some x => x.legs.length
  | none => 0

/-- Pass 3, the places pass: while the list holds more than 16 legs less the number to come (R89, R123). -/
def cutPlaces (nt : Word) (i : SrcId) (n : Nat) (c : Cuts) : Cuts :=
  cutWhile nt (fun s => Config.legPlaces < s.legCount i + n) (fun j _ => j == i) c.1.bookings.length c

/-- The three passes for legs to be installed on a source (R89). -/
def State.clearGround (s : State) (nt : Word) (i : SrcId) (bandwidth : Nat) (ps : List Pair) : Cuts :=
  cutPlaces nt i ps.length (cutCapacity nt bandwidth ps (cutPairs nt ps (s, 0)))

/-! ## LIVE entry (R88) -/

/-- The position chosen at LIVE entry, from the request and the two sources, with no hold-off (R118). -/
def State.choice (s : State) (b : Booking) : Position :=
  if b.fields.spare = none then .onMain
  else
    match b.request with
    | .forceSpare => .onSpare
    | .forceMain => .onMain
    | .lockMain => .onMain
    | .noRequest => if s.failureCondition b.fields then .onSpare else .onMain

/-- LIVE entry, its six steps in order: snapshot, choice, cuts, install, record, notice. `overrun` says that stage 3 carries the
booking on to OVERRUN (R88, R96). DESIGN CHOICE: the notice carries the number of bookings cut as it is, though R96 gives it as 0 to 16
and the capacity pass of R89 has no such bound (assumption log 31). -/
def State.enterLive (s : State) (k : Nat) (b : Booking) (nt : Word) (overrun : Bool) : State :=
  let snap := snapshotOf b.fields.tariffClass (s.tariff b.fields.tariffClass)
  let b1 :=
    { b.stopCountdowns with meter := b.meter.snap snap, position := s.choice b }
  let i := b1.selected
  let (s1, cuts) := s.clearGround nt i b.fields.bandwidth b.fields.legs
  let s2 := s1.install k i b.fields.legs
  let b2 := { b1 with state := .live, meter := { b1.meter with firstLive := some nt } }
  let s3 := s2.setBooking k b2
  let s4 := if b.state = .held then s3.leaveGroup b.fields.group else s3
  s4.raise (.bookingLive k b.ref b.fields.account nt b1.position i snap.noTariff cuts
    (if overrun then .overrun else .live))

end Sys2Proof.Machine
end

