-- ==== Sys2Proof/Machine/Selector.lean ====
section
/-! DEFINITION. The Protection Selector: the switch and the selector stage (R116 to R124). -/

namespace Sys2Proof.Machine

/-- The source a position stands for (R116). -/
def Fields.at (f : Fields) : Position → SrcId
  | .onMain => f.main
  | .onSpare => f.spare.getD f.main

/-- A forced switch is one whose cause is a request (R119, R123). -/
def SwitchCause.isForced : SwitchCause → Bool
  | .forceSpare | .forceMain | .lockMain => true
  | _ => false

/-- How many legs of a booking are on a source's list. -/
def State.ownedOn (s : State) (k : Nat) (i : SrcId) : Nat :=
  match s.source i with
  | some x => x.legs.countP fun l => l.owner == k
  | none => 0

/-- A switch of the booking in a slot, as its record `b` stands: cuts for room when it is LIVE or OVERRUN, the move, and then
position, countdowns, count and notice. Answered NO_ROOM, it leaves the booking as it was (R123, R124). -/
def State.trySwitch (s : State) (k : Nat) (b : Booking) (to_ : Position) (cause : SwitchCause) (nt : Word) : State :=
  let dst := b.fields.at to_
  let c : Cuts :=
    if b.state = .extended then (s, 0) else cutPlaces nt dst (s.ownedOn k b.selected) (s, 0)
  match c.1.moveLegs k b.selected dst with
  | (.taken, s2) =>
    let b' :=
      { b with position := to_, holdOffLeft := none, wtrLeft := none, meter := b.meter.countSwitch cause.isForced }
    (s2.setBooking k b').raise
      (.selectorSwitch k b.ref b.fields.account nt b.position to_ cause dst (s.watchOf b.fields.main)
        ((s.spareWatch b.fields).getD .unwatched) c.2 b'.meter.switches b'.meter.forced)
  | _ => c.1

/-- A forced switch: the countdowns are made absent whether or not the switch is made (R119). -/
def State.forceSwitch (s : State) (k : Nat) (b : Booking) (to_ : Position) (cause : SwitchCause) (nt : Word) : State :=
  let b' := { b with holdOffLeft := none, wtrLeft := none }
  let s' := s.setBooking k b'
  if b.fields.spare = none then s' else s'.trySwitch k b' to_ cause nt

/-- A countdown that starts at a value, or runs down by 1 and holds at 0 (R120, R122). -/
def countDown (start : Nat) : Option Nat → Nat
  | none => start
  | some n => n - 1

/-- The hold-off rule (R120). -/
def State.holdOffRule (s : State) (k : Nat) (b : Booking) (nt : Word) : State :=
  if s.failureCondition b.fields then
    let left := countDown b.fields.holdOff b.holdOffLeft
    let b' := { b with holdOffLeft := some left }
    let s' := s.setBooking k b'
    if left = 0 then s'.trySwitch k b' .onSpare .failure nt else s'
  else s.setBooking k { b with holdOffLeft := none }

/-- The condition for restore: the booking is revertive and its main is OK (R122). -/
def State.restoreCondition (s : State) (f : Fields) : Bool := f.revertive && s.watchOf f.main == .ok

/-- The wait-to-restore rule (R122). -/
def State.wtrRule (s : State) (k : Nat) (b : Booking) (nt : Word) : State :=
  if s.restoreCondition b.fields then
    let left := countDown b.fields.wtr b.wtrLeft
    let b' := { b with wtrLeft := some left }
    let s' := s.setBooking k b'
    if left = 0 then s'.trySwitch k b' .onMain .restore nt else s'
  else s.setBooking k { b with wtrLeft := none }

/-- The spare is FAILED and the main is not (R121). -/
def State.spareFailedCondition (s : State) (f : Fields) : Bool :=
  s.spareWatch f == some .failed && s.watchOf f.main != .failed

/-- The spare-failure rule, then, if no switch was made, the wait-to-restore rule (R121, R122). -/
def State.onSpareRule (s : State) (k : Nat) (b : Booking) (nt : Word) : State :=
  if s.spareFailedCondition b.fields then
    let s1 := s.trySwitch k b .onMain .spareFailed nt
    match s1.booking k with
    | some b1 => if b1.position = .onMain then s1 else s1.wtrRule k b1 nt
    | none => s1
  else s.wtrRule k b nt

/-- The work of stage 4 for one live booking, by its request and position (section 7.4, R119 to R122). -/
def State.runSelector (s : State) (k : Nat) (b : Booking) (nt : Word) : State :=
  match b.request, b.position with
  | .forceSpare, .onMain => s.forceSwitch k b .onSpare .forceSpare nt
  | .forceMain, .onSpare => s.forceSwitch k b .onMain .forceMain nt
  | .lockMain, .onSpare => s.forceSwitch k b .onMain .lockMain nt
  | .noRequest, .onMain => s.holdOffRule k b nt
  | .noRequest, .onSpare => s.onSpareRule k b nt
  | _, _ => s.setBooking k { b with holdOffLeft := none, wtrLeft := none }

/-- Stage 4 for one slot: a booking in LIVE, OVERRUN or EXTENDED. One whose request SELECT CLEAR has ended since the last stage 4 is
taken with both countdowns absent (R93, R126). -/
def selectorSlot (nt : Word) (s : State) (k : Nat) : State :=
  match s.booking k with
  | some b =>
    if !b.state.isLive then s
    else if b.afresh then (s.setBooking k b.stopCountdowns).runSelector k b.stopCountdowns nt
    else s.runSelector k b nt
  | none => s

end Sys2Proof.Machine
end

