-- ==== Sys2Proof/Machine/BookingTick.lean ====
section
/-! DEFINITION. The booking tick: its five stages, and the commands that take it (chapter 5). -/

namespace Sys2Proof.Machine

/-! ## What a modification applied on this tick leaves for its later stages (R80, R81) -/

/-- Which thresholds of a booking the modification applied on this tick changed, the installed legs it dropped, and the legs
it added to a LIVE or OVERRUN booking (R80, R81, R85, R90). -/
structure TickNote where
  prerollChanged : Bool
  startChanged : Bool
  planChanged : Bool
  windowChanged : Bool
  dropped : List Pair
  added : List Pair
  deriving DecidableEq, Repr

/-- No modification was applied. -/
def TickNote.nothing : TickNote := ⟨false, false, false, false, [], []⟩

/-- The notes of one tick, by slot. -/
abbrev Notes := List (Nat × TickNote)

def noteOf (notes : Notes) (k : Nat) : TickNote := (tabFind notes k).getD .nothing

/-- The slots in use, in ascending order. -/
def State.slots (s : State) : List Nat := s.bookings.map Prod.fst

/-! ## Stage 1: pending modifications and end-pending (R80 to R82) -/

/-- The thresholds the new fields changed (R81). -/
def thresholdNote (f f' : Fields) : TickNote :=
  { prerollChanged := f'.prerollPoint != f.prerollPoint
    startChanged := f'.start != f.start
    planChanged := f'.plannedEnd != f.plannedEnd
    windowChanged := f'.windowEnd != f.windowEnd
    dropped := []
    added := [] }

/-- The state follows a threshold that the modification moved into the future (R80; assumption log 7). -/
def stateBack (nt : Word) (f' : Fields) (n : TickNote) : BookingState → BookingState
  | .preroll => if n.prerollChanged && !reached nt f'.prerollPoint then .booked else .preroll
  | .overrun => if n.planChanged && !reached nt f'.plannedEnd then .live else .overrun
  | .extended =>
    if n.windowChanged && !reached nt f'.windowEnd then
      if reached nt f'.plannedEnd then .overrun else .live
    else .extended
  | st => st

/-- The modification's effect on the selector part (R127). A spare named again with its own value is not replaced. A change of spare
is applied whatever request SELECT has placed since the MODIFY was accepted: with FORCE_SPARE placed between the two, a replaced
spare keeps the request and a removed one turns it into NONE (R80, R125, R127; DEDUCED, assumption log 27). -/
def selectorAfter (b : Booking) (f' : Fields) : Booking :=
  if b.fields.spare.isSome ∧ f'.spare ≠ b.fields.spare then
    { b with
      holdOffLeft := none
      wtrLeft := none
      request :=
        if f'.spare = none ∧ (b.request = .forceMain ∨ b.request = .forceSpare) then .noRequest else b.request }
  else b

/-- The record with its pending modification applied, and the note for the later stages (R80, R81). -/
def applied (nt : Word) (b : Booking) (m : Mod) : Booking × TickNote :=
  let f' := m.apply b.fields
  let n := thresholdNote b.fields f'
  let st := stateBack nt f' n b.state
  let b' := { selectorAfter b f' with fields := f', state := st, pending := none }
  (b',
    { n with
      dropped := if b.state.isLive then b.fields.legs.filter fun x => !f'.legs.contains x else []
      added :=
        if st = .live ∨ st = .overrun then f'.legs.filter fun x => !b.fields.legs.contains x else [] })

/-- A booking whose end-pending is set ends with ENDED_BY_ORDER (R82). -/
def endIfPending (t : Tick) (k : Nat) (s : State) : State :=
  match s.booking k with
  | some b => if b.endPending then s.endBooking k b .endedByOrder t.nt else s
  | none => s

/-- Stage 1 for one slot: the pending modification is applied, the references of sources no longer named fall, and then
end-pending acts (R80, R82). -/
def stage1Slot (t : Tick) (c : State × Notes) (k : Nat) : State × Notes :=
  match c.1.booking k with
  | none => c
  | some b =>
    if b.state.isEnded then c
    else
      match b.pending with
      | none => (endIfPending t k c.1, c.2)
      | some m =>
        let (b', n) := applied t.nt b m
        let s1 := (c.1.setBooking k b').moveRefs b.fields.bandwidth b.named b'.named
        (endIfPending t k s1, c.2 ++ [(k, n)])

def stage1 (t : Tick) (s : State) : State × Notes := s.slots.foldl (stage1Slot t) (s, [])

/-! ## Stage 2: endings at the window end, and dropped legs (R84, R85) -/

/-- A booking's window end is reached, or counts as reached: an EXTENDED booking's was reached when it became EXTENDED, and R25 has
it count so after NT has gone back, so that extend permitted set to no ends it on the applying tick as R81 says (R25, R81, R84, R92;
DEDUCED, assumption log 26). -/
def windowReached (nt : Word) (b : Booking) : Bool := reached nt b.fields.windowEnd || b.state == .extended

/-- The window end acts on this tick: it is reached, the modification did not change it, and a HELD or LIVE booking, which has its
planned end still before it, is not stopped at a planned end that the modification changed (R81, R84; assumption log 12). DESIGN
CHOICE: a window end that the modification changed is held over for an EXTENDED booking too, when the same modification sets extend
permitted to no (assumption log 38). -/
def windowActs (nt : Word) (n : TickNote) (b : Booking) : Bool :=
  windowReached nt b && !n.windowChanged
    && !((b.state == .held || b.state == .live) && n.planChanged && reached nt b.fields.plannedEnd)

/-- The ending check of a running booking (R84). -/
def atWindowEnd (t : Tick) (k : Nat) (b : Booking) (s : State) : State :=
  match b.state with
  | .held => s.endBooking k b .endedAtLimit t.nt
  | .live | .overrun =>
    if b.fields.extend then s.setBooking k { b with state := .extended } else s.endBooking k b .endedAtLimit t.nt
  | .extended => if b.fields.extend then s else s.endBooking k b .endedAtLimit t.nt
  | _ => s

/-- A live booking's dropped legs are removed, and their sums are added to its totals (R85). -/
def dropLegs (k : Nat) (dropped : List Pair) (s : State) : State :=
  match s.booking k with
  | some b =>
    if b.state.isLive ∧ dropped ≠ [] then
      let (s1, b1) := s.takeLegs k b fun x => dropped.contains x
      s1.setBooking k b1
    else s
  | none => s

def stage2Slot (t : Tick) (notes : Notes) (s : State) (k : Nat) : State :=
  match s.booking k with
  | none => s
  | some b =>
    let n := noteOf notes k
    let s1 := if b.state.isRunning && windowActs t.nt n b then atWindowEnd t k b s else s
    dropLegs k n.dropped s1

def stage2 (t : Tick) (notes : Notes) (s : State) : State := s.slots.foldl (stage2Slot t notes) s

/-! ## Stage 3: advances, LIVE entries, added legs (R86 to R91) -/

/-- The planned end is passed on this tick (R86, R91). -/
def planPasses (nt : Word) (n : TickNote) (b : Booking) : Bool := reached nt b.fields.plannedEnd && !n.planChanged

/-- A LIVE booking whose planned end is passed becomes OVERRUN (R91). -/
def passPlan (nt : Word) (n : TickNote) (k : Nat) (s : State) : State :=
  match s.booking k with
  | some b => if b.state = .live ∧ planPasses nt n b then s.setBooking k { b with state := .overrun } else s
  | none => s

/-- LIVE entry, and on to OVERRUN in the same stage when the planned end is passed too (R87, R88). -/
def goLive (nt : Word) (n : TickNote) (k : Nat) (b : Booking) (s : State) : State :=
  passPlan nt n k (s.enterLive k b nt (planPasses nt n b))

/-- The booking's start group is HOLDING (R74). -/
def State.isHolding (s : State) (b : Booking) : Bool :=
  match s.groupOf b.fields.group with
  | some g => g.state == .holding
  | none => false

/-- A PREROLL booking at its start: HELD if its group is HOLDING, else LIVE (R86). -/
def passStart (nt : Word) (n : TickNote) (k : Nat) (b : Booking) (s : State) : State :=
  if reached nt b.fields.start && !n.startChanged then
    if s.isHolding b then (s.setBooking k { b with state := .held }).joinGroup b.fields.group
    else goLive nt n k b s
  else s

/-- The passage of a BOOKED or PREROLL booking: its window end first, then preroll point, start and planned end (R86). -/
def passEarly (t : Tick) (n : TickNote) (k : Nat) (b : Booking) (s : State) : State :=
  if windowActs t.nt n b then s.endBooking k b .endedAtLimit t.nt
  else if b.state = .booked then
    if reached t.nt b.fields.prerollPoint && !n.prerollChanged then
      let b' := { b with state := .preroll }
      passStart t.nt n k b' (s.setBooking k b')
    else s
  else passStart t.nt n k b s

/-- A HELD booking stays HELD while its group is HOLDING, or when its window end is reached and held over; otherwise it enters
LIVE (R86, R87). -/
def passHeld (nt : Word) (n : TickNote) (k : Nat) (b : Booking) (s : State) : State :=
  if reached nt b.fields.windowEnd || s.isHolding b then s else goLive nt n k b s

/-- The legs added to a LIVE or OVERRUN booking are installed on its selected source, after the cuts they need (R90). -/
def installAdded (nt : Word) (added : List Pair) (k : Nat) (s : State) : State :=
  match s.booking k with
  | some b =>
    if (b.state = .live ∨ b.state = .overrun) ∧ added ≠ [] then
      (s.clearGround nt b.selected b.fields.bandwidth added).1.install k b.selected added
    else s
  | none => s

def stage3Slot (t : Tick) (notes : Notes) (s : State) (k : Nat) : State :=
  match s.booking k with
  | none => s
  | some b =>
    let n := noteOf notes k
    match b.state with
    | .booked | .preroll => passEarly t n k b s
    | .held => passHeld t.nt n k b s
    | .live => installAdded t.nt n.added k (passPlan t.nt n k s)
    | .overrun => installAdded t.nt n.added k s
    | _ => s

def stage3 (t : Tick) (notes : Notes) (s : State) : State := s.slots.foldl (stage3Slot t notes) s

/-! ## Stages 4 and 5 (R93) -/

def stage4 (t : Tick) (s : State) : State := s.slots.foldl (selectorSlot t.nt) s

/-- The class of a live booking's tick, read as it stands (R139). The booking's legs are read from its record, a leg that was added
on the tick that made the booking EXTENDED, and so never installed, among them (DESIGN CHOICE, assumption log 28). -/
def State.feedClassOf (s : State) (b : Booking) : FeedClass :=
  feedClass (s.watchOf b.selected) (b.fields.legs.map fun x => (s.port x.port).state == .enabled)

/-- Stage 5 for one slot (R138). -/
def meterSlot (t : Tick) (s : State) (k : Nat) : State :=
  match s.booking k with
  | none => s
  | some b =>
    if b.state = .held then s.setBooking k { b with meter := b.meter.heldTick t.stepped }
    else
      match phaseOf b.state with
      | some ph => s.setBooking k { b with meter := b.meter.liveTick ph (s.feedClassOf b) t.stepped }
      | none => s

def stage5 (t : Tick) (s : State) : State := s.slots.foldl (meterSlot t) s

/-- Stages 1 to 3 (R79). -/
def stages123 (t : Tick) (s : State) : State :=
  let (s1, notes) := stage1 t s
  stage3 t notes (stage2 t notes s1)

/-- The whole booking tick (R79). DESIGN CHOICE: it is one step, so a SOURCE_STATE notice of the same Time Unit tick comes
before or after its notices and never between two of them, as R98 and R114 also allow (assumption log 33), and no source tick or
dark-port event lands between two readings of a watch state, as R117 also allows (assumption log 39), and no cell is taken between
two leg requests of one tick, nor another block's event between two stages, as R46 and R79 also allow (assumption log 40). -/
def wholeTick (t : Tick) (s : State) : State := stage5 t (stage4 t (stages123 t s))

/-! ## Commands -/

/-- The Booking Engine takes its next tick when the tick's outcome is wanted (R79). -/
def State.bookingTickIf (s : State) (want : Tick → State → Bool) : State :=
  match s.bookingTicks with
  | [] => s
  | t :: rest =>
    let s1 : State := { s with bookingTicks := rest }
    if want t s1 then wholeTick t s1 else s

/-- BOOKING_TICK (R79). -/
def execBookingTick (s : State) : Host.Outcome State Fault Refusal :=
  s.awake fun s => s.bookingTickIf fun _ _ => true

/-- The state in which stage 4 of a tick reaches a slot. -/
def atSelector (t : Tick) (k : Nat) (s : State) : State :=
  let s3 := stages123 t s
  (s3.slots.filter fun j => j < k).foldl (selectorSlot t.nt) s3

/-- In stage 4 of the tick, the booking in a slot goes from one position to the other with no request standing; `cond` is read
on the state in which the stage reaches it. -/
def switchesAt (k : Nat) (old new : Position) (cond : State → Booking → Bool) (t : Tick) (s : State) : Bool :=
  let s4 := atSelector t k s
  match s4.booking k, (selectorSlot t.nt s4 k).booking k with
  | some b, some b' =>
    b.state.isLive && b.request == .noRequest && b.position == old && b'.position == new && cond s4 b
  | _, _ => false

/-- HOLD_OFF_EXPIRY: the booking tick on which this booking's hold-off reaches 0 and it is switched to spare with cause FAILURE
(R120, R123; assumption log 6). -/
def execHoldOffExpiry (k : Fin 512) (s : State) : Host.Outcome State Fault Refusal :=
  s.awake fun s => s.bookingTickIf (switchesAt k.val .onMain .onSpare fun _ _ => true)

/-- WTR_EXPIRY: the booking tick on which this booking's wait-to-restore reaches 0 and it is switched to main with cause
RESTORE (R122, R123; assumption log 6). -/
def execWtrExpiry (k : Fin 512) (s : State) : Host.Outcome State Fault Refusal :=
  s.awake fun s => s.bookingTickIf
    (switchesAt k.val .onSpare .onMain fun s b => !s.spareFailedCondition b.fields)

end Sys2Proof.Machine
end

