-- ==== Sys2Proof/Machine/Admission.lean ====
section
/-! DEFINITION. BOOK and MODIFY: their checks, the admission computation, and its completion (chapter 4). -/

namespace Sys2Proof.Machine

/-- The first refusal of the steps, in order. -/
def firstRefusal (steps : List (Option Refused)) : Option Refused := steps.findSome? id

/-! ## The fields of a BOOK (R53, R58) -/

/-- The first leg, in the given order, that is out of range, repeats an earlier one, or is past the fourth; else the leg
list (R53, R58). -/
def takeLegList (seen : List Pair) : List (Byte × Byte) → Except Nat (List Pair)
  | [] => .ok seen
  | x :: rest =>
    match pairOf x with
    | some q =>
      if 4 ≤ seen.length ∨ q ∈ seen then .error seen.length else takeLegList (seen ++ [q]) rest
    | none => .error seen.length

/-- A leg list of 1 to 4 pairs, no pair twice (R53). -/
def legListOf (xs : List (Byte × Byte)) : Except Nat (List Pair) := if xs = [] then .error 0 else takeLegList [] xs

/-- A spare, absent or in range and other than the main; none when it is refused (R53, R58). -/
def spareOf (main : SrcId) : Option (Byte × Byte) → Option (Option SrcId)
  | none => some none
  | some (p, l) =>
    match srcOf p l with
    | some i => if i = main then none else some (some i)
    | none => none

/-- The effective start: the start, or NT at the taking if the start is then reached (R65, R68). -/
def effectiveStart (nt start : Word) : Word := if reached nt start then nt else start

/-- The fields of a BOOK taken at `nt`, clamped where R53 clamps, or the first failing field in the order of R53's table
(R53, R58). A planned end already reached is reported as the planned duration's (assumption log 9). -/
def BookBlock.fieldsAt (nt : Word) (b : BookBlock) : Except FieldName Fields :=
  if 31 < b.tariffClass then .error .tariffClass
  else
    match srcOf b.main.1 b.main.2 with
    | none => .error .mainSource
    | some main =>
      match spareOf main b.spare with
      | none => .error .spareSource
      | some spare =>
        if b.bandwidth = 0 ∨ Config.capacityMax < b.bandwidth then .error .bandwidth
        else
          match legListOf b.legs with
          | .error i => .error (.leg i)
          | .ok legs =>
            if startAheadMax < ticksUntil nt b.start then .error .start
            else if b.duration = 0 ∨ durationMax < b.duration ∨ reached nt (b.start + BitVec.ofNat 32 b.duration) then
              .error .plannedDuration
            else if allowanceMax < b.allowance then .error .allowance
            else if 32 < b.group then .error .startGroup
            else
              .ok
                { account := b.account
                  tariffClass := b.tariffClass
                  main := main
                  spare := spare
                  bandwidth := b.bandwidth
                  legs := legs
                  start := b.start
                  effStart := effectiveStart nt b.start
                  duration := b.duration
                  allowance := b.allowance
                  extend := b.extend
                  preroll := min b.preroll prerollMax
                  group := b.group
                  revertive := b.revertive
                  switchOnDegrade := b.switchOnDegrade
                  holdOff := min b.holdOff holdOffMax
                  wtr := min b.wtr wtrMax }

/-! ## Steps 4 to 7 (R59, R66) -/

/-- DUPLICATE_REF (R59). -/
def State.duplicateRef (s : State) (ref : Word) : Option Refused :=
  (s.byRef ref).map fun e => ⟨.duplicateRef, .heldBy e.1⟩

/-- BANDWIDTH_MISMATCH: the first of some sources that exists with another bandwidth (R59). -/
def State.bandwidthMismatch (s : State) (bandwidth : Nat) (is : List SrcId) : Option Refused :=
  is.findSome? fun i =>
    match s.source i with
    | some x => if x.bandwidth = bandwidth then none else some ⟨.bandwidthMismatch, .otherBandwidth i x.bandwidth⟩
    | none => none

/-- NO_SLOT (R59). -/
def State.noSlot (s : State) : Option Refused := if Config.slots ≤ s.bookings.length then some ⟨.noSlot, .empty⟩ else none

/-- NO_SOURCE_SLOT: more of the named sources are new than there are free records (R59). -/
def State.noSourceSlot (s : State) (is : List SrcId) : Option Refused :=
  let needed := is.countP fun i => (s.source i).isNone
  let free := Config.sourceRecords - s.sources.length
  if free < needed then some ⟨.noSourceSlot, .sourceRecords needed free⟩ else none

/-! ## Steps 8 to 10 (R60 to R63) -/

/-- The refusal of the admission computation, if any: CONFLICT, then CAPACITY, then LEG_LIMIT, of a candidate against the
compared bookings, read in rising slot order (R57, R61 to R63). -/
def State.admission (s : State) (nt : Word) (c : Part) (compared : List (Nat × Booking)) : Option Refused :=
  let parts := compared.map fun e => partsOf nt e.2
  firstRefusal
    [(firstConflict nt c compared).map fun r => ⟨.conflict, .conflictWith r.2.2.1.ref r.2.1 r.2.2.2⟩,
      (firstOverPort s c parts).map fun r => ⟨.capacity, .overCapacity r.1 (instantAt nt r.2.1) r.2.2⟩,
      (firstOverSource c parts).map fun r => ⟨.legLimit, .overLegs r.1 (instantAt nt r.2.1) r.2.2⟩]

/-- The bookings a computation compares: those it has read, as they stood then, and the rest as they stand now (R64). -/
def Job.compared (j : Job) (s : State) : List (Nat × Booking) :=
  j.read ++ s.bookings.filter fun e => j.nextSlot ≤ e.1

/-- The computation of the order in hand reads the next slot that is not FREE (R64; assumption log 10). DESIGN CHOICE: it reaches the
slots in ascending order, each once, and steps 8 to 10 all use that one reading (assumption log 37). -/
def State.readNext (s : State) : State :=
  match s.mgmt.engine with
  | .working j =>
    match s.bookings.find? fun e => j.nextSlot ≤ e.1 with
    | some e => s.setEngine (.working { j with nextSlot := e.1 + 1, read := j.read ++ [e] })
    | none => s
  | _ => s

/-! ## BOOK (R57, R65) -/

/-- Steps 1 to 7 of a BOOK, in order: a refusal, or the fields (R57 to R59). -/
def bookCheck (o : Order) (s : State) : Except Refused Fields :=
  let ps := paramsOf o.cell
  if bookMalformed (lengthOf o.cell) ps then .error ⟨.format, .empty⟩
  else if s.mgmt.mode ≠ .service then .error ⟨.mode, .empty⟩
  else
    match (bookBlock ps).fieldsAt s.time.nt with
    | .error f => .error ⟨.range, .badField f⟩
    | .ok f =>
      match firstRefusal
        [s.duplicateRef (bookBlock ps).ref, s.bandwidthMismatch f.bandwidth f.named, s.noSlot, s.noSourceSlot f.named] with
      | some r => .error r
      | none => .ok f

/-- BOOK, taken with steps 1 to 7 made: it is refused, or its admission computation starts (R57, R64). -/
def State.book (s : State) (o : Order) : State :=
  match bookCheck o s with
  | .error r => s.finish o r.result r.data
  | .ok f => s.setEngine (.working ⟨o, s.time.nt, .book (bookBlock (paramsOf o.cell)).ref f, 0, []⟩)

/-- BOOK (R57). -/
def execBook (s : State) : Host.Outcome State Fault Refusal :=
  s.awake fun s =>
    match s.headOrder .book with
    | some (o, rest) => (s.taken o rest).book o
    | none => s

/-- A booking as BOOK leaves it (R54, R65). -/
def newBooking (ref : Word) (f : Fields) : Booking :=
  { ref := ref
    fields := f
    state := .booked
    position := .onMain
    request := .noRequest
    holdOffLeft := none
    wtrLeft := none
    afresh := false
    meter := .new
    pending := none
    endPending := false
    delivered := 0
    dropped := 0 }

/-- An accepted BOOK takes the lowest FREE slot, and its sources gain their references or are created (R65). -/
def State.acceptBook (s : State) (ref : Word) (f : Fields) : Reply :=
  let k := lowestFree (s.bookings.map Prod.fst) 0
  let b := newBooking ref f
  ⟨b.named.foldl (State.gainRef · f.bandwidth ·) (s.setBooking k b), .done,
    .booked k f.effStart f.plannedEnd f.windowEnd f.preroll f.holdOff f.wtr⟩

/-- The completion of a BOOK's computation (R61 to R65). -/
def State.completeBook (s : State) (j : Job) (ref : Word) (f : Fields) : Reply :=
  match s.admission j.nt (partOf j.nt false f) (j.compared s) with
  | some r => ⟨s, r.result, r.data⟩
  | none => s.acceptBook ref f

/-- BOOK_ACCEPTED: the admission computation of the BOOK in hand completes (R65). -/
def execBookAccepted (s : State) : Host.Outcome State Fault Refusal :=
  s.awake fun s =>
    match s.mgmt.engine with
    | .working j =>
      match j.kind with
      | .book ref f =>
        let r := s.completeBook j ref f
        r.state.finish j.order r.result r.data
      | .modify .. => s
    | _ => s

/-! ## MODIFY: steps 4 and 5 (R67, R68) -/

/-- A booking in BOOKED or PREROLL. -/
def BookingState.isEarly : BookingState → Bool
  | .booked | .preroll => true
  | _ => false

/-- The spare may be changed in this booking as it stands (R67). -/
def Booking.spareOpen (b : Booking) : Bool :=
  match b.state with
  | .booked | .preroll => true
  | .held | .live | .overrun => b.position == .onMain && b.request != .forceSpare
  | _ => false

/-- For each field in the order of R66: that the change names it, that it is available in the booking, and its name
(R66, R67). -/
def Change.availability (c : Change) (b : Booking) : List (Bool × Bool × FieldName) :=
  let early := b.state.isEarly
  [(c.start.isSome, early, .start),
    (c.main.isSome, early, .mainSource),
    (c.group.isSome, early, .startGroup),
    (c.preroll.isSome, early, .preroll),
    (c.account.isSome, early, .account),
    (c.tariffClass.isSome, early || b.state == .held, .tariffClass),
    (c.duration.isSome, true, .plannedDuration),
    (c.allowance.isSome, true, .allowance),
    (c.extend.isSome, true, .extendPermitted),
    (c.adds.isSome, b.state != .extended, .legsToAdd),
    (c.drops.isSome, true, .legsToDrop),
    (c.spare.isSome, b.spareOpen, .spareSource),
    (c.revertive.isSome, true, .revertive),
    (c.switchOnDegrade.isSome, true, .switchOnDegrade),
    (c.holdOff.isSome, true, .holdOff),
    (c.wtr.isSome, true, .waitToRestore)]

/-- Step 4: STATE for an ENDED booking, or for the first named field that is not available (R66, R67). -/
def Change.stateRefusal (c : Change) (b : Booking) : Option Refused :=
  if b.state.isEnded then some ⟨.state, .empty⟩
  else (c.availability b).findSome? fun x => if x.1 && !x.2.1 then some ⟨.state, .badField x.2.2⟩ else none

/-- The pairs carried, when every one is in range (R53). -/
def pairsOf : List (Byte × Byte) → Option (List Pair)
  | [] => some []
  | x :: rest =>
    match pairOf x, pairsOf rest with
    | some q, some qs => some (q :: qs)
    | _, _ => none

/-- The leg list after the drops and then the adds, or none where R68 refuses them (R66, R68). -/
def changedLegs (legs adds drops : List Pair) : Option (List Pair) :=
  let new := legs.filter (fun x => !drops.contains x) ++ adds
  if drops.all legs.contains ∧ adds.all (fun x => !legs.contains x && !drops.contains x) ∧ adds.Nodup ∧ 1 ≤ new.length
      ∧ new.length ≤ 4 then
    some new
  else none

/-- The list resulting from the legs named, if any are (R66, R68). -/
def Change.legs (c : Change) (now : List Pair) : Option (Option (List Pair)) :=
  if c.adds.isNone ∧ c.drops.isNone then some none
  else
    match pairsOf (c.adds.getD []), pairsOf (c.drops.getD []) with
    | some adds, some drops => (changedLegs now adds drops).map some
    | _, _ => none

/-- A named source in range; none when the carried pair is out of range. -/
def namedSource : Option (Byte × Byte) → Option (Option SrcId)
  | none => some none
  | some (p, l) => (srcOf p l).map some

/-- A named spare, absent or in range. -/
def namedSpare : Option (Option (Byte × Byte)) → Option (Option (Option SrcId))
  | none => some none
  | some x => (namedSource x).map some

/-- The numbers a change names lie in their ranges (R53, R68). -/
def Change.inRange (nt : Word) (c : Change) : Bool :=
  c.start.all (fun t => ticksUntil nt t ≤ startAheadMax)
    && c.group.all (· ≤ 32)
    && c.tariffClass.all (· ≤ 31)
    && c.duration.all (fun n => 1 ≤ n && n ≤ durationMax)
    && c.allowance.all (· ≤ allowanceMax)

/-- The modification a change comes to, clamped where R53 clamps (R66, R68). -/
def Change.mod (nt : Word) (c : Change) (main : Option SrcId) (spare : Option (Option SrcId))
    (legs : Option (List Pair)) : Mod :=
  { start := c.start.map fun t => (t, effectiveStart nt t)
    main := main
    group := c.group
    preroll := c.preroll.map (min · prerollMax)
    account := c.account
    tariffClass := c.tariffClass
    duration := c.duration
    allowance := c.allowance
    extend := c.extend
    legs := legs
    spare := spare
    revertive := c.revertive
    switchOnDegrade := c.switchOnDegrade
    holdOff := c.holdOff.map (min · holdOffMax)
    wtr := c.wtr.map (min · wtrMax) }

/-- What R68 asks of the candidate as a whole: the spare is not the main; in BOOKED or PREROLL the planned end is not
reached; with legs to add the window end is not reached. -/
def Change.candidateOk (nt : Word) (c : Change) (b : Booking) (f : Fields) : Bool :=
  f.spare != some f.main
    && !(b.state.isEarly && reached nt f.plannedEnd)
    && !(c.adds.isSome && reached nt f.windowEnd)

/-- Step 5: the modification, or none where RANGE refuses it (R68). -/
def Change.modAt (nt : Word) (c : Change) (b : Booking) : Option Mod :=
  match namedSource c.main, namedSpare c.spare, c.legs b.fields.legs with
  | some main, some spare, some legs =>
    let m := c.mod nt main spare legs
    if c.inRange nt ∧ c.candidateOk nt b (m.apply b.fields) then some m else none
  | _, _, _ => none

/-- Steps 3 to 7 of a MODIFY on the table as it stands, its instants read at `nt`: a refusal, or the slot, its booking and
the modification (R66 to R68). -/
def State.modifyCheck (s : State) (nt : Word) (ref : Word) (c : Change) : Except Refused (Nat × Booking × Mod) :=
  match s.byRef ref with
  | none => .error ⟨.unknown, .empty⟩
  | some (k, b) =>
    match c.stateRefusal b with
    | some r => .error r
    | none =>
      match c.modAt nt b with
      | none => .error ⟨.range, .empty⟩
      | some m =>
        match firstRefusal [s.bandwidthMismatch b.fields.bandwidth m.named, s.noSourceSlot m.named] with
        | some r => .error r
        | none => .ok (k, b, m)

/-! ## MODIFY: admission and acceptance (R69, R70) -/

/-- The first window lies inside the second: it holds no offset that the second does not. -/
def Part.within (p q : Part) : Bool := p.upTo ≤ p.from_ || (q.from_ ≤ p.from_ && p.upTo ≤ q.upTo)

/-- Steps 8 to 10 run on the candidate (R69). -/
def admissionNeeded (nt : Word) (b : Booking) (f : Fields) : Bool :=
  let running := b.state.isRunning
  !reached nt f.windowEnd
    && (b.state == .extended
      || !(partOf nt running f).within (partOf nt running b.fields)
      || f.legs.any (fun x => !b.fields.legs.contains x)
      || f.named.any (fun i => !b.fields.named.contains i))

/-- An accepted MODIFY becomes the booking's pending modification, replacing any earlier one, and the references move, gains
before losses (R35, R70). -/
def State.acceptModify (s : State) (k : Nat) (b : Booking) (m : Mod) : Reply :=
  let b' := { b with pending := some m }
  let f := m.apply b.fields
  ⟨(s.setBooking k b').moveRefs b.fields.bandwidth b.named b'.named, .done,
    .modified k b.pending.isSome f.plannedEnd f.windowEnd⟩

/-- Steps 8 to 10 on a candidate, the booking left out of the comparison, and then acceptance (R60, R69, R70). -/
def State.decideModify (s : State) (nt : Word) (k : Nat) (b : Booking) (m : Mod) (compared : List (Nat × Booking)) : Reply :=
  match s.admission nt (partOf nt b.state.isRunning (m.apply b.fields)) (compared.filter fun e => e.1 != k) with
  | some r => ⟨s, r.result, r.data⟩
  | none => s.acceptModify k b m

/-- MODIFY, taken: it is refused, accepted where R69 asks for no admission, or its computation starts (R66, R69). -/
def State.modify (s : State) (o : Order) : State :=
  let ps := paramsOf o.cell
  if modifyMalformed (lengthOf o.cell) ps then s.finish o .format .empty
  else if s.mgmt.mode ≠ .service then s.finish o .mode .empty
  else
    match s.modifyCheck s.time.nt (word32 ps 0) (modifyBlock ps) with
    | .error r => s.finish o r.result r.data
    | .ok (k, b, m) =>
      if admissionNeeded s.time.nt b (m.apply b.fields) then
        s.setEngine (.working ⟨o, s.time.nt, .modify k (modifyBlock ps) m b, 0, []⟩)
      else
        let r := s.acceptModify k b m
        r.state.finish o r.result r.data

/-- MODIFY (R66). -/
def execModify (s : State) : Host.Outcome State Fault Refusal :=
  s.awake fun s =>
    match s.headOrder .modify with
    | some (o, rest) => (s.taken o rest).modify o
    | none => s

/-- The record stands as it did when the candidate was built: state, fields and pending modification (R64), and the selector
position, on which R67 lets a change of spare depend (assumption log 10). -/
def Booking.sameAs (b built : Booking) : Bool :=
  b.ref == built.ref && b.state == built.state && b.fields == built.fields && b.pending == built.pending
    && b.position == built.position

/-- The candidate built again from the record as it now stands, its checks repeated from step 3 and its computation run to
its end on the table as it now stands; every instant stays read at the taking (R60, R64; assumption log 10). -/
def State.rebuildModify (s : State) (nt : Word) (ref : Word) (c : Change) : Reply :=
  match s.modifyCheck nt ref c with
  | .error r => ⟨s, r.result, r.data⟩
  | .ok (k, b, m) =>
    if admissionNeeded nt b (m.apply b.fields) then s.decideModify nt k b m s.bookings else s.acceptModify k b m

/-- The completion of a MODIFY's computation (R64, R70). -/
def State.completeModify (s : State) (j : Job) (k : Nat) (c : Change) (m : Mod) (built : Booking) : Reply :=
  match s.booking k with
  | some b =>
    if b.sameAs built then s.decideModify j.nt k b m (j.compared s) else s.rebuildModify j.nt built.ref c
  | none => s.rebuildModify j.nt built.ref c

/-- MODIFY_ACCEPTED: the admission computation of the MODIFY in hand completes (R70). -/
def execModifyAccepted (s : State) : Host.Outcome State Fault Refusal :=
  s.awake fun s =>
    match s.mgmt.engine with
    | .working j =>
      match j.kind with
      | .modify k c m built =>
        let r := s.completeModify j k c m built
        r.state.finish j.order r.result r.data
      | .book .. => s
    | _ => s

end Sys2Proof.Machine
end

