-- ==== Sys2Proof/Machine/Time.lean ====
section
/-! DEFINITION. The Time Unit (chapter 2): the tick, time cells, local ticks, and the time orders. -/

namespace Sys2Proof.Machine

/-! ## The tick (R19) -/

/-- A tick is handed to the Source Unit, to the Booking Engine, and to the Fault Watch for every source in the table; each
takes it as it reaches it (R19, R101). -/
def State.handTick (s : State) (t : Tick) : State :=
  { s with
    refillTicks := s.refillTicks ++ [t]
    bookingTicks := s.bookingTicks ++ [t]
    sources := s.sources.map fun e => (e.1, { e.2 with ticks := e.2.ticks ++ [t] }) }

/-- A tick at which NT becomes `v`. It is marked stepped when it is made from an accepted step, or when a step mark is
pending, which it then clears (R19, R28). -/
def State.makeTick (s : State) (v : Word) (stepped : Bool) : State :=
  { s with time := { s.time with nt := v, stepMark := false } }.handTick ⟨v, stepped || s.time.stepMark⟩

/-- The unit is LOCKED on a cell that arrives now: the local schedule stops, the deadline is set 15 ms after the cell, and the
last refused difference becomes absent (R22, R23, R24, R25). -/
def State.lock (s : State) : State :=
  { s with
    time :=
      { s.time with
        state := .locked, nextLocal := none, deadline := some (s.now + Config.deadlineAfter), lastRefused := none } }

/-- The TIME_STATE notice of a change, raised when the state changed (R31). -/
def State.noteTimeState (s : State) (old : TimeState) (cause : TimeCause) : State :=
  if s.time.state = old then s
  else s.raise (.timeState old s.time.state cause s.time.nt s.time.selection)

/-- A time cell taken as a tick, or acquiring NT: NT becomes V, an ordinary tick is made, and the unit is LOCKED
(R22, R23, R24). -/
def State.tickCell (s : State) (v : Word) : State :=
  ((s.makeTick v false).lock).noteTimeState s.time.state .timeCell

/-- The difference of a step: (V − NT − 1) mod 2^32, read signed where it is compared with 0 (R22). -/
def stepDifference (nt v : Word) : Word := v - nt - 1

/-- A step is accepted: NT becomes V, a tick marked stepped is made, and the unit is LOCKED. TIME_STEP is raised before
TIME_STATE (R25, R31). -/
def State.acceptStep (s : State) (v : Word) : State :=
  let s1 := (s.makeTick v true).lock
  (s1.raise (.timeStep .accepted (stepDifference s.time.nt v) v s1.time.nt s1.time.selection
    s1.time.stepCount)).noteTimeState s.time.state .stepAccepted

/-- The unit leaves LOCKED with no tick: the local schedule starts with its first tick at the deadline that was running
(R21, R26, R27). -/
def TimeUnit.unlock (u : TimeUnit) (dest : TimeState) : TimeUnit :=
  { u with state := dest, nextLocal := u.deadline, deadline := none }

/-- A step is refused: it is counted; a difference that is not the last refused one raises TIME_STEP and becomes it; LOCKED
goes to HOLDOVER (R26). -/
def State.refuseStep (s : State) (v : Word) : State :=
  let d := stepDifference s.time.nt v
  let u : TimeUnit := { s.time with stepCount := s.time.stepCount + 1, lastRefused := some d }
  let s1 : State := { s with time := if s.time.state = .locked then u.unlock .holdover else u }
  let s2 :=
    if s.time.lastRefused = some d then s1
    else s1.raise (.timeStep .refused d v s1.time.nt s1.time.selection s1.time.stepCount)
  s2.noteTimeState s.time.state .stepRefused

/-- A time cell that reaches the Time Unit with its arrival port: discarded unless it came on the selected port; it acquires
NT in FREE; otherwise it is matched against NT + 1, and a step is decided by the step policy (R22 to R26). -/
def State.timeCell (s : State) (p : Port) (v : Word) : State :=
  if s.time.selection ≠ some p then s
  else if s.time.state = .free then s.tickCell v
  else if v = s.time.nt + 1 then s.tickCell v
  else
    match s.time.policy with
    | .accept => s.acceptStep v
    | .refuse => s.refuseStep v

/-! ## Local ticks and the deadline (R21, R23) -/

/-- The scheduled instant comes: an ordinary tick is made, and the next instant is set 10 ms later (R21). -/
def State.localTick (s : State) (at_ : Nat) : State :=
  { s with now := max s.now at_, time.nextLocal := some (at_ + Config.localPeriod) }.makeTick (s.time.nt + 1) false

/-- LOCAL_TICK: nothing is due while the schedule is stopped (R21; assumption log 4). -/
def execLocalTick (s : State) : Host.Outcome State Fault Refusal :=
  s.awake fun s =>
    match s.time.nextLocal with
    | some at_ => s.localTick at_
    | none => s

/-- The deadline passes: HOLDOVER, one ordinary tick at once, and the local schedule starts 10 ms later (R23). -/
def State.missDeadline (s : State) (at_ : Nat) : State :=
  let s1 :=
    { s with
      now := max s.now at_
      time :=
        { s.time with state := .holdover, nextLocal := some (at_ + Config.localPeriod), deadline := none } }
  (s1.makeTick (s.time.nt + 1) false).noteTimeState s.time.state .timeout

/-- TIME_CELL_DEADLINE: only in LOCKED is a deadline running (R23). -/
def execTimeCellDeadline (s : State) : Host.Outcome State Fault Refusal :=
  s.awake fun s =>
    match s.time.state, s.time.deadline with
    | .locked, some at_ => s.missDeadline at_
    | _, _ => s

/-- The clock moves on by 1 ms, but past no instant at which a tick is due (assumption log 4). -/
def State.passTime (s : State) : State :=
  let next := s.now + 1
  let bound (at_ : Option Nat) (n : Nat) : Nat :=
    match at_ with
    | some a => if n ≤ a then n else max s.now a
    | none => n
  { s with now := bound s.time.nextLocal (bound s.time.deadline next) }

/-! ## Time orders (R27, R28, R29) -/

/-- TIME SOURCE with a selection in range (R27). -/
def State.selectSource (s : State) (sel : Option Port) : State :=
  if sel = s.time.selection then s
  else
    let u := { s.time with selection := sel, lastRefused := none }
    let dest : TimeState := if sel = none then .localRef else .holdover
    let u' :=
      match s.time.state with
      | .free => u
      | .localRef => u
      | .locked => u.unlock dest
      | .holdover => { u with state := dest }
    { s with time := u' }.noteTimeState s.time.state .sourceOrder

/-- TIME_SOURCE (R27). -/
def execTimeSource (s : State) : Host.Outcome State Fault Refusal :=
  s.awake fun s => s.takeOrder .timeSource fun o s =>
    if o.badLength 1 then ⟨s, .format, .empty⟩
    else
      match selectionOf (byteAt (paramsOf o.cell) 0) with
      | none => ⟨s, .range, .empty⟩
      | some sel =>
        let s' := s.selectSource sel
        ⟨s', .done, .timeSource s'.time.selection s'.time.state⟩

/-- TIME SET in FREE or LOCAL (R28). The TIME_STEP notice is raised before the TIME_STATE notice (R31). -/
def State.setTime (s : State) (t : Word) : State :=
  let s0 := { s with time.lastRefused := none }
  if s.time.state = .free then
    let s1 := { s0 with time := { s0.time with nt := t, state := .localRef, stepMark := true } }
    (s1.raise (.timeStep .set 0 t t s1.time.selection s1.time.stepCount)).noteTimeState .free .setOrder
  else if t = s.time.nt then s0
  else
    let s1 := { s0 with time := { s0.time with nt := t, stepMark := true } }
    s1.raise (.timeStep .set (t - s.time.nt) t t s1.time.selection s1.time.stepCount)

/-- TIME_SET (R28). -/
def execTimeSet (s : State) : Host.Outcome State Fault Refusal :=
  s.awake fun s => s.takeOrder .timeSet fun o s =>
    if o.badLength 4 then ⟨s, .format, .empty⟩
    else if s.time.state = .locked ∨ s.time.state = .holdover then ⟨s, .state, .empty⟩
    else
      let s' := s.setTime (word32 (paramsOf o.cell) 0)
      ⟨s', .done, .timeSet s'.time.nt s'.time.state⟩

/-- TIME_POLICY (R29). -/
def execTimePolicy (s : State) : Host.Outcome State Fault Refusal :=
  s.awake fun s => s.takeOrder .timePolicy fun o s =>
    match if o.badLength 1 then none else policyOf (byteAt (paramsOf o.cell) 0) with
    | none => ⟨s, .format, .empty⟩
    | some pol => ⟨{ s with time := { s.time with policy := pol, lastRefused := none } }, .done, .timePolicy pol⟩

/-- The record TIME STATUS returns (R29). -/
def State.timeStatus (s : State) : TimeStatusData :=
  { state := s.time.state
    nt := s.time.nt
    valid := s.ntValid
    selection := s.time.selection
    policy := s.time.policy
    stepCount := s.time.stepCount
    lastRefused := s.time.lastRefused
    stepMark := s.time.stepMark }

/-- TIME_STATUS (R29). -/
def execTimeStatus (s : State) : Host.Outcome State Fault Refusal :=
  s.awake fun s => s.takeOrder .timeStatus fun o s =>
    if o.badLength 0 then ⟨s, .format, .empty⟩ else ⟨s, .done, .timeStatus s.timeStatus⟩

end Sys2Proof.Machine
end

