-- ==== Sys2Proof/Machine/Line.lean ====
section
/-! DEFINITION. Cells in and out: the arrival of a cell, the line's sending, the answers and notices that follow a freed place,
and what the part does with no command waiting (chapter 1, R161, R162, R165). -/

namespace Sys2Proof.Machine

/-! ## Arrival (R2, R4) -/

/-- Whether a port sorts its management and time cells, and its feed cells, by its state (R4). -/
inductive Sorts
  | all | noFeed | nothing
  deriving DecidableEq, Repr

/-- What a port in a state sorts (R4). -/
def PortState.sorts : PortState → Sorts
  | .enabled => .all
  | .draining => .noFeed
  | .disabled => .noFeed
  | .dark _ => .nothing

/-- A cell that passed the header check is sorted by its label (R4, R5). -/
def State.sortCell (s : State) (p : Port) (c : Cell) : State :=
  match (s.port p).state.sorts with
  | .nothing => s
  | .noFeed =>
    if c.label = 0#8 then s.managementCell p c
    else if c.label = 255#8 then s.timeCell p (timeValue c)
    else s.countUnbooked p
  | .all =>
    if c.label = 0#8 then s.managementCell p c
    else if c.label = 255#8 then s.timeCell p (timeValue c)
    else s.feedCell p c

/-- A passing cell ends the run of failing ones (R3). -/
def State.endFailRun (s : State) (p : Port) : State := s.setPort p { s.port p with failRun := 0 }

/-- A cell arrives while the line is DELINEATED (R2, R4). -/
def State.takeCell (s : State) (p : Port) (bytes : List Byte) : State :=
  if checkPasses bytes then (s.endFailRun p).sortCell p (cellOf bytes) else s.failCell p

/-- CELL_ARRIVAL: with the line not DELINEATED the cell is neither counted nor sorted (R2, R3). -/
def execCellArrival (p : Port) (bytes : List Byte) (s : State) : Host.Outcome State Fault Refusal :=
  s.awake fun s => if (s.port p).line = .delineated then s.takeCell p bytes else s

/-! ## Sending (R13, R14) -/

/-- A place has been freed in a port's management queue: the waiting answer takes it, or, when no answer waits for it and this
is the controller port, the head notice (R13). -/
def State.fillPlace (s : State) (p : Port) : State :=
  if s.mgmt.engine.isWaiting then s.appendWaiting p
  else
    match s.mgmt.controller with
    | some c => if c.port = p then s.deliverNotice else s
    | none => s

/-- The line takes a management cell, and the place it frees is filled (R13, R14). -/
def State.sendMgmt (s : State) (p : Port) (c : MgmtCell) (rest : List MgmtCell) : State :=
  (s.setPort p { s.port p with mgmtQ := rest, lineOut := some (.mgmt c) }).fillPlace p

/-- The line takes a feed cell, and a DRAINING port may have drained (R7, R14). -/
def State.sendFeed (s : State) (p : Port) (c : Cell) (rest : List Cell) : State :=
  (s.setPort p { s.port p with feedQ := rest, lineOut := some (.feed c) }).drainIfEmpty p

/-- The line takes an idle cell (R14). -/
def State.sendIdle (s : State) (p : Port) : State := s.setPort p { s.port p with lineOut := some .idle }

/-- A port's feed queue may be sent from (R14). -/
def PortRec.feedOpen (r : PortRec) : Bool := r.state == .enabled || r.state == .draining

/-- The line of a port takes one cell: the head management cell, else the head feed cell where the state allows, else an idle
cell (R14). -/
def State.lineSend (s : State) (p : Port) : State :=
  match (s.port p).mgmtQ, (s.port p).feedQ with
  | c :: rest, _ => s.sendMgmt p c rest
  | [], c :: rest => if (s.port p).feedOpen then s.sendFeed p c rest else s.sendIdle p
  | [], [] => s.sendIdle p

/-- LINE_SEND (R14). -/
def execLineSend (p : Port) (s : State) : Host.Outcome State Fault Refusal := s.awake fun s => s.lineSend p

/-- DRAINED: a DRAINING port's feed queue becomes empty. Its last cell is sent if it is still there and is the line's next
(R7; assumption log 6). -/
def execDrained (p : Port) (s : State) : Host.Outcome State Fault Refusal :=
  s.awake fun s =>
    let r := s.port p
    if r.state = .draining then
      if r.feedQ = [] then s.drainIfEmpty p
      else if r.mgmtQ = [] ∧ r.feedQ.length = 1 then s.lineSend p
      else s
    else s

/-- ANSWER_APPENDED: the waiting answer takes a place in its port's management queue. Where no place is free, the line sends the
head cell that frees one (R13, R162; assumption log 6). -/
def execAnswerAppended (s : State) : Host.Outcome State Fault Refusal :=
  s.awake fun s =>
    match s.mgmt.engine with
    | .answerWait p _ => if (s.port p).mgmtRoom then s.appendWaiting p else s.lineSend p
    | _ => s

/-- NOTICE_DELIVERY (R165). -/
def execNoticeDelivery (s : State) : Host.Outcome State Fault Refusal := s.awake State.deliverNotice

/-! ## No command waiting -/

/-- What the part does of its own accord when no command waits: it refuses a head order of no known code, its admission
computation goes on, and its clock runs (R64, R162; assumption log 4, 1, 10). -/
def State.idle (s : State) : State := if s.inReset then s else s.takeUnknown.readNext.passTime

end Sys2Proof.Machine
end

