-- ==== Sys2Proof/Machine/BookingOrders.lean ====
section
/-! DEFINITION. The orders on bookings that admission does not concern: CANCEL, END, SELECT, BOOKING READ, GROUP HOLD and
GROUP RELEASE (chapters 4, 5 and 7). -/

namespace Sys2Proof.Machine

/-- The booking an order names by the reference in its first four parameter bytes (R52). -/
def State.namedBooking (s : State) (o : Order) : Option (Nat × Booking) := s.byRef (word32 (paramsOf o.cell) 0)

/-! ## CANCEL (R71, R72) -/

/-- The cancel is late: the start is reached, or lies nearer than the class's cancel window; a HELD booking's always is
(R71). A BLANK class has no cancel window. -/
def State.cancelIsLate (s : State) (b : Booking) : Bool :=
  b.state == .held || reached s.time.nt b.fields.start
    || match s.tariff b.fields.tariffClass with
      | some t => ticksUntil s.time.nt b.fields.start < t.window
      | none => false

/-- An early cancel: references fall and the slot becomes FREE; no bill and no notice (R71). -/
def State.cancelEarly (s : State) (k : Nat) (b : Booking) : Reply :=
  ⟨(b.named.foldl State.loseRef s).freeSlot k, .done, .cancelled⟩

/-- The bill of a late cancel (R72). -/
def State.lateBill (s : State) (b : Booking) : Bill :=
  let t := s.tariff b.fields.tariffClass
  closeUnlive b .cancelledLate s.time.nt t.isNone ((t.map Tariff.fee).getD 0)

/-- A late cancel: references fall, a HELD booking leaves its group, and the bill is handed over and noted (R72). -/
def State.cancelLate (s : State) (k : Nat) (b : Booking) : Reply :=
  let s1 := if b.state = .held then s.leaveGroup b.fields.group else s
  let s2 := b.named.foldl State.loseRef s1
  ⟨s2.handAndNote k b.clear (s.lateBill b), .done, .cancelledLate s.seqIfRoom⟩

/-- CANCEL, its checks in the order of R71. -/
def cancelOrder (o : Order) (s : State) : Reply :=
  if o.badLength 4 then ⟨s, .format, .empty⟩
  else if s.mgmt.mode ≠ .service then ⟨s, .mode, .empty⟩
  else
    match s.namedBooking o with
    | none => ⟨s, .unknown, .empty⟩
    | some (k, b) =>
      if b.state.isLive || b.state.isEnded then ⟨s, .state, .empty⟩
      else if s.cancelIsLate b then s.cancelLate k b
      else s.cancelEarly k b

/-- CANCEL (R71). -/
def execCancel (s : State) : Host.Outcome State Fault Refusal :=
  s.awake fun s => s.takeOrder .cancel cancelOrder

/-! ## END (R94) -/

/-- END, its checks in the order of R94. -/
def endOrder (o : Order) (s : State) : Reply :=
  if o.badLength 4 then ⟨s, .format, .empty⟩
  else if s.mgmt.mode = .commissioning then ⟨s, .mode, .empty⟩
  else
    match s.namedBooking o with
    | none => ⟨s, .unknown, .empty⟩
    | some (k, b) =>
      if b.state.isLive then ⟨s.setBooking k { b with endPending := true }, .done, .endPending b.state⟩
      else ⟨s, .state, .empty⟩

/-- END (R94). -/
def execEndBooking (s : State) : Host.Outcome State Fault Refusal :=
  s.awake fun s => s.takeOrder .endBooking endOrder

/-! ## SELECT (R125) -/

/-- A request that needs a spare in the record (R125). -/
def Request.needsSpare : Request → Bool
  | .forceMain | .forceSpare => true
  | _ => false

/-- The request takes a value; the order changes no countdown itself, but a CLEAR that ends a request leaves the mark that both
start from absent at the next stage 4 (R125, R126; assumption log 29). -/
def Booking.placeRequest (b : Booking) (req : Request) : Booking :=
  { b with request := req, afresh := b.afresh || (req == .noRequest && b.request != .noRequest) }

/-- SELECT, its checks in the order of R125. -/
def selectOrder (o : Order) (s : State) : Reply :=
  match if o.badLength 5 then none else requestOf (byteAt (paramsOf o.cell) 4) with
  | none => ⟨s, .format, .empty⟩
  | some req =>
    if s.mgmt.mode = .commissioning then ⟨s, .mode, .empty⟩
    else
      match s.namedBooking o with
      | none => ⟨s, .unknown, .empty⟩
      | some (k, b) =>
        if b.state.isEnded || (req.needsSpare && b.fields.spare.isNone) then ⟨s, .state, .empty⟩
        else
          ⟨s.setBooking k (b.placeRequest req), .done, .selector req b.position b.holdOffLeft b.wtrLeft⟩

/-- SELECT (R125). -/
def execSelect (s : State) : Host.Outcome State Fault Refusal :=
  s.awake fun s => s.takeOrder .select selectOrder

/-! ## BOOKING READ (R73) -/

/-- What BOOKING READ returns for a slot and its booking (R73). The model's own mark `afresh` is no item of the record, and is
shown clear. -/
def bookingRecord (k : Nat) (b : Booking) : AnswerData := .booking k { b with afresh := false } b.fields.instants

/-- BOOKING READ, by reference or by slot (R73, R172). -/
def bookingReadOrder (o : Order) (s : State) : Reply :=
  let by_ := byteAt (paramsOf o.cell) 0
  let n := word32 (paramsOf o.cell) 1
  if o.badLength 5 || !isYesNo by_ then ⟨s, .format, .empty⟩
  else if by_ = 0#8 then
    match s.byRef n with
    | none => ⟨s, .unknown, .empty⟩
    | some (k, b) => ⟨s, .done, bookingRecord k b⟩
  else if Config.slots ≤ n.toNat then ⟨s, .range, .empty⟩
  else
    match s.booking n.toNat with
    | none => ⟨s, .done, .freeSlot⟩
    | some b => ⟨s, .done, bookingRecord n.toNat b⟩

/-- BOOKING_READ (R73). -/
def execBookingRead (s : State) : Host.Outcome State Fault Refusal :=
  s.awake fun s => s.takeOrder .bookingRead bookingReadOrder

/-! ## Start groups (R75, R76) -/

/-- The work of an order that names a group, 1 to 32, which takes the state `next` gives for its count (R75, R76). -/
def groupOrder (next : Nat → GroupState) (o : Order) (s : State) : Reply :=
  let g := (byteAt (paramsOf o.cell) 0).toNat
  if o.badLength 1 then ⟨s, .format, .empty⟩
  else
    match s.groupOf g with
    | none => ⟨s, .range, .empty⟩
    | some x => ⟨s.setGroup g { x with state := next x.held }, .done, .group (next x.held) x.held⟩

/-- GROUP_HOLD (R75). -/
def execGroupHold (s : State) : Host.Outcome State Fault Refusal :=
  s.awake fun s => s.takeOrder .groupHold (groupOrder fun _ => .holding)

/-- GROUP_RELEASE (R76). -/
def execGroupRelease (s : State) : Host.Outcome State Fault Refusal :=
  s.awake fun s => s.takeOrder .groupRelease (groupOrder fun n => if 0 < n then .releasing else .opened)

end Sys2Proof.Machine
end

