-- ==== Sys2Proof/Machine/Node.lean ====
section
/-! DEFINITION. Hard reset, and the orders of the node itself: IDENTIFY, SET MODE, MANAGEMENT RESTART and its action, SET HOLD
THRESHOLD, SET ROUTE and CLEAR TRAFFIC (R17, chapter 10). -/

namespace Sys2Proof.Machine

/-! ## Hard reset (R17) -/

/-- The cells in the queues of a port, or on its line, are lost (R17). -/
def PortRec.loseCells (r : PortRec) : PortRec := { r with mgmtQ := [], feedQ := [], lineOut := none }

/-- HARD_RESET_ASSERT: the part takes no cells, sends none and makes no tick, and the cells in its queues and on their way
through it are lost (R17). Everything else waits for the release, which sets it afresh. -/
def execHardResetAssert (s : State) : Host.Outcome State Fault Refusal :=
  .next
    { s.mapPorts PortRec.loseCells with
      inReset := true
      mgmt := { s.mgmt with engine := .ready, restart := false, orders := [], notices := [] } }

/-- HARD_RESET_RELEASE: every block takes its hard-reset values (R17). The commands that wait outside the part, and the count
of free values read, are the model's own and stand. -/
def execHardResetRelease (straps : BitVec 10) (light : BitVec 16) (s : State) : Host.Outcome State Fault Refusal :=
  .next { State.hardReset straps light with pending := s.pending, freeRead := s.freeRead }

/-! ## IDENTIFY (R166) -/

/-- What IDENTIFY returns (R166). -/
def State.identity (s : State) : IdentifyData :=
  { vendor := Config.vendorCode
    part := Config.partCode
    revision := Config.revision
    address := s.mgmt.address
    strapFault := s.mgmt.strapFault
    mode := s.mgmt.mode
    timeState := s.time.state
    freeSlots := Config.slots - s.bookings.length
    freeSources := Config.sourceRecords - s.sources.length
    bills := s.bills.records.length }

/-- IDENTIFY (R166). -/
def execIdentify (s : State) : Host.Outcome State Fault Refusal :=
  s.awake fun s => s.takeOrder .identify fun o s =>
    if o.badLength 0 then ⟨s, .format, .empty⟩ else ⟨s, .done, .identify s.identity⟩

/-! ## SET MODE (R168) -/

/-- The table of R168 allows the change to a mode. -/
def State.modeAllowed (s : State) (new : NodeMode) : Bool :=
  match s.mgmt.mode, new with
  | .commissioning, .commissioning => true
  | .commissioning, .service => s.ntValid
  | .commissioning, .frozen => false
  | .service, .commissioning => s.bookings.isEmpty && s.bills.records.isEmpty
  | .service, .service => true
  | .service, .frozen => true
  | .frozen, .commissioning => s.bookings.isEmpty && s.bills.records.isEmpty
  | .frozen, .service => true
  | .frozen, .frozen => true

/-- What a STATE refusal of SET MODE reports: the mode, and for COMMISSIONING the slots not FREE and the bill count (R168). -/
def State.modeRefusal (s : State) (new : NodeMode) : AnswerData :=
  if new = .commissioning then .notFree s.mgmt.mode s.bookings.length s.bills.records.length
  else .nodeMode s.mgmt.mode

/-- SET_MODE (R168). DESIGN CHOICE: a FORMAT refusal reports nothing, where DONE and STATE report the mode (assumption log 35). -/
def execSetMode (s : State) : Host.Outcome State Fault Refusal :=
  s.awake fun s => s.takeOrder .setMode fun o s =>
    match if o.badLength 1 then none else modeOf (byteAt (paramsOf o.cell) 0) with
    | none => ⟨s, .format, .empty⟩
    | some m =>
      if s.modeAllowed m then ⟨{ s with mgmt.mode := m }, .done, .nodeMode m⟩ else ⟨s, .state, s.modeRefusal m⟩

/-! ## MANAGEMENT RESTART (R169) -/

/-- MANAGEMENT_RESTART: its answer is built and offered first; the restart is then due (R169; assumption log 8, and log 36 for
the notices that go out before it acts). -/
def execManagementRestart (s : State) : Host.Outcome State Fault Refusal :=
  s.awake fun s => s.takeOrder .managementRestart fun o s =>
    if o.badLength 0 then ⟨s, .format, .empty⟩ else ⟨{ s with mgmt.restart := true }, .done, .empty⟩

/-- The restart acts (R169). -/
def State.actRestart (s : State) : State :=
  { s with
    mgmt :=
      { s.mgmt with
        engine := .ready
        restart := false
        orders := []
        notices := []
        discarded := 0
        holdThreshold := Config.holdDefault
        controller := none } }

/-- RESTART_ACTION: the restart's answer has been appended or discarded, and the restart acts (R169). -/
def execRestartAction (s : State) : Host.Outcome State Fault Refusal :=
  s.awake fun s => if s.mgmt.restart && s.mgmt.engine.isReady then s.actRestart else s

/-! ## SET HOLD THRESHOLD (R163) -/

/-- SET_HOLD_THRESHOLD (R163). -/
def execSetHoldThreshold (s : State) : Host.Outcome State Fault Refusal :=
  s.awake fun s => s.takeOrder .setHoldThreshold fun o s =>
    let v := clamp 1 16 (byteAt (paramsOf o.cell) 0).toNat
    s.checked [checkStep (o.badLength 1) .format]
      ⟨{ s with mgmt.holdThreshold := v.value }, .done, .threshold v⟩

/-! ## SET ROUTE (R160) -/

/-- The entry SET ROUTE gives, or none where RANGE refuses it; clearing ignores the range and port (R160, R172). -/
def routeEntry (ps : List Byte) : Option (Option Route) :=
  if byteAt ps 1 = 0#8 then some none
  else
    let low := (word16 ps 2).toNat
    let high := (word16 ps 4).toNat
    match portOf (byteAt ps 6) with
    | some p => if 1 ≤ low ∧ low ≤ high ∧ high ≤ 1000 then some (some ⟨low, high, p⟩) else none
    | none => none

/-- SET ROUTE, its checks in the order of R160. -/
def setRoute (o : Order) (s : State) : Reply :=
  let ps := paramsOf o.cell
  if o.badLength 7 || !isYesNo (byteAt ps 1) then ⟨s, .format, .empty⟩
  else if s.mgmt.mode = .frozen then ⟨s, .mode, .empty⟩
  else
    match portOf (byteAt ps 0), routeEntry ps with
    | some e, some r => ⟨{ s with mgmt.routes := s.mgmt.routes.set e r }, .done, .route e.val r⟩
    | _, _ => ⟨s, .range, .empty⟩

/-- SET_ROUTE (R160). -/
def execSetRoute (s : State) : Host.Outcome State Fault Refusal :=
  s.awake fun s => s.takeOrder .setRoute setRoute

/-! ## CLEAR TRAFFIC (R95, R170) -/

/-- Step 1 of R95 for one slot: a live booking ends ABORTED at the current NT. -/
def abortSlot (s : State) (k : Nat) : State :=
  match s.booking k with
  | some b => if b.state.isLive then s.endBooking k b .aborted s.time.nt else s
  | none => s

/-- Step 2 of R95 for one slot: a booking not yet live becomes FREE, and its references fall. -/
def freeEarly (s : State) (k : Nat) : State :=
  match s.booking k with
  | some b => if b.state.isLive || b.state.isEnded then s else (b.named.foldl State.loseRef s).freeSlot k
  | none => s

/-- The feed queue of one port is flushed (R18, R170). -/
def PortRec.flushFeed (r : PortRec) : PortRec := { r with feedQ := [] }

/-- CLEAR TRAFFIC once its checks have passed: bookings, groups, sources, feed queues, drains (R18, R51, R95, R170). -/
def State.clearTraffic (s : State) : State :=
  let slots := s.bookings.map Prod.fst
  let s1 := slots.foldl abortSlot s
  let s2 := slots.foldl freeEarly s1
  let s3 : State := { s2 with groups := Vector.replicate 32 ⟨.opened, 0⟩, sources := [] }
  (List.finRange 16).foldl State.drainIfEmpty (s3.mapPorts PortRec.flushFeed)

/-- The bookings that CLEAR TRAFFIC ends, and those it frees without a bill (R170). -/
def State.liveCount (s : State) : Nat := s.bookings.countP fun e => e.2.state.isLive
def State.earlyCount (s : State) : Nat := s.bookings.countP fun e => !e.2.state.isLive && !e.2.state.isEnded

/-- The work of CLEAR TRAFFIC, with its four counts (R170). -/
def clearTrafficOrder (o : Order) (s : State) : Reply :=
  let s' := s.clearTraffic
  s.checked [checkStep (o.badLength 0) .format, checkStep (s.mgmt.mode = .commissioning) .mode]
    ⟨s', .done,
      .trafficCleared s.liveCount s.earlyCount (s'.bills.records.length - s.bills.records.length) s'.waiters⟩

/-- CLEAR_TRAFFIC (R170). -/
def execClearTraffic (s : State) : Host.Outcome State Fault Refusal :=
  s.awake fun s => s.takeOrder .clearTraffic clearTrafficOrder

end Sys2Proof.Machine
end

