-- ==== Sys2Proof/Machine/Dispatch.lean ====
section
/-! DEFINITION. The dispatch of a command to its meaning: one arm for each row of the opcode table. -/

namespace Sys2Proof.Machine

/-- A command's effect on everything but the queue of commands. -/
def exec (i : Instr) (s : State) : Host.Outcome State Fault Refusal :=
  match i with
  | .hardResetAssert => Sys2Proof.Machine.execHardResetAssert s
  | .hardResetRelease straps light => Sys2Proof.Machine.execHardResetRelease straps light s
  | .lossOfLight p => Sys2Proof.Machine.execLossOfLight p s
  | .lightReturns p => Sys2Proof.Machine.execLightReturns p s
  | .cellArrival p bytes => Sys2Proof.Machine.execCellArrival p bytes s
  | .delineationFound p => Sys2Proof.Machine.execDelineationFound p s
  | .lossOfDelineation p => Sys2Proof.Machine.execLossOfDelineation p s
  | .lineSend p => Sys2Proof.Machine.execLineSend p s
  | .drained p => Sys2Proof.Machine.execDrained p s
  | .answerAppended => Sys2Proof.Machine.execAnswerAppended s
  | .noticeDelivery => Sys2Proof.Machine.execNoticeDelivery s
  | .localTick => Sys2Proof.Machine.execLocalTick s
  | .timeCellDeadline => Sys2Proof.Machine.execTimeCellDeadline s
  | .tokenRefill => Sys2Proof.Machine.execTokenRefill s
  | .sourceTick p label => Sys2Proof.Machine.execSourceTick p label s
  | .silent p label => Sys2Proof.Machine.execSilent p label s
  | .cleared p label => Sys2Proof.Machine.execCleared p label s
  | .windowEnd p label => Sys2Proof.Machine.execWindowEnd p label s
  | .bookingTick => Sys2Proof.Machine.execBookingTick s
  | .holdOffExpiry slot => Sys2Proof.Machine.execHoldOffExpiry slot s
  | .wtrExpiry slot => Sys2Proof.Machine.execWtrExpiry slot s
  | .identify => Sys2Proof.Machine.execIdentify s
  | .setMode => Sys2Proof.Machine.execSetMode s
  | .managementRestart => Sys2Proof.Machine.execManagementRestart s
  | .restartAction => Sys2Proof.Machine.execRestartAction s
  | .setHoldThreshold => Sys2Proof.Machine.execSetHoldThreshold s
  | .setRoute => Sys2Proof.Machine.execSetRoute s
  | .clearTraffic => Sys2Proof.Machine.execClearTraffic s
  | .portEnable => Sys2Proof.Machine.execPortEnable s
  | .portDisable => Sys2Proof.Machine.execPortDisable s
  | .portStatus => Sys2Proof.Machine.execPortStatus s
  | .portCapacity => Sys2Proof.Machine.execPortCapacity s
  | .timeSource => Sys2Proof.Machine.execTimeSource s
  | .timeSet => Sys2Proof.Machine.execTimeSet s
  | .timePolicy => Sys2Proof.Machine.execTimePolicy s
  | .timeStatus => Sys2Proof.Machine.execTimeStatus s
  | .sourceStatus => Sys2Proof.Machine.execSourceStatus s
  | .sourceWatch => Sys2Proof.Machine.execSourceWatch s
  | .book => Sys2Proof.Machine.execBook s
  | .bookAccepted => Sys2Proof.Machine.execBookAccepted s
  | .modify => Sys2Proof.Machine.execModify s
  | .modifyAccepted => Sys2Proof.Machine.execModifyAccepted s
  | .cancel => Sys2Proof.Machine.execCancel s
  | .endBooking => Sys2Proof.Machine.execEndBooking s
  | .select => Sys2Proof.Machine.execSelect s
  | .bookingRead => Sys2Proof.Machine.execBookingRead s
  | .groupHold => Sys2Proof.Machine.execGroupHold s
  | .groupRelease => Sys2Proof.Machine.execGroupRelease s
  | .tariffWrite => Sys2Proof.Machine.execTariffWrite s
  | .tariffLock => Sys2Proof.Machine.execTariffLock s
  | .tariffClearAll => Sys2Proof.Machine.execTariffClearAll s
  | .tariffRead => Sys2Proof.Machine.execTariffRead s
  | .tariffCheck => Sys2Proof.Machine.execTariffCheck s
  | .billRead => Sys2Proof.Machine.execBillRead s
  | .billRelease => Sys2Proof.Machine.execBillRelease s

end Sys2Proof.Machine
end

