-- ==== Sys2Proof/Safety.lean ====
section
/-! DEFINITION. What the statements are made of: an order the engine is about to take, and the invariants that every step
keeps. -/

namespace Sys2Proof.Machine

/-! ## An order about to be taken -/

/-- The part is out of reset, the engine is READY with no restart due, and the order `o` of kind `k`, `n` parameter bytes long,
heads the queue (R162, R172). -/
structure Offers (s : State) (k : OrderKind) (n : Nat) (o : Order) (rest : List Order) : Prop where
  awake : s.inReset = false
  ready : s.mgmt.engine = .ready
  noRestart : s.mgmt.restart = false
  head : s.mgmt.orders = o :: rest
  code : codeOf o.cell = k.code
  length : lengthOf o.cell = n

/-- A parameter byte of an order (R172). -/
def Order.param (o : Order) (i : Nat) : Byte := byteAt (paramsOf o.cell) i

/-- Four parameter bytes of an order, most significant first (R172). -/
def Order.word (o : Order) (i : Nat) : Word := word32 (paramsOf o.cell) i

/-- A command's whole effect: the order `o` has been taken, the state has become `t`, and the answer with this result and data
goes to the arrival port under R162. -/
def Answers (c : Instr) (s : State) (o : Order) (t : State) (r : Result) (d : AnswerData) : Prop :=
  exec c s = .next (t.finish o r d)

/-- The engine is in an admission computation. -/
def Engine.isWorking : Engine → Bool
  | .working _ => true
  | _ => false

/-- The state after a source's tick with the record `y`, and the notice of its change of watch state if it changed. -/
def afterSourceTick (s : State) (old : Source) (y : Source) (cause : WatchCause) (nt : Word) : State :=
  (s.setSource y).raise
    (.sourceState y.id old.watch.state y.watch.state cause nt y.watch.silentRun y.watch.goodRun y.watch.lastErrored
      y.watch.failures y.watch.degradations)

/-- Notices raised one after another (R165). -/
def State.raiseAll (s : State) (notes : List NoticeContent) : State := notes.foldl State.raise s

/-- The steps of an order's checks, in order, with what each failing one answers: the first that fails is answered, on the state
`t`, and nothing else happens (R162). -/
def AnswersFirst (c : Instr) (s : State) (o : Order) (t : State) (steps : List (Prop × Refused)) : Prop :=
  ∀ (n : Nat) (p : Prop) (r : Refused), steps[n]? = some (p, r) → p →
    (∀ (m : Nat) (q : Prop) (r' : Refused), m < n → steps[m]? = some (q, r') → ¬ q) → Answers c s o t r.result r.data

/-! ## Reservations as chapter 4 gives them -/

/-- The fields a booking holds a reservation for: its current ones in BOOKED, PREROLL, HELD, LIVE and OVERRUN, and those its pending
modification leads to (R55, R56). -/
def Booking.reserved (b : Booking) : List Fields :=
  let after := (b.pending.map fun m => m.apply b.fields).toList
  match b.state with
  | .ended _ => []
  | .extended => after
  | _ => b.fields :: after

/-- The offset from `nt` at which the window of some fields opens: 0 for a running booking, and never below 0 (R60). -/
def Fields.opens (nt : Word) (running : Bool) (f : Fields) : Int :=
  if running then 0 else max 0 (ticksUntil nt f.effStart)

/-- The offset from `nt` up to which the window lasts (R60). -/
def Fields.shuts (nt : Word) (f : Fields) : Int := max 0 (ticksUntil nt f.windowEnd)

/-- The window of some fields holds an offset (R60). -/
def Fields.spans (nt : Word) (running : Bool) (f : Fields) (x : Int) : Prop := f.opens nt running ≤ x ∧ x < f.shuts nt

/-- The bandwidth of some fields on a port (R55). -/
def Fields.onPort (p : Port) (f : Fields) : Nat := f.bandwidth * pairsOn p f.legs

/-- The leg-list places of some fields on a source (R55). -/
def Fields.onSource (i : SrcId) (f : Fields) : Nat := if i ∈ f.named then f.legs.length else 0

/-- What a booking counts for at an offset: the larger of the shares of the fields whose window holds it (R56). -/
def Booking.shareAt (nt : Word) (share : Fields → Nat) (x : Int) (b : Booking) : Nat :=
  ((b.reserved.filter fun g => g.opens nt b.state.isRunning ≤ x && x < g.shuts nt).map share).foldr max 0

/-- The load, or the count, of some bookings at an offset (R62, R63). -/
def totalAt (nt : Word) (share : Fields → Nat) (x : Int) (others : List (Nat × Booking)) : Nat :=
  (others.map fun e => e.2.shareAt nt share x).sum

/-- An evaluation point of a candidate: where its window opens, or where the window of a compared booking opens inside it (R60). -/
def IsPoint (nt : Word) (running : Bool) (f : Fields) (others : List (Nat × Booking)) (x : Int) : Prop :=
  x = f.opens nt running
    ∨ f.spans nt running x ∧ ∃ e ∈ others, ∃ g ∈ e.2.reserved, g.opens nt e.2.state.isRunning = x

/-- Fields a compared booking reserves for that hold a pair in a window overlapping the candidate's (R61). -/
def Clashes (nt : Word) (running : Bool) (f : Fields) (b : Booking) (g : Fields) (x : Pair) : Prop :=
  g ∈ b.reserved ∧ x ∈ g.legs ∧ g.opens nt b.state.isRunning < f.shuts nt ∧ f.opens nt running < g.shuts nt

/-- No pair the candidate names is held by a compared booking in an overlapping window (R61). -/
def PairsFree (nt : Word) (running : Bool) (f : Fields) (others : List (Nat × Booking)) : Prop :=
  ∀ e ∈ others, ∀ x ∈ f.legs, ∀ g, ¬ Clashes nt running f e.2 g x

/-- A port has the capacity for the candidate at an evaluation point (R62). -/
def PortFits (s : State) (nt : Word) (f : Fields) (others : List (Nat × Booking)) (p : Port) (x : Int) : Prop :=
  totalAt nt (Fields.onPort p) x others + f.onPort p ≤ (s.port p).capacity

/-- Every port that the candidate names has the capacity at every evaluation point (R62). -/
def PortsFit (s : State) (nt : Word) (running : Bool) (f : Fields) (others : List (Nat × Booking)) : Prop :=
  ∀ q ∈ f.legs, ∀ x, IsPoint nt running f others x → PortFits s nt f others q.port x

/-- A source has the places for the candidate at an evaluation point (R63). -/
def SourceFits (nt : Word) (f : Fields) (others : List (Nat × Booking)) (i : SrcId) (x : Int) : Prop :=
  totalAt nt (Fields.onSource i) x others + f.legs.length ≤ 16

/-- The candidate passes steps 8 to 10 (R61 to R63). -/
structure Admissible (s : State) (nt : Word) (running : Bool) (f : Fields) (others : List (Nat × Booking)) : Prop where
  pairs : PairsFree nt running f others
  ports : PortsFit s nt running f others
  sources : ∀ i ∈ f.named, ∀ x, IsPoint nt running f others x → SourceFits nt f others i x

/-- CONFLICT: the clashing booking whose window opens earliest, ties to the lower slot, with the first of the candidate's pairs that
it holds. Of a booking that reserves with two parts, only a part that clashes counts, for the order and for the pair: the model's
choice, assumption log 32 (R61). -/
def ConflictWith (nt : Word) (running : Bool) (f : Fields) (others : List (Nat × Booking)) (r : Refused) : Prop :=
  ∃ e ∈ others, ∃ (n : Nat) (x : Pair), r = ⟨.conflict, .conflictWith e.2.ref e.1 x⟩ ∧ f.legs[n]? = some x
    ∧ (∃ g, Clashes nt running f e.2 g x)
    ∧ (∀ m < n, ∀ y g, f.legs[m]? = some y → ¬ Clashes nt running f e.2 g y)
    ∧ ∃ g, (∃ y ∈ f.legs, Clashes nt running f e.2 g y)
        ∧ ∀ e' ∈ others, ∀ g', (∃ y ∈ f.legs, Clashes nt running f e'.2 g' y) →
            g.opens nt e.2.state.isRunning < g'.opens nt e'.2.state.isRunning
              ∨ g.opens nt e.2.state.isRunning = g'.opens nt e'.2.state.isRunning ∧ e.1 ≤ e'.1

/-- CAPACITY: the first port in ascending number, and the earliest evaluation point, over capacity, with the load there (R62). -/
def OverCapacityAt (s : State) (nt : Word) (running : Bool) (f : Fields) (others : List (Nat × Booking)) (r : Refused) : Prop :=
  ∃ q ∈ f.legs, ∃ x,
    r = ⟨.capacity, .overCapacity q.port (nt + BitVec.ofInt 32 x) (totalAt nt (Fields.onPort q.port) x others + f.onPort q.port)⟩
    ∧ IsPoint nt running f others x ∧ ¬ PortFits s nt f others q.port x
    ∧ (∀ y, IsPoint nt running f others y → y < x → PortFits s nt f others q.port y)
    ∧ ∀ q' ∈ f.legs, q'.port < q.port → ∀ y, IsPoint nt running f others y → PortFits s nt f others q'.port y

/-- LEG_LIMIT: the main before the spare, and the earliest evaluation point, over 16, with the count there (R63). -/
def OverLegsAt (nt : Word) (running : Bool) (f : Fields) (others : List (Nat × Booking)) (r : Refused) : Prop :=
  ∃ i ∈ f.named, ∃ x,
    r = ⟨.legLimit, .overLegs i (nt + BitVec.ofInt 32 x) (totalAt nt (Fields.onSource i) x others + f.legs.length)⟩
    ∧ IsPoint nt running f others x ∧ ¬ SourceFits nt f others i x
    ∧ (∀ y, IsPoint nt running f others y → y < x → SourceFits nt f others i y)
    ∧ (i = f.main ∨ ∀ y, IsPoint nt running f others y → SourceFits nt f others f.main y)

/-- The refusal of steps 8 to 10, the first failing step in order (R57, R61 to R63). -/
def AdmissionRefuses (s : State) (nt : Word) (running : Bool) (f : Fields) (others : List (Nat × Booking)) (r : Refused) : Prop :=
  ConflictWith nt running f others r
    ∨ PairsFree nt running f others ∧ OverCapacityAt s nt running f others r
    ∨ PairsFree nt running f others ∧ PortsFit s nt running f others ∧ OverLegsAt nt running f others r

/-! ## The candidate of a MODIFY -/

/-- A modification is what a MODIFY's carried fields come to on a booking's record, and R68 finds no field of it out of range: each
field named and none other, clamped where R53 clamps. -/
structure InRange (nt : Word) (c : Change) (b : Booking) (m : Mod) : Prop where
  start : m.start = c.start.map fun t => (t, if reached nt t then nt else t)
  startAhead : ∀ t, c.start = some t → ticksUntil nt t ≤ 2 ^ 30
  main : match c.main with
    | none => m.main = none
    | some x => ∃ i, srcOf x.1 x.2 = some i ∧ m.main = some i
  group : m.group = c.group ∧ ∀ g, c.group = some g → g ≤ 32
  preroll : m.preroll = c.preroll.map (min · 60000)
  account : m.account = c.account
  tariffClass : m.tariffClass = c.tariffClass ∧ ∀ k, c.tariffClass = some k → k ≤ 31
  duration : m.duration = c.duration ∧ ∀ n, c.duration = some n → 1 ≤ n ∧ n ≤ 8640000
  allowance : m.allowance = c.allowance ∧ ∀ n, c.allowance = some n → n ≤ 1080000
  extend : m.extend = c.extend
  legs : if c.adds = none ∧ c.drops = none then m.legs = none
    else ∃ adds drops, pairsOf (c.adds.getD []) = some adds ∧ pairsOf (c.drops.getD []) = some drops
      ∧ m.legs = some ((b.fields.legs.filter fun x => !drops.contains x) ++ adds)
      ∧ (∀ x ∈ drops, x ∈ b.fields.legs) ∧ (∀ x ∈ adds, x ∉ b.fields.legs ∧ x ∉ drops) ∧ adds.Nodup
      ∧ 1 ≤ (m.apply b.fields).legs.length ∧ (m.apply b.fields).legs.length ≤ 4
  spare : match c.spare with
    | none => m.spare = none
    | some none => m.spare = some none
    | some (some x) => ∃ i, srcOf x.1 x.2 = some i ∧ m.spare = some (some i)
  revertive : m.revertive = c.revertive
  switchOnDegrade : m.switchOnDegrade = c.switchOnDegrade
  holdOff : m.holdOff = c.holdOff.map (min · 10000)
  wtr : m.wtr = c.wtr.map (min · 60000)
  otherSpare : (m.apply b.fields).spare ≠ some (m.apply b.fields).main
  planAhead : b.state = .booked ∨ b.state = .preroll → reached nt (m.apply b.fields).plannedEnd = false
  addsAhead : c.adds.isSome → reached nt (m.apply b.fields).windowEnd = false

/-- Whether a MODIFY names each field, and whether the booking as it stands lets it, in the order of R66 (R66, R67). -/
def fieldsByState (c : Change) (b : Booking) : List (Prop × Prop × FieldName) :=
  let early : Prop := b.state = .booked ∨ b.state = .preroll
  let spareFree : Prop :=
    (b.state = .held ∨ b.state = .live ∨ b.state = .overrun) ∧ b.position = .onMain ∧ b.request ≠ .forceSpare
  [(c.start.isSome, early, .start), (c.main.isSome, early, .mainSource), (c.group.isSome, early, .startGroup),
    (c.preroll.isSome, early, .preroll), (c.account.isSome, early, .account),
    (c.tariffClass.isSome, early ∨ b.state = .held, .tariffClass), (c.duration.isSome, True, .plannedDuration),
    (c.allowance.isSome, True, .allowance), (c.extend.isSome, True, .extendPermitted),
    (c.adds.isSome, b.state ≠ .extended, .legsToAdd), (c.drops.isSome, True, .legsToDrop),
    (c.spare.isSome, early ∨ spareFree, .spareSource), (c.revertive.isSome, True, .revertive),
    (c.switchOnDegrade.isSome, True, .switchOnDegrade), (c.holdOff.isSome, True, .holdOff),
    (c.wtr.isSome, True, .waitToRestore)]

/-- A candidate reserves something its booking's record does not, so that steps 8 to 10 run on it (R69). -/
def NeedsAdmission (nt : Word) (b : Booking) (f : Fields) : Prop :=
  reached nt f.windowEnd = false
    ∧ (b.state = .extended
      ∨ (∃ x, f.spans nt b.state.isRunning x ∧ ¬ b.fields.spans nt b.state.isRunning x)
      ∨ (∃ x ∈ f.legs, x ∉ b.fields.legs) ∨ ∃ i ∈ f.named, i ∉ b.fields.named)

/-- Steps 3 to 7 of a MODIFY naming `ref`, with its instants read at `nt`: each refusal is answered on the state `t`, and where every
step passes, `go` says what follows for the slot, the booking and the modification (R66 to R68). -/
def ModifySteps (i : Instr) (s : State) (o : Order) (t : State) (nt ref : Word) (c : Change)
    (go : Nat → Booking → Mod → Prop) : Prop :=
  (s.byRef ref = none → Answers i s o t .unknown .empty)
  ∧ ∀ k b, s.byRef ref = some (k, b) →
      (b.state.isEnded = true → Answers i s o t .state .empty)
      ∧ (b.state.isEnded = false →
          AnswersFirst i s o t ((fieldsByState c b).map fun x => (x.1 ∧ ¬ x.2.1, ⟨.state, .badField x.2.2⟩))
          ∧ ((∀ x ∈ fieldsByState c b, x.1 → x.2.1) →
              ((∀ m, ¬ InRange nt c b m) → Answers i s o t .range .empty)
              ∧ ∀ m, InRange nt c b m →
                  let differs (j : SrcId) (x : Source) : Prop := s.source j = some x ∧ x.bandwidth ≠ b.fields.bandwidth
                  let new : List SrcId := m.main.toList ++ (m.spare.getD none).toList
                  let needed := new.countP fun j => (s.source j).isNone
                  let free := 512 - s.sources.length
                  (∀ j x, m.main = some j → differs j x → Answers i s o t .bandwidthMismatch (.otherBandwidth j x.bandwidth))
                  ∧ (∀ j x, m.spare = some (some j) → differs j x → (∀ j' y, m.main = some j' → ¬ differs j' y) →
                      Answers i s o t .bandwidthMismatch (.otherBandwidth j x.bandwidth))
                  ∧ ((∀ j ∈ new, ∀ x, ¬ differs j x) →
                      (free < needed → Answers i s o t .noSourceSlot (.sourceRecords needed free))
                      ∧ (needed ≤ free → go k b m))))

/-! ## Invariants -/

/-- Every queue within its places, the capacity within its maximum, the hold threshold in its range (R11 to R13, R146, R161,
R163, R165). -/
structure QueueBounds (s : State) : Prop where
  mgmtQ : ∀ p, (s.port p).mgmtQ.length ≤ 64
  feedQ : ∀ p, (s.port p).feedQ.length ≤ 2048
  capacity : ∀ p, (s.port p).capacity ≤ 48000
  orders : s.mgmt.orders.length ≤ 16
  notices : s.mgmt.notices.length ≤ 32
  discarded : s.mgmt.discarded ≤ 65535
  threshold : 1 ≤ s.mgmt.holdThreshold ∧ s.mgmt.holdThreshold ≤ 16
  bills : s.bills.records.length ≤ 64

/-- What a port's state says of its queues and line, while RESET is not asserted: a DRAINING port still has feed cells, a DISABLED
one has none, and a DARK one has no cell at all and a line that is not DELINEATED (R4, R6 to R9, 1.4). -/
def PortForm (r : PortRec) : Prop :=
  match r.state with
  | .enabled => True
  | .draining => r.feedQ ≠ []
  | .disabled => r.feedQ = []
  | .dark _ => r.mgmtQ = [] ∧ r.feedQ = [] ∧ r.line ≠ .delineated

def PortsInForm (s : State) : Prop := s.inReset = true ∨ ∀ p, PortForm (s.port p)

/-- The Time Unit's schedule, deadline, selection and mark by its state (R21 to R23, R26 to R28): the local tick schedule runs except
in LOCKED, the deadline in LOCKED only, LOCKED and HOLDOVER have a port selected, FREE holds no step mark and no refused
difference, and no instant lies in the past. -/
structure TimeForm (s : State) : Prop where
  schedule : s.time.nextLocal = none ↔ s.time.state = .locked
  deadline : s.time.deadline.isSome = true ↔ s.time.state = .locked
  selected : s.time.state = .locked ∨ s.time.state = .holdover → s.time.selection.isSome = true
  free : s.time.state = .free → s.time.stepMark = false ∧ s.time.lastRefused = none
  nextAhead : ∀ a, s.time.nextLocal = some a → s.now ≤ a
  deadlineAhead : ∀ a, s.time.deadline = some a → s.now ≤ a

/-- The node mode against the booking table and NT (R168): in COMMISSIONING every slot is FREE, in any other mode NT is valid, and an
admission computation runs only in SERVICE (R57, R66, R162). -/
structure ModeForm (s : State) : Prop where
  free : s.mgmt.mode = .commissioning → s.bookings = []
  valid : s.mgmt.mode ≠ .commissioning → s.time.state ≠ .free
  working : s.mgmt.engine.isWorking = true → s.mgmt.mode = .service

/-- The keys of a table rise strictly. -/
def Rising {α : Type} (t : List (Nat × α)) : Prop := (t.map Prod.fst).Pairwise (· < ·)

/-- The canonical form of the two sparse tables: keys rise strictly, and a source stands under its own key (R33, R52). -/
structure TablesInForm (s : State) : Prop where
  bookings : Rising s.bookings
  sources : Rising s.sources
  keys : ∀ e ∈ s.sources, e.1 = srcKey e.2.id

/-- The meter accumulator of every booking stays below one unit (R141). -/
def AccumulatorsBelowUnit (s : State) : Prop := ∀ e ∈ s.bookings, e.2.meter.acc < 360000

/-- Records carry consecutive sequence numbers, each the next after the one before, from `n` to the next number to be given
(R146). -/
def Consecutive : List BillRec → Word → Prop
  | [], _ => True
  | [r], next => next = nextSeq r.seq
  | r :: r' :: rest, next => r'.seq = nextSeq r.seq ∧ Consecutive (r' :: rest) next

/-- The Bill Queue's numbering and its waiters (R146): consecutive numbers up to the next one, 0 never given, at most 64 records, and a
booking in ENDED only while the queue is full. -/
structure BillForm (s : State) : Prop where
  consecutive : Consecutive s.bills.records s.bills.next
  nonzero : s.bills.next ≠ 0 ∧ ∀ r ∈ s.bills.records, r.seq ≠ 0
  bound : s.bills.records.length ≤ 64
  full : 0 < s.waiters → s.bills.records.length = 64

/-- Watch parameters in their ranges (R99, R100, R113). -/
def WatchParams.ok (w : WatchParams) : Prop :=
  (1 ≤ w.failCount ∧ w.failCount ≤ 1000) ∧ (1 ≤ w.clearCount ∧ w.clearCount ≤ 60000) ∧ 1 ≤ w.degrade ∧ w.degrade ≤ 100

/-- The ranges of a source record (R33, R44, R99). -/
structure SourceForm (x : Source) : Prop where
  tokens : x.tokens ≤ bucket x.bandwidth
  legs : x.legs.length ≤ 16
  params : x.watch.params.ok
  silentRun : x.watch.silentRun ≤ 1000
  goodRun : x.watch.goodRun ≤ 60000
  position : x.watch.position ≤ 99
  errored : x.watch.errored ≤ x.watch.position
  lastErrored : ∀ n, x.watch.lastErrored = some n → n ≤ 100

structure SourcesInForm (s : State) : Prop where
  defaults : s.defaults.ok
  sources : ∀ e ∈ s.sources, SourceForm e.2

/-- The legs of a record name no pair twice, and its spare is another source than its main (R53, R58, R68). -/
structure FieldsForm (f : Fields) : Prop where
  legs : f.legs.Nodup
  spare : f.spare ≠ some f.main

/-- What R67 and R68 have made sure of when a modification waits on a booking: the main and the start group change only before LIVE,
and the spare only while the booking is ON_MAIN. -/
structure ModForm (b : Booking) (m : Mod) : Prop where
  fields : FieldsForm (m.apply b.fields)
  early : m.main.isSome ∨ m.group.isSome → b.state = .booked ∨ b.state = .preroll
  onMain : m.spare.isSome → b.position = .onMain

/-- A booking's record: ON_MAIN until its LIVE entry, and whenever it has no spare (R116). -/
structure RecordForm (b : Booking) : Prop where
  fields : FieldsForm b.fields
  before : b.state = .booked ∨ b.state = .preroll ∨ b.state = .held → b.position = .onMain
  spare : b.position = .onSpare → b.fields.spare.isSome
  pending : b.state.isEnded = false → ∀ m, b.pending = some m → ModForm b m

/-- The order whose admission computation runs: a BOOK's reference is still new, and a MODIFY's candidate was built from a booking
that it may change; the slots it has read lie in rising order below the next one (R57, R64, R67). -/
def JobForm (s : State) (j : Job) : Prop :=
  (Rising j.read ∧ ∀ e ∈ j.read, e.1 < j.nextSlot)
    ∧ match j.kind with
      | .book ref f => FieldsForm f ∧ ∀ e ∈ s.bookings, e.2.ref ≠ ref
      | .modify _ _ m built => built.state.isEnded = false ∧ ModForm built m

/-- What binds bookings, sources, legs and groups together: a source stands in the table exactly while some booking in no state of FREE
or ENDED names it, and its reference count is their number (R35); every leg belongs to a live booking whose selected source owns its
list, and no two legs share a pair (R44); no two slots hold one reference (R52); a group's held-member count is the number of HELD
bookings naming it, an OPEN group has none, and a HELD booking names a group (R74). -/
structure LinksInForm (s : State) : Prop where
  refs : ∀ i x, s.source i = some x →
    1 ≤ x.refs ∧ x.refs = s.bookings.countP fun e => !e.2.state.isEnded && e.2.named.contains i
  named : ∀ e ∈ s.bookings, e.2.state.isEnded = false → ∀ i ∈ e.2.named, (s.source i).isSome
  owners : ∀ e ∈ s.sources, ∀ l ∈ e.2.legs, ∃ b, s.booking l.owner = some b ∧ b.state.isLive = true ∧ b.selected = e.2.id
  pairs : (s.sources.flatMap fun e => e.2.legs.map Leg.pair).Nodup
  unique : (s.bookings.map fun e => e.2.ref).Nodup
  held : ∀ g x, s.groupOf g = some x →
    x.held = (s.bookings.countP fun e => e.2.state == .held && e.2.fields.group == g) ∧ (x.state = .opened → x.held = 0)
  heldGroup : ∀ e ∈ s.bookings, e.2.state = .held → (s.groupOf e.2.fields.group).isSome
  records : ∀ e ∈ s.bookings, RecordForm e.2
  job : ∀ j, s.mgmt.engine = .working j → JobForm s j

/-- The bandwidth of what is installed against the capacities (R11, R37): no port holds more than its capacity, and every source has the
bandwidth of each booking, not ENDED, that names it, and of the booking that an admission computation is about. -/
structure CapacityForm (s : State) : Prop where
  installed : ∀ p, s.installed p ≤ (s.port p).capacity
  rates : ∀ e ∈ s.bookings, e.2.state.isEnded = false → ∀ i ∈ e.2.named, ∀ x, s.source i = some x →
    x.bandwidth = e.2.fields.bandwidth
  job : ∀ j, s.mgmt.engine = .working j → match j.kind with
    | .book _ f => ∀ i ∈ f.named, ∀ x, s.source i = some x → x.bandwidth = f.bandwidth
    | .modify _ _ m built => ∀ i ∈ m.named, ∀ x, s.source i = some x → x.bandwidth = built.fields.bandwidth

/-- The two tables within their places: every slot is one of 0 to 511 (R52) and at most 512 sources are in the table (R33); and the
order whose admission computation runs finds a slot and the source records it needs (R59). -/
structure BoundsForm (s : State) : Prop where
  slots : ∀ e ∈ s.bookings, e.1 < 512
  sources : s.sources.length ≤ 512
  job : ∀ j, s.mgmt.engine = .working j →
    (∀ ref f, j.kind = .book ref f → s.bookings.length < 512)
      ∧ s.sources.length + (match j.kind with
          | .book _ f => f.named
          | .modify _ _ m _ => m.named).countP (fun i => (s.source i).isNone) ≤ 512

/-! ## Two bookings of a table, one of them EXTENDED -/

/-- An EXTENDED booking that a booking tick leaves alone: extend permitted, no spare, on its main, no modification and no END waiting. -/
def RunsOn (c : Booking) : Prop :=
  c.state = .extended ∧ c.fields.extend = true ∧ c.fields.spare = none ∧ c.position = .onMain ∧ c.pending = none
    ∧ c.endPending = false

/-- The legs of slot `j` are on the list of its booking's main, which another booking names too. -/
def OnItsList (s : State) (j : Nat) (c : Booking) : Prop :=
  (∀ i x, s.source i = some x → (∃ l ∈ x.legs, l.owner = j) → i = c.fields.main)
    ∧ ∀ x, s.source c.fields.main = some x → 1 < x.refs

/-- From `s` to `v` the booking `c` of slot `j` was cut, the one ending of the tick: its bill has outcome CUT and is written while there
is room, BILL_LEVEL or BILL_FULL coming before BOOKING_ENDED, and waits in ENDED when there is none; `more` is raised after it
(R83, R89, R97, R148, R154). -/
def CutOnce (s v : State) (j : Nat) (c : Booking) (nt : Word) (more : List NoticeContent) : Prop :=
  let n := s.bills.records.length
  let oldest := (s.bills.records.head?.map BillRec.seq).getD s.bills.next
  ∃ bill, bill.ref = c.ref ∧ bill.outcome = .cut ∧ bill.endNt = nt
    ∧ (n < 64 → v.booking j = none ∧ v.bills.records = s.bills.records ++ [⟨s.bills.next, bill⟩]
        ∧ v.mgmt = (s.raiseAll
            ((if n = 47 then [.billLevel 48 oldest s.bills.next 0]
              else if n = 63 then [.billFull 64 oldest s.bills.next 0] else [])
              ++ .bookingEnded j c.ref c.fields.account .cut nt bill.total (some s.bills.next) :: more)).mgmt)
    ∧ (64 ≤ n → v.bills = s.bills ∧ (∃ c', v.booking j = some c' ∧ c'.state = .ended bill)
        ∧ v.mgmt = (s.raiseAll (.bookingEnded j c.ref c.fields.account .cut nt bill.total none :: more)).mgmt)

/-- From `s` to `v` the booking of slot `j` was not cut: it is EXTENDED, no bill is written, and `more` is all that is raised. -/
def NotCut (s v : State) (j : Nat) (more : List NoticeContent) : Prop :=
  v.bills = s.bills ∧ (∃ c', v.booking j = some c' ∧ c'.state = .extended) ∧ v.mgmt = (s.raiseAll more).mgmt

end Sys2Proof.Machine
end

