-- ==== Sys2Proof/Certificates/Slice0/Obligations.lean ====
section
/-! DEFINITION. The statements for the provers, from the numbered rules of the manual, chapter by chapter.

That a command of the order rows takes the head order of its kind, and the clock `now`, are the model's own choices
(assumption log 1 and 4). A statement that rests on another choice of the model names its log entry. -/

open Sys2Proof Sys2Proof.Machine

/-! ## The machine's step, reset and RESET (R17) -/

/-- A step with a command waiting is that command's effect on the state with the rest of the queue. A step with none waiting is what the
part does of its own accord, which is the model's choice (assumption log 1, 4 and 10): while RESET is asserted nothing changes; else the
clock goes on by 1 ms, but past no instant at which a tick is due, and with it one thing is done. A READY engine with no restart due
takes a head order whose code is no order's, and refuses it with FORMAT (R162, R172); an admission computation reads the next slot in
use; otherwise there is nothing to do. -/
def Obligations.StepRunsFrontCommand : Prop :=
  (∀ (c : Instr) (rest : List Instr) (s : State), step { s with pending := c :: rest } = exec c { s with pending := rest })
  ∧ ∀ s : State, s.pending = [] →
      (s.inReset = true → step s = .next s)
      ∧ (s.inReset = false →
          let due : List Nat := s.time.nextLocal.toList ++ s.time.deadline.toList
          let n : Nat := if ∀ a ∈ due, s.now < a then s.now + 1 else s.now
          let takes (o : Order) (rest : List Order) : Prop :=
            s.mgmt.engine = .ready ∧ s.mgmt.restart = false ∧ s.mgmt.orders = o :: rest
              ∧ ∀ k : OrderKind, codeOf o.cell ≠ k.code
          let reads (j : Job) (k : Nat) (b : Booking) : Prop :=
            s.mgmt.engine = .working j ∧ s.booking k = some b ∧ j.nextSlot ≤ k
              ∧ ∀ i, j.nextSlot ≤ i → i < k → s.booking i = none
          (∀ o rest, takes o rest → step s = .next { (s.taken o rest).finish o .format .empty with now := n })
          ∧ (∀ j k b, Rising s.bookings → reads j k b →
              step s = .next
                { s with now := n, mgmt.engine := .working { j with nextSlot := k + 1, read := j.read ++ [(k, b)] } })
          ∧ ((∀ o rest, ¬ takes o rest) → (∀ j k b, ¬ reads j k b) → step s = .next { s with now := n }))

/-- Releasing RESET gives every block its hard-reset values, the ports by light and the address by the straps (R17, R32, R51, R52,
R74, R100, R130, R155, R157, R171). The commands waiting stand, which is the model's choice (assumption log 25). -/
def Obligations.ResetReleaseSetsEveryBlock : Prop :=
  ∀ (straps : BitVec 10) (light : BitVec 16) (s : State), ∃ t,
    exec (.hardResetRelease straps light) s = .next t
      ∧ t.inReset = false ∧ t.pending = s.pending
      ∧ (∀ p : Port,
          (t.port p).state = (if light.getLsbD p.val then .enabled else .dark .enabled)
            ∧ (t.port p).line = (if light.getLsbD p.val then .searching else .noLight)
            ∧ (t.port p).capacity = 48000 ∧ (t.port p).mgmtQ = [] ∧ (t.port p).feedQ = [] ∧ (t.port p).mgmtSeq = 0
            ∧ (t.port p).headerErrors = 0 ∧ (t.port p).unbooked = 0)
      ∧ (t.time.state = .free ∧ t.time.nt = 0 ∧ t.time.selection = none ∧ t.time.policy = .refuse ∧ t.time.stepCount = 0
          ∧ t.time.lastRefused = none ∧ t.time.stepMark = false ∧ t.time.nextLocal = some (t.now + 10))
      ∧ t.sources = [] ∧ t.defaults = ⟨5, 100, 10⟩ ∧ t.bookings = [] ∧ t.groups = Vector.replicate 32 ⟨.opened, 0⟩
      ∧ t.tariffs = ⟨Vector.replicate 32 none, false⟩ ∧ t.bills = ⟨[], 1⟩
      ∧ (t.mgmt.engine = .ready ∧ t.mgmt.orders = [] ∧ t.mgmt.notices = [] ∧ t.mgmt.discarded = 0
          ∧ t.mgmt.holdThreshold = 12 ∧ t.mgmt.controller = none ∧ t.mgmt.mode = .commissioning
          ∧ t.mgmt.routes = Vector.replicate 16 none)
      ∧ (if 1 ≤ straps.toNat ∧ straps.toNat ≤ 1000 then t.mgmt.address = straps.toNat ∧ t.mgmt.strapFault = false
          else t.mgmt.address = 1000 ∧ t.mgmt.strapFault = true)

/-- Asserting RESET loses every cell in a queue, and from then on no command but the two of RESET changes anything (R17;
that all but the cells stands until the release is the model's choice, assumption log 20). -/
def Obligations.ResetAssertStopsThePart : Prop :=
  (∀ s : State, ∃ t, exec .hardResetAssert s = .next t
      ∧ t.inReset = true ∧ t.mgmt.orders = [] ∧ t.mgmt.notices = [] ∧ t.mgmt.engine = .ready
      ∧ (∀ p, (t.port p).mgmtQ = [] ∧ (t.port p).feedQ = [])
      ∧ t.pending = s.pending ∧ t.time = s.time ∧ t.sources = s.sources ∧ t.bookings = s.bookings ∧ t.groups = s.groups
      ∧ t.tariffs = s.tariffs ∧ t.bills = s.bills)
    ∧ ∀ (c : Instr) (s : State), s.inReset = true → c ≠ .hardResetAssert →
        (∀ straps light, c ≠ .hardResetRelease straps light) → exec c s = .next s

/-! ## Chapter 1: cells and ports -/

/-- Loss of light (R3, R8, R10, R15, R112). An ENABLED or DRAINING port goes DARK with its return state and both queues empty; a
waiting answer on it is discarded; each watched source on it is FAILED with silent run F, a cleared account and resync pending.
PORT_STATE is raised, and SOURCE_STATE for each of those sources that was not FAILED before, in ascending label order; which of the
two kinds comes first R112 leaves open, and a free value says (assumption log 2). Nothing else changes. On a DISABLED or DARK port
only the line condition changes. And the entry to DARK is that same one for every other cause, with the line condition as that cause
leaves it. -/
def Obligations.LossOfLightDarkensAPort : Prop :=
  let entered (s : State) (p : Port) (ret : ReturnState) (cause : PortCause) : State :=
    let r := s.port p
    let failed (x : Source) : Source :=
      { x with
        arrivals := 0, errored := false, resync := true
        watch :=
          { x.watch with
            state := .failed, silentRun := x.watch.params.failCount, goodRun := 0
            failures := if x.watch.state = .failed then x.watch.failures else x.watch.failures + 1
            lastChange := if x.watch.state = .failed then x.watch.lastChange else some s.time.nt } }
    let portNote : NoticeContent := .portState p r.state (.dark ret) r.line cause
    let sourceNotes : List NoticeContent :=
      ((s.sources.map Prod.snd).filter fun x =>
          x.id.port = p ∧ x.watch.state ≠ .unwatched ∧ x.watch.state ≠ .failed).map fun x =>
        .sourceState x.id x.watch.state .failed .portDark s.time.nt x.watch.params.failCount 0 x.watch.lastErrored
          (x.watch.failures + 1) x.watch.degradations
    State.raiseAll
      { s.setPort p { r with state := .dark ret, mgmtQ := [], feedQ := [] } with
        sources := s.sources.map fun e =>
          (e.1, if e.2.id.port = p ∧ e.2.watch.state ≠ .unwatched then failed e.2 else e.2)
        freeRead := s.freeRead + (if sourceNotes = [] then 0 else 1)
        mgmt.engine := match s.mgmt.engine with
          | .answerWait q a => if q = p then .ready else .answerWait q a
          | e => e }
      (if Config.portStateFirst s.freeRead then portNote :: sourceNotes else sourceNotes ++ [portNote])
  (∀ (s : State) (p : Port), s.inReset = false → (s.port p).line ≠ .noLight →
    let dark : State := s.setPort p { s.port p with line := .noLight, failRun := 0 }
    (TablesInForm s → (s.port p).state = .enabled →
      exec (.lossOfLight p) s = .next (entered dark p .enabled .lossOfLight))
    ∧ (TablesInForm s → (s.port p).state = .draining →
        exec (.lossOfLight p) s = .next (entered dark p .disabled .lossOfLight))
    ∧ ((s.port p).state = .disabled ∨ (s.port p).isDark = true → exec (.lossOfLight p) s = .next dark))
  ∧ ∀ (s : State) (p : Port) (ret : ReturnState) (cause : PortCause), TablesInForm s →
      s.enterDark p ret cause = entered s p ret cause

/-- The run of 16 failing cells on a delineated port: the failing cells not yet counted are counted, the line is SEARCHING, and an
ENABLED or DRAINING port goes DARK with cause LOSS_OF_DELINEATION, as at a loss of light (R3, R8). That the command counts the cells of
the run not yet brought is the model's choice (assumption log 6). -/
def Obligations.LossOfDelineationDarkensAPort : Prop :=
  ∀ (s : State) (p : Port), s.inReset = false → (s.port p).line = .delineated →
    let r : PortRec :=
      { s.port p with
        line := .searching, failRun := 0
        headerErrors := (s.port p).headerErrors + BitVec.ofNat 32 (16 - (s.port p).failRun) }
    exec (.lossOfDelineation p) s = .next (match (s.port p).state with
      | .enabled => (s.setPort p r).enterDark p .enabled .lossOfDelineation
      | .draining => (s.setPort p r).enterDark p .disabled .lossOfDelineation
      | _ => s.setPort p r)

/-- Light returns: NO_LIGHT becomes SEARCHING. Delineation found: SEARCHING becomes DELINEATED, and a DARK port takes its return
state with a PORT_STATE notice (R3, R9, R15). -/
def Obligations.LineComesBack : Prop :=
  ∀ (s : State) (p : Port), s.inReset = false →
    ((s.port p).line = .noLight →
      exec (.lightReturns p) s = .next (s.setPort p { s.port p with line := .searching }))
    ∧ ((s.port p).line = .searching → ∀ ret, (s.port p).state = .dark ret →
        let st : PortState := match ret with
          | .enabled => .enabled
          | .disabled => .disabled
        exec (.delineationFound p) s =
          .next ((s.setPort p { s.port p with line := .delineated, failRun := 0, state := st }).raise
            (.portState p (.dark ret) st .delineated .lineRestored)))
    ∧ ((s.port p).line = .searching → (s.port p).isDark = false →
        exec (.delineationFound p) s = .next (s.setPort p { s.port p with line := .delineated, failRun := 0 }))

/-- An arriving cell (R2 to R5, R8, R38): with the line not DELINEATED nothing changes; a cell that fails the header check is counted and
not sorted, and short of the 16th in a row nothing else changes; the 16th loses delineation, and an ENABLED or DRAINING port goes
DARK with cause LOSS_OF_DELINEATION as at a loss of light; a feed cell that carries no booked traffic (port DRAINING or DISABLED, no
source, or an UNWATCHED one) is counted unbooked, once; one of a watched source on an ENABLED port goes through that source's stages.
A passing cell ends the run of failing ones. -/
def Obligations.ArrivingFeedCellIsSorted : Prop :=
  ∀ (s : State) (p : Port) (bytes : List Byte), s.inReset = false →
    let c := cellOf bytes
    let r := s.port p
    (r.line ≠ .delineated → exec (.cellArrival p bytes) s = .next s)
    ∧ (r.line = .delineated → checkPasses bytes = false → r.failRun < 15 →
        exec (.cellArrival p bytes) s =
          .next (s.setPort p { r with headerErrors := r.headerErrors + 1, failRun := r.failRun + 1 }))
    ∧ (r.line = .delineated → checkPasses bytes = false → 15 ≤ r.failRun →
        let lost := s.setPort p { r with headerErrors := r.headerErrors + 1, failRun := 0, line := .searching }
        exec (.cellArrival p bytes) s = .next (match r.state with
          | .enabled => lost.enterDark p .enabled .lossOfDelineation
          | .draining => lost.enterDark p .disabled .lossOfDelineation
          | _ => lost))
    ∧ (r.line = .delineated → checkPasses bytes = true → c.label ≠ 0 → c.label ≠ 255 →
        (r.state = .draining ∨ r.state = .disabled
          ∨ r.state = .enabled ∧ (∀ x, s.source ⟨p, c.label⟩ = some x → x.watch.state = .unwatched) →
          exec (.cellArrival p bytes) s = .next (s.setPort p { r with failRun := 0, unbooked := r.unbooked + 1 }))
        ∧ ∀ x, r.state = .enabled → s.source ⟨p, c.label⟩ = some x → x.watch.state ≠ .unwatched →
          exec (.cellArrival p bytes) s = .next ((s.setPort p { r with failRun := 0 }).watchedCell x c))

/-- What a port's line takes: the head management cell first, else the head feed cell of an ENABLED or DRAINING port, else an idle
cell; the cell leaves its queue. The place a management cell frees takes the answer waiting for that port, or, while no answer
waits and the port is the controller port, the head notice with the discarded-notice count, which becomes 0; otherwise it stays free. A
DRAINING port whose last feed cell leaves becomes DISABLED with cause DRAINED, and DRAINED is that change, and nothing where the queue
does not empty (R1, R7, R13 to R15, R165; assumption log 6). That a restart which is due holds no notice back is the model's choice
(assumption log 36). -/
def Obligations.LineTakesTheRightCell : Prop :=
  ∀ (s : State) (p : Port), s.inReset = false →
    (∀ c rest, (s.port p).mgmtQ = c :: rest →
      let r := s.port p
      let sent (more : List MgmtCell) (seq : Seq) : State :=
        s.setPort p { r with mgmtQ := rest ++ more, mgmtSeq := seq, lineOut := some (.mgmt c) }
      let room : Prop := r.isDark = false ∧ rest.length < 64
      let answer (a : Answer) : Prop := s.mgmt.engine = .answerWait p a
      let note (k : Controller) (n : Notice) (ns : List Notice) : Prop :=
        s.mgmt.engine.isWaiting = false ∧ s.mgmt.controller = some k ∧ k.port = p ∧ s.mgmt.notices = n :: ns
      (∀ a, room → answer a →
        exec (.lineSend p) s = .next ((sent [.answer r.mgmtSeq a] (r.mgmtSeq + 1)).setEngine .ready))
      ∧ (∀ k n ns, room → note k n ns →
          exec (.lineSend p) s = .next
            { sent [.notice r.mgmtSeq ⟨k.origin, BitVec.ofNat 10 s.mgmt.address, k.id, s.mgmt.discarded, n⟩]
                (r.mgmtSeq + 1) with
              mgmt := { s.mgmt with notices := ns, discarded := 0 } })
      ∧ (¬ room ∨ (∀ a, ¬ answer a) ∧ (∀ k n ns, ¬ note k n ns) →
          exec (.lineSend p) s = .next (sent [] r.mgmtSeq)))
    ∧ (∀ c rest, (s.port p).mgmtQ = [] → (s.port p).feedQ = c :: rest →
        ((s.port p).state = .enabled ∨ (s.port p).state = .draining ∧ rest ≠ [] →
          exec (.lineSend p) s = .next (s.setPort p { s.port p with feedQ := rest, lineOut := some (.feed c) }))
        ∧ ((s.port p).state = .draining → rest = [] →
          exec (.lineSend p) s =
            .next ((s.setPort p { s.port p with feedQ := [], lineOut := some (.feed c), state := .disabled }).raise
              (.portState p .draining .disabled (s.port p).line .drained))))
    ∧ ((s.port p).mgmtQ = [] → (s.port p).feedQ = [] →
        exec (.lineSend p) s = .next (s.setPort p { s.port p with lineOut := some .idle }))
    ∧ (let r := s.port p
      let drained (r' : PortRec) : State := (s.setPort p r').raise (.portState p .draining .disabled r.line .drained)
      (r.state = .draining → r.feedQ = [] → exec (.drained p) s = .next (drained { r with state := .disabled }))
      ∧ (∀ c, r.state = .draining → r.mgmtQ = [] → r.feedQ = [c] →
          exec (.drained p) s =
            .next (drained { r with feedQ := [], lineOut := some (.feed c), state := .disabled }))
      ∧ (r.state ≠ .draining ∨ 2 ≤ r.feedQ.length ∨ r.feedQ ≠ [] ∧ r.mgmtQ ≠ [] → exec (.drained p) s = .next s))

/-- An answer waiting on a full management queue: the line sends the head cell and the answer takes the freed place, with the port's
management sequence, and the engine is READY (R1, R13, R162). The head notice, with no answer waiting and room in the controller
port's queue, is appended with the discarded-notice count, which becomes 0 (R165). That ANSWER_APPENDED sends the cell that frees
the place is the model's choice (assumption log 6), and so is that a restart which is due holds no notice back (assumption log 36). -/
def Obligations.WaitingAnswerAndHeadNoticeAreAppended : Prop :=
  (∀ (s : State) (p : Port) (a : Answer) (c : MgmtCell) (rest : List MgmtCell), s.inReset = false →
    s.mgmt.engine = .answerWait p a → (s.port p).isDark = false → (s.port p).mgmtQ = c :: rest → rest.length = 63 →
    let t := (s.setPort p
      { s.port p with
        mgmtQ := rest ++ [.answer (s.port p).mgmtSeq a], mgmtSeq := (s.port p).mgmtSeq + 1
        lineOut := some (.mgmt c) }).setEngine .ready
    exec .answerAppended s = .next t ∧ exec (.lineSend p) s = .next t)
  ∧ ∀ (s : State) (c : Controller) (n : Notice) (rest : List Notice), s.inReset = false → s.mgmt.controller = some c →
      s.mgmt.notices = n :: rest →
      let r := s.port c.port
      let cell : NoticeCell := ⟨c.origin, BitVec.ofNat 10 s.mgmt.address, c.id, s.mgmt.discarded, n⟩
      (s.mgmt.engine.isWaiting = false → r.isDark = false → r.mgmtQ.length < 64 →
        exec .noticeDelivery s = .next
          { s.setPort c.port { r with mgmtQ := r.mgmtQ ++ [.notice r.mgmtSeq cell], mgmtSeq := r.mgmtSeq + 1 } with
            mgmt := { s.mgmt with notices := rest, discarded := 0 } })
      ∧ (s.mgmt.engine.isWaiting = true ∨ r.isDark = true ∨ 64 ≤ r.mgmtQ.length →
          exec .noticeDelivery s = .next s)

/-- An answer is built with the order's tag, code, controller id and origin, and is dropped for a broadcast or a DARK port, appended
where there is room, and otherwise waits (R10, R13, R162, R163). And the rest of what every order and every notice goes through. An
order that is taken leaves the queue, and the controller record takes its arrival port, controller id and origin, or stands for a
broadcast (R161, R164). Each kind of order has its code, and one of fixed length is refused with FORMAT on any other parameter
length before any other check (R172; BOOK and MODIFY have statements of their own), BILL RELEASE reporting the oldest record with it
(R152) and every other kind nothing, SET MODE too, which is the model's choice (assumption log 35). A notice is appended with the NT
of the moment below 32 notices, and at 32 it is discarded and counted, up to 65,535; several are raised one after another (R165). -/
def Obligations.AnswerIsOfferedToItsPort : Prop :=
  let kinds : List (OrderKind × Instr × BitVec 16 × Option Nat) :=
    [(.identify, .identify, 0x0001, some 0), (.setMode, .setMode, 0x0002, some 1),
      (.managementRestart, .managementRestart, 0x0003, some 0), (.setHoldThreshold, .setHoldThreshold, 0x0004, some 1),
      (.setRoute, .setRoute, 0x0005, some 7), (.clearTraffic, .clearTraffic, 0x0006, some 0),
      (.portEnable, .portEnable, 0x0010, some 1), (.portDisable, .portDisable, 0x0011, some 1),
      (.portStatus, .portStatus, 0x0012, some 1), (.portCapacity, .portCapacity, 0x0013, some 3),
      (.timeSource, .timeSource, 0x0020, some 1), (.timeSet, .timeSet, 0x0021, some 4),
      (.timePolicy, .timePolicy, 0x0022, some 1), (.timeStatus, .timeStatus, 0x0023, some 0),
      (.sourceStatus, .sourceStatus, 0x0030, some 2), (.sourceWatch, .sourceWatch, 0x0031, some 8),
      (.book, .book, 0x0040, none), (.modify, .modify, 0x0041, none), (.cancel, .cancel, 0x0042, some 4),
      (.endBooking, .endBooking, 0x0043, some 4), (.select, .select, 0x0044, some 5),
      (.bookingRead, .bookingRead, 0x0045, some 5), (.groupHold, .groupHold, 0x0046, some 1),
      (.groupRelease, .groupRelease, 0x0047, some 1), (.tariffWrite, .tariffWrite, 0x0050, some 24),
      (.tariffLock, .tariffLock, 0x0051, some 0), (.tariffClearAll, .tariffClearAll, 0x0052, some 0),
      (.tariffRead, .tariffRead, 0x0053, some 1), (.tariffCheck, .tariffCheck, 0x0054, some 193),
      (.billRead, .billRead, 0x0060, some 1), (.billRelease, .billRelease, 0x0061, some 4)]
  (∀ (s : State) (o : Order) (r : Result) (d : AnswerData),
    let a : Answer :=
      ⟨originOf o.cell, BitVec.ofNat 10 s.mgmt.address, ctrlOf o.cell, tagOf o.cell, codeOf o.cell, r,
        16 - s.mgmt.orders.length, decide (s.mgmt.holdThreshold ≤ s.mgmt.orders.length), d⟩
    let port := s.port o.arrival
    (destOf o.cell = 0 ∨ port.isDark = true → s.finish o r d = { s with mgmt.engine := .ready })
    ∧ (destOf o.cell ≠ 0 → port.isDark = false → port.mgmtQ.length < 64 →
        s.finish o r d = { s.setPort o.arrival
          { port with mgmtQ := port.mgmtQ ++ [.answer port.mgmtSeq a], mgmtSeq := port.mgmtSeq + 1 } with
            mgmt.engine := .ready })
    ∧ (destOf o.cell ≠ 0 → port.isDark = false → 64 ≤ port.mgmtQ.length →
        s.finish o r d = { s with mgmt.engine := .answerWait o.arrival a }))
  ∧ (∀ (s : State) (o : Order) (rest : List Order),
      (destOf o.cell = 0 → s.taken o rest = { s with mgmt := { s.mgmt with orders := rest } })
      ∧ (destOf o.cell ≠ 0 →
          s.taken o rest =
            { s with
              mgmt := { s.mgmt with orders := rest, controller := some ⟨o.arrival, ctrlOf o.cell, originOf o.cell⟩ } }))
  ∧ (∀ k : OrderKind, k ∈ kinds.map Prod.fst)
  ∧ (∀ x ∈ kinds, x.1.code = x.2.2.1
      ∧ ∀ (s : State) (o : Order) (rest : List Order) (n m : Nat), x.2.2.2 = some n → Offers s x.1 m o rest → m ≠ n →
          Answers x.2.1 s o (s.taken o rest) .format
            (if x.1 = .billRelease then
              .oldest (s.bills.records.head?.map BillRec.seq) s.bills.records.length s.waiters
             else .empty))
  ∧ ∀ (s : State) (c : NoticeContent),
      (s.mgmt.notices.length < 32 →
        s.raise c = { s with mgmt := { s.mgmt with notices := s.mgmt.notices ++ [⟨s.time.nt, c⟩] } })
      ∧ (32 ≤ s.mgmt.notices.length →
          s.raise c =
            { s with
              mgmt :=
                { s.mgmt with discarded := if s.mgmt.discarded < 65535 then s.mgmt.discarded + 1 else 65535 } })
      ∧ s.raiseAll [] = s ∧ ∀ cs, s.raiseAll (c :: cs) = (s.raise c).raiseAll cs

/-- PORT DISABLE and PORT ENABLE by the port's state and line (R6, R9, R15); a port above 15 is refused with RANGE. -/
def Obligations.PortOrdersByState : Prop :=
  ∀ (s : State) (o : Order) (rest : List Order),
    let u := s.taken o rest
    (∀ p : Port, (o.param 0).toNat = p.val →
      let r := s.port p
      (Offers s .portDisable 1 o rest →
        (r.state = .enabled → r.feedQ ≠ [] →
          Answers .portDisable s o
            ((u.setPort p { r with state := .draining }).raise (.portState p .enabled .draining r.line .order))
            .done (.portState p .draining))
        ∧ (r.state = .enabled → r.feedQ = [] →
            Answers .portDisable s o
              ((u.setPort p { r with state := .disabled }).raise (.portState p .enabled .disabled r.line .order))
              .done (.portState p .disabled))
        ∧ (r.state = .draining ∨ r.state = .disabled → Answers .portDisable s o u .done (.portState p r.state))
        ∧ (∀ ret, r.state = .dark ret →
            Answers .portDisable s o (u.setPort p { r with state := .dark .disabled }) .done
              (.portState p (.dark .disabled))))
      ∧ (Offers s .portEnable 1 o rest →
          (r.state = .enabled → Answers .portEnable s o u .done (.portState p .enabled))
          ∧ (r.state = .draining ∨ r.state = .disabled ∧ r.line = .delineated →
              Answers .portEnable s o
                ((u.setPort p { r with state := .enabled }).raise (.portState p r.state .enabled r.line .order))
                .done (.portState p .enabled))
          ∧ (r.state = .disabled → r.line ≠ .delineated →
              Answers .portEnable s o (u.enterDark p .enabled .order) .done (.portState p (.dark .enabled)))
          ∧ (∀ ret, r.state = .dark ret →
              Answers .portEnable s o (u.setPort p { r with state := .dark .enabled }) .done
                (.portState p (.dark .enabled)))))
    ∧ (15 < (o.param 0).toNat →
        (Offers s .portDisable 1 o rest → Answers .portDisable s o u .range .empty)
        ∧ (Offers s .portEnable 1 o rest → Answers .portEnable s o u .range .empty))

/-- PORT CAPACITY (R11): raising always succeeds and stores the clamped value. A value no larger than the capacity is refused with
CAPACITY when it lies below the installed bandwidth, reporting the port, NT and the installed bandwidth, or else below the load of the
bookings that are not EXTENDED at some instant from NT on, reporting the port, the first such instant and its load; a value that no
load exceeds is stored. FROZEN refuses with MODE, and a port above 15 is refused with RANGE. That the loads count pending modifications
and no EXTENDED booking is assumption log 15. -/
def Obligations.PortCapacityIsBounded : Prop :=
  ∀ (s : State) (o : Order) (rest : List Order), Offers s .portCapacity 3 o rest →
    let u := s.taken o rest
    let n := (word16 (paramsOf o.cell) 1).toNat
    let v := min n 48000
    (s.mgmt.mode = .frozen → Answers .portCapacity s o u .mode .empty)
    ∧ (s.mgmt.mode ≠ .frozen → 15 < (o.param 0).toNat → Answers .portCapacity s o u .range .empty)
    ∧ ∀ p : Port, s.mgmt.mode ≠ .frozen → (o.param 0).toNat = p.val →
        let load (x : Int) : Nat :=
          totalAt s.time.nt (Fields.onPort p) x (s.bookings.filter fun e => e.2.state != .extended)
        let stored : Prop :=
          Answers .portCapacity s o (u.setPort p { s.port p with capacity := v }) .done
            (.portCapacity ⟨v, decide (48000 < n)⟩)
        ((s.port p).capacity < v → stored)
        ∧ (v ≤ (s.port p).capacity →
            (v < s.installed p → Answers .portCapacity s o u .capacity (.overCapacity p s.time.nt (s.installed p)))
            ∧ (s.installed p ≤ v →
                ((∀ x : Int, 0 ≤ x → load x ≤ v) → stored)
                ∧ ∀ x : Int, 0 ≤ x → v < load x → (∀ y : Int, 0 ≤ y → y < x → load y ≤ v) →
                    Answers .portCapacity s o u .capacity
                      (.overCapacity p (s.time.nt + BitVec.ofInt 32 x) (load x))))

/-- PORT STATUS and TIME STATUS answer with the record as it stands and change nothing; a port above 15 is refused with RANGE (R16,
R29). -/
def Obligations.StatusOrdersReadTheRecord : Prop :=
  ∀ (s : State) (o : Order) (rest : List Order),
    (∀ p : Port, Offers s .portStatus 1 o rest → (o.param 0).toNat = p.val →
      Answers .portStatus s o (s.taken o rest) .done (.portStatus
        ⟨(s.port p).state, (s.port p).line, (s.port p).capacity, s.installed p, (s.port p).mgmtQ.length,
          (s.port p).feedQ.length, (s.port p).mgmtSeq, (s.port p).headerErrors, (s.port p).unbooked⟩))
    ∧ (Offers s .portStatus 1 o rest → 15 < (o.param 0).toNat →
        Answers .portStatus s o (s.taken o rest) .range .empty)
    ∧ (Offers s .timeStatus 0 o rest →
        Answers .timeStatus s o (s.taken o rest) .done (.timeStatus
          ⟨s.time.state, s.time.nt, decide (s.time.state ≠ .free), s.time.selection, s.time.policy, s.time.stepCount,
            s.time.lastRefused, s.time.stepMark⟩))

/-! ## Chapter 2: Network Time -/

/-- Serial time (R20): reached and ticks until agree but at a distance of exactly 2^31, and a start is reached at each NT from it on
up to 2^31 ticks. -/
def Obligations.SerialTimeOrders : Prop :=
  (∀ nt t : Word, nt - t ≠ 0x80000000#32 → (reached nt t = true ↔ ticksUntil nt t ≤ 0))
    ∧ (∀ (t : Word) (n : Nat), n < 2 ^ 31 → reached (t + BitVec.ofNat 32 n) t = true)
    ∧ (∀ t : Word, reached (t + 0x80000000#32) t = false ∧ ticksUntil (t + 0x80000000#32) t = -2 ^ 31)

/-- The ticks of the local reference (R19, R21, R23, R28, R31). At the local tick NT advances by one, the next instant is 10 ms later,
and each block is handed the tick, marked stepped exactly when a step mark was pending, which it clears. At the time-cell
deadline in LOCKED one such tick is made at once, the unit enters HOLDOVER with local ticks from 10 ms later, and TIME_STATE is
raised with cause TIMEOUT. -/
def Obligations.LocalReferenceMakesTicks : Prop :=
  ∀ (s : State) (a : Nat), s.inReset = false →
    let k : Tick := ⟨s.time.nt + 1, s.time.stepMark⟩
    let after (u : TimeUnit) : State :=
      { s with
        now := max s.now a
        time := { u with nt := s.time.nt + 1, stepMark := false, nextLocal := some (a + 10) }
        refillTicks := s.refillTicks ++ [k]
        bookingTicks := s.bookingTicks ++ [k]
        sources := s.sources.map fun e => (e.1, { e.2 with ticks := e.2.ticks ++ [k] }) }
    (s.time.nextLocal = some a → exec .localTick s = .next (after s.time))
    ∧ (s.time.state = .locked → s.time.deadline = some a →
        exec .timeCellDeadline s = .next ((after { s.time with state := .holdover, deadline := none }).raise
          (.timeState .locked .holdover .timeout (s.time.nt + 1) s.time.selection)))

/-- A time cell from any port but the selected one changes nothing in the Time Unit; in FREE, and with V equal to NT + 1, a cell from
the selected port is a tick: NT becomes V, the unit is LOCKED, its deadline 15 ms on, the tick goes to every block, and TIME_STATE is
raised with cause TIME_CELL unless the unit was LOCKED already (R19, R22 to R24, R31). -/
def Obligations.TimeCellMakesTheTick : Prop :=
  ∀ (s : State) (p : Port) (bytes : List Byte), s.inReset = false → (s.port p).line = .delineated →
    (s.port p).isDark = false → checkPasses bytes = true → (cellOf bytes).label = 255 →
    let v := timeValue (cellOf bytes)
    let u := s.setPort p { s.port p with failRun := 0 }
    let k : Tick := ⟨v, s.time.stepMark⟩
    let t : State :=
      { u with
        time :=
          { s.time with
            nt := v, state := .locked, stepMark := false, nextLocal := none, deadline := some (s.now + 15)
            lastRefused := none }
        refillTicks := s.refillTicks ++ [k]
        bookingTicks := s.bookingTicks ++ [k]
        sources := s.sources.map fun e => (e.1, { e.2 with ticks := e.2.ticks ++ [k] }) }
    (s.time.selection ≠ some p → exec (.cellArrival p bytes) s = .next u)
    ∧ (s.time.selection = some p → s.time.state = .free ∨ v = s.time.nt + 1 →
        exec (.cellArrival p bytes) s = .next
          (if s.time.state = .locked then t else t.raise (.timeState s.time.state .locked .timeCell v (some p))))

/-- A step outside FREE (R25, R26, R31): under ACCEPT NT becomes V at once with a stepped tick to every block and the unit is LOCKED;
under REFUSE NT stands, the refusal is counted, LOCKED goes to HOLDOVER with local ticks from the running deadline, and no tick is made.
TIME_STEP is raised on an accepted step, and on a refused one when its difference is not the last refused one; TIME_STATE follows it when
the time state changed. -/
def Obligations.StepFollowsThePolicy : Prop :=
  ∀ (s : State) (p : Port) (bytes : List Byte), s.inReset = false → (s.port p).line = .delineated →
    (s.port p).isDark = false → checkPasses bytes = true → (cellOf bytes).label = 255 → s.time.selection = some p →
    s.time.state ≠ .free → timeValue (cellOf bytes) ≠ s.time.nt + 1 →
    let v := timeValue (cellOf bytes)
    let u := s.setPort p { s.port p with failRun := 0 }
    let d := v - s.time.nt - 1
    let k : Tick := ⟨v, true⟩
    (s.time.policy = .accept →
      exec (.cellArrival p bytes) s = .next (State.raiseAll
        { u with
          time :=
            { s.time with
              nt := v, state := .locked, stepMark := false, nextLocal := none, deadline := some (s.now + 15)
              lastRefused := none }
          refillTicks := s.refillTicks ++ [k]
          bookingTicks := s.bookingTicks ++ [k]
          sources := s.sources.map fun e => (e.1, { e.2 with ticks := e.2.ticks ++ [k] }) }
        (.timeStep .accepted d v v (some p) s.time.stepCount
          :: if s.time.state = .locked then [] else [.timeState s.time.state .locked .stepAccepted v (some p)])))
    ∧ (s.time.policy = .refuse →
        let y : TimeUnit := { s.time with stepCount := s.time.stepCount + 1, lastRefused := some d }
        exec (.cellArrival p bytes) s = .next (State.raiseAll
          { u with
            time :=
              if s.time.state = .locked then
                { y with state := .holdover, nextLocal := s.time.deadline, deadline := none }
              else y }
          ((if s.time.lastRefused = some d then []
            else [.timeStep .refused d v s.time.nt (some p) (s.time.stepCount + 1)])
            ++ if s.time.state = .locked then [.timeState .locked .holdover .stepRefused s.time.nt (some p)] else [])))

/-- TIME SOURCE by its table: a new selection clears the last refused difference, and LOCKED or HOLDOVER becomes LOCAL or HOLDOVER by
whether LOCAL is named; leaving LOCKED starts the local schedule at the running deadline; a port above 15 is refused with RANGE (R27,
R31). -/
def Obligations.TimeSourceFollowsItsTable : Prop :=
  ∀ (s : State) (o : Order) (rest : List Order), Offers s .timeSource 1 o rest →
    let u := s.taken o rest
    (15 < (o.param 0).toNat → o.param 0 ≠ 255 → Answers .timeSource s o u .range .empty)
    ∧ ∀ sel : Option Port, (sel = none ∧ o.param 0 = 255 ∨ ∃ p : Port, sel = some p ∧ (o.param 0).toNat = p.val) →
        let dest : TimeState := if sel = none then .localRef else .holdover
        (sel = s.time.selection → Answers .timeSource s o u .done (.timeSource sel s.time.state))
        ∧ (sel ≠ s.time.selection → s.time.state = .free ∨ s.time.state = .localRef ∨ s.time.state = .holdover ∧ sel ≠ none →
            Answers .timeSource s o { u with time := { s.time with selection := sel, lastRefused := none } } .done
              (.timeSource sel s.time.state))
        ∧ (sel ≠ s.time.selection → s.time.state = .holdover → sel = none →
            Answers .timeSource s o
              (({ u with time := { s.time with selection := sel, lastRefused := none, state := .localRef } } : State).raise
                (.timeState .holdover .localRef .sourceOrder s.time.nt none))
              .done (.timeSource sel .localRef))
        ∧ (sel ≠ s.time.selection → s.time.state = .locked →
            Answers .timeSource s o
              (({ u with
                  time :=
                    { s.time with
                      selection := sel, lastRefused := none, state := dest, nextLocal := s.time.deadline, deadline := none } }
                : State).raise (.timeState .locked dest .sourceOrder s.time.nt sel))
              .done (.timeSource sel dest))

/-- TIME SET (R28): refused in LOCKED and HOLDOVER; in FREE it makes NT valid in LOCAL; in LOCAL a new value sets the step mark and an equal
one changes only the last refused difference; TIME_STEP is raised before TIME_STATE (R31). TIME POLICY stores the policy and makes
the last refused difference absent; a byte that names neither policy is refused with FORMAT (R29, R172). -/
def Obligations.TimeSetAndPolicy : Prop :=
  ∀ (s : State) (o : Order) (rest : List Order),
    let u := s.taken o rest
    let t := o.word 0
    (Offers s .timeSet 4 o rest →
      (s.time.state = .locked ∨ s.time.state = .holdover → Answers .timeSet s o u .state .empty)
      ∧ (s.time.state = .free →
          Answers .timeSet s o
            ((({ u with time := { s.time with nt := t, state := .localRef, stepMark := true, lastRefused := none } }
              : State).raise (.timeStep .set 0 t t s.time.selection s.time.stepCount)).raise
                (.timeState .free .localRef .setOrder t s.time.selection))
            .done (.timeSet t .localRef))
      ∧ (s.time.state = .localRef → t ≠ s.time.nt →
          Answers .timeSet s o
            (({ u with time := { s.time with nt := t, stepMark := true, lastRefused := none } } : State).raise
              (.timeStep .set (t - s.time.nt) t t s.time.selection s.time.stepCount))
            .done (.timeSet t .localRef))
      ∧ (s.time.state = .localRef → t = s.time.nt →
          Answers .timeSet s o { u with time := { s.time with lastRefused := none } } .done (.timeSet t .localRef)))
    ∧ (Offers s .timePolicy 1 o rest →
        (o.param 0 = 0 →
          Answers .timePolicy s o { u with time := { s.time with policy := .accept, lastRefused := none } } .done
            (.timePolicy .accept))
        ∧ (o.param 0 = 1 →
            Answers .timePolicy s o { u with time := { s.time with policy := .refuse, lastRefused := none } } .done
              (.timePolicy .refuse))
        ∧ (1 < (o.param 0).toNat → Answers .timePolicy s o u .format .empty))

/-! ## Chapter 3: sources, legs and requests -/

/-- The token refill: each source's tokens become the smaller of B and tokens plus bandwidth, B the bandwidth and a quarter of it
rounded down; nothing else changes but the tick taken (R37, R42). -/
def Obligations.RefillFillsEveryBucket : Prop :=
  ∀ (s : State) (k : Tick) (rest : List Tick), s.inReset = false → s.refillTicks = k :: rest →
    exec .tokenRefill s = .next
      { s with
        refillTicks := rest
        sources := s.sources.map fun e =>
          (e.1, { e.2 with tokens := min (e.2.bandwidth + e.2.bandwidth / 4) (e.2.tokens + e.2.bandwidth) }) }

/-- The continuity and counting of a cell of a watched source by its distance d from the expected sequence, and what becomes of it (R39,
R40): with resync pending, or in order, or up to 2,047 ahead, the expected sequence becomes the next and the cell goes on to policing,
a gap counted missing and marked in the tick account; a cell behind is counted late and goes no further. Each is counted as
received and as an arrival of the tick. -/
def Obligations.ContinuityByDistance : Prop :=
  ∀ (s : State) (x : Source) (c : Cell),
    let d := (c.seq - x.expected).toNat
    let counted : Source := { x with received := x.received + 1, arrivals := x.arrivals + 1 }
    let policed (y : Source) : State :=
      if y.tokens = 0 then s.setSource { y with excess := y.excess + 1 }
      else
        ({ s with ports := (replicate c.payload y.legs s.ports).1 } : State).setSource
          { y with tokens := y.tokens - 1, legs := (replicate c.payload y.legs s.ports).2 }
    (x.resync = true → s.watchedCell x c = policed { counted with expected := c.seq + 1, resync := false })
    ∧ (x.resync = false → d = 0 → s.watchedCell x c = policed { counted with expected := c.seq + 1 })
    ∧ (x.resync = false → 1 ≤ d → d ≤ 2047 →
        s.watchedCell x c = policed
          { counted with expected := c.seq + 1, missing := x.missing + BitVec.ofNat 32 d, errored := true })
    ∧ (x.resync = false → 2048 ≤ d →
        s.watchedCell x c = s.setSource { counted with late := x.late + 1, errored := true })

/-- The policing stage, for every cell that reaches it, whether it resynchronises its source, is in order or ends a gap: a cell that
finds a token uses it and is passed to replication; one that finds none is counted excess and discarded. Either way it has been
counted received and has moved the expected sequence (R41). -/
def Obligations.PolicingUsesOneToken : Prop :=
  ∀ (s : State) (x : Source) (c : Cell),
    let d := (c.seq - x.expected).toNat
    x.resync = true ∨ d ≤ 2047 →
    let gap := !x.resync && decide (d ≠ 0)
    let x1 : Source :=
      { x with
        expected := c.seq + 1, resync := false, received := x.received + 1, arrivals := x.arrivals + 1
        missing := if gap then x.missing + BitVec.ofNat 32 d else x.missing
        errored := x.errored || gap }
    (x.tokens = 0 → s.watchedCell x c = s.setSource { x1 with excess := x.excess + 1 })
    ∧ (0 < x.tokens → s.watchedCell x c =
        ({ s with ports := (replicate c.payload x.legs s.ports).1 } : State).setSource
          { x1 with tokens := x.tokens - 1, legs := (replicate c.payload x.legs s.ports).2 })

/-- Replication: every leg, in list order, either queues its copy and counts it sent, its out sequence advancing, or drops it and keeps
its out sequence. A copy is queued exactly when the leg's port is ENABLED and its queue, with the copies of the legs before, holds
fewer than 2,048 cells; a port's queue gains just those copies, each with its leg's label and out sequence and the payload, and no other
field of a port changes (R12, R45). -/
def Obligations.ReplicationAccountsForEveryCopy : Prop :=
  ∀ (payload : List Byte) (legs : List Leg) (ports : Vector PortRec 16),
    let r := replicate payload legs ports
    r.2.length = legs.length
    ∧ (∀ (i : Nat) (l : Leg), legs[i]? = some l →
        let q := ports[l.pair.port]
        r.2[i]? = some
          (if q.state = .enabled ∧ q.feedQ.length + ((legs.take i).countP fun m => m.pair.port == l.pair.port) < 2048 then
            { l with seq := l.seq + 1, sent := l.sent + 1 }
           else { l with dropped := l.dropped + 1 }))
    ∧ ∀ p : Port, r.1[p] =
        if ports[p].state = .enabled then
          { ports[p] with
            feedQ := ports[p].feedQ
              ++ ((legs.filter fun l => l.pair.port == p).take (2048 - ports[p].feedQ.length)).map fun l =>
                  ⟨l.pair.label, l.seq, payload⟩ }
        else ports[p]

/-- The installed bandwidth of a port is the sum, over every leg on it, of the bandwidth of the source owning its list (R11). An
install request is refused with PAIR_IN_USE when a pair it names is on some leg, else with OVER_CAPACITY when some port it names
would hold more than its capacity, else with NO_ROOM when the list would hold more than 16 legs, and nothing changes; otherwise it
is TAKEN, a leg for each pair, its counters 0, goes to the end of the list in the order named, and each port's installed bandwidth
gains the source's once per leg on it (R47). A move request is refused with NO_ROOM exactly when the target holds more than 16 legs
less those to come; otherwise the booking's legs go to the end of the target list in their order, no leg changes, and no port's
installed bandwidth (R37, R49). -/
def Obligations.MoveKeepsLegsAndBandwidth : Prop :=
  (∀ (s : State) (p : Port),
    s.installed p = (s.sources.map fun e => e.2.bandwidth * e.2.legs.countP fun l => l.pair.port == p).sum)
  ∧ (∀ (s : State) (slot : Nat) (i : SrcId) (x : Source) (ps : List Pair), s.source i = some x →
      let inUse : Prop := ∃ q ∈ ps, ∃ e ∈ s.sources, ∃ l ∈ e.2.legs, l.pair = q
      let tooMuch : Prop :=
        ∃ q ∈ ps, (s.port q.port).capacity < s.installed q.port + x.bandwidth * ps.countP fun r => r.port == q.port
      let full : Prop := 16 < x.legs.length + ps.length
      (inUse → s.installCheck i ps = .pairInUse ∧ s.install slot i ps = s)
      ∧ (¬ inUse → tooMuch → s.installCheck i ps = .overCapacity ∧ s.install slot i ps = s)
      ∧ (¬ inUse → ¬ tooMuch → full → s.installCheck i ps = .noRoom ∧ s.install slot i ps = s)
      ∧ (¬ inUse → ¬ tooMuch → ¬ full →
          s.installCheck i ps = .taken
            ∧ s.install slot i ps = s.setSource { x with legs := x.legs ++ ps.map fun q => ⟨q, slot, 0, 0, 0⟩ }
            ∧ (TablesInForm s → ∀ p, (s.install slot i ps).installed p
                = s.installed p + x.bandwidth * ps.countP fun q => q.port == p)))
  ∧ ∀ (s : State) (slot : Nat) (x y : Source), TablesInForm s → s.source x.id = some x → s.source y.id = some y →
    x.id ≠ y.id →
    let n := x.legs.countP fun l => l.owner == slot
    (16 < y.legs.length + n → s.moveLegs slot x.id y.id = (.noRoom, s))
    ∧ (y.legs.length + n ≤ 16 → ∃ t, s.moveLegs slot x.id y.id = (.taken, t)
        ∧ t.source x.id = some { x with legs := x.legs.filter fun l => l.owner != slot }
        ∧ t.source y.id = some { y with legs := y.legs ++ x.legs.filter fun l => l.owner == slot }
        ∧ (∀ i, i ≠ x.id → i ≠ y.id → t.source i = s.source i)
        ∧ (x.bandwidth = y.bandwidth → ∀ p, t.installed p = s.installed p))

/-- SOURCE STATUS and SOURCE WATCH (R50, R113): a label or port out of range is refused with RANGE, an absent source with UNKNOWN; otherwise
the record is read, or its three parameters take the clamped values. A SOURCE WATCH whose target is neither a source nor the defaults
is refused with FORMAT (R172). -/
def Obligations.SourceOrdersByTheMap : Prop :=
  ∀ (s : State) (o : Order) (rest : List Order),
    let u := s.taken o rest
    (Offers s .sourceStatus 2 o rest →
      (15 < (o.param 0).toNat ∨ o.param 1 = 0 ∨ o.param 1 = 255 → Answers .sourceStatus s o u .range .empty)
      ∧ ∀ i : SrcId, i.label ≠ 0 → i.label ≠ 255 → (o.param 0).toNat = i.port.val → o.param 1 = i.label →
          (s.source i = none → Answers .sourceStatus s o u .unknown .empty)
          ∧ ∀ x, s.source i = some x → Answers .sourceStatus s o u .done (.sourceStatus
              ⟨x.id, x.bandwidth, x.bandwidth + x.bandwidth / 4, x.refs, x.watch, x.expected, x.resync, x.tokens,
                x.received, x.missing, x.late, x.excess, x.legs.length, x.legs⟩))
    ∧ (Offers s .sourceWatch 8 o rest →
        let within (hi n : Nat) : Clamped := ⟨max 1 (min hi n), decide (n = 0 ∨ hi < n)⟩
        let f := within 1000 (word16 (paramsOf o.cell) 3).toNat
        let c := within 60000 (word16 (paramsOf o.cell) 5).toNat
        let d := within 100 (o.param 7).toNat
        (1 < (o.param 0).toNat → Answers .sourceWatch s o u .format .empty)
        ∧ (o.param 0 = 1 →
            Answers .sourceWatch s o { u with defaults := ⟨f.value, c.value, d.value⟩ } .done (.watch none f c d))
        ∧ (o.param 0 = 0 →
            (15 < (o.param 1).toNat ∨ o.param 2 = 0 ∨ o.param 2 = 255 → Answers .sourceWatch s o u .range .empty)
            ∧ ∀ i : SrcId, i.label ≠ 0 → i.label ≠ 255 → (o.param 1).toNat = i.port.val → o.param 2 = i.label →
                (s.source i = none → Answers .sourceWatch s o u .unknown .empty)
                ∧ ∀ x, s.source i = some x →
                    Answers .sourceWatch s o
                      (u.setSource { x with watch := { x.watch with params := ⟨f.value, c.value, d.value⟩ } }) .done
                      (.watch (some i) f c d)))

/-! ## Chapter 6: the fault watch -/

/-- A source is demanded exactly when a booking in PREROLL, HELD, LIVE, OVERRUN or EXTENDED names it as main or spare in its record;
a pending modification's names do not count (R78). Live is LIVE, OVERRUN and EXTENDED, and running is those and HELD (R77). That a
source that is not in the table reads as UNWATCHED, a read that no rule gives and no run makes, is the model's choice (assumption
log 17). A source's tick that is not classified (R101 to R103): UNWATCHED and not demanded, nothing but the tick is taken; UNWATCHED
and demanded, the watch starts; watched and not demanded, it ends. -/
def Obligations.SourceTickStartsAndEndsTheWatch : Prop :=
  (∀ (s : State) (i : SrcId),
    (s.demanded i = true ↔
      ∃ e ∈ s.bookings,
        (e.2.state = .preroll ∨ e.2.state = .held ∨ e.2.state = .live ∨ e.2.state = .overrun ∨ e.2.state = .extended)
          ∧ (e.2.fields.main = i ∨ e.2.fields.spare = some i))
    ∧ (∀ x, s.source i = some x → s.watchOf i = x.watch.state) ∧ (s.source i = none → s.watchOf i = .unwatched))
  ∧ (∀ st : BookingState,
      (st.isLive = true ↔ st = .live ∨ st = .overrun ∨ st = .extended)
      ∧ (st.isRunning = true ↔ st = .held ∨ st.isLive = true) ∧ (st.isEnded = true ↔ ∃ bill, st = .ended bill))
  ∧ ∀ (s : State) (x : Source) (k : Tick) (rest : List Tick), s.inReset = false → s.source x.id = some x →
    x.ticks = k :: rest →
    let y : Source := { x with ticks := rest }
    (x.watch.state = .unwatched → s.demanded x.id = false →
      exec (.sourceTick x.id.port x.id.label) s = .next (s.setSource y))
    ∧ (x.watch.state = .unwatched → s.demanded x.id = true →
        exec (.sourceTick x.id.port x.id.label) s = .next (afterSourceTick s x
          { y with
            arrivals := 0, errored := false, resync := true, tokens := x.bandwidth + x.bandwidth / 4
            watch :=
              { x.watch with
                state := .recovering, silentRun := 0, goodRun := 0, position := 0, errored := 0, lastErrored := none
                lastChange := some k.nt } }
          .demandStarted k.nt))
    ∧ (x.watch.state ≠ .unwatched → s.demanded x.id = false →
        exec (.sourceTick x.id.port x.id.label) s = .next (afterSourceTick s x
          { y with
            arrivals := 0, errored := false
            watch := { x.watch with state := .unwatched, lastChange := some k.nt } }
          .demandEnded k.nt))

/-- A classified tick updates the runs and the window whatever the watch state (R104 to R106): the silent and good runs by the
class, holding at 1,000 and 60,000; the window's position and errored count, closed and recorded at the 100th tick; the account
cleared. -/
def Obligations.ClassifiedTickUpdatesRunsAndWindow : Prop :=
  ∀ (k : Tick) (x : Source),
    let y := (classifiedTick k x).src
    let bad := decide (x.arrivals ≠ 0) && x.errored
    let n := x.watch.errored + (if bad then 1 else 0)
    y.watch.silentRun = (if x.arrivals = 0 then min (x.watch.silentRun + 1) 1000 else 0)
    ∧ y.watch.goodRun = (if x.arrivals ≠ 0 ∧ x.errored = false then min (x.watch.goodRun + 1) 60000 else 0)
    ∧ (if 100 ≤ x.watch.position + 1 then
        y.watch.position = 0 ∧ y.watch.errored = 0 ∧ y.watch.lastErrored = some n ∧ (classifiedTick k x).windowEnd = true
       else
        y.watch.position = x.watch.position + 1 ∧ y.watch.errored = n ∧ y.watch.lastErrored = x.watch.lastErrored
          ∧ (classifiedTick k x).windowEnd = false)
    ∧ y.arrivals = 0 ∧ y.errored = false ∧ y.watch.params = x.watch.params

/-- The one change of watch state a classified tick makes is that of the first condition that holds (R107 to R111). -/
def Obligations.ClassifiedTickChangesStateOnce : Prop :=
  ∀ (k : Tick) (x : Source), x.watch.state ≠ .unwatched →
    let r := classifiedTick k x
    let w := r.src.watch
    let silent := decide (x.arrivals = 0)
    let n := x.watch.errored + (if x.arrivals ≠ 0 ∧ x.errored = true then 1 else 0)
    (if x.watch.state ≠ .failed ∧ x.watch.params.failCount ≤ w.silentRun then
      w.state = .failed ∧ w.failures = x.watch.failures + 1 ∧ r.cause = some .silent ∧ r.src.resync = true
     else if x.watch.state = .failed ∧ silent = false then
      w.state = .recovering ∧ r.cause = some .arrivals ∧ r.src.resync = true ∧ w.failures = x.watch.failures
     else if x.watch.state = .recovering ∧ x.watch.params.clearCount ≤ w.goodRun then
      w.state = .ok ∧ r.cause = some .cleared ∧ r.src.resync = x.resync
     else if r.windowEnd = true ∧ x.watch.state = .ok ∧ x.watch.params.degrade ≤ n then
      w.state = .degraded ∧ w.degradations = x.watch.degradations + 1 ∧ r.cause = some .erroredWindow
     else if r.windowEnd = true ∧ x.watch.state = .degraded ∧ n < (x.watch.params.degrade + 1) / 2 then
      w.state = .ok ∧ r.cause = some .cleanWindow ∧ w.degradations = x.watch.degradations
     else w.state = x.watch.state ∧ r.cause = none)
    ∧ w.lastChange = (if r.cause.isSome then some k.nt else x.watch.lastChange)

/-- SOURCE_TICK on a watched, demanded source, and SILENT, CLEARED and WINDOW_END when that tick has their outcome, take the
classified tick and raise the notice of its change; without their outcome the three change nothing (R101, R106, R108, R110, R114;
assumption log 6). -/
def Obligations.ClassifiedTickCommands : Prop :=
  ∀ (s : State) (x : Source) (k : Tick) (rest : List Tick), s.inReset = false → s.source x.id = some x →
    x.ticks = k :: rest → x.watch.state ≠ .unwatched → s.demanded x.id = true →
    let r := classifiedTick k { x with ticks := rest }
    let t := match r.cause with
      | some c => afterSourceTick s x r.src c k.nt
      | none => s.setSource r.src
    exec (.sourceTick x.id.port x.id.label) s = .next t
    ∧ exec (.silent x.id.port x.id.label) s = .next (if r.cause = some .silent then t else s)
    ∧ exec (.cleared x.id.port x.id.label) s = .next (if r.cause = some .cleared then t else s)
    ∧ exec (.windowEnd x.id.port x.id.label) s = .next (if r.windowEnd = true then t else s)

/-! ## Chapter 4: booking and admission -/

/-- The evaluation points suffice (section 4.4, R60, R62, R63): for a candidate window that is not empty, no instant of it finds the
sum over its limit exactly when none of its evaluation points does. -/
def Obligations.EvaluationPointsSuffice : Prop :=
  ∀ (f : Part → Nat) (own limit : Nat) (c : Part) (compared : List (List Part)), c.from_ < c.upTo →
    (overAt f own limit (pointsIn c compared) compared = none
      ↔ ∀ x : Int, c.from_ ≤ x → x < c.upTo → sumAt f x compared + own ≤ limit)

/-- The BOOK block by its byte positions (R172). A BOOK whose fields are in range, whose reference is new, whose sources have its
bandwidth, and for which a slot and source records are free, passes steps 1 to 7 and goes into its admission computation with the
fields as given and clamped (R53, R57 to R59; that the computation reads the table slot by slot is assumption log 10). -/
def Obligations.BookInRangeStartsAdmission : Prop :=
  (∀ ps : List Byte,
    let num (i : Nat) : Nat := (byteAt ps i).toNat
    bookBlock ps =
      { ref := word32 ps 0, account := word16 ps 4, tariffClass := num 6, group := num 7
        main := (byteAt ps 8, byteAt ps 9), spare := if num 10 = 1 then some (byteAt ps 11, byteAt ps 12) else none
        extend := decide (num 13 = 1), revertive := decide (num 14 = 1), switchOnDegrade := decide (num 15 = 1)
        bandwidth := (word16 ps 16).toNat, holdOff := (word16 ps 18).toNat, start := word32 ps 20
        duration := (word32 ps 24).toNat, allowance := (word32 ps 28).toNat, preroll := (word32 ps 32).toNat
        wtr := (word32 ps 36).toNat
        legs := (List.range (num 40)).map fun i => (byteAt ps (41 + 2 * i), byteAt ps (42 + 2 * i)) })
  ∧ ∀ (s : State) (o : Order) (rest : List Order) (main : SrcId) (spare : Option SrcId) (legs : List Pair) (n : Nat),
    Offers s .book n o rest → s.mgmt.mode = .service →
    let b := bookBlock (paramsOf o.cell)
    let nt := s.time.nt
    let f : Fields :=
      { account := b.account, tariffClass := b.tariffClass, main := main, spare := spare, bandwidth := b.bandwidth
        legs := legs, start := b.start, effStart := if reached nt b.start then nt else b.start, duration := b.duration
        allowance := b.allowance, extend := b.extend, preroll := min b.preroll 60000, group := b.group
        revertive := b.revertive, switchOnDegrade := b.switchOnDegrade, holdOff := min b.holdOff 10000
        wtr := min b.wtr 60000 }
    n = 41 + 2 * (o.param 40).toNat → n ≤ 240 →
    (∀ i, i = 10 ∨ i = 13 ∨ i = 14 ∨ i = 15 → (o.param i).toNat ≤ 1) →
    b.tariffClass ≤ 31 → srcOf b.main.1 b.main.2 = some main →
    (match b.spare with
      | none => spare = none
      | some x => ∃ i, srcOf x.1 x.2 = some i ∧ i ≠ main ∧ spare = some i) →
    (1 ≤ b.bandwidth ∧ b.bandwidth ≤ 48000) →
    pairsOf b.legs = some legs → (1 ≤ legs.length ∧ legs.length ≤ 4) → legs.Nodup →
    ticksUntil nt b.start ≤ 2 ^ 30 → (1 ≤ b.duration ∧ b.duration ≤ 8640000) →
    reached nt (b.start + BitVec.ofNat 32 b.duration) = false → b.allowance ≤ 1080000 → b.group ≤ 32 →
    (∀ e ∈ s.bookings, e.2.ref ≠ b.ref) →
    (∀ i ∈ f.named, ∀ x, s.source i = some x → x.bandwidth = b.bandwidth) →
    s.bookings.length < 512 → (f.named.countP fun i => (s.source i).isNone) ≤ 512 - s.sources.length →
    exec .book s = .next ((s.taken o rest).setEngine (.working ⟨o, nt, .book b.ref f, 0, []⟩))

/-- The checks of BOOK that come before the table is read, in order (R53, R57 to R59): a malformed block is answered FORMAT, then
any mode but SERVICE MODE, then the first field out of range, in the order of R53's table, RANGE with its name; with all in range, a
reference held is DUPLICATE_REF with its slot, a source of another bandwidth BANDWIDTH_MISMATCH, main before spare, a full table
NO_SLOT, and too few free source records NO_SOURCE_SLOT. The state is otherwise as the taking left it. A port, 0 to 15, and a label, 1
to 254, in two bytes name a source, or a pair (R53). Which field RANGE names is the model's choice in three cases (assumption log 9):
an empty leg list is reported at leg 0; a list of more than four legs at leg 4, its fifth, if no earlier leg fails; a planned end
already reached as the planned duration. -/
def Obligations.BookRefusesInOrder : Prop :=
  (∀ (p l : Byte) (i : SrcId),
    srcOf p l = some i ↔ p.toNat = i.port.val ∧ l = i.label ∧ l ≠ 0 ∧ l ≠ 255)
  ∧ (∀ (x : Byte × Byte) (q : Pair),
      pairOf x = some q ↔ x.1.toNat = q.port.val ∧ x.2 = q.label ∧ x.2 ≠ 0 ∧ x.2 ≠ 255)
  ∧ (∀ (xs : List (Byte × Byte)) (qs : List Pair), pairsOf xs = some qs ↔ xs.map pairOf = qs.map some)
  ∧ ∀ (s : State) (o : Order) (rest : List Order) (n : Nat), Offers s .book n o rest →
    let b := bookBlock (paramsOf o.cell)
    let u := s.taken o rest
    let nt := s.time.nt
    let legFails (i : Nat) : Prop :=
      (i = 0 ∧ b.legs = [])
        ∨ ∃ x ∈ b.legs[i]?, 4 ≤ i ∨ pairOf x = none ∨ ∃ j < i, ∃ y ∈ b.legs[j]?, pairOf y = pairOf x
    let spareFails : Prop := ∃ x ∈ b.spare, srcOf x.1 x.2 = none ∨ srcOf x.1 x.2 = srcOf b.main.1 b.main.2
    let malformed : Prop :=
      n ≠ 41 + 2 * (o.param 40).toNat ∨ 240 < n ∨ ∃ i ∈ [10, 13, 14, 15], 1 < (o.param i).toNat
    let ranges : List (Prop × FieldName) :=
      [(31 < b.tariffClass, .tariffClass), (srcOf b.main.1 b.main.2 = none, .mainSource), (spareFails, .spareSource),
          (b.bandwidth = 0 ∨ 48000 < b.bandwidth, .bandwidth)]
        ++ (List.range 5).map (fun i => (legFails i, .leg i))
        ++ [((2 ^ 30 : Int) < ticksUntil nt b.start, .start),
          (b.duration = 0 ∨ 8640000 < b.duration ∨ reached nt (b.start + BitVec.ofNat 32 b.duration) = true,
            .plannedDuration),
          (1080000 < b.allowance, .allowance), (32 < b.group, .startGroup)]
    let steps : List (Prop × Refused) :=
      [(malformed, ⟨.format, .empty⟩), (s.mgmt.mode ≠ .service, ⟨.mode, .empty⟩)]
        ++ ranges.map fun x => (x.1, ⟨.range, .badField x.2⟩)
    let named : List SrcId :=
      (srcOf b.main.1 b.main.2).toList ++ (b.spare.bind fun x => srcOf x.1 x.2).toList
    let differs (j : SrcId) (x : Source) : Prop := s.source j = some x ∧ x.bandwidth ≠ b.bandwidth
    let needed := named.countP fun j => (s.source j).isNone
    let free := 512 - s.sources.length
    AnswersFirst .book s o u steps
    ∧ ((∀ x ∈ steps, ¬ x.1) →
        (∀ k c, s.byRef b.ref = some (k, c) → Answers .book s o u .duplicateRef (.heldBy k))
        ∧ (s.byRef b.ref = none →
            (∀ (i : Nat) (j : SrcId) (x : Source), named[i]? = some j → differs j x →
              (∀ (i' : Nat) (j' : SrcId) (y : Source), i' < i → named[i']? = some j' → ¬ differs j' y) →
              Answers .book s o u .bandwidthMismatch (.otherBandwidth j x.bandwidth))
            ∧ ((∀ j ∈ named, ∀ x, ¬ differs j x) →
                (512 ≤ s.bookings.length → Answers .book s o u .noSlot .empty)
                ∧ (s.bookings.length < 512 → free < needed →
                    Answers .book s o u .noSourceSlot (.sourceRecords needed free)))))

/-- The completion of a BOOK (R60 to R63, R65): admissible, the booking stands in the lowest FREE slot, BOOKED, ON_MAIN, with no
request and a meter of zeros, its main and its spare have each gained a reference or been created, and every other source and
booking stands; otherwise CONFLICT, then CAPACITY, then LEG_LIMIT is answered, and nothing else changes but the engine. The table is
compared as read so far and as it stands beyond, in slot order, once for the three steps (assumption log 10 and 37); which booking
and pair CONFLICT reports, where one reserves with two parts, is the model's choice (assumption log 32). -/
def Obligations.AdmittedBookTakesTheLowestSlot : Prop :=
  ∀ (s : State) (j : Job) (ref : Word) (f : Fields),
    let compared := j.read ++ s.bookings.filter fun e => decide (j.nextSlot ≤ e.1)
    s.inReset = false → TablesInForm s → Rising compared →
    s.mgmt.engine = .working j → j.kind = .book ref f →
    (¬ Admissible s j.nt false f compared →
      ∃ r, AdmissionRefuses s j.nt false f compared r ∧ Answers .bookAccepted s j.order s r.result r.data)
    ∧ (Admissible s j.nt false f compared →
        ∃ k t, s.booking k = none ∧ (∀ i, i < k → (s.booking i).isSome = true)
          ∧ Answers .bookAccepted s j.order t .done
              (.booked k f.effStart (f.start + BitVec.ofNat 32 f.duration)
                (f.start + BitVec.ofNat 32 f.duration + BitVec.ofNat 32 f.allowance) f.preroll f.holdOff f.wtr)
          ∧ t.booking k = some
              { ref := ref, fields := f, state := .booked, position := .onMain, request := .noRequest
                holdOffLeft := none, wtrLeft := none, afresh := false, pending := none, endPending := false
                delivered := 0, dropped := 0
                meter := ⟨none, none, 0, 0, 0, 0, 0, 0, 0, 0, 0, 0, 0, 0, 0, false, false⟩ }
          ∧ (∀ i, i ≠ k → t.booking i = s.booking i)
          ∧ (∀ i, t.source i =
              if i = f.main ∨ f.spare = some i then some (match s.source i with
                | some x => { x with refs := x.refs + 1 }
                | none => newSource i f.bandwidth s.defaults)
              else s.source i)
          ∧ t = { s with sources := t.sources, bookings := t.bookings })

/-- The sources a booking names are the main and the spare of its record and of its pending modification, each once (R35). Writing a
source, a booking or a port, or freeing a slot, changes that record and nothing else. A source that gains a reference counts one
more, or is created with reference count 1, UNWATCHED under the watch defaults, resync pending and all else 0; one that loses a
reference counts one fewer, and is freed exactly when it had no other (R34 to R36, R99, R100). No other source changes. -/
def Obligations.ReferencesKeepTheSourceTable : Prop :=
  (∀ (b : Booking) (i : SrcId),
    (i ∈ b.named ↔
      i = b.fields.main ∨ b.fields.spare = some i
        ∨ ∃ m, b.pending = some m ∧ (m.main = some i ∨ m.spare = some (some i)))
    ∧ b.named.Nodup)
  ∧ (∀ s : State,
      (∀ (x : Source) (i : SrcId), (s.setSource x).source i = if i = x.id then some x else s.source i)
      ∧ (∀ (k j : Nat) (b : Booking),
          (s.setBooking k b).booking j = (if j = k then some b else s.booking j)
            ∧ (s.freeSlot k).booking j = if j = k then none else s.booking j)
      ∧ (∀ (p q : Port) (r : PortRec), (s.setPort p r).port q = if q = p then r else s.port q)
      ∧ ∀ (x : Source) (k : Nat) (b : Booking) (p : Port) (r : PortRec),
          s.setSource x = { s with sources := (s.setSource x).sources }
            ∧ s.setBooking k b = { s with bookings := (s.setBooking k b).bookings }
            ∧ s.freeSlot k = { s with bookings := (s.freeSlot k).bookings }
            ∧ s.setPort p r = { s with ports := (s.setPort p r).ports })
  ∧ ∀ (s : State) (bandwidth : Nat) (i : SrcId), TablesInForm s →
    (s.gainRef bandwidth i).source i = some (match s.source i with
      | some x => { x with refs := x.refs + 1 }
      | none =>
        { id := i, bandwidth := bandwidth, refs := 1, watch := ⟨.unwatched, s.defaults, 0, 0, 0, 0, none, 0, 0, none⟩
          expected := 0, resync := true, arrivals := 0, errored := false, tokens := 0, received := 0, missing := 0
          late := 0, excess := 0, legs := [], ticks := [] })
    ∧ (∀ j, j ≠ i → (s.gainRef bandwidth i).source j = s.source j)
    ∧ (∀ x, s.source i = some x →
        (s.loseRef i).source i = if 1 < x.refs then some { x with refs := x.refs - 1 } else none)
    ∧ (∀ j, j ≠ i → (s.loseRef i).source j = s.source j)
    ∧ (s.loseRef i).bookings = s.bookings ∧ (s.loseRef i).ports = s.ports

/-- The MODIFY block by its byte positions, a field counting where its mask bit is set (R172), and the fields with those of a
modification changed and no other (R80), and their instants (R55). MODIFY (R57, R60 to R64, R66 to R70). A malformed block is
refused with FORMAT and any mode but SERVICE MODE with MODE; then come the checks of the reference, the state, the ranges, the
bandwidths and the source records. Passed, it is accepted at once when the candidate reserves nothing its record does not, and else
goes into its computation. The completion, on a record that stands as the candidate was built from, refuses it by steps 8 to 10 with
the booking left out of the comparison, or accepts it; on one that does not, it makes every check again on the table as it stands.
Accepted, it is the booking's whole pending modification, and the record itself stands (that the selector position counts as part of
the record, and how the table is read, is assumption log 10 and 37). What the refusals of a MODIFY report is the model's choice
(assumption log 9): RANGE, and STATE for an ENDED booking, report nothing, and the others report what they report for BOOK. So is
that a pair named twice among the legs to drop is dropped once (assumption log 18), and what CONFLICT reports of a booking that
reserves with two parts (assumption log 32). -/
def Obligations.ModifyBecomesPending : Prop :=
  let accepted (s : State) (k : Nat) (b : Booking) (m : Mod) : State :=
    let b' : Booking := { b with pending := some m }
    let gained := (b'.named.filter fun i => !b.named.contains i).foldl (fun u i => u.gainRef b.fields.bandwidth i)
      (s.setBooking k b')
    (b.named.filter fun i => !b'.named.contains i).foldl State.loseRef gained
  let done (b : Booking) (k : Nat) (m : Mod) : AnswerData :=
    .modified k b.pending.isSome (m.apply b.fields).plannedEnd (m.apply b.fields).windowEnd
  (∀ ps : List Byte,
    let num (i : Nat) : Nat := (byteAt ps i).toNat
    let named (i : Nat) : Bool := (num 4 * 65536 + num 5 * 256 + num 6).testBit i
    let pair (i : Nat) : Byte × Byte := (byteAt ps i, byteAt ps (i + 1))
    let yes (i : Nat) : Bool := decide (num i = 1)
    let adds := (List.range (num 41)).map fun i => pair (43 + 2 * i)
    let drops := (List.range (num 42)).map fun i => pair (43 + 2 * num 41 + 2 * i)
    modifyBlock ps =
      { start := if named 0 then some (word32 ps 7) else none, main := if named 1 then some (pair 11) else none
        group := if named 2 then some (num 13) else none, preroll := if named 3 then some (word32 ps 14).toNat else none
        account := if named 4 then some (word16 ps 18) else none, tariffClass := if named 5 then some (num 20) else none
        duration := if named 6 then some (word32 ps 21).toNat else none
        allowance := if named 7 then some (word32 ps 25).toNat else none
        extend := if named 8 then some (yes 29) else none, adds := if named 9 then some adds else none
        drops := if named 10 then some drops else none
        spare := if named 11 then some (if yes 30 then some (pair 31) else none) else none
        revertive := if named 12 then some (yes 33) else none, switchOnDegrade := if named 13 then some (yes 34) else none
        holdOff := if named 14 then some (word16 ps 35).toNat else none
        wtr := if named 15 then some (word32 ps 37).toNat else none })
  ∧ (∀ (m : Mod) (f : Fields),
      m.apply f =
        { account := m.account.getD f.account, tariffClass := m.tariffClass.getD f.tariffClass, main := m.main.getD f.main
          spare := m.spare.getD f.spare, bandwidth := f.bandwidth, legs := m.legs.getD f.legs
          start := (m.start.map Prod.fst).getD f.start, effStart := (m.start.map Prod.snd).getD f.effStart
          duration := m.duration.getD f.duration, allowance := m.allowance.getD f.allowance
          extend := m.extend.getD f.extend, preroll := m.preroll.getD f.preroll, group := m.group.getD f.group
          revertive := m.revertive.getD f.revertive, switchOnDegrade := m.switchOnDegrade.getD f.switchOnDegrade
          holdOff := m.holdOff.getD f.holdOff, wtr := m.wtr.getD f.wtr }
      ∧ f.prerollPoint = f.start - BitVec.ofNat 32 f.preroll ∧ f.plannedEnd = f.start + BitVec.ofNat 32 f.duration
      ∧ f.windowEnd = f.start + BitVec.ofNat 32 f.duration + BitVec.ofNat 32 f.allowance)
  ∧ (∀ (s : State) (o : Order) (rest : List Order) (n : Nat), Offers s .modify n o rest →
    let u := s.taken o rest
    let c := modifyBlock (paramsOf o.cell)
    let mask := (o.param 4).toNat * 65536 + (o.param 5).toNat * 256 + (o.param 6).toNat
    let adds := (o.param 41).toNat
    let drops := (o.param 42).toNat
    let malformed : Prop :=
      240 < n ∨ n ≠ 43 + 2 * (adds + drops) ∨ mask % 65536 = 0 ∨ mask.testBit 16 = true ∨ mask.testBit 17 = true
        ∨ (mask.testBit 9 = true ↔ adds = 0) ∨ (mask.testBit 10 = true ↔ drops = 0)
        ∨ ∃ x ∈ [(8, 29), (11, 30), (12, 33), (13, 34)], mask.testBit x.1 = true ∧ 1 < (o.param x.2).toNat
    (malformed → Answers .modify s o u .format .empty)
    ∧ (¬ malformed → s.mgmt.mode ≠ .service → Answers .modify s o u .mode .empty)
    ∧ (¬ malformed → s.mgmt.mode = .service →
        ModifySteps .modify s o u s.time.nt (o.word 0) c fun k b m =>
          (NeedsAdmission s.time.nt b (m.apply b.fields) →
            exec .modify s = .next (u.setEngine (.working ⟨o, s.time.nt, .modify k c m b, 0, []⟩)))
          ∧ (¬ NeedsAdmission s.time.nt b (m.apply b.fields) →
              Answers .modify s o (accepted u k b m) .done (done b k m))))
  ∧ ∀ (s : State) (j : Job) (k : Nat) (c : Change) (m : Mod) (built : Booking),
      let compared := j.read ++ s.bookings.filter fun e => decide (j.nextSlot ≤ e.1)
      s.inReset = false →
      s.mgmt.engine = .working j → j.kind = .modify k c m built →
      let stands (b : Booking) : Prop :=
        b.ref = built.ref ∧ b.state = built.state ∧ b.fields = built.fields ∧ b.pending = built.pending
          ∧ b.position = built.position
      let decided (k : Nat) (b : Booking) (m : Mod) (others : List (Nat × Booking)) : Prop :=
        let f := m.apply b.fields
        (Admissible s j.nt b.state.isRunning f others →
          Answers .modifyAccepted s j.order (accepted s k b m) .done (done b k m))
        ∧ (¬ Admissible s j.nt b.state.isRunning f others →
            ∃ r, AdmissionRefuses s j.nt b.state.isRunning f others r
              ∧ Answers .modifyAccepted s j.order s r.result r.data)
      (∀ b, s.booking k = some b → stands b → Rising compared →
        decided k b m (compared.filter fun e => e.1 != k))
      ∧ ((∀ b, s.booking k = some b → ¬ stands b) → Rising s.bookings →
          ModifySteps .modifyAccepted s j.order s j.nt built.ref c fun k b m =>
            (NeedsAdmission j.nt b (m.apply b.fields) → decided k b m (s.bookings.filter fun e => e.1 != k))
            ∧ (¬ NeedsAdmission j.nt b (m.apply b.fields) →
                Answers .modifyAccepted s j.order (accepted s k b m) .done (done b k m)))

/-- CANCEL (R71, R72): FORMAT on a wrong length, MODE outside SERVICE MODE, UNKNOWN for a reference nobody holds. An early cancel
drops the references and frees the slot with no bill and no notice; a late one hands over a bill of the class's fee, or of 0 under a
BLANK class, with outcome CANCELLED_LATE, a HELD booking leaving its group, its sources losing their references: written where there
is room, the slot becoming FREE, with BILL_LEVEL or BILL_FULL before BOOKING_ENDED, and else waiting in ENDED; a live or ENDED
booking refuses it with STATE. That a HELD booking's cancel is always late is R71's own sentence (assumption log 16); that the bill
carries the switch counts and SATURATED of the meter part, and no cells, is read from the manual (assumption log 24). -/
def Obligations.CancelEarlyOrLate : Prop :=
  ∀ (s : State) (o : Order) (rest : List Order) (n : Nat), Offers s .cancel n o rest →
    let u := s.taken o rest
    (n ≠ 4 → Answers .cancel s o u .format .empty)
    ∧ (n = 4 → s.mgmt.mode ≠ .service → Answers .cancel s o u .mode .empty)
    ∧ (n = 4 → s.mgmt.mode = .service →
        (s.byRef (o.word 0) = none → Answers .cancel s o u .unknown .empty)
        ∧ ∀ k b, s.byRef (o.word 0) = some (k, b) →
            let cls := (s.tariffs.classes[b.fields.tariffClass]?).getD none
            let near := match cls with
              | some c => decide (ticksUntil s.time.nt b.fields.start < c.window)
              | none => false
            (b.state = .booked ∨ b.state = .preroll → reached s.time.nt b.fields.start = false → near = false →
              Answers .cancel s o ((b.named.foldl State.loseRef u).freeSlot k) .done .cancelled)
            ∧ (b.state = .held ∨ (b.state = .booked ∨ b.state = .preroll)
                  ∧ (reached s.time.nt b.fields.start = true ∨ near = true) →
                let v := if b.state = .held then u.leaveGroup b.fields.group else u
                let bill : Bill :=
                  { ref := b.ref, account := b.fields.account, cls := b.fields.tariffClass, outcome := .cancelledLate
                    firstLive := none, endNt := s.time.nt, held := b.meter.held, scheduled := 0, overrun := 0, extended := 0
                    outage := 0, credited := 0, degraded := 0, uBase := 0, uOver := 0, round := 0
                    total := match cls with
                      | some c => c.fee
                      | none => 0
                    switches := b.meter.switches, forced := b.meter.forced, delivered := 0, dropped := 0
                    noTariff := cls.isNone, saturated := b.meter.saturated, timeStepped := b.meter.timeStepped
                    minimumApplied := false
                    early := !reached s.time.nt (b.fields.start + BitVec.ofNat 32 b.fields.duration) }
                let w := b.named.foldl State.loseRef v
                let freed := w.freeSlot k
                let n := s.bills.records.length
                let q := s.bills.next
                let oldest := (s.bills.records.head?.map BillRec.seq).getD q
                let ended (seq : Option Word) : NoticeContent :=
                  .bookingEnded k b.ref b.fields.account .cancelledLate s.time.nt bill.total seq
                (n < 64 →
                  Answers .cancel s o
                    (State.raiseAll
                      { freed with
                        bills := ⟨s.bills.records ++ [⟨q, bill⟩], if q = 0xFFFFFFFF#32 then 1 else q + 1⟩ }
                      ((if n = 47 then [.billLevel 48 oldest q freed.waiters]
                        else if n = 63 then [.billFull 64 oldest q freed.waiters] else [])
                        ++ [ended (some q)]))
                    .done (.cancelledLate (some q)))
                ∧ (64 ≤ n →
                    Answers .cancel s o
                      ((w.setBooking k
                        { b with
                          state := .ended bill, pending := none, endPending := false, holdOffLeft := none
                          wtrLeft := none, afresh := false }).raise (ended none))
                      .done (.cancelledLate none)))
            ∧ (b.state.isLive = true ∨ b.state.isEnded = true → Answers .cancel s o u .state .empty))

/-- BOOKING READ by slot and by reference (R73): FORMAT for a named-by byte that is neither (R172), a FREE slot, of which the state
FREE and nothing else is answered, a held one, a slot above 511, and a reference nobody holds. The record is shown whole, without
the model's own mark `afresh` (assumption log 29). -/
def Obligations.BookingReadReturnsTheRecord : Prop :=
  ∀ (s : State) (o : Order) (rest : List Order), Offers s .bookingRead 5 o rest →
    let u := s.taken o rest
    let n := o.word 1
    let full (k : Nat) (b : Booking) : AnswerData :=
      .booking k { b with afresh := false }
        ⟨b.fields.effStart, b.fields.start - BitVec.ofNat 32 b.fields.preroll,
          b.fields.start + BitVec.ofNat 32 b.fields.duration,
          b.fields.start + BitVec.ofNat 32 b.fields.duration + BitVec.ofNat 32 b.fields.allowance⟩
    (1 < (o.param 0).toNat → Answers .bookingRead s o u .format .empty)
    ∧ (o.param 0 = 1 → 511 < n.toNat → Answers .bookingRead s o u .range .empty)
    ∧ (o.param 0 = 1 → n.toNat ≤ 511 → s.booking n.toNat = none → Answers .bookingRead s o u .done .freeSlot)
    ∧ (∀ b, o.param 0 = 1 → n.toNat ≤ 511 → s.booking n.toNat = some b →
        Answers .bookingRead s o u .done (full n.toNat b))
    ∧ (o.param 0 = 0 → s.byRef n = none → Answers .bookingRead s o u .unknown .empty)
    ∧ (∀ k b, o.param 0 = 0 → s.byRef n = some (k, b) → Answers .bookingRead s o u .done (full k b))

/-- GROUP HOLD makes a group HOLDING; GROUP RELEASE makes it RELEASING with held members and OPEN without; the count stands, and a group
that is not 1 to 32 is refused with RANGE (R75, R76). And what a HELD booking does to its group as it leaves HELD: the count falls by one,
a RELEASING group whose count falls to 0 becomes OPEN, and any other keeps its state; group 0 is no group (R74, R87). -/
def Obligations.GroupOrdersSetTheGroup : Prop :=
  (∀ (s : State) (o : Order) (rest : List Order),
    let u := s.taken o rest
    let g := (o.param 0).toNat
    (∀ h : 1 ≤ g ∧ g ≤ 32,
      let n := (s.groups[g - 1]'(by omega)).held
      (Offers s .groupHold 1 o rest →
        Answers .groupHold s o { u with groups := s.groups.set (g - 1) ⟨.holding, n⟩ (by omega) } .done
          (.group .holding n))
      ∧ (Offers s .groupRelease 1 o rest →
          let st : GroupState := if 0 < n then .releasing else .opened
          Answers .groupRelease s o { u with groups := s.groups.set (g - 1) ⟨st, n⟩ (by omega) } .done (.group st n)))
    ∧ (g = 0 ∨ 32 < g →
        (Offers s .groupHold 1 o rest → Answers .groupHold s o u .range .empty)
        ∧ (Offers s .groupRelease 1 o rest → Answers .groupRelease s o u .range .empty)))
  ∧ ∀ (s : State) (g : Nat),
      (g = 0 ∨ 32 < g → s.leaveGroup g = s ∧ s.groupOf g = none)
      ∧ ∀ x : Group, 1 ≤ g → s.groups[g - 1]? = some x →
          s.groupOf g = some x
          ∧ s.leaveGroup g =
            { s with
              groups := s.groups.setIfInBounds (g - 1)
                ⟨if x.state = .releasing ∧ x.held ≤ 1 then .opened else x.state, x.held - 1⟩ }

/-! ## Chapters 5 and 7: the booking tick, endings, cuts and the selector -/

/-- The passages of the one booking of a table on a tick, with no END waiting (R84, R86, R87, R91, R138), and of one whose pending
modification is applied on it (R80, R81, R85, R90, R127): a state follows a threshold moved ahead of NT, and a passage stops at a
threshold the modification changed, though it is reached; a source named no more loses its reference, and the countdowns end with a
spare changed or removed; dropped legs leave the list, and added ones are installed on a booking that is LIVE or OVERRUN after stage
2. With no changed threshold reached and a live booking's legs the same, the tick is just that of the modified record, whatever
main, spare and settings it has now. A running countdown goes on from its remaining value, and one that starts takes the new value.
A live booking's tick is metered in the state it holds after stage 3. That its class is read from the legs of the record, an added
leg that is never installed because the tick makes the booking EXTENDED among them, is the model's choice (assumption log 28); so is
that stages 4 and 5 of the tick read the same watch states (assumption log 39). What R80, R81 and R25 leave open here is assumption
log 7, 12, 26 and 38; what becomes of a FORCE_SPARE placed between the acceptance of a change of spare and its applying, which R127
shuts out, is the model's reading (assumption log 27). -/
def Obligations.LoneBookingPassesItsThresholds : Prop :=
  ∀ (s : State) (k : Nat) (b : Booking) (t : Tick) (rest : List Tick), s.inReset = false → s.bookingTicks = t :: rest →
    s.bookings = [(k, b)] → b.endPending = false →
    let after (b' : Booking) : State := { s with bookingTicks := rest, bookings := [(k, b')] }
    let isUp (w : Word) : Bool := reached t.nt w
    let live (b' : Booking) (st : BookingState) (ph : Phase) : Booking :=
      { b' with state := st, meter := b.meter.liveTick ph (s.feedClassOf b') t.stepped }
    let sumOf (f : Leg → Word) (ls : List Leg) : Word := (ls.map f).foldl (· + ·) 0
    let isHeld (g : Nat) (x : Group) : Prop := 1 ≤ g ∧ s.groups[g - 1]? = some x ∧ x.state = .holding
    let phaseIn (st : BookingState) : Phase := match st with
      | .extended => .extended
      | .overrun => .overrun
      | _ => .scheduled
    -- on the main, with no spare, and nothing for the selector to end
    let alone : Prop :=
      b.fields.spare = none ∧ b.position = .onMain ∧ b.holdOffLeft = none ∧ b.wtrLeft = none ∧ b.afresh = false
    (b.pending = none →
      (isUp b.fields.windowEnd = false →
        (b.state = .booked → isUp b.fields.prerollPoint = false → exec .bookingTick s = .next (after b))
        ∧ (b.state = .preroll ∨ b.state = .booked ∧ isUp b.fields.prerollPoint = true → isUp b.fields.start = false →
            exec .bookingTick s = .next (after { b with state := .preroll }))
        ∧ (∀ x : Group, isHeld b.fields.group x →
            (b.state = .preroll ∨ b.state = .booked ∧ isUp b.fields.prerollPoint = true → isUp b.fields.start = true →
              exec .bookingTick s = .next
                { after { b with state := .held, meter := b.meter.heldTick t.stepped } with
                  groups := s.groups.setIfInBounds (b.fields.group - 1) { x with held := x.held + 1 } })
            ∧ (b.state = .held →
                exec .bookingTick s = .next (after { b with meter := b.meter.heldTick t.stepped })))
        ∧ (alone → b.state = .live → isUp b.fields.plannedEnd = false →
            exec .bookingTick s = .next (after (live b .live .scheduled)))
        ∧ (alone → b.state = .overrun ∨ b.state = .live ∧ isUp b.fields.plannedEnd = true →
            exec .bookingTick s = .next (after (live b .overrun .overrun)))
        ∧ (alone → b.state = .extended → b.fields.extend = true →
            exec .bookingTick s = .next (after (live b .extended .extended))))
      ∧ (alone → isUp b.fields.windowEnd = true → b.fields.extend = true → b.state.isLive = true →
          exec .bookingTick s = .next (after (live b .extended .extended))))
    ∧ ∀ m : Mod, b.pending = some m → b.state.isEnded = false →
        let f := m.apply b.fields
        let newSpare := b.fields.spare.isSome && decide (f.spare ≠ b.fields.spare)
        let c : Booking :=
          { b with
            fields := f, pending := none
            holdOffLeft := if newSpare then none else b.holdOffLeft
            wtrLeft := if newSpare then none else b.wtrLeft
            request :=
              if newSpare = true ∧ f.spare = none ∧ (b.request = .forceMain ∨ b.request = .forceSpare) then .noRequest
              else b.request }
        let lost (b' : Booking) : State :=
          { (b.named.filter fun i => !c.named.contains i).foldl State.loseRef s with
            bookingTicks := rest, bookings := [(k, b')] }
        let preMoved := decide (f.prerollPoint ≠ b.fields.prerollPoint)
        let startMoved := decide (f.start ≠ b.fields.start)
        let planMoved := decide (f.plannedEnd ≠ b.fields.plannedEnd)
        let windowMoved := decide (f.windowEnd ≠ b.fields.windowEnd)
        let st : BookingState := match b.state with
          | .preroll => if preMoved ∧ isUp f.prerollPoint = false then .booked else .preroll
          | .overrun => if planMoved ∧ isUp f.plannedEnd = false then .live else .overrun
          | .extended =>
            if windowMoved ∧ isUp f.windowEnd = false then if isUp f.plannedEnd then .overrun else .live else .extended
          | x => x
        let stops := (st = .held ∨ st = .live) ∧ planMoved = true ∧ isUp f.plannedEnd = true
        let ends : Prop := (isUp f.windowEnd = true ∨ st = .extended) ∧ windowMoved = false ∧ ¬ stops
        -- no changed threshold is reached: the tick of the modified record
        ((preMoved = true → isUp f.prerollPoint = false) → (startMoved = true → isUp f.start = false) →
          (planMoved = true → isUp f.plannedEnd = false) → (windowMoved = true → isUp f.windowEnd = false) →
          (b.state.isLive = true → f.legs = b.fields.legs) →
            exec .bookingTick s = exec .bookingTick { lost { c with state := st } with bookingTicks := s.bookingTicks })
        -- before LIVE anything may change; a live booking's main, spare and legs stand, and its other fields may change
        ∧ ((¬ ends →
            (st = .booked → isUp f.prerollPoint = false ∨ preMoved = true →
              exec .bookingTick s = .next (lost { c with state := .booked }))
            ∧ (st = .preroll ∨ st = .booked ∧ isUp f.prerollPoint = true ∧ preMoved = false →
                isUp f.start = false ∨ startMoved = true →
                exec .bookingTick s = .next (lost { c with state := .preroll }))
            ∧ (st = .held → isUp f.windowEnd = true ∨ (∃ x, isHeld f.group x) →
                exec .bookingTick s = .next (lost { c with meter := b.meter.heldTick t.stepped }))
            ∧ (alone → f.spare = none → f.main = b.fields.main → f.legs = b.fields.legs →
                (st = .live → isUp f.plannedEnd = false ∨ planMoved = true →
                  exec .bookingTick s = .next (after (live c .live .scheduled)))
                ∧ (st = .overrun ∨ st = .live ∧ isUp f.plannedEnd = true ∧ planMoved = false →
                    exec .bookingTick s = .next (after (live c .overrun .overrun)))
                ∧ (st = .extended → exec .bookingTick s = .next (after (live c .extended .extended)))))
          ∧ (alone → f.spare = none → f.main = b.fields.main → f.legs = b.fields.legs →
              ends → st.isLive = true → f.extend = true →
              exec .bookingTick s = .next (after (live c .extended .extended)))
          ∧ (ends → st.isLive = false ∨ f.extend = false → s.bills.records.length < 64 →
              ∃ v bill, exec .bookingTick s = .next v ∧ v.bookings = []
                ∧ v.bills.records = s.bills.records ++ [⟨s.bills.next, bill⟩] ∧ bill.ref = b.ref
                ∧ bill.outcome = .endedAtLimit ∧ bill.endNt = t.nt))
        -- a live booking's legs change and nothing else
        ∧ (∀ x : Source, TablesInForm s → alone → f = { b.fields with legs := f.legs } →
            s.source b.fields.main = some x → b.state.isLive = true →
            let st' : BookingState :=
              if isUp f.windowEnd = true ∨ b.state = .extended then .extended
              else if isUp f.plannedEnd = true ∨ b.state = .overrun then .overrun
              else .live
            (st' = .extended → f.extend = true) →
            let dropped := b.fields.legs.filter fun q => !f.legs.contains q
            let added := if st' = .extended then [] else f.legs.filter fun q => !b.fields.legs.contains q
            let gone := x.legs.filter fun l => l.owner == k && dropped.contains l.pair
            let kept := x.legs.filter fun l => !(l.owner == k && dropped.contains l.pair)
            added = [] ∨ (s.setSource { x with legs := kept }).installCheck b.fields.main added = .taken →
            exec .bookingTick s = .next
              { s.setSource { x with legs := kept ++ added.map fun q => ⟨q, k, 0, 0, 0⟩ } with
                bookingTicks := rest
                bookings := [(k,
                  { c with
                    state := st', delivered := b.delivered + sumOf Leg.sent gone
                    dropped := b.dropped + sumOf Leg.dropped gone
                    meter := b.meter.liveTick (phaseIn st') (s.feedClassOf c) t.stepped })] })
        -- the spare is changed or removed, and nothing else
        ∧ (∀ (sp : SrcId) (new : Option SrcId), TablesInForm s → b.fields.spare = some sp → sp ≠ b.fields.main →
            m.spare = some new → new ≠ some sp → new ≠ some b.fields.main → f = { b.fields with spare := new } →
            isUp f.windowEnd = false →
            let lostOne (b' : Booking) : State := { s.loseRef sp with bookingTicks := rest, bookings := [(k, b')] }
            (b.state = .booked → isUp f.prerollPoint = false → exec .bookingTick s = .next (lostOne c))
            ∧ (b.state = .held → (∃ x, isHeld f.group x) →
                exec .bookingTick s = .next (lostOne { c with meter := b.meter.heldTick t.stepped }))
            ∧ (b.state = .live → isUp f.plannedEnd = false → b.position = .onMain → b.afresh = false →
                b.request ≠ .forceSpare → s.watchOf b.fields.main = .ok →
                exec .bookingTick s = .next (lostOne (live c .live .scheduled))))
        -- a spare added to a live booking that had none, or other settings of one with a spare: the countdowns go on
        ∧ ∀ sp : SrcId, f.spare = some sp → b.fields.spare = none ∨ b.fields.spare = some sp → f.main = b.fields.main →
            f.legs = b.fields.legs → f.start = b.fields.start → f.duration = b.fields.duration →
            f.allowance = b.fields.allowance → b.state.isLive = true → b.request = .noRequest → b.afresh = false →
            (isUp f.windowEnd = true ∨ b.state = .extended → f.extend = true) →
            let st' : BookingState :=
              if isUp f.windowEnd = true ∨ b.state = .extended then .extended
              else if isUp f.plannedEnd = true ∨ b.state = .overrun then .overrun
              else .live
            let stays (h w : Option Nat) : State :=
              after { live c st' (phaseIn st') with holdOffLeft := h, wtrLeft := w }
            let mainState := s.watchOf b.fields.main
            let spareState := s.watchOf sp
            let fails : Prop :=
              (mainState = .failed ∨ mainState = .degraded ∧ f.switchOnDegrade = true)
                ∧ spareState ≠ .failed ∧ ¬ (spareState = .degraded ∧ f.switchOnDegrade = true)
            let restores : Prop := f.revertive = true ∧ mainState = .ok
            (b.position = .onMain →
              (fails → ∀ n, b.holdOffLeft = some (n + 2) →
                exec .bookingTick s = .next (stays (some (n + 1)) b.wtrLeft))
              ∧ (fails → b.holdOffLeft = none → f.holdOff ≠ 0 →
                  exec .bookingTick s = .next (stays (some f.holdOff) b.wtrLeft))
              ∧ (¬ fails → exec .bookingTick s = .next (stays none b.wtrLeft)))
            ∧ (b.position = .onSpare → b.fields.spare = some sp → ¬ (spareState = .failed ∧ mainState ≠ .failed) →
                (restores → ∀ n, b.wtrLeft = some (n + 2) →
                  exec .bookingTick s = .next (stays b.holdOffLeft (some (n + 1))))
                ∧ (restores → b.wtrLeft = none → f.wtr ≠ 0 →
                    exec .bookingTick s = .next (stays b.holdOffLeft (some f.wtr)))
                ∧ (¬ restores → exec .bookingTick s = .next (stays b.holdOffLeft none)))

/-- LIVE entry of the one booking of a table, TAKEN by its source (R86 to R88, R96, R118, R137): from PREROLL, or from BOOKED with
its preroll point and its start reached on one tick, or from HELD once its group is not HOLDING. The position is chosen by the
request and the two sources, with no hold-off; the snapshot of its class is taken as the table stands; the legs are appended to the
list of the source chosen with counters 0; the first LIVE tick is noted, a HELD booking leaves its group, BOOKING_LIVE is raised;
and it goes on to OVERRUN when the planned end is reached too. That the choice and stage 4 read the same watch states is the model's
choice (assumption log 39). -/
def Obligations.LoneBookingEntersLive : Prop :=
  ∀ (s : State) (k : Nat) (b : Booking) (t : Tick) (rest : List Tick) (x : Source), s.inReset = false →
    s.bookingTicks = t :: rest → s.bookings = [(k, b)] → b.pending = none → b.endPending = false →
    reached t.nt b.fields.windowEnd = false →
    (b.state = .held
      ∨ (b.state = .preroll ∨ b.state = .booked ∧ reached t.nt b.fields.prerollPoint = true)
          ∧ reached t.nt b.fields.start = true) →
    (∀ g, s.groupOf b.fields.group = some g → g.state ≠ .holding) →
    let mainState := s.watchOf b.fields.main
    let bad (w : WatchState) : Bool := w == .failed || (w == .degraded && b.fields.switchOnDegrade)
    let pos : Position := match b.fields.spare, b.request with
      | none, _ => .onMain
      | some _, .forceSpare => .onSpare
      | some sp, .noRequest => if bad mainState && !bad (s.watchOf sp) then .onSpare else .onMain
      | some _, _ => .onMain
    let i : SrcId := match b.fields.spare, pos with
      | some sp, .onSpare => sp
      | _, _ => b.fields.main
    s.source i = some x → x.id = i → s.installCheck i b.fields.legs = .taken →
    let isOver := reached t.nt b.fields.plannedEnd
    let snap : Snapshot := match (s.tariffs.classes[b.fields.tariffClass]?).getD none with
      | some c => ⟨b.fields.tariffClass, c.baseRate, c.overRate, c.grace, c.minimum, c.roundUp, false⟩
      | none => ⟨b.fields.tariffClass, 0, 0, 65535, 0, false, true⟩
    let b' : Booking :=
      { b with
        state := if isOver then .overrun else .live, position := pos, holdOffLeft := none, wtrLeft := none
        afresh := false
        meter := ({ b.meter with snapshot := some snap, acc := 0, firstLive := some t.nt } : Meter).liveTick
          (if isOver then .overrun else .scheduled) (s.feedClassOf { b with position := pos }) t.stepped }
    let v := s.setSource { x with legs := x.legs ++ b.fields.legs.map fun q => ⟨q, k, 0, 0, 0⟩ }
    let w := if b.state = .held then v.leaveGroup b.fields.group else v
    exec .bookingTick s = .next
      { w.raise (.bookingLive k b.ref b.fields.account t.nt pos i snap.noTariff 0
          (if isOver then .overrun else .live)) with
        bookingTicks := rest, bookings := [(k, b')] }

/-- The ending of the one booking of a table (R82 to R84, R86, R97, R144, R148, R149, R154): ordered, at the window end without extend
permitted, or at the window end before its start. Its legs leave the selected source and their sums go into its totals, a HELD booking
leaves its group, its sources lose their references, and its bill is written with the next number, BILL_LEVEL coming before
BOOKING_ENDED at the 48th record and BILL_FULL at the 64th, or waits in ENDED when the queue is full. The tick of the ending is not
metered. That an EXTENDED booking with extend permitted set to no ends though NT has gone back before its window end is read
from R25 (assumption log 26). That the meter part of a booking in ENDED stands as it was, SATURATED included, is the model's choice
(assumption log 34). -/
def Obligations.LoneBookingEnds : Prop :=
  ∀ (s : State) (k : Nat) (b : Booking) (t : Tick) (rest : List Tick) (outcome : BillOutcome), s.inReset = false →
    TablesInForm s → s.bookingTicks = t :: rest → s.bookings = [(k, b)] → b.pending = none →
    (b.state.isLive = true ∧ b.endPending = true ∧ outcome = .endedByOrder
      ∨ b.state.isEnded = false ∧ b.endPending = false
        ∧ (reached t.nt b.fields.windowEnd = true ∨ b.state = .extended)
        ∧ (b.state.isLive = true → b.fields.extend = false) ∧ outcome = .endedAtLimit) →
    let gone : List Leg := match s.source b.selected with
      | some x => if b.state.isLive then x.legs.filter fun l => l.owner == k else []
      | none => []
    let sumOf (f : Leg → Word) : Word := (gone.map f).foldl (· + ·) 0
    let b1 : Booking :=
      { b with delivered := b.delivered + sumOf Leg.sent, dropped := b.dropped + sumOf Leg.dropped }
    let bill := closeBill b1 outcome t.nt
    let n := s.bills.records.length
    let oldest := (s.bills.records.head?.map BillRec.seq).getD s.bills.next
    ∃ v, exec .bookingTick s = .next v
      ∧ (∀ i, v.source i = (s.source i).bind fun x =>
          let x' : Source :=
            if b.state.isLive = true ∧ i = b.selected then { x with legs := x.legs.filter fun l => l.owner != k } else x
          if i ∈ b.named then if 1 < x.refs then some { x' with refs := x.refs - 1 } else none else some x')
      ∧ v.groups = (if b.state = .held then s.leaveGroup b.fields.group else s).groups
      ∧ v.ports = s.ports ∧ v.time = s.time ∧ v.tariffs = s.tariffs ∧ v.mgmt.orders = s.mgmt.orders
      ∧ (n < 64 →
          v.bookings = [] ∧ v.bills.records = s.bills.records ++ [⟨s.bills.next, bill⟩]
          ∧ v.bills.next = (if s.bills.next = 0xFFFFFFFF#32 then 1 else s.bills.next + 1)
          ∧ v.mgmt = (s.raiseAll
              ((if n = 47 then [.billLevel 48 oldest s.bills.next 0]
                else if n = 63 then [.billFull 64 oldest s.bills.next 0] else [])
                ++ [.bookingEnded k b.ref b.fields.account outcome t.nt bill.total (some s.bills.next)])).mgmt)
      ∧ (64 ≤ n →
          v.bills = s.bills
          ∧ v.bookings =
              [(k, { b1 with
                state := .ended bill, pending := none, endPending := false, holdOffLeft := none, wtrLeft := none
                afresh := false })]
          ∧ v.mgmt = (s.raise (.bookingEnded k b.ref b.fields.account outcome t.nt bill.total none)).mgmt)

/-- END and SELECT (R94, R125, R126): COMMISSIONING refuses both with MODE; END marks a live booking and is refused with STATE in any other
state; SELECT sets the request and answers it with the position and both countdowns, an ENDED booking or a force without a spare
being refused with STATE; a reference nobody holds is UNKNOWN and a fifth value FORMAT. A CLEAR that ends a request leaves the model's own
mark that the countdowns start afresh (assumption log 29). -/
def Obligations.EndAndSelectMarkTheBooking : Prop :=
  ∀ (s : State) (o : Order) (rest : List Order),
    let u := s.taken o rest
    (Offers s .endBooking 4 o rest →
      (s.mgmt.mode = .commissioning → Answers .endBooking s o u .mode .empty)
      ∧ (s.mgmt.mode ≠ .commissioning →
          (s.byRef (o.word 0) = none → Answers .endBooking s o u .unknown .empty)
          ∧ ∀ k b, s.byRef (o.word 0) = some (k, b) →
              (b.state.isLive = true →
                Answers .endBooking s o (u.setBooking k { b with endPending := true }) .done (.endPending b.state))
              ∧ (b.state.isLive = false → Answers .endBooking s o u .state .empty)))
    ∧ (Offers s .select 5 o rest →
        (3 < (o.param 4).toNat → Answers .select s o u .format .empty)
        ∧ ∀ req : Request,
            o.param 4 = (match req with
              | .noRequest => 0
              | .forceMain => 1
              | .forceSpare => 2
              | .lockMain => 3) →
            (s.mgmt.mode = .commissioning → Answers .select s o u .mode .empty)
            ∧ (s.mgmt.mode ≠ .commissioning →
                (s.byRef (o.word 0) = none → Answers .select s o u .unknown .empty)
                ∧ ∀ k b, s.byRef (o.word 0) = some (k, b) →
                    (b.state.isEnded = true
                        ∨ (req = .forceMain ∨ req = .forceSpare) ∧ b.fields.spare = none →
                      Answers .select s o u .state .empty)
                    ∧ (b.state.isEnded = false → req = .noRequest ∨ req = .lockMain ∨ b.fields.spare.isSome = true →
                        Answers .select s o
                          (u.setBooking k
                            { b with
                              request := req
                              afresh := b.afresh || decide (req = .noRequest ∧ b.request ≠ .noRequest) }) .done
                          (.selector req b.position b.holdOffLeft b.wtrLeft))))

/-- Which booking a cut takes, and what it does to the table (R89): among the EXTENDED bookings with a leg in question the one of the
highest extended tick count, ties to the lowest slot; it ends with outcome CUT, and no other booking changes. And the cuts of a
booking tick, for a table of one EXTENDED booking and one that goes LIVE: the first is cut, once, exactly when it holds a pair the
second names, or has a leg on a port or on the list where the second's legs find too little capacity or too few places; BOOKING_LIVE
counts the cut. The same cuts come before legs that a modification added to a LIVE or OVERRUN booking are installed, with no notice of
their own (R90). A switch of a LIVE or OVERRUN booking makes the places pass alone, counted in SELECTOR_SWITCH, and one of an EXTENDED
booking cuts nothing (R123). -/
def Obligations.CutsTakeTheLongestExtended : Prop :=
  (∀ (s : State) (at_ : SrcId → Leg → Bool), TablesInForm s →
    let inTheWay (k : Nat) (b : Booking) : Prop :=
      s.booking k = some b ∧ b.state = .extended
        ∧ ∃ e ∈ s.sources, ∃ l ∈ e.2.legs, l.owner = k ∧ at_ e.2.id l = true
    (s.toCut at_ = none → ∀ k b, ¬ inTheWay k b)
    ∧ ∀ k, s.toCut at_ = some k → ∃ b, inTheWay k b
        ∧ (∀ j c, inTheWay j c →
            c.meter.extended < b.meter.extended ∨ c.meter.extended = b.meter.extended ∧ k ≤ j)
        ∧ ∀ (nt : Word) (n : Nat),
            let c := cutSlot nt (s, n) k
            c.2 = n + 1 ∧ (∀ j, j ≠ k → c.1.booking j = s.booking j)
            ∧ (s.bills.records.length < 64 → c.1.booking k = none
                ∧ ∃ bill, c.1.bills.records = s.bills.records ++ [⟨s.bills.next, bill⟩] ∧ bill.outcome = .cut
                  ∧ bill.endNt = nt)
            ∧ (64 ≤ s.bills.records.length →
                ∃ b' bill, c.1.booking k = some b' ∧ b'.state = .ended bill ∧ bill.outcome = .cut ∧ bill.endNt = nt))
  ∧ (∀ (s : State) (j k : Nat) (c b : Booking) (t : Tick) (rest : List Tick) (x : Source), s.inReset = false →
      TablesInForm s → (s.sources.flatMap fun e => e.2.legs.map Leg.pair).Nodup → s.bookingTicks = t :: rest →
      s.bookings = [(j, c), (k, b)] ∨ s.bookings = [(k, b), (j, c)] →
      RunsOn c →
      (b.state = .preroll ∧ b.fields.spare = none ∧ b.pending = none ∧ b.endPending = false
        ∧ reached t.nt b.fields.start = true ∧ reached t.nt b.fields.plannedEnd = false
        ∧ reached t.nt b.fields.windowEnd = false) →
      (∀ g, s.groupOf b.fields.group = some g → g.state ≠ .holding) → s.source b.fields.main = some x →
      let itsLeg (i : SrcId) (l : Leg) : Prop := l.owner = j ∧ ∃ y, s.source i = some y ∧ l ∈ y.legs
      let inTheWay : Prop :=
        (∃ i l, itsLeg i l ∧ l.pair ∈ b.fields.legs)
          ∨ (∃ i l, itsLeg i l ∧ (∃ q ∈ b.fields.legs, q.port = l.pair.port)
              ∧ (s.port l.pair.port).capacity
                  < s.installed l.pair.port + b.fields.bandwidth * b.fields.legs.countP fun q => q.port == l.pair.port)
          ∨ ∃ l, itsLeg b.fields.main l ∧ 16 < x.legs.length + b.fields.legs.length
      let liveNote (cuts : Nat) : NoticeContent :=
        .bookingLive k b.ref b.fields.account t.nt .onMain b.fields.main
          ((s.tariffs.classes[b.fields.tariffClass]?).getD none).isNone cuts .live
      ∃ v b', exec .bookingTick s = .next v ∧ v.booking k = some b' ∧ b'.state = .live
        ∧ (inTheWay → CutOnce s v j c t.nt [liveNote 1]) ∧ (¬ inTheWay → NotCut s v j [liveNote 0]))
  -- the legs that a modification added
  ∧ (∀ (s : State) (j k : Nat) (c b : Booking) (m : Mod) (t : Tick) (rest : List Tick) (x : Source), s.inReset = false →
      TablesInForm s → (s.sources.flatMap fun e => e.2.legs.map Leg.pair).Nodup → s.bookingTicks = t :: rest →
      s.bookings = [(j, c), (k, b)] ∨ s.bookings = [(k, b), (j, c)] → RunsOn c → OnItsList s j c →
      let f := m.apply b.fields
      (b.state = .live ∧ reached t.nt f.plannedEnd = false ∨ b.state = .overrun) → reached t.nt f.windowEnd = false →
      b.fields.spare = none → b.position = .onMain → b.pending = some m → b.endPending = false →
      f = { b.fields with legs := f.legs } → s.source b.fields.main = some x →
      let dropped := b.fields.legs.filter fun q => !f.legs.contains q
      let added := f.legs.filter fun q => !b.fields.legs.contains q
      let kept := x.legs.filter fun l => !(l.owner == k && dropped.contains l.pair)
      let u := s.setSource { x with legs := kept }
      let without : State :=
        { u with sources := u.sources.map fun e => (e.1, { e.2 with legs := e.2.legs.filter fun l => l.owner != j }) }
      let itsLeg (i : SrcId) (l : Leg) : Prop := l.owner = j ∧ ∃ y, s.source i = some y ∧ l ∈ y.legs
      let inTheWay : Prop := added ≠ [] ∧
        ((∃ i l, itsLeg i l ∧ l.pair ∈ added)
          ∨ (∃ i l, itsLeg i l ∧ (∃ q ∈ added, q.port = l.pair.port)
              ∧ (s.port l.pair.port).capacity
                  < u.installed l.pair.port + b.fields.bandwidth * added.countP fun q => q.port == l.pair.port)
          ∨ ∃ l, itsLeg b.fields.main l ∧ 16 < kept.length + added.length)
      let listed (v : State) (ls : List Leg) : Prop :=
        (v.source b.fields.main).map Source.legs = some (ls ++ added.map fun q => ⟨q, k, 0, 0, 0⟩)
      ∃ v b', exec .bookingTick s = .next v ∧ v.booking k = some b' ∧ b'.state = b.state ∧ b'.fields = f
        ∧ (inTheWay → CutOnce s v j c t.nt []
            ∧ (without.installCheck b.fields.main added = .taken → listed v (kept.filter fun l => l.owner != j)))
        ∧ (¬ inTheWay → NotCut s v j [] ∧ (u.installCheck b.fields.main added = .taken → listed v kept)))
  -- a switch
  ∧ ∀ (s : State) (j k : Nat) (c b : Booking) (t : Tick) (rest : List Tick) (sp : SrcId) (x y : Source) (to_ : Position)
      (cause : SwitchCause), s.inReset = false → TablesInForm s → s.bookingTicks = t :: rest →
      s.bookings = [(j, c), (k, b)] ∨ s.bookings = [(k, b), (j, c)] → RunsOn c → OnItsList s j c →
      b.state.isLive = true → b.fields.spare = some sp → b.fields.main ≠ sp → b.pending = none → b.endPending = false →
      (reached t.nt b.fields.windowEnd = true ∨ b.state = .extended → b.fields.extend = true) →
      s.source b.selected = some x → s.source (if to_ = .onMain then b.fields.main else sp) = some y → b.position ≠ to_ →
      let st : BookingState :=
        if reached t.nt b.fields.windowEnd = true ∨ b.state = .extended then .extended
        else if reached t.nt b.fields.plannedEnd = true ∨ b.state = .overrun then .overrun
        else .live
      let mainState := s.watchOf b.fields.main
      let spareState := s.watchOf sp
      let left (start : Nat) (n : Option Nat) : Nat := match n with
        | none => start
        | some n => n - 1
      let fails : Prop :=
        (mainState = .failed ∨ mainState = .degraded ∧ b.fields.switchOnDegrade = true)
          ∧ spareState ≠ .failed ∧ ¬ (spareState = .degraded ∧ b.fields.switchOnDegrade = true)
      let spareFails : Prop := spareState = .failed ∧ mainState ≠ .failed
      (b.request, to_, cause) ∈ [(Request.forceSpare, Position.onSpare, SwitchCause.forceSpare),
          (.forceMain, .onMain, .forceMain), (.lockMain, .onMain, .lockMain)]
        ∨ b.request = .noRequest
          ∧ (to_ = .onSpare ∧ cause = .failure ∧ fails
                ∧ left b.fields.holdOff (if b.afresh then none else b.holdOffLeft) = 0
              ∨ to_ = .onMain ∧ cause = .spareFailed ∧ spareFails
              ∨ to_ = .onMain ∧ cause = .restore ∧ ¬ spareFails ∧ b.fields.revertive = true ∧ mainState = .ok
                ∧ left b.fields.wtr (if b.afresh then none else b.wtrLeft) = 0) →
      let moving := x.legs.filter fun l => l.owner == k
      let others := y.legs.filter fun l => l.owner != j
      let full (ls : List Leg) : Prop := 16 < ls.length + moving.length
      let inTheWay : Prop := st ≠ .extended ∧ full y.legs ∧ ∃ l ∈ y.legs, l.owner = j
      let m := b.meter.countSwitch (decide (b.request ≠ .noRequest))
      let note (cuts : Nat) : NoticeContent :=
        .selectorSwitch k b.ref b.fields.account t.nt b.position to_ cause y.id mainState spareState cuts m.switches
          m.forced
      ∃ v b', exec .bookingTick s = .next v ∧ v.booking k = some b' ∧ b'.state = st
        ∧ (let moves (ls : List Leg) : Prop := b'.position = to_
              ∧ (v.source y.id).map Source.legs = some (ls ++ moving)
              ∧ (v.source x.id).map Source.legs = some (x.legs.filter fun l => l.owner != k)
          let stays (ls : List Leg) : Prop := b'.position = b.position
              ∧ (v.source y.id).map Source.legs = some ls ∧ (v.source x.id).map Source.legs = some x.legs
          (inTheWay →
            (full others → CutOnce s v j c t.nt [] ∧ stays others)
            ∧ (¬ full others → CutOnce s v j c t.nt [note 1] ∧ moves others))
          ∧ (¬ inTheWay →
            (full y.legs → NotCut s v j [] ∧ stays y.legs)
            ∧ (¬ full y.legs → NotCut s v j [note 0] ∧ moves y.legs)))

/-- Stage 4 for the one booking of a table with a spare (R116, R117, R119 to R124, R126, R128, R138). A request that its position
does not meet forces the switch at once; one that it meets keeps both countdowns absent. With no request, when the hold-off reaches
0, to the spare with cause FAILURE; when the wait-to-restore reaches 0 on a good spare, to the main with cause RESTORE; when the
spare is FAILED and the main is not, to the main at once. Its legs move to the target list, both countdowns go, the switch is
counted and noted, and the tick is metered on the new source and in the state that stages 2 and 3 of the tick have left: a booking
whose window end is reached with extend permitted is EXTENDED, and a LIVE one whose planned end is reached OVERRUN. Where the list
has no room it stays, with no notice, a countdown that ended holding at 0. After CLEAR both countdowns start from absent (assumption
log 29). HOLD_OFF_EXPIRY and WTR_EXPIRY are that very booking tick, and change nothing when their switch would not come (assumption
log 6). That no watch state changes within a tick is the model's choice (assumption log 39), and so is that the class of the tick is
read from the legs of the record, installed or not (assumption log 28). -/
def Obligations.SwitchAtExpiry : Prop :=
  (∀ b : Booking, b.selected = match b.position, b.fields.spare with
    | .onSpare, some sp => sp
    | _, _ => b.fields.main)
  ∧ ∀ (s : State) (k : Fin 512) (b : Booking) (t : Tick) (rest : List Tick) (sp : SrcId) (x y : Source),
    s.inReset = false → TablesInForm s → s.bookingTicks = t :: rest → s.bookings = [(k.val, b)] → b.pending = none →
    b.endPending = false → b.state.isLive = true →
    (reached t.nt b.fields.windowEnd = true ∨ b.state = .extended → b.fields.extend = true) →
    b.fields.spare = some sp → b.fields.main ≠ sp → s.source b.selected = some x →
    s.source (if b.position = .onMain then sp else b.fields.main) = some y →
    let st : BookingState :=
      if reached t.nt b.fields.windowEnd = true ∨ b.state = .extended then .extended
      else if reached t.nt b.fields.plannedEnd = true ∨ b.state = .overrun then .overrun
      else .live
    let ph : Phase := match st with
      | .extended => .extended
      | .overrun => .overrun
      | _ => .scheduled
    let mainState := s.watchOf b.fields.main
    let spareState := s.watchOf sp
    let room : Prop := y.legs.length + (x.legs.countP fun l => l.owner == k.val) ≤ 16
    let moved (to_ : Position) (cause : SwitchCause) (isForced : Bool) : State :=
      let m := b.meter.countSwitch isForced
      let v := (s.setSource { x with legs := x.legs.filter fun l => l.owner != k.val }).setSource
        { y with legs := y.legs ++ x.legs.filter fun l => l.owner == k.val }
      { v.raise (.selectorSwitch k.val b.ref b.fields.account t.nt b.position to_ cause y.id mainState spareState 0
          m.switches m.forced) with
        bookingTicks := rest
        bookings := [(k.val,
          { b with
            state := st, position := to_, holdOffLeft := none, wtrLeft := none, afresh := false
            meter := m.liveTick ph (s.feedClassOf { b with position := to_ }) t.stepped })] }
    let stays (h w : Option Nat) : State :=
      { s with
        bookingTicks := rest
        bookings := [(k.val,
          { b with
            state := st, holdOffLeft := h, wtrLeft := w, afresh := false
            meter := b.meter.liveTick ph (s.feedClassOf b) t.stepped })] }
    let h := if b.afresh then none else b.holdOffLeft
    let w := if b.afresh then none else b.wtrLeft
    let left (start : Nat) (c : Option Nat) : Nat := match c with
      | none => start
      | some n => n - 1
    let fails : Prop :=
      (mainState = .failed ∨ mainState = .degraded ∧ b.fields.switchOnDegrade = true)
        ∧ spareState ≠ .failed ∧ ¬ (spareState = .degraded ∧ b.fields.switchOnDegrade = true)
    let spareFails : Prop := spareState = .failed ∧ mainState ≠ .failed
    let restores : Prop := b.fields.revertive = true ∧ mainState = .ok
    let hLeft := left b.fields.holdOff h
    let wLeft := left b.fields.wtr w
    let ticks (v : State) : Prop := exec .bookingTick s = .next v
    let noExpiry : Prop := exec (.holdOffExpiry k) s = .next s ∧ exec (.wtrExpiry k) s = .next s
    -- a request
    (∀ (to_ : Position) (cause : SwitchCause), b.position ≠ to_ →
        (b.request, to_, cause) ∈ [(Request.forceSpare, Position.onSpare, SwitchCause.forceSpare),
          (.forceMain, .onMain, .forceMain), (.lockMain, .onMain, .lockMain)] →
        noExpiry ∧ (room → ticks (moved to_ cause true)) ∧ (¬ room → ticks (stays none none)))
    ∧ ((b.request, b.position) ∈ [(Request.forceSpare, Position.onSpare), (.forceMain, .onMain), (.lockMain, .onMain)] →
        noExpiry ∧ ticks (stays none none))
    -- no request, on main
    ∧ (b.request = .noRequest → b.position = .onMain →
        (fails → hLeft = 0 → room →
          ticks (moved .onSpare .failure false)
          ∧ exec (.holdOffExpiry k) s = .next (moved .onSpare .failure false) ∧ exec (.wtrExpiry k) s = .next s)
        ∧ (fails → hLeft ≠ 0 ∨ ¬ room → ticks (stays (some hLeft) w) ∧ noExpiry)
        ∧ (¬ fails → ticks (stays none w) ∧ noExpiry))
    -- no request, on the spare
    ∧ (b.request = .noRequest → b.position = .onSpare →
        (spareFails → room → ticks (moved .onMain .spareFailed false) ∧ noExpiry)
        ∧ (¬ spareFails → restores → wLeft = 0 → room →
            ticks (moved .onMain .restore false)
            ∧ exec (.wtrExpiry k) s = .next (moved .onMain .restore false) ∧ exec (.holdOffExpiry k) s = .next s)
        ∧ (spareFails ∧ ¬ room ∨ ¬ spareFails ∧ (wLeft ≠ 0 ∨ ¬ room) →
            restores → ticks (stays h (some wLeft)) ∧ noExpiry)
        ∧ (spareFails ∧ ¬ room ∨ ¬ spareFails → ¬ restores → ticks (stays h none) ∧ noExpiry))

/-! ## Chapter 8: tariffs and the Meter -/

/-- TARIFF WRITE, TARIFF LOCK and TARIFF CLEAR ALL (R130 to R133): a rounding that is neither UP nor DOWN is refused with FORMAT, and FROZEN
refuses all three with MODE; then a class above 31, or the first of its fields out of range in the order of R130, is RANGE with its
name, and a set lock LOCKED; otherwise the class is SET to its seven fields; the lock is set; every class becomes BLANK and the lock
clear. -/
def Obligations.TariffOrdersWriteTheTable : Prop :=
  ∀ (s : State) (o : Order) (rest : List Order),
    let u := s.taken o rest
    (Offers s .tariffWrite 24 o rest →
      let k := (o.param 0).toNat
      let c : Tariff :=
        ⟨(o.word 1).toNat, (o.word 5).toNat, (word16 (paramsOf o.cell) 9).toNat, (o.word 11).toNat,
          decide (o.param 15 = 1), (o.word 16).toNat, (o.word 20).toNat⟩
      let steps : List (Prop × Refused) :=
        [(1 < (o.param 15).toNat, ⟨.format, .empty⟩), (s.mgmt.mode = .frozen, ⟨.mode, .empty⟩),
          (31 < k, ⟨.range, .badField .cls⟩), (1000000 < c.baseRate, ⟨.range, .badField .baseRate⟩),
          (1000000 < c.overRate, ⟨.range, .badField .overrunRate⟩),
          (1000000 < c.minimum, ⟨.range, .badField .minimumCharge⟩),
          (8640000 < c.window, ⟨.range, .badField .cancelWindow⟩), (1000000 < c.fee, ⟨.range, .badField .cancelFee⟩),
          (s.tariffs.locked = true, ⟨.locked, .empty⟩)]
      AnswersFirst .tariffWrite s o u steps
      ∧ ((∀ x ∈ steps, ¬ x.1) →
          Answers .tariffWrite s o
            { u with tariffs.classes := s.tariffs.classes.setIfInBounds k (some c) } .done (.tariffWritten k c)))
    ∧ (Offers s .tariffLock 0 o rest →
        (s.mgmt.mode = .frozen → Answers .tariffLock s o u .mode .empty)
        ∧ (s.mgmt.mode ≠ .frozen →
            Answers .tariffLock s o { u with tariffs.locked := true } .done (.tariffLock true)))
    ∧ (Offers s .tariffClearAll 0 o rest →
        (s.mgmt.mode = .frozen → Answers .tariffClearAll s o u .mode .empty)
        ∧ (s.mgmt.mode ≠ .frozen →
            Answers .tariffClearAll s o { u with tariffs := ⟨Vector.replicate 32 none, false⟩ } .done .empty))

/-- TARIFF READ (R134), whole. -/
def Obligations.TariffReadReports : Prop :=
  ∀ (s : State) (o : Order) (rest : List Order) (n : Nat), Offers s .tariffRead n o rest →
    let u := s.taken o rest
    (n ≠ 1 → Answers .tariffRead s o u .format .empty)
    ∧ (n = 1 → 31 < (o.param 0).toNat → Answers .tariffRead s o u .range .empty)
    ∧ ∀ k : Fin 32, n = 1 → (o.param 0).toNat = k.val →
        Answers .tariffRead s o u .done (.tariff k.val s.tariffs.classes[k] s.tariffs.locked)

/-- TARIFF CHECK (R135): the image of eight classes matches exactly when every class of it equals the table's; otherwise the first class
that differs is reported with its first differing field, in R135's order, and the value held. An entry whose state byte is neither
BLANK nor SET, or a SET one whose rounding is neither UP nor DOWN, is refused with FORMAT, as is a part above 3; that the bytes of a
BLANK entry are not examined is assumption log 18. -/
def Obligations.TariffCheckFindsTheFirstDifference : Prop :=
  ∀ (s : State) (o : Order) (rest : List Order), Offers s .tariffCheck 193 o rest →
    let u := s.taken o rest
    let part := (o.param 0).toNat
    let image (j : Nat) : Option Tariff :=
      let a := 1 + 24 * j
      if o.param a = 0 then none
      else
        some ⟨(o.word (a + 1)).toNat, (o.word (a + 5)).toNat, (word16 (paramsOf o.cell) (a + 9)).toNat,
          (o.word (a + 11)).toNat, decide (o.param (a + 15) = 1), (o.word (a + 16)).toNat, (o.word (a + 20)).toNat⟩
    let held (j : Nat) : Option Tariff := (s.tariffs.classes[8 * part + j]?).getD none
    let good (j : Nat) : Prop :=
      (o.param (1 + 24 * j)).toNat ≤ 1 ∧ (o.param (1 + 24 * j) = 1 → (o.param (16 + 24 * j)).toNat ≤ 1)
    (3 < part ∨ (∃ j < 8, ¬ good j) → Answers .tariffCheck s o u .format .empty)
    ∧ (part ≤ 3 → (∀ j < 8, good j) →
        ((∀ j < 8, image j = held j) → Answers .tariffCheck s o u .done (.checkMatch s.tariffs.locked))
        ∧ ∀ j < 8, (∀ i < j, image i = held i) → image j ≠ held j →
            ∃ x : FieldName × TariffValue,
              Answers .tariffCheck s o u .done (.checkMismatch (8 * part + j) x.1 x.2 s.tariffs.locked)
              ∧ x = (match image j, held j with
                | none, _ => (.clsState, .setClass)
                | some _, none => (.clsState, .blank)
                | some a, some c =>
                  if a.baseRate ≠ c.baseRate then (.baseRate, .num c.baseRate)
                  else if a.overRate ≠ c.overRate then (.overrunRate, .num c.overRate)
                  else if a.grace ≠ c.grace then (.outageGrace, .num c.grace)
                  else if a.minimum ≠ c.minimum then (.minimumCharge, .num c.minimum)
                  else if a.roundUp ≠ c.roundUp then (.rounding, .roundUp c.roundUp)
                  else if a.window ≠ c.window then (.cancelWindow, .num c.window)
                  else (.cancelFee, .num c.fee)))

/-- One live tick (R136, R138 to R142): one phase counts the tick, and the class counts follow; a tick that is not an outage tick
past the grace is metered, the rate in force going to the accumulator and whole units of it to U_base or U_over; a count or a carry
that finds its place at the maximum leaves it there and sets SATURATED, and nothing else sets it; the held count, both switch
counts, the first LIVE tick and the snapshot stand. So the accumulator stays below one unit, and unless SATURATED the charge of
360,000 parts a unit grows by the rate on a metered tick and by nothing on another. And the class of a tick: OUTAGE when the
selected source is FAILED or no leg is on an ENABLED port; else DEGRADED when the source is DEGRADED or some leg's port is not
ENABLED; else GOOD, the legs being those of the record, which is the model's choice (assumption log 28). And a HELD tick adds one to
the held count and takes the step mark, and a switch adds one to the switch count, or to the forced-switch count if it is a forced
one (R119, R123); a count at its maximum stays there and sets SATURATED. Nothing else of the meter part changes. -/
def Obligations.MeterChargesEveryMeteredTick : Prop :=
  (∀ (m : Meter) (sn : Snapshot) (ph : Phase) (c : FeedClass) (stepped : Bool), m.snapshot = some sn →
    let m' := m.liveTick ph c stepped
    let metered := decide (c ≠ .outage ∨ sn.grace = 65535 ∨ min (m.outageRun + 1) 4294967295 ≤ sn.grace)
    let rate := if ph = .scheduled then sn.baseRate else sn.overRate
    let carry := (m.acc + rate) / 360000
    let count (now : Bool) (n : Nat) : Nat := if now then min (n + 1) 4294967295 else n
    let full (now : Bool) (n : Nat) : Bool := now && decide (4294967295 ≤ n)
    let isPh (q : Phase) : Bool := decide (ph = q)
    let isC (q : FeedClass) : Bool := decide (c = q)
    m' =
      { m with
        acc := if metered then (m.acc + rate) % 360000 else m.acc
        uBase := if metered ∧ ph = .scheduled then min (m.uBase + carry) 4294967295 else m.uBase
        uOver := if metered ∧ ph ≠ .scheduled then min (m.uOver + carry) 4294967295 else m.uOver
        scheduled := count (isPh .scheduled) m.scheduled, overrun := count (isPh .overrun) m.overrun
        extended := count (isPh .extended) m.extended, outage := count (isC .outage) m.outage
        credited := count (!metered) m.credited, degraded := count (isC .degraded) m.degraded
        outageRun := if c = .outage then min (m.outageRun + 1) 4294967295 else 0
        saturated :=
          m.saturated || full (isPh .scheduled) m.scheduled || full (isPh .overrun) m.overrun
            || full (isPh .extended) m.extended || full (isC .outage) m.outage || full (isC .outage) m.outageRun
            || full (!metered) m.credited || full (isC .degraded) m.degraded
            || decide (metered ∧ ph = .scheduled ∧ 4294967295 < m.uBase + carry)
            || decide (metered ∧ ph ≠ .scheduled ∧ 4294967295 < m.uOver + carry)
        timeStepped := m.timeStepped || stepped }
    ∧ (m.acc < 360000 → m'.acc < 360000)
    ∧ (m'.saturated = false →
        360000 * (m'.uBase + m'.uOver) + m'.acc = 360000 * (m.uBase + m.uOver) + m.acc + (if metered then rate else 0)))
  ∧ (∀ (s : State) (b : Booking),
      let source := s.watchOf (match b.position, b.fields.spare with
        | .onSpare, some sp => sp
        | _, _ => b.fields.main)
      let up (q : Pair) : Prop := (s.port q.port).state = .enabled
      let outage : Prop := source = .failed ∨ ∀ q ∈ b.fields.legs, ¬ up q
      let degraded : Prop := source = .degraded ∨ ∃ q ∈ b.fields.legs, ¬ up q
      (outage → s.feedClassOf b = .outage) ∧ (¬ outage → degraded → s.feedClassOf b = .degraded)
        ∧ (¬ outage → ¬ degraded → s.feedClassOf b = .good))
  ∧ ∀ (m : Meter),
      (∀ stepped : Bool, m.heldTick stepped =
        { m with
          held := min (m.held + 1) 4294967295, saturated := m.saturated || decide (4294967295 ≤ m.held)
          timeStepped := m.timeStepped || stepped })
      ∧ m.countSwitch true =
          { m with forced := min (m.forced + 1) 4294967295, saturated := m.saturated || decide (4294967295 ≤ m.forced) }
      ∧ m.countSwitch false =
          { m with switches := min (m.switches + 1) 4294967295, saturated := m.saturated || decide (4294967295 ≤ m.switches) }

/-- The whole bill of a booking that went live (R143): round, the metered units, which stay at their maximum and set SATURATED where
they would pass it, the larger of them and the minimum when something was delivered, EARLY when the planned end is not reached at the
end NT, and every count and flag of the meter part. And the whole bill of one that never went live (R144): the class of its record, its
held count, and no charge; that it carries the switch counts and SATURATED of its meter part, and no cells, is read from the manual
(assumption log 24). -/
def Obligations.BillTotalsAtTheClose : Prop :=
  ∀ (b : Booking) (outcome : BillOutcome) (endNt : Word),
    let m := b.meter
    let early := !reached endNt (b.fields.start + BitVec.ofNat 32 b.fields.duration)
    (∀ sn : Snapshot, m.snapshot = some sn →
      let ticks := m.scheduled + m.overrun + m.extended
      let round := if sn.roundUp = true ∧ 0 < m.acc then 1 else 0
      let sum := m.uBase + m.uOver + round
      let units := min sum 4294967295
      closeBill b outcome endNt =
        { ref := b.ref, account := b.fields.account, cls := sn.cls, outcome := outcome, firstLive := m.firstLive
          endNt := endNt, held := m.held, scheduled := m.scheduled, overrun := m.overrun, extended := m.extended
          outage := m.outage, credited := m.credited, degraded := m.degraded, uBase := m.uBase, uOver := m.uOver
          round := round, total := if m.outage < ticks then max units sn.minimum else units
          switches := m.switches, forced := m.forced, delivered := b.delivered, dropped := b.dropped
          noTariff := sn.noTariff, saturated := m.saturated || decide (4294967295 < sum), timeStepped := m.timeStepped
          minimumApplied := decide (m.outage < ticks ∧ units < sn.minimum), early := early })
    ∧ (m.snapshot = none →
        closeBill b outcome endNt =
          { ref := b.ref, account := b.fields.account, cls := b.fields.tariffClass, outcome := outcome, firstLive := none
            endNt := endNt, held := m.held, scheduled := 0, overrun := 0, extended := 0, outage := 0, credited := 0
            degraded := 0, uBase := 0, uOver := 0, round := 0, total := 0, switches := m.switches, forced := m.forced
            delivered := 0, dropped := 0, noTariff := false, saturated := m.saturated, timeStepped := m.timeStepped
            minimumApplied := false, early := early })

/-! ## Chapter 9: the Bill Queue -/

/-- BILL READ and BILL RELEASE (R146, R150 to R152, R154): a record by its position; only the oldest may be released, and its place goes to
the waiter with the earliest end NT, ties to the lowest slot, whose slot becomes FREE; BILL_LEVEL is raised when that write brings the
count to 48, and BILL_FULL when it brings it to 64. -/
def Obligations.BillOrdersServeTheOldest : Prop :=
  (∀ s : State, s.waiters = s.bookings.countP fun e => match e.2.state with
    | .ended _ => true
    | _ => false)
  ∧ ∀ (s : State) (o : Order) (rest : List Order),
    let u := s.taken o rest
    let n := s.bills.records.length
    let oldest := s.bills.records.head?.map BillRec.seq
    (Offers s .billRead 1 o rest →
      (63 < (o.param 0).toNat → Answers .billRead s o u .range .empty)
      ∧ ((o.param 0).toNat ≤ 63 → n ≤ (o.param 0).toNat → Answers .billRead s o u .unknown (.noBill n s.waiters))
      ∧ (∀ r, (o.param 0).toNat ≤ 63 → s.bills.records[(o.param 0).toNat]? = some r →
          Answers .billRead s o u .done (.bill n s.waiters s.bills.next r)))
    ∧ (Offers s .billRelease 4 o rest →
        let q := o.word 0
        (q = 0 → Answers .billRelease s o u .range (.oldest oldest n s.waiters))
        ∧ (q ≠ 0 → (∀ r ∈ s.bills.records, r.seq ≠ q) →
            Answers .billRelease s o u .unknown (.oldest oldest n s.waiters))
        ∧ (q ≠ 0 → (∃ r ∈ s.bills.records, r.seq = q) → oldest ≠ some q →
            Answers .billRelease s o u .notOldest (.oldest oldest n s.waiters))
        ∧ ∀ r tl, q ≠ 0 → s.bills.records = r :: tl → r.seq = q →
            (s.waiters = 0 →
              Answers .billRelease s o { u with bills.records := tl } .done
                (.released q tl.length (tl.head?.map BillRec.seq) none 0))
            ∧ ∀ k b bill, TablesInForm s → s.booking k = some b → b.state = .ended bill →
                (∀ j b' bill', s.booking j = some b' → b'.state = .ended bill' →
                  ticksUntil s.time.nt bill.endNt < ticksUntil s.time.nt bill'.endNt
                    ∨ ticksUntil s.time.nt bill.endNt = ticksUntil s.time.nt bill'.endNt ∧ k ≤ j) →
                let first := ((tl ++ [(⟨s.bills.next, bill⟩ : BillRec)]).head?.map BillRec.seq)
                ∃ t, Answers .billRelease s o t .done
                    (.released q (tl.length + 1) first (some ⟨k, b.ref, bill.outcome, s.bills.next⟩) (s.waiters - 1))
                  ∧ t.bills.records = tl ++ [⟨s.bills.next, bill⟩]
                  ∧ t.bills.next = (if s.bills.next = 0xFFFFFFFF#32 then 1 else s.bills.next + 1)
                  ∧ t.booking k = none ∧ (∀ j, j ≠ k → t.booking j = s.booking j)
                  ∧ t.mgmt = (u.raiseAll
                      (if n = 48 then [.billLevel 48 (first.getD 0) s.bills.next (s.waiters - 1)]
                       else if n = 64 then [.billFull 64 (first.getD 0) s.bills.next (s.waiters - 1)] else [])).mgmt
                  ∧ t = { u with bills := t.bills, bookings := t.bookings, mgmt := t.mgmt })

/-! ## Chapter 10: management cells and the node's own orders -/

/-- The fields of a management cell's header by their places (R156, R172). A cell goes on with its hop limit one lower and every
other field as it arrived (R158). The broadcast set is TIME SET, SET MODE, GROUP HOLD and GROUP RELEASE (R159). A management cell on
a port that is not DARK, by the first row that fits (R156, R158, R159, R161): discarded, appended to the order queue or answered
QUEUE_FULL, forwarded by the first matching route with the hop limit one lower, or, for node 0, taken and sent on over every routed
port but its own. -/
def Obligations.ManagementCellIsDisposedOf : Prop :=
  (∀ (bs : List Byte) (i : Nat),
    byteAt bs i = (bs[i]?).getD 0 ∧ (word16 bs i).toNat = (byteAt bs i).toNat * 256 + (byteAt bs (i + 1)).toNat
      ∧ (word32 bs i).toNat = (word16 bs i).toNat * 65536 + (word16 bs (i + 2)).toNat)
  ∧ (∀ c : Cell,
      let num (i : Nat) : Nat := (byteAt c.payload i).toNat
      destOf c = 1023 - (word16 c.payload 0).toNat % 1024 ∧ (originOf c).toNat = (word16 c.payload 2).toNat % 1024
        ∧ ctrlOf c = byteAt c.payload 4 ∧ (hopOf c).toNat = num 5 / 16
        ∧ typeOf c = (match num 5 / 4 % 4 with
            | 0 => .order
            | 1 => .answer
            | 2 => .notice
            | _ => .none)
        ∧ tagOf c = word16 c.payload 6 ∧ codeOf c = word16 c.payload 8 ∧ lengthOf c = num 10
        ∧ paramsOf c = c.payload.drop 12 ∧ timeValue c = word32 c.payload 0)
  ∧ (∀ c : Cell, c.payload.length = 252 → hopOf c ≠ 0 →
      (hopDown c).label = c.label ∧ (hopDown c).seq = c.seq ∧ (hopDown c).payload.length = 252
        ∧ (∀ i, i ≠ 5 → byteAt (hopDown c).payload i = byteAt c.payload i)
        ∧ (byteAt (hopDown c).payload 5).toNat = (byteAt c.payload 5).toNat - 16
        ∧ (hopOf (hopDown c)).toNat = (hopOf c).toNat - 1)
  ∧ (∀ code : BitVec 16,
      inBroadcastSet code = true ↔ code = 0x0021 ∨ code = 0x0002 ∨ code = 0x0046 ∨ code = 0x0047)
  ∧ ∀ (s : State) (p : Port) (bytes : List Byte), s.inReset = false → (s.port p).line = .delineated →
    (s.port p).isDark = false → checkPasses bytes = true → (cellOf bytes).label = 0 →
    let c := cellOf bytes
    let u := s.setPort p { s.port p with failRun := 0 }
    let n := s.mgmt.orders.length
    let queued : State := { u with mgmt.orders := s.mgmt.orders ++ [⟨p, c⟩] }
    (1000 < destOf c ∨ typeOf c = .none → exec (.cellArrival p bytes) s = .next u)
    ∧ (destOf c ≤ 1000 → typeOf c ≠ .none →
        (destOf c = s.mgmt.address → destOf c ≠ 0 →
          (typeOf c ≠ .order → exec (.cellArrival p bytes) s = .next u)
          ∧ (typeOf c = .order → n < 16 → exec (.cellArrival p bytes) s = .next queued)
          ∧ (typeOf c = .order → 16 ≤ n → (s.port p).mgmtQ.length < 64 →
              exec (.cellArrival p bytes) s = .next (u.setPort p
                { u.port p with
                  mgmtSeq := (s.port p).mgmtSeq + 1
                  mgmtQ := (s.port p).mgmtQ ++ [.answer (s.port p).mgmtSeq
                    ⟨originOf c, BitVec.ofNat 10 s.mgmt.address, ctrlOf c, tagOf c, codeOf c, .queueFull, 0, true,
                      .empty⟩] }))
          ∧ (typeOf c = .order → 16 ≤ n → 64 ≤ (s.port p).mgmtQ.length →
              exec (.cellArrival p bytes) s = .next u))
        ∧ (destOf c ≠ s.mgmt.address → destOf c ≠ 0 →
            let fits (e : Nat) : Prop :=
              ∃ r : Route, s.mgmt.routes[e]? = some (some r) ∧ r.low ≤ destOf c ∧ destOf c ≤ r.high
            ((∀ e, ¬ fits e) ∨ hopOf c = 0 → exec (.cellArrival p bytes) s = .next u)
            ∧ ∀ (e : Nat) (r : Route), s.mgmt.routes[e]? = some (some r) → r.low ≤ destOf c → destOf c ≤ r.high →
                (∀ i < e, ¬ fits i) → hopOf c ≠ 0 →
                exec (.cellArrival p bytes) s = .next
                  (if (s.port r.port).isDark = false ∧ (s.port r.port).mgmtQ.length < 64 then
                    u.setPort r.port
                      { u.port r.port with mgmtQ := (s.port r.port).mgmtQ ++ [.forwarded (hopDown c)] }
                  else u))
        ∧ (destOf c = 0 →
            ∃ t, exec (.cellArrival p bytes) s = .next t
              ∧ t.mgmt = (if typeOf c = .order ∧ inBroadcastSet (codeOf c) = true ∧ n < 16 then queued else u).mgmt
              ∧ (∀ q : Port, t.port q =
                  if hopOf c ≠ 0 ∧ q ≠ p ∧ some q ∈ s.mgmt.routes.toList.map (Option.map Route.port)
                      ∧ (s.port q).isDark = false ∧ (s.port q).mgmtQ.length < 64 then
                    { u.port q with mgmtQ := (s.port q).mgmtQ ++ [.forwarded (hopDown c)] }
                  else u.port q)
              ∧ t = { u with mgmt := t.mgmt, ports := t.ports }))

/-- The bytes of a sent cell read back as its label, sequence and payload, with a correct header check: the three header bytes and
the check are a multiple of the generator x^8 + x^7 + x^6 + x^4 + x^2 + 1 (R1, R2, R172); an arriving cell passes when its fourth
byte is that check of the first three, and is read by the same places, its spare bits ignored. An answer and a notice, byte by byte:
the management header with hop limit 15, the common fields, and from the end of the parameters on zeros, which is the model's choice
(assumption log 30) (R163, R165, R172); and the result data of BILL READ, its UNKNOWN refusal's count and waiters lying where R172
puts them (assumption log 3), with the bill record (R147, R151, R172). That bits 6 and 7 of the bill record's flags byte, to which
R172 gives no flag and which it does not mark as sent as 0, are sent as 0 is the model's choice (assumption log 41). -/
def Obligations.SentCellReadsBack : Prop :=
  (∀ c : Cell, c.payload.length = 252 →
    (cellBytes c).length = 256 ∧ cellOf (cellBytes c) = c ∧ checkPasses (cellBytes c) = true)
  ∧ (∀ bytes : List Byte,
      let b (i : Nat) : Byte := byteAt bytes i
      (checkPasses bytes = true ↔ headerCheck (b 0) (b 1) (b 2) = b 3)
        ∧ (cellOf bytes).label = b 0 ∧ (cellOf bytes).seq.toNat = (b 1).toNat * 16 + (b 2).toNat / 16
        ∧ (cellOf bytes).payload = (bytes.drop 4).take 252)
  ∧ (∀ b0 b1 b2 : Byte, ∃ q : BitVec 24,
      (List.range 24).foldl (fun (sum : BitVec 32) i => if q.getLsbD i then sum ^^^ (0x1D5#32 <<< i) else sum) 0
        = (b0 ++ b1 ++ b2 ++ headerCheck b0 b1 b2 : BitVec 32))
  ∧ (∀ (q : Seq) (a : Answer),
      let c := (MgmtCell.answer q a).toCell
      let at_ (i : Nat) : Byte := byteAt c.payload i
      let n := (answerDataBytes a.data).length
      (c.label = 0 ∧ c.seq = q ∧ c.payload.length = 252)
      ∧ (word16 c.payload 0 = BitVec.ofNat 16 (1023 - a.dest.toNat) ∧ word16 c.payload 2 = a.origin.setWidth 16
        ∧ at_ 4 = a.ctrl ∧ at_ 5 = 0xF4 ∧ word16 c.payload 6 = a.tag ∧ word16 c.payload 8 = a.code
        ∧ (at_ 10).toNat = 4 + n ∧ at_ 11 = 0)
      ∧ word16 c.payload 12 = (match a.result with
          | .done => 0 | .queueFull => 1 | .format => 2 | .mode => 3 | .range => 4 | .state => 5 | .unknown => 6
          | .duplicateRef => 7 | .bandwidthMismatch => 8 | .noSlot => 9 | .noSourceSlot => 10 | .conflict => 11
          | .capacity => 12 | .legLimit => 13 | .locked => 14 | .notOldest => 15)
      ∧ at_ 14 = BitVec.ofNat 8 a.freeSlots ∧ at_ 15 = (if a.hold then 1 else 0)
      ∧ (∀ i, 16 + n ≤ i → at_ i = 0)
      ∧ (a.data = .empty → n = 0)
      ∧ (∀ count waiters, a.data = .noBill count waiters →
          n = 4 ∧ word16 c.payload 16 = BitVec.ofNat 16 count ∧ word16 c.payload 18 = BitVec.ofNat 16 waiters)
      ∧ ∀ count waiters next r, a.data = .bill count waiters next r →
          let b := r.bill
          (n = 88 ∧ word16 c.payload 16 = BitVec.ofNat 16 count ∧ word16 c.payload 18 = BitVec.ofNat 16 waiters
            ∧ word32 c.payload 20 = next)
          ∧ (∀ x ∈ [(0, r.seq), (4, b.ref), (16, b.firstLive.getD 0), (20, b.endNt), (72, b.delivered), (76, b.dropped)],
              word32 c.payload (24 + x.1) = x.2)
          ∧ (∀ x ∈ [(24, b.held), (28, b.scheduled), (32, b.overrun), (36, b.extended), (40, b.outage), (44, b.credited),
                (48, b.degraded), (52, b.uBase), (56, b.uOver), (60, b.total), (64, b.switches), (68, b.forced)],
              word32 c.payload (24 + x.1) = BitVec.ofNat 32 x.2)
          ∧ word16 c.payload 32 = b.account ∧ at_ 34 = BitVec.ofNat 8 b.cls
          ∧ at_ 35 = (match b.outcome with
              | .endedByOrder => 1 | .endedAtLimit => 2 | .cut => 3 | .cancelledLate => 4 | .aborted => 5)
          ∧ (∀ x ∈ [(0, b.noTariff), (1, b.saturated), (2, b.timeStepped), (3, b.minimumApplied), (4, b.early),
                (5, b.firstLive.isSome), (6, false), (7, false)], (at_ 36).getLsbD x.1 = x.2)
          ∧ at_ 37 = BitVec.ofNat 8 b.round ∧ at_ 38 = 0 ∧ at_ 39 = 0)
  ∧ ∀ (q : Seq) (x : NoticeCell),
      let c := (MgmtCell.notice q x).toCell
      let at_ (i : Nat) : Byte := byteAt c.payload i
      (c.label = 0 ∧ c.seq = q ∧ c.payload.length = 252)
      ∧ (word16 c.payload 0 = BitVec.ofNat 16 (1023 - x.dest.toNat) ∧ word16 c.payload 2 = x.origin.setWidth 16
        ∧ at_ 4 = x.ctrl ∧ at_ 5 = 0xF8 ∧ word16 c.payload 6 = 0 ∧ 6 ≤ (at_ 10).toNat ∧ at_ 11 = 0)
      ∧ word16 c.payload 8 = (match x.notice.content with
          | .portState .. => 0x0101 | .timeState .. => 0x0102 | .timeStep .. => 0x0103 | .sourceState .. => 0x0104
          | .bookingLive .. => 0x0105 | .bookingEnded .. => 0x0106 | .selectorSwitch .. => 0x0107
          | .billLevel .. => 0x0108 | .billFull .. => 0x0109)
      ∧ word16 c.payload 12 = BitVec.ofNat 16 x.discarded ∧ word32 c.payload 14 = x.notice.nt
      ∧ ∀ i, 12 + (at_ 10).toNat ≤ i → at_ i = 0

/-- IDENTIFY (R166), whole. -/
def Obligations.IdentifyReports : Prop :=
  ∀ (s : State) (o : Order) (rest : List Order) (n : Nat), Offers s .identify n o rest →
    (n ≠ 0 → Answers .identify s o (s.taken o rest) .format .empty)
    ∧ (n = 0 → Answers .identify s o (s.taken o rest) .done (.identify
        ⟨0xB2C7#16, 0x0C16#16, 3, s.mgmt.address, s.mgmt.strapFault, s.mgmt.mode, s.time.state,
          512 - s.bookings.length, 512 - s.sources.length, s.bills.records.length⟩))

/-- SET MODE by its table, SET HOLD THRESHOLD by clamping, SET ROUTE, and MANAGEMENT RESTART with its action, which waits for the answer
to leave (R160, R163, R168, R169). That SET MODE's FORMAT refusal reports nothing is the model's choice (assumption log 35), and that
the restart is a step of its own is read from R169 (assumption log 8). -/
def Obligations.NodeOrdersSetTheNode : Prop :=
  ∀ (s : State) (o : Order) (rest : List Order),
    let u := s.taken o rest
    let empty : Prop := s.bookings = [] ∧ s.bills.records = []
    (Offers s .setMode 1 o rest →
      (2 < (o.param 0).toNat → Answers .setMode s o u .format .empty)
      ∧ (o.param 0 = 0 →
          (s.mgmt.mode = .commissioning ∨ empty →
            Answers .setMode s o { u with mgmt.mode := .commissioning } .done (.nodeMode .commissioning))
          ∧ (s.mgmt.mode ≠ .commissioning → ¬ empty →
              Answers .setMode s o u .state
                (.notFree s.mgmt.mode s.bookings.length s.bills.records.length)))
      ∧ (o.param 0 = 1 →
          (s.mgmt.mode ≠ .commissioning ∨ s.time.state ≠ .free →
            Answers .setMode s o { u with mgmt.mode := .service } .done (.nodeMode .service))
          ∧ (s.mgmt.mode = .commissioning → s.time.state = .free →
              Answers .setMode s o u .state (.nodeMode .commissioning)))
      ∧ (o.param 0 = 2 →
          (s.mgmt.mode ≠ .commissioning →
            Answers .setMode s o { u with mgmt.mode := .frozen } .done (.nodeMode .frozen))
          ∧ (s.mgmt.mode = .commissioning → Answers .setMode s o u .state (.nodeMode .commissioning))))
    ∧ (Offers s .setHoldThreshold 1 o rest →
        let v := max 1 (min 16 (o.param 0).toNat)
        Answers .setHoldThreshold s o { u with mgmt.holdThreshold := v } .done
          (.threshold ⟨v, decide (v ≠ (o.param 0).toNat)⟩))
    ∧ (Offers s .setRoute 7 o rest →
        let low := (word16 (paramsOf o.cell) 2).toNat
        let high := (word16 (paramsOf o.cell) 4).toNat
        (1 < (o.param 1).toNat → Answers .setRoute s o u .format .empty)
        ∧ ((o.param 1).toNat ≤ 1 → s.mgmt.mode = .frozen → Answers .setRoute s o u .mode .empty)
        ∧ ((o.param 1).toNat ≤ 1 → s.mgmt.mode ≠ .frozen → 15 < (o.param 0).toNat → Answers .setRoute s o u .range .empty)
        ∧ (s.mgmt.mode ≠ .frozen → ∀ e : Port, (o.param 0).toNat = e.val →
            (o.param 1 = 0 →
              Answers .setRoute s o { u with mgmt.routes := s.mgmt.routes.set e none } .done (.route e.val none))
            ∧ (o.param 1 = 1 → ∀ p : Port, (o.param 6).toNat = p.val → 1 ≤ low → low ≤ high → high ≤ 1000 →
                Answers .setRoute s o { u with mgmt.routes := s.mgmt.routes.set e (some ⟨low, high, p⟩) } .done
                  (.route e.val (some ⟨low, high, p⟩)))
            ∧ (o.param 1 = 1 → low = 0 ∨ high < low ∨ 1000 < high ∨ 15 < (o.param 6).toNat →
                Answers .setRoute s o u .range .empty)))
    ∧ (Offers s .managementRestart 0 o rest →
        Answers .managementRestart s o { u with mgmt.restart := true } .done .empty)
    ∧ (s.inReset = false → s.mgmt.restart = true →
        (s.mgmt.engine = .ready → exec .restartAction s = .next
          { s with
            mgmt :=
              { s.mgmt with
                restart := false, orders := [], notices := [], discarded := 0, holdThreshold := 12
                controller := none } })
        ∧ (s.mgmt.engine ≠ .ready → exec .restartAction s = .next s))

/-- CLEAR TRAFFIC (R18, R51, R74, R95, R155, R170): every live booking ends ABORTED at the current NT with a bill, closed with its
legs' sums, in slot order: the first bills are written with the next numbers while there is room, and the rest wait in ENDED, where
the meter part standing as it was, SATURATED included, is the model's choice (assumption log 34); every other booking but those in
ENDED is freed without one; sources, legs and groups are cleared; the feed queues are flushed and a DRAINING port becomes DISABLED.
Each ending raises BOOKING_ENDED, after BILL_LEVEL at the 48th record and BILL_FULL at the 64th, and each drain PORT_STATE with
cause DRAINED, after them, in port order (assumption log 23). Tariffs, time, mode and management queues stand. -/
def Obligations.ClearTrafficEmptiesTheNode : Prop :=
  ∀ (s : State) (o : Order) (rest : List Order), TablesInForm s → Offers s .clearTraffic 0 o rest →
    (s.mgmt.mode = .commissioning → Answers .clearTraffic s o (s.taken o rest) .mode .empty)
    ∧ (s.mgmt.mode ≠ .commissioning →
        let live := s.bookings.countP fun e => e.2.state.isLive
        let early := s.bookings.countP fun e => !e.2.state.isLive && !e.2.state.isEnded
        let n := s.bills.records.length
        ∃ t,
          Answers .clearTraffic s o t .done
              (.trafficCleared live early (min live (64 - n)) (s.waiters + live - min live (64 - n)))
          ∧ t.sources = [] ∧ t.groups = Vector.replicate 32 ⟨.opened, 0⟩
          ∧ (∀ p, (t.port p).feedQ = [] ∧ (t.port p).mgmtQ = (s.port p).mgmtQ
              ∧ (t.port p).state = (if (s.port p).state = .draining then .disabled else (s.port p).state))
          ∧ (∀ k b, s.booking k = some b → b.state.isEnded = true → t.booking k = some b)
          ∧ (∀ k b, t.booking k = some b → ∃ bill, b.state = .ended bill
              ∧ (s.booking k = some b ∨ bill.outcome = .aborted ∧ bill.endNt = s.time.nt))
          ∧ t.bills.records.length = n + min live (64 - n) ∧ t.bills.records.take n = s.bills.records
          ∧ (∀ r ∈ t.bills.records.drop n, r.bill.outcome = .aborted ∧ r.bill.endNt = s.time.nt)
          ∧ t.tariffs = s.tariffs ∧ t.time = s.time ∧ t.mgmt.mode = s.mgmt.mode ∧ t.mgmt.orders = rest
          -- whose bills they are, and the notices
          ∧ (LinksInForm s →
              let lives := (s.bookings.filter fun e => e.2.state.isLive).zipIdx
              let seqAt (i : Nat) : Word := Nat.iterate (fun q => if q = 0xFFFFFFFF#32 then 1 else q + 1) i s.bills.next
              let legsOf (e : Nat × Booking) : List Leg := match s.source e.2.selected with
                | some x => x.legs.filter fun l => l.owner == e.1
                | none => []
              let sumOf (f : Leg → Word) (e : Nat × Booking) : Word := ((legsOf e).map f).foldl (· + ·) 0
              let closed (e : Nat × Booking) : Booking :=
                { e.2 with
                  delivered := e.2.delivered + sumOf Leg.sent e, dropped := e.2.dropped + sumOf Leg.dropped e }
              let bill (e : Nat × Booking) : Bill := closeBill (closed e) .aborted s.time.nt
              let oldest := (s.bills.records.head?.map BillRec.seq).getD s.bills.next
              let notes (x : (Nat × Booking) × Nat) : List NoticeContent :=
                (if n + x.2 = 47 then [.billLevel 48 oldest (seqAt x.2) s.waiters]
                  else if n + x.2 = 63 then [.billFull 64 oldest (seqAt x.2) s.waiters] else [])
                  ++ [.bookingEnded x.1.1 x.1.2.ref x.1.2.fields.account .aborted s.time.nt (bill x.1).total
                    (if n + x.2 < 64 then some (seqAt x.2) else none)]
              let drains : List NoticeContent := (List.finRange 16).filterMap fun p =>
                if (s.port p).state = .draining then some (.portState p .draining .disabled (s.port p).line .drained)
                else none
              t.bills.records = s.bills.records ++ (lives.take (64 - n)).map (fun x => ⟨seqAt x.2, bill x.1⟩)
                ∧ t.bills.next = seqAt (min live (64 - n))
                ∧ (∀ x ∈ lives, t.booking x.1.1 =
                    if n + x.2 < 64 then none
                    else some
                      { closed x.1 with
                        state := .ended (bill x.1), pending := none, endPending := false, holdOffLeft := none
                        wtrLeft := none, afresh := false })
                ∧ t.mgmt = ((s.taken o rest).raiseAll (lives.flatMap notes ++ drains)).mgmt))

/-! ## What every step keeps -/

/-- Every queue stays within its places, and the capacities and the hold threshold in their ranges (R11 to R13, R146, R161, R163, R165). -/
def Obligations.StepKeepsQueueBounds : Prop :=
  ∀ s t : State, QueueBounds s → step s = .next t → QueueBounds t

/-- The booking table and the source table stay in their canonical form, and every source record stays in its ranges: tokens within
B, at most 16 legs, runs, window and watch parameters within their bounds (R33, R37, R44, R52, R99, R100, R105, R106). And what
binds them stays: a source is in the table exactly while a booking names it, its reference count their number (R35); every leg
belongs to a live booking whose selected source owns its list, and no two legs share a pair (R44); no two slots hold one reference
(R52); every group counts its HELD bookings (R74). And the installed bandwidth of a port never exceeds its capacity, every source
having the bandwidth of each booking that names it (R11, R37). And every slot stays below 512, and at most 512 sources are in the
table (R33, R52). -/
def Obligations.StepKeepsTheTables : Prop :=
  (∀ s t : State, TablesInForm s → SourcesInForm s → step s = .next t → TablesInForm t ∧ SourcesInForm t)
  ∧ (∀ s t : State, TablesInForm s → LinksInForm s → step s = .next t → LinksInForm t)
  ∧ (∀ s t : State, TablesInForm s → LinksInForm s → CapacityForm s → step s = .next t → CapacityForm t)
  ∧ ∀ s t : State, TablesInForm s → LinksInForm s → BoundsForm s → step s = .next t → BoundsForm t

/-- The Bill Queue stays numbered without a gap and never gives 0, a booking waits in ENDED only while it is full, and every
accumulator stays below one unit (R141, R146, R148, R150). -/
def Obligations.StepKeepsBillsAndMeters : Prop :=
  ∀ s t : State, BillForm s → AccumulatorsBelowUnit s → step s = .next t → BillForm t ∧ AccumulatorsBelowUnit t

/-- Ports, time and mode keep their forms: a DARK port holds no cell and a DISABLED one no feed cell; the tick schedule and the deadline
run as the time state says; in COMMISSIONING every slot is FREE and outside it NT is valid (R4, R6 to R10, R21 to R28, R168). -/
def Obligations.StepKeepsPortsTimeAndMode : Prop :=
  ∀ s t : State, step s = .next t →
    (PortsInForm s → PortsInForm t) ∧ (TimeForm s → TimeForm t) ∧ (ModeForm s → ModeForm t)

/-- The state after hard reset has every form that a step keeps, whatever the straps and the light are; `State.reset` is that state with
straps of 1 and light on every port, which is the model's choice (assumption log 5). -/
def Obligations.ResetHasEveryForm : Prop :=
  ∀ s : State, s = State.reset ∨ (∃ straps light, s = State.hardReset straps light) →
    QueueBounds s ∧ TablesInForm s ∧ SourcesInForm s ∧ BillForm s ∧ AccumulatorsBelowUnit s ∧ PortsInForm s ∧ TimeForm s
      ∧ ModeForm s ∧ LinksInForm s ∧ CapacityForm s ∧ BoundsForm s
end

