-- ==== Sys2Proof/Laws/State.lean ====
section
/-! SUPPORT. One lemma for each field under each update of the state, and under the notices, groups and ports that the blocks write
in common; and for each field of a booking under the updates that several stages share. -/

namespace Sys2Proof.Machine

variable (s : State)

/-! ### `State.setPort` -/

@[simp] theorem State.setPort_pending (p : Port) (r : PortRec) : (s.setPort p r).pending = s.pending := rfl
@[simp] theorem State.setPort_inReset (p : Port) (r : PortRec) : (s.setPort p r).inReset = s.inReset := rfl
@[simp] theorem State.setPort_now (p : Port) (r : PortRec) : (s.setPort p r).now = s.now := rfl
@[simp] theorem State.setPort_freeRead (p : Port) (r : PortRec) : (s.setPort p r).freeRead = s.freeRead := rfl
@[simp] theorem State.setPort_time (p : Port) (r : PortRec) : (s.setPort p r).time = s.time := rfl
@[simp] theorem State.setPort_refillTicks (p : Port) (r : PortRec) : (s.setPort p r).refillTicks = s.refillTicks := rfl
@[simp] theorem State.setPort_bookingTicks (p : Port) (r : PortRec) : (s.setPort p r).bookingTicks = s.bookingTicks := rfl
@[simp] theorem State.setPort_sources (p : Port) (r : PortRec) : (s.setPort p r).sources = s.sources := rfl
@[simp] theorem State.setPort_defaults (p : Port) (r : PortRec) : (s.setPort p r).defaults = s.defaults := rfl
@[simp] theorem State.setPort_bookings (p : Port) (r : PortRec) : (s.setPort p r).bookings = s.bookings := rfl
@[simp] theorem State.setPort_groups (p : Port) (r : PortRec) : (s.setPort p r).groups = s.groups := rfl
@[simp] theorem State.setPort_tariffs (p : Port) (r : PortRec) : (s.setPort p r).tariffs = s.tariffs := rfl
@[simp] theorem State.setPort_bills (p : Port) (r : PortRec) : (s.setPort p r).bills = s.bills := rfl
@[simp] theorem State.setPort_mgmt (p : Port) (r : PortRec) : (s.setPort p r).mgmt = s.mgmt := rfl

/-! ### `State.mapPorts` -/

@[simp] theorem State.mapPorts_pending (f : PortRec → PortRec) : (s.mapPorts f).pending = s.pending := rfl
@[simp] theorem State.mapPorts_inReset (f : PortRec → PortRec) : (s.mapPorts f).inReset = s.inReset := rfl
@[simp] theorem State.mapPorts_now (f : PortRec → PortRec) : (s.mapPorts f).now = s.now := rfl
@[simp] theorem State.mapPorts_freeRead (f : PortRec → PortRec) : (s.mapPorts f).freeRead = s.freeRead := rfl
@[simp] theorem State.mapPorts_time (f : PortRec → PortRec) : (s.mapPorts f).time = s.time := rfl
@[simp] theorem State.mapPorts_refillTicks (f : PortRec → PortRec) : (s.mapPorts f).refillTicks = s.refillTicks := rfl
@[simp] theorem State.mapPorts_bookingTicks (f : PortRec → PortRec) : (s.mapPorts f).bookingTicks = s.bookingTicks := rfl
@[simp] theorem State.mapPorts_sources (f : PortRec → PortRec) : (s.mapPorts f).sources = s.sources := rfl
@[simp] theorem State.mapPorts_defaults (f : PortRec → PortRec) : (s.mapPorts f).defaults = s.defaults := rfl
@[simp] theorem State.mapPorts_bookings (f : PortRec → PortRec) : (s.mapPorts f).bookings = s.bookings := rfl
@[simp] theorem State.mapPorts_groups (f : PortRec → PortRec) : (s.mapPorts f).groups = s.groups := rfl
@[simp] theorem State.mapPorts_tariffs (f : PortRec → PortRec) : (s.mapPorts f).tariffs = s.tariffs := rfl
@[simp] theorem State.mapPorts_bills (f : PortRec → PortRec) : (s.mapPorts f).bills = s.bills := rfl
@[simp] theorem State.mapPorts_mgmt (f : PortRec → PortRec) : (s.mapPorts f).mgmt = s.mgmt := rfl

/-! ### `State.setSource` -/

@[simp] theorem State.setSource_pending (x : Source) : (s.setSource x).pending = s.pending := rfl
@[simp] theorem State.setSource_inReset (x : Source) : (s.setSource x).inReset = s.inReset := rfl
@[simp] theorem State.setSource_now (x : Source) : (s.setSource x).now = s.now := rfl
@[simp] theorem State.setSource_freeRead (x : Source) : (s.setSource x).freeRead = s.freeRead := rfl
@[simp] theorem State.setSource_ports (x : Source) : (s.setSource x).ports = s.ports := rfl
@[simp] theorem State.setSource_time (x : Source) : (s.setSource x).time = s.time := rfl
@[simp] theorem State.setSource_refillTicks (x : Source) : (s.setSource x).refillTicks = s.refillTicks := rfl
@[simp] theorem State.setSource_bookingTicks (x : Source) : (s.setSource x).bookingTicks = s.bookingTicks := rfl
@[simp] theorem State.setSource_defaults (x : Source) : (s.setSource x).defaults = s.defaults := rfl
@[simp] theorem State.setSource_bookings (x : Source) : (s.setSource x).bookings = s.bookings := rfl
@[simp] theorem State.setSource_groups (x : Source) : (s.setSource x).groups = s.groups := rfl
@[simp] theorem State.setSource_tariffs (x : Source) : (s.setSource x).tariffs = s.tariffs := rfl
@[simp] theorem State.setSource_bills (x : Source) : (s.setSource x).bills = s.bills := rfl
@[simp] theorem State.setSource_mgmt (x : Source) : (s.setSource x).mgmt = s.mgmt := rfl

/-! ### `State.delSource` -/

@[simp] theorem State.delSource_pending (i : SrcId) : (s.delSource i).pending = s.pending := rfl
@[simp] theorem State.delSource_inReset (i : SrcId) : (s.delSource i).inReset = s.inReset := rfl
@[simp] theorem State.delSource_now (i : SrcId) : (s.delSource i).now = s.now := rfl
@[simp] theorem State.delSource_freeRead (i : SrcId) : (s.delSource i).freeRead = s.freeRead := rfl
@[simp] theorem State.delSource_ports (i : SrcId) : (s.delSource i).ports = s.ports := rfl
@[simp] theorem State.delSource_time (i : SrcId) : (s.delSource i).time = s.time := rfl
@[simp] theorem State.delSource_refillTicks (i : SrcId) : (s.delSource i).refillTicks = s.refillTicks := rfl
@[simp] theorem State.delSource_bookingTicks (i : SrcId) : (s.delSource i).bookingTicks = s.bookingTicks := rfl
@[simp] theorem State.delSource_defaults (i : SrcId) : (s.delSource i).defaults = s.defaults := rfl
@[simp] theorem State.delSource_bookings (i : SrcId) : (s.delSource i).bookings = s.bookings := rfl
@[simp] theorem State.delSource_groups (i : SrcId) : (s.delSource i).groups = s.groups := rfl
@[simp] theorem State.delSource_tariffs (i : SrcId) : (s.delSource i).tariffs = s.tariffs := rfl
@[simp] theorem State.delSource_bills (i : SrcId) : (s.delSource i).bills = s.bills := rfl
@[simp] theorem State.delSource_mgmt (i : SrcId) : (s.delSource i).mgmt = s.mgmt := rfl

/-! ### `State.setBooking` -/

@[simp] theorem State.setBooking_pending (k : Nat) (b : Booking) : (s.setBooking k b).pending = s.pending := rfl
@[simp] theorem State.setBooking_inReset (k : Nat) (b : Booking) : (s.setBooking k b).inReset = s.inReset := rfl
@[simp] theorem State.setBooking_now (k : Nat) (b : Booking) : (s.setBooking k b).now = s.now := rfl
@[simp] theorem State.setBooking_freeRead (k : Nat) (b : Booking) : (s.setBooking k b).freeRead = s.freeRead := rfl
@[simp] theorem State.setBooking_ports (k : Nat) (b : Booking) : (s.setBooking k b).ports = s.ports := rfl
@[simp] theorem State.setBooking_time (k : Nat) (b : Booking) : (s.setBooking k b).time = s.time := rfl
@[simp] theorem State.setBooking_refillTicks (k : Nat) (b : Booking) : (s.setBooking k b).refillTicks = s.refillTicks := rfl
@[simp] theorem State.setBooking_bookingTicks (k : Nat) (b : Booking) : (s.setBooking k b).bookingTicks = s.bookingTicks := rfl
@[simp] theorem State.setBooking_sources (k : Nat) (b : Booking) : (s.setBooking k b).sources = s.sources := rfl
@[simp] theorem State.setBooking_defaults (k : Nat) (b : Booking) : (s.setBooking k b).defaults = s.defaults := rfl
@[simp] theorem State.setBooking_groups (k : Nat) (b : Booking) : (s.setBooking k b).groups = s.groups := rfl
@[simp] theorem State.setBooking_tariffs (k : Nat) (b : Booking) : (s.setBooking k b).tariffs = s.tariffs := rfl
@[simp] theorem State.setBooking_bills (k : Nat) (b : Booking) : (s.setBooking k b).bills = s.bills := rfl
@[simp] theorem State.setBooking_mgmt (k : Nat) (b : Booking) : (s.setBooking k b).mgmt = s.mgmt := rfl

/-! ### `State.freeSlot` -/

@[simp] theorem State.freeSlot_pending (k : Nat) : (s.freeSlot k).pending = s.pending := rfl
@[simp] theorem State.freeSlot_inReset (k : Nat) : (s.freeSlot k).inReset = s.inReset := rfl
@[simp] theorem State.freeSlot_now (k : Nat) : (s.freeSlot k).now = s.now := rfl
@[simp] theorem State.freeSlot_freeRead (k : Nat) : (s.freeSlot k).freeRead = s.freeRead := rfl
@[simp] theorem State.freeSlot_ports (k : Nat) : (s.freeSlot k).ports = s.ports := rfl
@[simp] theorem State.freeSlot_time (k : Nat) : (s.freeSlot k).time = s.time := rfl
@[simp] theorem State.freeSlot_refillTicks (k : Nat) : (s.freeSlot k).refillTicks = s.refillTicks := rfl
@[simp] theorem State.freeSlot_bookingTicks (k : Nat) : (s.freeSlot k).bookingTicks = s.bookingTicks := rfl
@[simp] theorem State.freeSlot_sources (k : Nat) : (s.freeSlot k).sources = s.sources := rfl
@[simp] theorem State.freeSlot_defaults (k : Nat) : (s.freeSlot k).defaults = s.defaults := rfl
@[simp] theorem State.freeSlot_groups (k : Nat) : (s.freeSlot k).groups = s.groups := rfl
@[simp] theorem State.freeSlot_tariffs (k : Nat) : (s.freeSlot k).tariffs = s.tariffs := rfl
@[simp] theorem State.freeSlot_bills (k : Nat) : (s.freeSlot k).bills = s.bills := rfl
@[simp] theorem State.freeSlot_mgmt (k : Nat) : (s.freeSlot k).mgmt = s.mgmt := rfl

/-! ### `State.setEngine` -/

@[simp] theorem State.setEngine_pending (e : Engine) : (s.setEngine e).pending = s.pending := rfl
@[simp] theorem State.setEngine_inReset (e : Engine) : (s.setEngine e).inReset = s.inReset := rfl
@[simp] theorem State.setEngine_now (e : Engine) : (s.setEngine e).now = s.now := rfl
@[simp] theorem State.setEngine_freeRead (e : Engine) : (s.setEngine e).freeRead = s.freeRead := rfl
@[simp] theorem State.setEngine_ports (e : Engine) : (s.setEngine e).ports = s.ports := rfl
@[simp] theorem State.setEngine_time (e : Engine) : (s.setEngine e).time = s.time := rfl
@[simp] theorem State.setEngine_refillTicks (e : Engine) : (s.setEngine e).refillTicks = s.refillTicks := rfl
@[simp] theorem State.setEngine_bookingTicks (e : Engine) : (s.setEngine e).bookingTicks = s.bookingTicks := rfl
@[simp] theorem State.setEngine_sources (e : Engine) : (s.setEngine e).sources = s.sources := rfl
@[simp] theorem State.setEngine_defaults (e : Engine) : (s.setEngine e).defaults = s.defaults := rfl
@[simp] theorem State.setEngine_bookings (e : Engine) : (s.setEngine e).bookings = s.bookings := rfl
@[simp] theorem State.setEngine_groups (e : Engine) : (s.setEngine e).groups = s.groups := rfl
@[simp] theorem State.setEngine_tariffs (e : Engine) : (s.setEngine e).tariffs = s.tariffs := rfl
@[simp] theorem State.setEngine_bills (e : Engine) : (s.setEngine e).bills = s.bills := rfl

/-! ### `State.taken` -/

@[simp] theorem State.taken_pending (o : Order) (rest : List Order) : (s.taken o rest).pending = s.pending := rfl
@[simp] theorem State.taken_inReset (o : Order) (rest : List Order) : (s.taken o rest).inReset = s.inReset := rfl
@[simp] theorem State.taken_now (o : Order) (rest : List Order) : (s.taken o rest).now = s.now := rfl
@[simp] theorem State.taken_freeRead (o : Order) (rest : List Order) : (s.taken o rest).freeRead = s.freeRead := rfl
@[simp] theorem State.taken_ports (o : Order) (rest : List Order) : (s.taken o rest).ports = s.ports := rfl
@[simp] theorem State.taken_time (o : Order) (rest : List Order) : (s.taken o rest).time = s.time := rfl
@[simp] theorem State.taken_refillTicks (o : Order) (rest : List Order) : (s.taken o rest).refillTicks = s.refillTicks := rfl
@[simp] theorem State.taken_bookingTicks (o : Order) (rest : List Order) : (s.taken o rest).bookingTicks = s.bookingTicks := rfl
@[simp] theorem State.taken_sources (o : Order) (rest : List Order) : (s.taken o rest).sources = s.sources := rfl
@[simp] theorem State.taken_defaults (o : Order) (rest : List Order) : (s.taken o rest).defaults = s.defaults := rfl
@[simp] theorem State.taken_bookings (o : Order) (rest : List Order) : (s.taken o rest).bookings = s.bookings := rfl
@[simp] theorem State.taken_groups (o : Order) (rest : List Order) : (s.taken o rest).groups = s.groups := rfl
@[simp] theorem State.taken_tariffs (o : Order) (rest : List Order) : (s.taken o rest).tariffs = s.tariffs := rfl
@[simp] theorem State.taken_bills (o : Order) (rest : List Order) : (s.taken o rest).bills = s.bills := rfl

/-! ### `State.handTick` -/

@[simp] theorem State.handTick_pending (t : Tick) : (s.handTick t).pending = s.pending := rfl
@[simp] theorem State.handTick_inReset (t : Tick) : (s.handTick t).inReset = s.inReset := rfl
@[simp] theorem State.handTick_now (t : Tick) : (s.handTick t).now = s.now := rfl
@[simp] theorem State.handTick_freeRead (t : Tick) : (s.handTick t).freeRead = s.freeRead := rfl
@[simp] theorem State.handTick_ports (t : Tick) : (s.handTick t).ports = s.ports := rfl
@[simp] theorem State.handTick_time (t : Tick) : (s.handTick t).time = s.time := rfl
@[simp] theorem State.handTick_defaults (t : Tick) : (s.handTick t).defaults = s.defaults := rfl
@[simp] theorem State.handTick_bookings (t : Tick) : (s.handTick t).bookings = s.bookings := rfl
@[simp] theorem State.handTick_groups (t : Tick) : (s.handTick t).groups = s.groups := rfl
@[simp] theorem State.handTick_tariffs (t : Tick) : (s.handTick t).tariffs = s.tariffs := rfl
@[simp] theorem State.handTick_bills (t : Tick) : (s.handTick t).bills = s.bills := rfl
@[simp] theorem State.handTick_mgmt (t : Tick) : (s.handTick t).mgmt = s.mgmt := rfl

/-! ### What the updates write -/

@[simp] theorem State.setPort_port_self (p : Port) (r : PortRec) : (s.setPort p r).port p = r := by
  simp [State.port, State.setPort]

theorem State.setPort_port_ne {p q : Port} (r : PortRec) (h : q ≠ p) : (s.setPort p r).port q = s.port q := by
  have : p.val ≠ q.val := fun e => h (Fin.ext e.symm)
  simp [State.port, State.setPort, this]

@[simp] theorem State.mapPorts_port (f : PortRec → PortRec) (p : Port) : (s.mapPorts f).port p = f (s.port p) := by
  simp [State.port, State.mapPorts]

@[simp] theorem State.setEngine_engine (e : Engine) : (s.setEngine e).mgmt.engine = e := rfl
@[simp] theorem State.setEngine_orders (e : Engine) : (s.setEngine e).mgmt.orders = s.mgmt.orders := rfl
@[simp] theorem State.setEngine_notices (e : Engine) : (s.setEngine e).mgmt.notices = s.mgmt.notices := rfl
@[simp] theorem State.setEngine_mode (e : Engine) : (s.setEngine e).mgmt.mode = s.mgmt.mode := rfl
@[simp] theorem State.setEngine_restart (e : Engine) : (s.setEngine e).mgmt.restart = s.mgmt.restart := rfl
@[simp] theorem State.setEngine_controller (e : Engine) : (s.setEngine e).mgmt.controller = s.mgmt.controller := rfl
@[simp] theorem State.taken_orders (o : Order) (rest : List Order) : (s.taken o rest).mgmt.orders = rest := rfl
@[simp] theorem State.taken_engine (o : Order) (rest : List Order) : (s.taken o rest).mgmt.engine = s.mgmt.engine := rfl
@[simp] theorem State.taken_mode (o : Order) (rest : List Order) : (s.taken o rest).mgmt.mode = s.mgmt.mode := rfl
@[simp] theorem State.taken_port (o : Order) (rest : List Order) (p : Port) : (s.taken o rest).port p = s.port p := rfl
@[simp] theorem State.setSource_booking (x : Source) (k : Nat) : (s.setSource x).booking k = s.booking k := rfl
@[simp] theorem State.delSource_booking (i : SrcId) (k : Nat) : (s.delSource i).booking k = s.booking k := rfl
@[simp] theorem State.setBooking_source (k : Nat) (b : Booking) (i : SrcId) : (s.setBooking k b).source i = s.source i := rfl
@[simp] theorem State.freeSlot_source (k : Nat) (i : SrcId) : (s.freeSlot k).source i = s.source i := rfl
@[simp] theorem State.setSource_port (x : Source) (p : Port) : (s.setSource x).port p = s.port p := rfl
@[simp] theorem State.setBooking_port (k : Nat) (b : Booking) (p : Port) : (s.setBooking k b).port p = s.port p := rfl
@[simp] theorem State.freeSlot_port (k : Nat) (p : Port) : (s.freeSlot k).port p = s.port p := rfl

/-! ### Notices -/

/-- A notice raised changes the notice queue or the count of discarded ones, and nothing else (R165). -/
theorem State.raise_spec (c : NoticeContent) :
    s.raise c =
      if s.mgmt.notices.length < 32 then { s with mgmt.notices := s.mgmt.notices ++ [⟨s.time.nt, c⟩] }
      else { s with mgmt.discarded := min (s.mgmt.discarded + 1) 65535 } := rfl

@[simp] theorem State.raise_pending (c : NoticeContent) : (s.raise c).pending = s.pending := by
  unfold State.raise; split <;> rfl
@[simp] theorem State.raise_inReset (c : NoticeContent) : (s.raise c).inReset = s.inReset := by
  unfold State.raise; split <;> rfl
@[simp] theorem State.raise_now (c : NoticeContent) : (s.raise c).now = s.now := by
  unfold State.raise; split <;> rfl
@[simp] theorem State.raise_freeRead (c : NoticeContent) : (s.raise c).freeRead = s.freeRead := by
  unfold State.raise; split <;> rfl
@[simp] theorem State.raise_ports (c : NoticeContent) : (s.raise c).ports = s.ports := by
  unfold State.raise; split <;> rfl
@[simp] theorem State.raise_time (c : NoticeContent) : (s.raise c).time = s.time := by
  unfold State.raise; split <;> rfl
@[simp] theorem State.raise_refillTicks (c : NoticeContent) : (s.raise c).refillTicks = s.refillTicks := by
  unfold State.raise; split <;> rfl
@[simp] theorem State.raise_bookingTicks (c : NoticeContent) : (s.raise c).bookingTicks = s.bookingTicks := by
  unfold State.raise; split <;> rfl
@[simp] theorem State.raise_sources (c : NoticeContent) : (s.raise c).sources = s.sources := by
  unfold State.raise; split <;> rfl
@[simp] theorem State.raise_defaults (c : NoticeContent) : (s.raise c).defaults = s.defaults := by
  unfold State.raise; split <;> rfl
@[simp] theorem State.raise_bookings (c : NoticeContent) : (s.raise c).bookings = s.bookings := by
  unfold State.raise; split <;> rfl
@[simp] theorem State.raise_groups (c : NoticeContent) : (s.raise c).groups = s.groups := by
  unfold State.raise; split <;> rfl
@[simp] theorem State.raise_tariffs (c : NoticeContent) : (s.raise c).tariffs = s.tariffs := by
  unfold State.raise; split <;> rfl
@[simp] theorem State.raise_bills (c : NoticeContent) : (s.raise c).bills = s.bills := by
  unfold State.raise; split <;> rfl
@[simp] theorem State.raise_engine (c : NoticeContent) : (s.raise c).mgmt.engine = s.mgmt.engine := by
  unfold State.raise; split <;> rfl
@[simp] theorem State.raise_restart (c : NoticeContent) : (s.raise c).mgmt.restart = s.mgmt.restart := by
  unfold State.raise; split <;> rfl
@[simp] theorem State.raise_orders (c : NoticeContent) : (s.raise c).mgmt.orders = s.mgmt.orders := by
  unfold State.raise; split <;> rfl
@[simp] theorem State.raise_holdThreshold (c : NoticeContent) : (s.raise c).mgmt.holdThreshold = s.mgmt.holdThreshold := by
  unfold State.raise; split <;> rfl
@[simp] theorem State.raise_mode (c : NoticeContent) : (s.raise c).mgmt.mode = s.mgmt.mode := by
  unfold State.raise; split <;> rfl
@[simp] theorem State.raise_controller (c : NoticeContent) : (s.raise c).mgmt.controller = s.mgmt.controller := by
  unfold State.raise; split <;> rfl
@[simp] theorem State.raise_routes (c : NoticeContent) : (s.raise c).mgmt.routes = s.mgmt.routes := by
  unfold State.raise; split <;> rfl
@[simp] theorem State.raise_address (c : NoticeContent) : (s.raise c).mgmt.address = s.mgmt.address := by
  unfold State.raise; split <;> rfl
@[simp] theorem State.raise_strapFault (c : NoticeContent) : (s.raise c).mgmt.strapFault = s.mgmt.strapFault := by
  unfold State.raise; split <;> rfl
@[simp] theorem State.raise_port (c : NoticeContent) (p : Port) : (s.raise c).port p = s.port p := by
  simp [State.port]
@[simp] theorem State.raise_source (c : NoticeContent) (i : SrcId) : (s.raise c).source i = s.source i := by
  simp [State.source]
@[simp] theorem State.raise_booking (c : NoticeContent) (k : Nat) : (s.raise c).booking k = s.booking k := by
  simp [State.booking]

/-- The notice queue keeps its bound (R165). -/
theorem State.raise_notices_length (c : NoticeContent) (h : s.mgmt.notices.length ≤ 32) :
    (s.raise c).mgmt.notices.length ≤ 32 := by
  rw [State.raise_spec]
  split <;> simp <;> omega

/-! ### Start groups -/

/-- A start group is written and nothing else (R74). -/
theorem State.setGroup_spec (g : Nat) (x : Group) :
    s.setGroup g x = if g = 0 then s else { s with groups := s.groups.setIfInBounds (g - 1) x } := rfl

@[simp] theorem State.setGroup_pending (g : Nat) (x : Group) : (s.setGroup g x).pending = s.pending := by
  unfold State.setGroup; split <;> rfl
@[simp] theorem State.setGroup_inReset (g : Nat) (x : Group) : (s.setGroup g x).inReset = s.inReset := by
  unfold State.setGroup; split <;> rfl
@[simp] theorem State.setGroup_now (g : Nat) (x : Group) : (s.setGroup g x).now = s.now := by
  unfold State.setGroup; split <;> rfl
@[simp] theorem State.setGroup_freeRead (g : Nat) (x : Group) : (s.setGroup g x).freeRead = s.freeRead := by
  unfold State.setGroup; split <;> rfl
@[simp] theorem State.setGroup_ports (g : Nat) (x : Group) : (s.setGroup g x).ports = s.ports := by
  unfold State.setGroup; split <;> rfl
@[simp] theorem State.setGroup_time (g : Nat) (x : Group) : (s.setGroup g x).time = s.time := by
  unfold State.setGroup; split <;> rfl
@[simp] theorem State.setGroup_refillTicks (g : Nat) (x : Group) : (s.setGroup g x).refillTicks = s.refillTicks := by
  unfold State.setGroup; split <;> rfl
@[simp] theorem State.setGroup_bookingTicks (g : Nat) (x : Group) : (s.setGroup g x).bookingTicks = s.bookingTicks := by
  unfold State.setGroup; split <;> rfl
@[simp] theorem State.setGroup_sources (g : Nat) (x : Group) : (s.setGroup g x).sources = s.sources := by
  unfold State.setGroup; split <;> rfl
@[simp] theorem State.setGroup_defaults (g : Nat) (x : Group) : (s.setGroup g x).defaults = s.defaults := by
  unfold State.setGroup; split <;> rfl
@[simp] theorem State.setGroup_bookings (g : Nat) (x : Group) : (s.setGroup g x).bookings = s.bookings := by
  unfold State.setGroup; split <;> rfl
@[simp] theorem State.setGroup_tariffs (g : Nat) (x : Group) : (s.setGroup g x).tariffs = s.tariffs := by
  unfold State.setGroup; split <;> rfl
@[simp] theorem State.setGroup_bills (g : Nat) (x : Group) : (s.setGroup g x).bills = s.bills := by
  unfold State.setGroup; split <;> rfl
@[simp] theorem State.setGroup_mgmt (g : Nat) (x : Group) : (s.setGroup g x).mgmt = s.mgmt := by
  unfold State.setGroup; split <;> rfl

@[simp] theorem State.joinGroup_pending (g : Nat) : (s.joinGroup g).pending = s.pending := by
  unfold State.joinGroup; split <;> simp
@[simp] theorem State.joinGroup_inReset (g : Nat) : (s.joinGroup g).inReset = s.inReset := by
  unfold State.joinGroup; split <;> simp
@[simp] theorem State.joinGroup_now (g : Nat) : (s.joinGroup g).now = s.now := by
  unfold State.joinGroup; split <;> simp
@[simp] theorem State.joinGroup_freeRead (g : Nat) : (s.joinGroup g).freeRead = s.freeRead := by
  unfold State.joinGroup; split <;> simp
@[simp] theorem State.joinGroup_ports (g : Nat) : (s.joinGroup g).ports = s.ports := by
  unfold State.joinGroup; split <;> simp
@[simp] theorem State.joinGroup_time (g : Nat) : (s.joinGroup g).time = s.time := by
  unfold State.joinGroup; split <;> simp
@[simp] theorem State.joinGroup_refillTicks (g : Nat) : (s.joinGroup g).refillTicks = s.refillTicks := by
  unfold State.joinGroup; split <;> simp
@[simp] theorem State.joinGroup_bookingTicks (g : Nat) : (s.joinGroup g).bookingTicks = s.bookingTicks := by
  unfold State.joinGroup; split <;> simp
@[simp] theorem State.joinGroup_sources (g : Nat) : (s.joinGroup g).sources = s.sources := by
  unfold State.joinGroup; split <;> simp
@[simp] theorem State.joinGroup_defaults (g : Nat) : (s.joinGroup g).defaults = s.defaults := by
  unfold State.joinGroup; split <;> simp
@[simp] theorem State.joinGroup_bookings (g : Nat) : (s.joinGroup g).bookings = s.bookings := by
  unfold State.joinGroup; split <;> simp
@[simp] theorem State.joinGroup_tariffs (g : Nat) : (s.joinGroup g).tariffs = s.tariffs := by
  unfold State.joinGroup; split <;> simp
@[simp] theorem State.joinGroup_bills (g : Nat) : (s.joinGroup g).bills = s.bills := by
  unfold State.joinGroup; split <;> simp
@[simp] theorem State.joinGroup_mgmt (g : Nat) : (s.joinGroup g).mgmt = s.mgmt := by
  unfold State.joinGroup; split <;> simp

@[simp] theorem State.leaveGroup_pending (g : Nat) : (s.leaveGroup g).pending = s.pending := by
  unfold State.leaveGroup; split <;> simp
@[simp] theorem State.leaveGroup_inReset (g : Nat) : (s.leaveGroup g).inReset = s.inReset := by
  unfold State.leaveGroup; split <;> simp
@[simp] theorem State.leaveGroup_now (g : Nat) : (s.leaveGroup g).now = s.now := by
  unfold State.leaveGroup; split <;> simp
@[simp] theorem State.leaveGroup_freeRead (g : Nat) : (s.leaveGroup g).freeRead = s.freeRead := by
  unfold State.leaveGroup; split <;> simp
@[simp] theorem State.leaveGroup_ports (g : Nat) : (s.leaveGroup g).ports = s.ports := by
  unfold State.leaveGroup; split <;> simp
@[simp] theorem State.leaveGroup_time (g : Nat) : (s.leaveGroup g).time = s.time := by
  unfold State.leaveGroup; split <;> simp
@[simp] theorem State.leaveGroup_refillTicks (g : Nat) : (s.leaveGroup g).refillTicks = s.refillTicks := by
  unfold State.leaveGroup; split <;> simp
@[simp] theorem State.leaveGroup_bookingTicks (g : Nat) : (s.leaveGroup g).bookingTicks = s.bookingTicks := by
  unfold State.leaveGroup; split <;> simp
@[simp] theorem State.leaveGroup_sources (g : Nat) : (s.leaveGroup g).sources = s.sources := by
  unfold State.leaveGroup; split <;> simp
@[simp] theorem State.leaveGroup_defaults (g : Nat) : (s.leaveGroup g).defaults = s.defaults := by
  unfold State.leaveGroup; split <;> simp
@[simp] theorem State.leaveGroup_bookings (g : Nat) : (s.leaveGroup g).bookings = s.bookings := by
  unfold State.leaveGroup; split <;> simp
@[simp] theorem State.leaveGroup_tariffs (g : Nat) : (s.leaveGroup g).tariffs = s.tariffs := by
  unfold State.leaveGroup; split <;> simp
@[simp] theorem State.leaveGroup_bills (g : Nat) : (s.leaveGroup g).bills = s.bills := by
  unfold State.leaveGroup; split <;> simp
@[simp] theorem State.leaveGroup_mgmt (g : Nat) : (s.leaveGroup g).mgmt = s.mgmt := by
  unfold State.leaveGroup; split <;> simp

/-! ### `Booking.stopCountdowns` -/

@[simp] theorem Booking.stopCountdowns_ref (b : Booking) : b.stopCountdowns.ref = b.ref := rfl
@[simp] theorem Booking.stopCountdowns_fields (b : Booking) : b.stopCountdowns.fields = b.fields := rfl
@[simp] theorem Booking.stopCountdowns_state (b : Booking) : b.stopCountdowns.state = b.state := rfl
@[simp] theorem Booking.stopCountdowns_position (b : Booking) : b.stopCountdowns.position = b.position := rfl
@[simp] theorem Booking.stopCountdowns_request (b : Booking) : b.stopCountdowns.request = b.request := rfl
@[simp] theorem Booking.stopCountdowns_holdOffLeft (b : Booking) : b.stopCountdowns.holdOffLeft = none := rfl
@[simp] theorem Booking.stopCountdowns_wtrLeft (b : Booking) : b.stopCountdowns.wtrLeft = none := rfl
@[simp] theorem Booking.stopCountdowns_afresh (b : Booking) : b.stopCountdowns.afresh = false := rfl
@[simp] theorem Booking.stopCountdowns_meter (b : Booking) : b.stopCountdowns.meter = b.meter := rfl
@[simp] theorem Booking.stopCountdowns_pending (b : Booking) : b.stopCountdowns.pending = b.pending := rfl
@[simp] theorem Booking.stopCountdowns_endPending (b : Booking) : b.stopCountdowns.endPending = b.endPending := rfl
@[simp] theorem Booking.stopCountdowns_delivered (b : Booking) : b.stopCountdowns.delivered = b.delivered := rfl
@[simp] theorem Booking.stopCountdowns_dropped (b : Booking) : b.stopCountdowns.dropped = b.dropped := rfl

/-! ### `Booking.clear` -/

@[simp] theorem Booking.clear_ref (b : Booking) : b.clear.ref = b.ref := rfl
@[simp] theorem Booking.clear_fields (b : Booking) : b.clear.fields = b.fields := rfl
@[simp] theorem Booking.clear_state (b : Booking) : b.clear.state = b.state := rfl
@[simp] theorem Booking.clear_position (b : Booking) : b.clear.position = b.position := rfl
@[simp] theorem Booking.clear_request (b : Booking) : b.clear.request = b.request := rfl
@[simp] theorem Booking.clear_holdOffLeft (b : Booking) : b.clear.holdOffLeft = none := rfl
@[simp] theorem Booking.clear_wtrLeft (b : Booking) : b.clear.wtrLeft = none := rfl
@[simp] theorem Booking.clear_afresh (b : Booking) : b.clear.afresh = false := rfl
@[simp] theorem Booking.clear_meter (b : Booking) : b.clear.meter = b.meter := rfl
@[simp] theorem Booking.clear_pending (b : Booking) : b.clear.pending = none := rfl
@[simp] theorem Booking.clear_endPending (b : Booking) : b.clear.endPending = false := rfl
@[simp] theorem Booking.clear_delivered (b : Booking) : b.clear.delivered = b.delivered := rfl
@[simp] theorem Booking.clear_dropped (b : Booking) : b.clear.dropped = b.dropped := rfl

/-! ### `Booking.placeRequest` -/

@[simp] theorem Booking.placeRequest_ref (b : Booking) (req : Request) : (b.placeRequest req).ref = b.ref := rfl
@[simp] theorem Booking.placeRequest_fields (b : Booking) (req : Request) : (b.placeRequest req).fields = b.fields := rfl
@[simp] theorem Booking.placeRequest_state (b : Booking) (req : Request) : (b.placeRequest req).state = b.state := rfl
@[simp] theorem Booking.placeRequest_position (b : Booking) (req : Request) : (b.placeRequest req).position = b.position := rfl
@[simp] theorem Booking.placeRequest_request (b : Booking) (req : Request) : (b.placeRequest req).request = req := rfl
@[simp] theorem Booking.placeRequest_holdOffLeft (b : Booking) (req : Request) : (b.placeRequest req).holdOffLeft = b.holdOffLeft := rfl
@[simp] theorem Booking.placeRequest_wtrLeft (b : Booking) (req : Request) : (b.placeRequest req).wtrLeft = b.wtrLeft := rfl
@[simp] theorem Booking.placeRequest_afresh (b : Booking) (req : Request) : (b.placeRequest req).afresh = (b.afresh || (req == .noRequest && b.request != .noRequest)) := rfl
@[simp] theorem Booking.placeRequest_meter (b : Booking) (req : Request) : (b.placeRequest req).meter = b.meter := rfl
@[simp] theorem Booking.placeRequest_pending (b : Booking) (req : Request) : (b.placeRequest req).pending = b.pending := rfl
@[simp] theorem Booking.placeRequest_endPending (b : Booking) (req : Request) : (b.placeRequest req).endPending = b.endPending := rfl
@[simp] theorem Booking.placeRequest_delivered (b : Booking) (req : Request) : (b.placeRequest req).delivered = b.delivered := rfl
@[simp] theorem Booking.placeRequest_dropped (b : Booking) (req : Request) : (b.placeRequest req).dropped = b.dropped := rfl

end Sys2Proof.Machine
end

