-- ==== Sys2Proof/Laws/Tables.lean ====
section
/-! SUPPORT. The laws of the two sparse tables: reading after writing, the canonical form, and what the operations on sources and
bookings do to them. -/

namespace Sys2Proof.Machine

variable {α : Type}

/-! ## Reading after writing -/

@[simp] theorem tabFind_put_self (t : List (Nat × α)) (k : Nat) (x : α) : tabFind (tabPut t k x) k = some x := by
  induction t with
  | nil => simp [tabPut, tabFind]
  | cons e r ih =>
    obtain ⟨j, y⟩ := e
    simp only [tabPut]
    split
    · simp [tabFind]
    · split
      · simp [tabFind]
      · simp [tabFind, ih, show j ≠ k by omega]

theorem tabFind_put_ne (t : List (Nat × α)) {k i : Nat} (x : α) (h : i ≠ k) :
    tabFind (tabPut t k x) i = tabFind t i := by
  induction t with
  | nil => simp [tabPut, tabFind, h.symm]
  | cons e r ih =>
    obtain ⟨j, y⟩ := e
    simp only [tabPut]
    split
    · simp [tabFind, h.symm]
    · split
      · next hk => subst hk; simp [tabFind, h.symm]
      · simp [tabFind, ih]

@[simp] theorem tabFind_del_self (t : List (Nat × α)) (k : Nat) : tabFind (tabDel t k) k = none := by
  induction t with
  | nil => rfl
  | cons e r ih =>
    obtain ⟨j, y⟩ := e
    by_cases hj : j = k
    · simpa [tabDel, hj] using ih
    · simpa [tabDel, tabFind, hj] using ih

theorem tabFind_del_ne (t : List (Nat × α)) {k i : Nat} (h : i ≠ k) : tabFind (tabDel t k) i = tabFind t i := by
  induction t with
  | nil => rfl
  | cons e r ih =>
    obtain ⟨j, y⟩ := e
    by_cases hj : j = k
    · subst hj
      simpa [tabDel, tabFind, h.symm] using ih
    · simp only [tabDel] at ih
      simp [tabDel, tabFind, hj, ih]

theorem tabFind_mem {t : List (Nat × α)} {k : Nat} {x : α} (h : tabFind t k = some x) : (k, x) ∈ t := by
  induction t with
  | nil => simp [tabFind] at h
  | cons e r ih =>
    obtain ⟨j, y⟩ := e
    simp only [tabFind] at h
    split at h
    · next hj => cases h; simp [hj]
    · simp [ih h]

/-- Mapping the records maps what is read. -/
theorem tabFind_map (f : α → α) (t : List (Nat × α)) (k : Nat) :
    tabFind (t.map fun e => (e.1, f e.2)) k = (tabFind t k).map f := by
  induction t with
  | nil => rfl
  | cons e r ih =>
    obtain ⟨j, y⟩ := e
    simp only [List.map_cons, tabFind]
    split <;> simp_all

/-! ## The canonical form -/

theorem Rising.tail {e : Nat × α} {t : List (Nat × α)} (h : Rising (e :: t)) : Rising t :=
  (List.pairwise_cons.mp h).2

theorem Rising.head_lt {e : Nat × α} {t : List (Nat × α)} (h : Rising (e :: t)) : ∀ d ∈ t, e.1 < d.1 := by
  intro d hd
  exact (List.pairwise_cons.mp h).1 d.1 (List.mem_map_of_mem hd)

/-- In a rising table the record under a key is the one listed. -/
theorem Rising.find_of_mem {t : List (Nat × α)} {k : Nat} {x : α} (h : Rising t) (hm : (k, x) ∈ t) :
    tabFind t k = some x := by
  induction t with
  | nil => simp at hm
  | cons e r ih =>
    obtain ⟨j, y⟩ := e
    rcases List.mem_cons.mp hm with hm | hm
    · cases hm; simp [tabFind]
    · have := h.head_lt _ hm
      simp only at this
      simp [tabFind, ih h.tail hm, show j ≠ k by omega]

theorem tabPut_keys (t : List (Nat × α)) (k : Nat) (x : α) :
    ∀ i ∈ (tabPut t k x).map Prod.fst, i = k ∨ i ∈ t.map Prod.fst := by
  induction t with
  | nil => simp [tabPut]
  | cons e r ih =>
    obtain ⟨j, y⟩ := e
    intro i hi
    simp only [tabPut] at hi
    split at hi
    · simpa using hi
    · split at hi
      · next hk => subst hk; simp at hi ⊢; tauto
      · simp only [List.map_cons, List.mem_cons] at hi ⊢
        rcases hi with hi | hi
        · exact .inr (.inl hi)
        · rcases ih i hi with h | h <;> simp [h]

theorem Rising.put {t : List (Nat × α)} (h : Rising t) (k : Nat) (x : α) : Rising (tabPut t k x) := by
  induction t with
  | nil => simp [tabPut, Rising]
  | cons e r ih =>
    obtain ⟨j, y⟩ := e
    have hlt := h.head_lt
    simp only [tabPut]
    split
    · next hk =>
      refine List.pairwise_cons.mpr ⟨?_, h⟩
      intro i hi
      simp only [List.map_cons, List.mem_cons, List.mem_map] at hi
      rcases hi with rfl | ⟨d, hd, rfl⟩
      · exact hk
      · exact lt_trans hk (hlt d hd)
    · split
      · next hk => subst hk; exact h
      · refine List.pairwise_cons.mpr ⟨?_, ih h.tail⟩
        intro i hi
        rcases tabPut_keys r k x i hi with rfl | hi
        · omega
        · obtain ⟨d, hd, rfl⟩ := List.mem_map.mp hi
          exact hlt d hd

theorem Rising.del {t : List (Nat × α)} (h : Rising t) (k : Nat) : Rising (tabDel t k) := by
  unfold Rising tabDel
  exact List.Pairwise.sublist (List.Sublist.map _ List.filter_sublist) h

theorem Rising.map {t : List (Nat × α)} (h : Rising t) (f : α → α) : Rising (t.map fun e => (e.1, f e.2)) := by
  simpa [Rising, Function.comp_def] using h

theorem mem_tabPut {t : List (Nat × α)} {k : Nat} {x : α} {e : Nat × α} (h : e ∈ tabPut t k x) : e = (k, x) ∨ e ∈ t := by
  induction t with
  | nil => simpa [tabPut] using h
  | cons d r ih =>
    obtain ⟨j, y⟩ := d
    simp only [tabPut] at h
    split at h
    · simpa using h
    · split at h
      · rcases List.mem_cons.mp h with h | h
        · exact .inl h
        · exact .inr (List.mem_cons_of_mem _ h)
      · rcases List.mem_cons.mp h with h | h
        · exact .inr (h ▸ List.mem_cons_self)
        · rcases ih h with h | h
          · exact .inl h
          · exact .inr (List.mem_cons_of_mem _ h)

/-! ## Sources and bookings -/

theorem srcKey_inj {i j : SrcId} (h : srcKey i = srcKey j) : i = j := by
  obtain ⟨p, l⟩ := i
  obtain ⟨q, m⟩ := j
  have hl := l.isLt
  have hm := m.isLt
  simp only [srcKey] at h
  have hp : p.val = q.val := by omega
  have hlm : l.toNat = m.toNat := by omega
  rw [Fin.ext hp, BitVec.eq_of_toNat_eq hlm]

@[simp] theorem State.setSource_source_self (s : State) (x : Source) : (s.setSource x).source x.id = some x := by
  simp [State.source, State.setSource]

theorem State.setSource_source_ne (s : State) (x : Source) {i : SrcId} (h : i ≠ x.id) :
    (s.setSource x).source i = s.source i :=
  tabFind_put_ne _ _ fun e => h (srcKey_inj e)

@[simp] theorem State.delSource_source_self (s : State) (i : SrcId) : (s.delSource i).source i = none := by
  simp [State.source, State.delSource]

theorem State.delSource_source_ne (s : State) {i j : SrcId} (h : j ≠ i) : (s.delSource i).source j = s.source j :=
  tabFind_del_ne _ fun e => h (srcKey_inj e)

@[simp] theorem State.setBooking_booking_self (s : State) (k : Nat) (b : Booking) : (s.setBooking k b).booking k = some b := by
  simp [State.booking, State.setBooking]

theorem State.setBooking_booking_ne (s : State) {k j : Nat} (b : Booking) (h : j ≠ k) :
    (s.setBooking k b).booking j = s.booking j :=
  tabFind_put_ne _ _ h

@[simp] theorem State.freeSlot_booking_self (s : State) (k : Nat) : (s.freeSlot k).booking k = none := by
  simp [State.booking, State.freeSlot]

theorem State.freeSlot_booking_ne (s : State) {k j : Nat} (h : j ≠ k) : (s.freeSlot k).booking j = s.booking j :=
  tabFind_del_ne _ h

/-- A source that is read stands under its own key. -/
theorem TablesInForm.source_id {s : State} (h : TablesInForm s) {i : SrcId} {x : Source} (hx : s.source i = some x) :
    x.id = i :=
  (srcKey_inj (h.keys _ (tabFind_mem hx))).symm

theorem TablesInForm.of_tables {s t : State} (h : TablesInForm s) (hb : t.bookings = s.bookings)
    (hs : t.sources = s.sources) : TablesInForm t :=
  ⟨hb ▸ h.bookings, hs ▸ h.sources, hs ▸ h.keys⟩

theorem TablesInForm.setBooking {s : State} (h : TablesInForm s) (k : Nat) (b : Booking) : TablesInForm (s.setBooking k b) :=
  ⟨h.bookings.put k b, h.sources, h.keys⟩

theorem TablesInForm.freeSlot {s : State} (h : TablesInForm s) (k : Nat) : TablesInForm (s.freeSlot k) :=
  ⟨h.bookings.del k, h.sources, h.keys⟩

theorem TablesInForm.setSource {s : State} (h : TablesInForm s) (x : Source) : TablesInForm (s.setSource x) := by
  refine ⟨h.bookings, h.sources.put _ x, fun e he => ?_⟩
  rcases mem_tabPut he with rfl | he
  · rfl
  · exact h.keys e he

theorem TablesInForm.delSource {s : State} (h : TablesInForm s) (i : SrcId) : TablesInForm (s.delSource i) :=
  ⟨h.bookings, h.sources.del _, fun e he => h.keys e (List.mem_filter.mp he).1⟩

theorem TablesInForm.gainRef {s : State} (h : TablesInForm s) (n : Nat) (i : SrcId) : TablesInForm (s.gainRef n i) := by
  unfold State.gainRef
  split <;> exact h.setSource _

theorem TablesInForm.loseRef {s : State} (h : TablesInForm s) (i : SrcId) : TablesInForm (s.loseRef i) := by
  unfold State.loseRef
  split
  · split
    · exact h.delSource i
    · exact h.setSource _
  · exact h

theorem TablesInForm.raise {s : State} (h : TablesInForm s) (c : NoticeContent) : TablesInForm (s.raise c) :=
  h.of_tables (s.raise_bookings c) (s.raise_sources c)

end Sys2Proof.Machine
end

