-- ==== Sys2Proof/Laws/Ops.lean ====
section
/-! SUPPORT. One lemma for each shared operation that says what it can do, and the frame of each: orders and answers, references,
requests, bills, endings, cuts and the tick. -/

namespace Sys2Proof.Machine

/-- A property that each step of a fold keeps holds at its end. -/
theorem foldl_keeps {α β : Type} (P : α → Prop) (f : α → β → α) (h : ∀ a b, P a → P (f a b)) :
    ∀ (xs : List β) (a : α), P a → P (xs.foldl f a)
  | [], _, ha => ha
  | x :: xs, a, ha => foldl_keeps P f h xs (f a x) (h a x ha)

/-- A reading that no step of a fold changes is unchanged at its end. -/
theorem foldl_same {α β γ : Type} (g : α → γ) (f : α → β → α) (h : ∀ a b, g (f a b) = g a) (xs : List β) (a : α) :
    g (xs.foldl f a) = g a :=
  foldl_keeps (fun c => g c = g a) f (fun c b hc => (h c b).trans hc) xs a rfl

/-! ## Orders and answers -/

/-- A command other than the two of RESET always answers a next state: the state itself while RESET is asserted. -/
theorem State.awake_next (s : State) (f : State → State) : s.awake f = .next (if s.inReset then s else f s) := rfl

theorem State.awake_of_out {s : State} (h : s.inReset = false) (f : State → State) : s.awake f = .next (f s) := by
  simp [State.awake, h]

/-- Taking an order of a kind: nothing, or the head order of that kind taken, worked and finished (R162). -/
theorem State.takeOrder_cases (s : State) (k : OrderKind) (work : Order → State → Reply) :
    s.takeOrder k work = s ∨ ∃ o rest, s.mgmt.orders = o :: rest ∧ s.canTake = true ∧ codeOf o.cell = k.code
      ∧ s.takeOrder k work
          = ((work o (s.taken o rest)).state.finish o (work o (s.taken o rest)).result (work o (s.taken o rest)).data) := by
  unfold State.takeOrder State.headOrder
  cases ho : s.mgmt.orders with
  | nil => exact .inl rfl
  | cons o rest =>
    by_cases h : s.canTake = true ∧ codeOf o.cell = k.code
    · exact .inr ⟨o, rest, rfl, h.1, h.2, by simp [h]⟩
    · exact .inl (by simp only [h, if_false])

/-- The order that is offered is taken. -/
theorem Offers.headOrder {s : State} {k : OrderKind} {n : Nat} {o : Order} {rest : List Order} (h : Offers s k n o rest) :
    s.headOrder k = some (o, rest) := by
  have hc : s.canTake = true := by simp [State.canTake, h.ready, h.noRestart, Engine.isReady]
  simp [State.headOrder, h.head, hc, h.code]

theorem Offers.takeOrder {s : State} {k : OrderKind} {n : Nat} {o : Order} {rest : List Order} (h : Offers s k n o rest)
    (work : Order → State → Reply) :
    s.takeOrder k work
      = (work o (s.taken o rest)).state.finish o (work o (s.taken o rest)).result (work o (s.taken o rest)).data := by
  simp [State.takeOrder, h.headOrder]

theorem Offers.badLength {s : State} {k : OrderKind} {n m : Nat} {o : Order} {rest : List Order} (h : Offers s k n o rest) :
    o.badLength m = decide (n ≠ m) := by
  by_cases e : n = m <;> simp [Order.badLength, h.length, e]

/-- The whole work of an order that is offered, given what its checks come to. -/
theorem Offers.answers {s : State} {k : OrderKind} {n : Nat} {o : Order} {rest : List Order} {c : Instr}
    {work : Order → State → Reply} {t : State} {r : Result} {d : AnswerData} (h : Offers s k n o rest)
    (hc : exec c s = s.awake fun s => s.takeOrder k work) (hw : work o (s.taken o rest) = ⟨t, r, d⟩) :
    Answers c s o t r d := by
  unfold Answers
  rw [hc, State.awake_of_out h.awake, h.takeOrder, hw]

/-- Checks in order: the first failing one is answered on the state unchanged, else the order acts (R162). -/
theorem State.checked_cases (s : State) (steps : List (Bool × Refused)) (act : Reply) :
    (∃ r, firstFail steps = some r ∧ s.checked steps act = ⟨s, r.result, r.data⟩)
      ∨ firstFail steps = none ∧ s.checked steps act = act := by
  unfold State.checked
  cases firstFail steps with
  | none => exact .inr ⟨rfl, rfl⟩
  | some r => exact .inl ⟨r, rfl, rfl⟩

/-- An answer is dropped, appended, or left waiting, and nothing else changes (R10, R13, R162). -/
theorem State.finish_cases (s : State) (o : Order) (r : Result) (d : AnswerData) :
    s.finish o r d = s.setEngine .ready
      ∨ s.finish o r d = (s.appendOwn o.arrival fun q => .answer q (s.answerTo o r d)).setEngine .ready
      ∨ s.finish o r d = s.setEngine (.answerWait o.arrival (s.answerTo o r d)) := by
  unfold State.finish
  split
  · exact .inl rfl
  · split
    · exact .inl rfl
    · split
      · exact .inr (.inl rfl)
      · exact .inr (.inr rfl)

variable (s : State)

@[simp] theorem State.appendOwn_pending (p : Port) (c : Seq → MgmtCell) : (s.appendOwn p c).pending = s.pending := rfl
@[simp] theorem State.appendOwn_inReset (p : Port) (c : Seq → MgmtCell) : (s.appendOwn p c).inReset = s.inReset := rfl
@[simp] theorem State.appendOwn_now (p : Port) (c : Seq → MgmtCell) : (s.appendOwn p c).now = s.now := rfl
@[simp] theorem State.appendOwn_freeRead (p : Port) (c : Seq → MgmtCell) : (s.appendOwn p c).freeRead = s.freeRead := rfl
@[simp] theorem State.appendOwn_time (p : Port) (c : Seq → MgmtCell) : (s.appendOwn p c).time = s.time := rfl
@[simp] theorem State.appendOwn_refillTicks (p : Port) (c : Seq → MgmtCell) : (s.appendOwn p c).refillTicks = s.refillTicks := rfl
@[simp] theorem State.appendOwn_bookingTicks (p : Port) (c : Seq → MgmtCell) : (s.appendOwn p c).bookingTicks = s.bookingTicks := rfl
@[simp] theorem State.appendOwn_sources (p : Port) (c : Seq → MgmtCell) : (s.appendOwn p c).sources = s.sources := rfl
@[simp] theorem State.appendOwn_defaults (p : Port) (c : Seq → MgmtCell) : (s.appendOwn p c).defaults = s.defaults := rfl
@[simp] theorem State.appendOwn_bookings (p : Port) (c : Seq → MgmtCell) : (s.appendOwn p c).bookings = s.bookings := rfl
@[simp] theorem State.appendOwn_groups (p : Port) (c : Seq → MgmtCell) : (s.appendOwn p c).groups = s.groups := rfl
@[simp] theorem State.appendOwn_tariffs (p : Port) (c : Seq → MgmtCell) : (s.appendOwn p c).tariffs = s.tariffs := rfl
@[simp] theorem State.appendOwn_bills (p : Port) (c : Seq → MgmtCell) : (s.appendOwn p c).bills = s.bills := rfl
@[simp] theorem State.appendOwn_mgmt (p : Port) (c : Seq → MgmtCell) : (s.appendOwn p c).mgmt = s.mgmt := rfl

@[simp] theorem State.finish_pending (o : Order) (r : Result) (d : AnswerData) : (s.finish o r d).pending = s.pending := by
  rcases s.finish_cases o r d with h | h | h <;> rw [h] <;> rfl
@[simp] theorem State.finish_inReset (o : Order) (r : Result) (d : AnswerData) : (s.finish o r d).inReset = s.inReset := by
  rcases s.finish_cases o r d with h | h | h <;> rw [h] <;> rfl
@[simp] theorem State.finish_now (o : Order) (r : Result) (d : AnswerData) : (s.finish o r d).now = s.now := by
  rcases s.finish_cases o r d with h | h | h <;> rw [h] <;> rfl
@[simp] theorem State.finish_freeRead (o : Order) (r : Result) (d : AnswerData) : (s.finish o r d).freeRead = s.freeRead := by
  rcases s.finish_cases o r d with h | h | h <;> rw [h] <;> rfl
@[simp] theorem State.finish_time (o : Order) (r : Result) (d : AnswerData) : (s.finish o r d).time = s.time := by
  rcases s.finish_cases o r d with h | h | h <;> rw [h] <;> rfl
@[simp] theorem State.finish_refillTicks (o : Order) (r : Result) (d : AnswerData) : (s.finish o r d).refillTicks = s.refillTicks := by
  rcases s.finish_cases o r d with h | h | h <;> rw [h] <;> rfl
@[simp] theorem State.finish_bookingTicks (o : Order) (r : Result) (d : AnswerData) : (s.finish o r d).bookingTicks = s.bookingTicks := by
  rcases s.finish_cases o r d with h | h | h <;> rw [h] <;> rfl
@[simp] theorem State.finish_sources (o : Order) (r : Result) (d : AnswerData) : (s.finish o r d).sources = s.sources := by
  rcases s.finish_cases o r d with h | h | h <;> rw [h] <;> rfl
@[simp] theorem State.finish_defaults (o : Order) (r : Result) (d : AnswerData) : (s.finish o r d).defaults = s.defaults := by
  rcases s.finish_cases o r d with h | h | h <;> rw [h] <;> rfl
@[simp] theorem State.finish_bookings (o : Order) (r : Result) (d : AnswerData) : (s.finish o r d).bookings = s.bookings := by
  rcases s.finish_cases o r d with h | h | h <;> rw [h] <;> rfl
@[simp] theorem State.finish_groups (o : Order) (r : Result) (d : AnswerData) : (s.finish o r d).groups = s.groups := by
  rcases s.finish_cases o r d with h | h | h <;> rw [h] <;> rfl
@[simp] theorem State.finish_tariffs (o : Order) (r : Result) (d : AnswerData) : (s.finish o r d).tariffs = s.tariffs := by
  rcases s.finish_cases o r d with h | h | h <;> rw [h] <;> rfl
@[simp] theorem State.finish_bills (o : Order) (r : Result) (d : AnswerData) : (s.finish o r d).bills = s.bills := by
  rcases s.finish_cases o r d with h | h | h <;> rw [h] <;> rfl
@[simp] theorem State.finish_orders (o : Order) (r : Result) (d : AnswerData) : (s.finish o r d).mgmt.orders = s.mgmt.orders := by
  rcases s.finish_cases o r d with h | h | h <;> rw [h] <;> rfl
@[simp] theorem State.finish_notices (o : Order) (r : Result) (d : AnswerData) : (s.finish o r d).mgmt.notices = s.mgmt.notices := by
  rcases s.finish_cases o r d with h | h | h <;> rw [h] <;> rfl
@[simp] theorem State.finish_mode (o : Order) (r : Result) (d : AnswerData) : (s.finish o r d).mgmt.mode = s.mgmt.mode := by
  rcases s.finish_cases o r d with h | h | h <;> rw [h] <;> rfl
@[simp] theorem State.finish_restart (o : Order) (r : Result) (d : AnswerData) : (s.finish o r d).mgmt.restart = s.mgmt.restart := by
  rcases s.finish_cases o r d with h | h | h <;> rw [h] <;> rfl
@[simp] theorem State.finish_controller (o : Order) (r : Result) (d : AnswerData) : (s.finish o r d).mgmt.controller = s.mgmt.controller := by
  rcases s.finish_cases o r d with h | h | h <;> rw [h] <;> rfl
@[simp] theorem State.finish_holdThreshold (o : Order) (r : Result) (d : AnswerData) : (s.finish o r d).mgmt.holdThreshold = s.mgmt.holdThreshold := by
  rcases s.finish_cases o r d with h | h | h <;> rw [h] <;> rfl
@[simp] theorem State.finish_routes (o : Order) (r : Result) (d : AnswerData) : (s.finish o r d).mgmt.routes = s.mgmt.routes := by
  rcases s.finish_cases o r d with h | h | h <;> rw [h] <;> rfl
@[simp] theorem State.finish_discarded (o : Order) (r : Result) (d : AnswerData) : (s.finish o r d).mgmt.discarded = s.mgmt.discarded := by
  rcases s.finish_cases o r d with h | h | h <;> rw [h] <;> rfl

/-- After an order's work the engine is READY or waits with the answer (R162). -/
theorem State.finish_engine (o : Order) (r : Result) (d : AnswerData) :
    (s.finish o r d).mgmt.engine = .ready ∨ (s.finish o r d).mgmt.engine = .answerWait o.arrival (s.answerTo o r d) := by
  rcases s.finish_cases o r d with h | h | h <;> rw [h]
  · exact .inl rfl
  · exact .inl rfl
  · exact .inr rfl

/-! ## References (R34 to R36) -/

@[simp] theorem State.gainRef_pending (n : Nat) (i : SrcId) : (s.gainRef n i).pending = s.pending := by
  unfold State.gainRef; split <;> rfl
@[simp] theorem State.gainRef_inReset (n : Nat) (i : SrcId) : (s.gainRef n i).inReset = s.inReset := by
  unfold State.gainRef; split <;> rfl
@[simp] theorem State.gainRef_now (n : Nat) (i : SrcId) : (s.gainRef n i).now = s.now := by
  unfold State.gainRef; split <;> rfl
@[simp] theorem State.gainRef_freeRead (n : Nat) (i : SrcId) : (s.gainRef n i).freeRead = s.freeRead := by
  unfold State.gainRef; split <;> rfl
@[simp] theorem State.gainRef_ports (n : Nat) (i : SrcId) : (s.gainRef n i).ports = s.ports := by
  unfold State.gainRef; split <;> rfl
@[simp] theorem State.gainRef_time (n : Nat) (i : SrcId) : (s.gainRef n i).time = s.time := by
  unfold State.gainRef; split <;> rfl
@[simp] theorem State.gainRef_refillTicks (n : Nat) (i : SrcId) : (s.gainRef n i).refillTicks = s.refillTicks := by
  unfold State.gainRef; split <;> rfl
@[simp] theorem State.gainRef_bookingTicks (n : Nat) (i : SrcId) : (s.gainRef n i).bookingTicks = s.bookingTicks := by
  unfold State.gainRef; split <;> rfl
@[simp] theorem State.gainRef_defaults (n : Nat) (i : SrcId) : (s.gainRef n i).defaults = s.defaults := by
  unfold State.gainRef; split <;> rfl
@[simp] theorem State.gainRef_bookings (n : Nat) (i : SrcId) : (s.gainRef n i).bookings = s.bookings := by
  unfold State.gainRef; split <;> rfl
@[simp] theorem State.gainRef_groups (n : Nat) (i : SrcId) : (s.gainRef n i).groups = s.groups := by
  unfold State.gainRef; split <;> rfl
@[simp] theorem State.gainRef_tariffs (n : Nat) (i : SrcId) : (s.gainRef n i).tariffs = s.tariffs := by
  unfold State.gainRef; split <;> rfl
@[simp] theorem State.gainRef_bills (n : Nat) (i : SrcId) : (s.gainRef n i).bills = s.bills := by
  unfold State.gainRef; split <;> rfl
@[simp] theorem State.gainRef_mgmt (n : Nat) (i : SrcId) : (s.gainRef n i).mgmt = s.mgmt := by
  unfold State.gainRef; split <;> rfl

@[simp] theorem State.loseRef_pending (i : SrcId) : (s.loseRef i).pending = s.pending := by
  unfold State.loseRef; split
  · split <;> rfl
  · rfl
@[simp] theorem State.loseRef_inReset (i : SrcId) : (s.loseRef i).inReset = s.inReset := by
  unfold State.loseRef; split
  · split <;> rfl
  · rfl
@[simp] theorem State.loseRef_now (i : SrcId) : (s.loseRef i).now = s.now := by
  unfold State.loseRef; split
  · split <;> rfl
  · rfl
@[simp] theorem State.loseRef_freeRead (i : SrcId) : (s.loseRef i).freeRead = s.freeRead := by
  unfold State.loseRef; split
  · split <;> rfl
  · rfl
@[simp] theorem State.loseRef_ports (i : SrcId) : (s.loseRef i).ports = s.ports := by
  unfold State.loseRef; split
  · split <;> rfl
  · rfl
@[simp] theorem State.loseRef_time (i : SrcId) : (s.loseRef i).time = s.time := by
  unfold State.loseRef; split
  · split <;> rfl
  · rfl
@[simp] theorem State.loseRef_refillTicks (i : SrcId) : (s.loseRef i).refillTicks = s.refillTicks := by
  unfold State.loseRef; split
  · split <;> rfl
  · rfl
@[simp] theorem State.loseRef_bookingTicks (i : SrcId) : (s.loseRef i).bookingTicks = s.bookingTicks := by
  unfold State.loseRef; split
  · split <;> rfl
  · rfl
@[simp] theorem State.loseRef_defaults (i : SrcId) : (s.loseRef i).defaults = s.defaults := by
  unfold State.loseRef; split
  · split <;> rfl
  · rfl
@[simp] theorem State.loseRef_bookings (i : SrcId) : (s.loseRef i).bookings = s.bookings := by
  unfold State.loseRef; split
  · split <;> rfl
  · rfl
@[simp] theorem State.loseRef_groups (i : SrcId) : (s.loseRef i).groups = s.groups := by
  unfold State.loseRef; split
  · split <;> rfl
  · rfl
@[simp] theorem State.loseRef_tariffs (i : SrcId) : (s.loseRef i).tariffs = s.tariffs := by
  unfold State.loseRef; split
  · split <;> rfl
  · rfl
@[simp] theorem State.loseRef_bills (i : SrcId) : (s.loseRef i).bills = s.bills := by
  unfold State.loseRef; split
  · split <;> rfl
  · rfl
@[simp] theorem State.loseRef_mgmt (i : SrcId) : (s.loseRef i).mgmt = s.mgmt := by
  unfold State.loseRef; split
  · split <;> rfl
  · rfl

/-- Moving references changes nothing but the source table (R35). -/
theorem State.moveRefs_same {γ : Type} (g : State → γ) (hg : ∀ t n i, g (State.gainRef t n i) = g t)
    (hl : ∀ t i, g (State.loseRef t i) = g t) (n : Nat) (before after : List SrcId) :
    g (s.moveRefs n before after) = g s := by
  unfold State.moveRefs
  rw [foldl_same g _ hl, foldl_same g _ fun t i => hg t n i]

theorem State.moveRefs_keeps (P : State → Prop) (hg : ∀ t n i, P t → P (State.gainRef t n i))
    (hl : ∀ t i, P t → P (State.loseRef t i)) (n : Nat) (before after : List SrcId) (h : P s) :
    P (s.moveRefs n before after) := by
  unfold State.moveRefs
  exact foldl_keeps P _ hl _ _ (foldl_keeps P _ (fun t i => hg t n i) _ _ h)

/-! ## Requests on leg lists (R47 to R49) -/

/-- An install request appends its legs in order when it is TAKEN, and otherwise changes nothing (R47). -/
theorem State.install_cases (slot : Nat) (i : SrcId) (ps : List Pair) :
    s.install slot i ps = s ∨ ∃ x, s.source i = some x ∧ s.installCheck i ps = .taken
      ∧ x.legs.length + ps.length ≤ 16
      ∧ s.install slot i ps = s.setSource { x with legs := x.legs ++ ps.map (newLeg slot) } := by
  unfold State.install
  split
  · next h hx =>
    refine .inr ⟨_, hx, h, ?_, rfl⟩
    simp only [State.installCheck, hx] at h
    split at h
    · cases h
    · split at h
      · cases h
      · split at h
        · cases h
        · simp only [Config.legPlaces] at *; omega
  · exact .inl rfl

/-- A remove request takes legs off one list, the others in their order (R48). -/
theorem State.removeLegs_cases (slot : Nat) (i : SrcId) (named : Pair → Bool) :
    (s.source i = none ∧ s.removeLegs slot i named = (s, 0, 0)) ∨ ∃ x, s.source i = some x
      ∧ s.removeLegs slot i named
          = (s.setSource { x with legs := x.legs.filter fun l => !(l.owner == slot && named l.pair) },
              sumLegs Leg.sent (x.legs.filter fun l => l.owner == slot && named l.pair),
              sumLegs Leg.dropped (x.legs.filter fun l => l.owner == slot && named l.pair)) := by
  unfold State.removeLegs
  split
  · next h => exact .inl ⟨h, rfl⟩
  · next x h => exact .inr ⟨x, h, rfl⟩

/-- A move request is answered NO_ROOM with nothing changed, or moves the booking's legs (R49). -/
theorem State.moveLegs_cases (slot : Nat) (src dst : SrcId) :
    s.moveLegs slot src dst = (.noRoom, s) ∨ ∃ x y, s.source src = some x ∧ s.source dst = some y
      ∧ y.legs.length + (x.legs.filter fun l => l.owner == slot).length ≤ 16
      ∧ s.moveLegs slot src dst = (.taken, (s.setSource { x with legs := x.legs.filter fun l => l.owner != slot }).setSource
          { y with legs := y.legs ++ x.legs.filter fun l => l.owner == slot }) := by
  unfold State.moveLegs
  split
  · next x y hx hy =>
    by_cases h : 16 < y.legs.length + (x.legs.filter fun l => l.owner == slot).length
    · exact .inl (if_pos h)
    · exact .inr ⟨x, y, hx, hy, by omega, if_neg h⟩
  · exact .inl rfl

@[simp] theorem State.install_pending (slot : Nat) (i : SrcId) (ps : List Pair) : (s.install slot i ps).pending = s.pending := by
  unfold State.install; split <;> rfl
@[simp] theorem State.install_inReset (slot : Nat) (i : SrcId) (ps : List Pair) : (s.install slot i ps).inReset = s.inReset := by
  unfold State.install; split <;> rfl
@[simp] theorem State.install_now (slot : Nat) (i : SrcId) (ps : List Pair) : (s.install slot i ps).now = s.now := by
  unfold State.install; split <;> rfl
@[simp] theorem State.install_freeRead (slot : Nat) (i : SrcId) (ps : List Pair) : (s.install slot i ps).freeRead = s.freeRead := by
  unfold State.install; split <;> rfl
@[simp] theorem State.install_ports (slot : Nat) (i : SrcId) (ps : List Pair) : (s.install slot i ps).ports = s.ports := by
  unfold State.install; split <;> rfl
@[simp] theorem State.install_time (slot : Nat) (i : SrcId) (ps : List Pair) : (s.install slot i ps).time = s.time := by
  unfold State.install; split <;> rfl
@[simp] theorem State.install_refillTicks (slot : Nat) (i : SrcId) (ps : List Pair) : (s.install slot i ps).refillTicks = s.refillTicks := by
  unfold State.install; split <;> rfl
@[simp] theorem State.install_bookingTicks (slot : Nat) (i : SrcId) (ps : List Pair) : (s.install slot i ps).bookingTicks = s.bookingTicks := by
  unfold State.install; split <;> rfl
@[simp] theorem State.install_defaults (slot : Nat) (i : SrcId) (ps : List Pair) : (s.install slot i ps).defaults = s.defaults := by
  unfold State.install; split <;> rfl
@[simp] theorem State.install_bookings (slot : Nat) (i : SrcId) (ps : List Pair) : (s.install slot i ps).bookings = s.bookings := by
  unfold State.install; split <;> rfl
@[simp] theorem State.install_groups (slot : Nat) (i : SrcId) (ps : List Pair) : (s.install slot i ps).groups = s.groups := by
  unfold State.install; split <;> rfl
@[simp] theorem State.install_tariffs (slot : Nat) (i : SrcId) (ps : List Pair) : (s.install slot i ps).tariffs = s.tariffs := by
  unfold State.install; split <;> rfl
@[simp] theorem State.install_bills (slot : Nat) (i : SrcId) (ps : List Pair) : (s.install slot i ps).bills = s.bills := by
  unfold State.install; split <;> rfl
@[simp] theorem State.install_mgmt (slot : Nat) (i : SrcId) (ps : List Pair) : (s.install slot i ps).mgmt = s.mgmt := by
  unfold State.install; split <;> rfl

/-- What a remove request leaves of the state is read through the source table alone. -/
theorem State.removeLegs_same {γ : Type} (g : State → γ) (hg : ∀ t x, g (State.setSource t x) = g t) (slot : Nat) (i : SrcId)
    (named : Pair → Bool) : g (s.removeLegs slot i named).1 = g s := by
  rcases s.removeLegs_cases slot i named with ⟨-, h⟩ | ⟨x, -, h⟩ <;> rw [h]
  exact hg _ _

theorem State.moveLegs_same {γ : Type} (g : State → γ) (hg : ∀ t x, g (State.setSource t x) = g t) (slot : Nat)
    (src dst : SrcId) : g (s.moveLegs slot src dst).2 = g s := by
  rcases s.moveLegs_cases slot src dst with h | ⟨x, y, -, -, -, h⟩ <;> rw [h]
  simp only [hg]

/-! ## Bills (R148, R150, R154) -/

/-- A bill handed over is written as the newest record with the next number, its slot FREE, or waits in ENDED (R148, R149). -/
theorem State.handBill_cases (k : Nat) (b : Booking) (bill : Bill) :
    (s.bills.records.length < 64 ∧ s.handBill k b bill = s.writeBill k bill)
      ∨ 64 ≤ s.bills.records.length ∧ s.handBill k b bill = s.setBooking k { b with state := .ended bill } := by
  unfold State.handBill State.billRoom
  by_cases h : s.bills.records.length < 64
  · exact .inl ⟨h, by simp [h]⟩
  · exact .inr ⟨by omega, by simp [h]⟩

@[simp] theorem State.noteLevel_pending (q : Word) : (s.noteLevel q).pending = s.pending := by
  unfold State.noteLevel; dsimp only; split
  · simp
  · split <;> simp
@[simp] theorem State.noteLevel_inReset (q : Word) : (s.noteLevel q).inReset = s.inReset := by
  unfold State.noteLevel; dsimp only; split
  · simp
  · split <;> simp
@[simp] theorem State.noteLevel_now (q : Word) : (s.noteLevel q).now = s.now := by
  unfold State.noteLevel; dsimp only; split
  · simp
  · split <;> simp
@[simp] theorem State.noteLevel_freeRead (q : Word) : (s.noteLevel q).freeRead = s.freeRead := by
  unfold State.noteLevel; dsimp only; split
  · simp
  · split <;> simp
@[simp] theorem State.noteLevel_ports (q : Word) : (s.noteLevel q).ports = s.ports := by
  unfold State.noteLevel; dsimp only; split
  · simp
  · split <;> simp
@[simp] theorem State.noteLevel_time (q : Word) : (s.noteLevel q).time = s.time := by
  unfold State.noteLevel; dsimp only; split
  · simp
  · split <;> simp
@[simp] theorem State.noteLevel_refillTicks (q : Word) : (s.noteLevel q).refillTicks = s.refillTicks := by
  unfold State.noteLevel; dsimp only; split
  · simp
  · split <;> simp
@[simp] theorem State.noteLevel_bookingTicks (q : Word) : (s.noteLevel q).bookingTicks = s.bookingTicks := by
  unfold State.noteLevel; dsimp only; split
  · simp
  · split <;> simp
@[simp] theorem State.noteLevel_sources (q : Word) : (s.noteLevel q).sources = s.sources := by
  unfold State.noteLevel; dsimp only; split
  · simp
  · split <;> simp
@[simp] theorem State.noteLevel_defaults (q : Word) : (s.noteLevel q).defaults = s.defaults := by
  unfold State.noteLevel; dsimp only; split
  · simp
  · split <;> simp
@[simp] theorem State.noteLevel_bookings (q : Word) : (s.noteLevel q).bookings = s.bookings := by
  unfold State.noteLevel; dsimp only; split
  · simp
  · split <;> simp
@[simp] theorem State.noteLevel_groups (q : Word) : (s.noteLevel q).groups = s.groups := by
  unfold State.noteLevel; dsimp only; split
  · simp
  · split <;> simp
@[simp] theorem State.noteLevel_tariffs (q : Word) : (s.noteLevel q).tariffs = s.tariffs := by
  unfold State.noteLevel; dsimp only; split
  · simp
  · split <;> simp
@[simp] theorem State.noteLevel_bills (q : Word) : (s.noteLevel q).bills = s.bills := by
  unfold State.noteLevel; dsimp only; split
  · simp
  · split <;> simp

@[simp] theorem State.writeBill_bills (k : Nat) (bill : Bill) :
    (s.writeBill k bill).bills = ⟨s.bills.records ++ [⟨s.bills.next, bill⟩], nextSeq s.bills.next⟩ := by
  simp [State.writeBill, State.freeSlot]

@[simp] theorem State.writeBill_bookings (k : Nat) (bill : Bill) : (s.writeBill k bill).bookings = tabDel s.bookings k := by
  simp [State.writeBill, State.freeSlot]

@[simp] theorem State.writeBill_pending (k : Nat) (bill : Bill) : (s.writeBill k bill).pending = s.pending := by
  simp [State.writeBill, State.freeSlot]
@[simp] theorem State.writeBill_inReset (k : Nat) (bill : Bill) : (s.writeBill k bill).inReset = s.inReset := by
  simp [State.writeBill, State.freeSlot]
@[simp] theorem State.writeBill_now (k : Nat) (bill : Bill) : (s.writeBill k bill).now = s.now := by
  simp [State.writeBill, State.freeSlot]
@[simp] theorem State.writeBill_freeRead (k : Nat) (bill : Bill) : (s.writeBill k bill).freeRead = s.freeRead := by
  simp [State.writeBill, State.freeSlot]
@[simp] theorem State.writeBill_ports (k : Nat) (bill : Bill) : (s.writeBill k bill).ports = s.ports := by
  simp [State.writeBill, State.freeSlot]
@[simp] theorem State.writeBill_time (k : Nat) (bill : Bill) : (s.writeBill k bill).time = s.time := by
  simp [State.writeBill, State.freeSlot]
@[simp] theorem State.writeBill_refillTicks (k : Nat) (bill : Bill) : (s.writeBill k bill).refillTicks = s.refillTicks := by
  simp [State.writeBill, State.freeSlot]
@[simp] theorem State.writeBill_bookingTicks (k : Nat) (bill : Bill) : (s.writeBill k bill).bookingTicks = s.bookingTicks := by
  simp [State.writeBill, State.freeSlot]
@[simp] theorem State.writeBill_sources (k : Nat) (bill : Bill) : (s.writeBill k bill).sources = s.sources := by
  simp [State.writeBill, State.freeSlot]
@[simp] theorem State.writeBill_defaults (k : Nat) (bill : Bill) : (s.writeBill k bill).defaults = s.defaults := by
  simp [State.writeBill, State.freeSlot]
@[simp] theorem State.writeBill_groups (k : Nat) (bill : Bill) : (s.writeBill k bill).groups = s.groups := by
  simp [State.writeBill, State.freeSlot]
@[simp] theorem State.writeBill_tariffs (k : Nat) (bill : Bill) : (s.writeBill k bill).tariffs = s.tariffs := by
  simp [State.writeBill, State.freeSlot]

@[simp] theorem State.handBill_pending (k : Nat) (b : Booking) (bill : Bill) : (s.handBill k b bill).pending = s.pending := by
  rcases s.handBill_cases k b bill with ⟨-, h⟩ | ⟨-, h⟩ <;> rw [h] <;> simp
@[simp] theorem State.handBill_inReset (k : Nat) (b : Booking) (bill : Bill) : (s.handBill k b bill).inReset = s.inReset := by
  rcases s.handBill_cases k b bill with ⟨-, h⟩ | ⟨-, h⟩ <;> rw [h] <;> simp
@[simp] theorem State.handBill_now (k : Nat) (b : Booking) (bill : Bill) : (s.handBill k b bill).now = s.now := by
  rcases s.handBill_cases k b bill with ⟨-, h⟩ | ⟨-, h⟩ <;> rw [h] <;> simp
@[simp] theorem State.handBill_freeRead (k : Nat) (b : Booking) (bill : Bill) : (s.handBill k b bill).freeRead = s.freeRead := by
  rcases s.handBill_cases k b bill with ⟨-, h⟩ | ⟨-, h⟩ <;> rw [h] <;> simp
@[simp] theorem State.handBill_ports (k : Nat) (b : Booking) (bill : Bill) : (s.handBill k b bill).ports = s.ports := by
  rcases s.handBill_cases k b bill with ⟨-, h⟩ | ⟨-, h⟩ <;> rw [h] <;> simp
@[simp] theorem State.handBill_time (k : Nat) (b : Booking) (bill : Bill) : (s.handBill k b bill).time = s.time := by
  rcases s.handBill_cases k b bill with ⟨-, h⟩ | ⟨-, h⟩ <;> rw [h] <;> simp
@[simp] theorem State.handBill_refillTicks (k : Nat) (b : Booking) (bill : Bill) : (s.handBill k b bill).refillTicks = s.refillTicks := by
  rcases s.handBill_cases k b bill with ⟨-, h⟩ | ⟨-, h⟩ <;> rw [h] <;> simp
@[simp] theorem State.handBill_bookingTicks (k : Nat) (b : Booking) (bill : Bill) : (s.handBill k b bill).bookingTicks = s.bookingTicks := by
  rcases s.handBill_cases k b bill with ⟨-, h⟩ | ⟨-, h⟩ <;> rw [h] <;> simp
@[simp] theorem State.handBill_sources (k : Nat) (b : Booking) (bill : Bill) : (s.handBill k b bill).sources = s.sources := by
  rcases s.handBill_cases k b bill with ⟨-, h⟩ | ⟨-, h⟩ <;> rw [h] <;> simp
@[simp] theorem State.handBill_defaults (k : Nat) (b : Booking) (bill : Bill) : (s.handBill k b bill).defaults = s.defaults := by
  rcases s.handBill_cases k b bill with ⟨-, h⟩ | ⟨-, h⟩ <;> rw [h] <;> simp
@[simp] theorem State.handBill_groups (k : Nat) (b : Booking) (bill : Bill) : (s.handBill k b bill).groups = s.groups := by
  rcases s.handBill_cases k b bill with ⟨-, h⟩ | ⟨-, h⟩ <;> rw [h] <;> simp
@[simp] theorem State.handBill_tariffs (k : Nat) (b : Booking) (bill : Bill) : (s.handBill k b bill).tariffs = s.tariffs := by
  rcases s.handBill_cases k b bill with ⟨-, h⟩ | ⟨-, h⟩ <;> rw [h] <;> simp

@[simp] theorem State.handAndNote_pending (k : Nat) (b : Booking) (bill : Bill) : (s.handAndNote k b bill).pending = s.pending := by
  simp [State.handAndNote]
@[simp] theorem State.handAndNote_inReset (k : Nat) (b : Booking) (bill : Bill) : (s.handAndNote k b bill).inReset = s.inReset := by
  simp [State.handAndNote]
@[simp] theorem State.handAndNote_now (k : Nat) (b : Booking) (bill : Bill) : (s.handAndNote k b bill).now = s.now := by
  simp [State.handAndNote]
@[simp] theorem State.handAndNote_freeRead (k : Nat) (b : Booking) (bill : Bill) : (s.handAndNote k b bill).freeRead = s.freeRead := by
  simp [State.handAndNote]
@[simp] theorem State.handAndNote_ports (k : Nat) (b : Booking) (bill : Bill) : (s.handAndNote k b bill).ports = s.ports := by
  simp [State.handAndNote]
@[simp] theorem State.handAndNote_time (k : Nat) (b : Booking) (bill : Bill) : (s.handAndNote k b bill).time = s.time := by
  simp [State.handAndNote]
@[simp] theorem State.handAndNote_refillTicks (k : Nat) (b : Booking) (bill : Bill) : (s.handAndNote k b bill).refillTicks = s.refillTicks := by
  simp [State.handAndNote]
@[simp] theorem State.handAndNote_bookingTicks (k : Nat) (b : Booking) (bill : Bill) : (s.handAndNote k b bill).bookingTicks = s.bookingTicks := by
  simp [State.handAndNote]
@[simp] theorem State.handAndNote_sources (k : Nat) (b : Booking) (bill : Bill) : (s.handAndNote k b bill).sources = s.sources := by
  simp [State.handAndNote]
@[simp] theorem State.handAndNote_defaults (k : Nat) (b : Booking) (bill : Bill) : (s.handAndNote k b bill).defaults = s.defaults := by
  simp [State.handAndNote]
@[simp] theorem State.handAndNote_groups (k : Nat) (b : Booking) (bill : Bill) : (s.handAndNote k b bill).groups = s.groups := by
  simp [State.handAndNote]
@[simp] theorem State.handAndNote_tariffs (k : Nat) (b : Booking) (bill : Bill) : (s.handAndNote k b bill).tariffs = s.tariffs := by
  simp [State.handAndNote]

/-! ## Endings and cuts (R83, R89) -/

/-- An ending leaves alone what is read through none of sources, groups, bookings, bills and notices. -/
theorem State.endBooking_same {γ : Type} (g : State → γ) (hs : ∀ t x, g (State.setSource t x) = g t)
    (hl : ∀ t i, g (State.loseRef t i) = g t) (hg : ∀ t n, g (State.leaveGroup t n) = g t)
    (hh : ∀ t k b bill, g (State.handAndNote t k b bill) = g t) (k : Nat) (b : Booking) (o : BillOutcome) (nt : Word) :
    g (s.endBooking k b o nt) = g s := by
  have h1 : g (if b.state.isLive then s.takeLegs k b fun _ => true else (s, b)).1 = g s := by
    split
    · exact s.removeLegs_same g hs k b.selected fun _ => true
    · rfl
  unfold State.endBooking
  simp only [hh, foldl_same g _ hl]
  split
  · rw [hg, h1]
  · exact h1

@[simp] theorem State.endBooking_pending (k : Nat) (b : Booking) (o : BillOutcome) (nt : Word) :
    (s.endBooking k b o nt).pending = s.pending :=
  s.endBooking_same State.pending (by simp) (by simp) (by simp) (by simp) k b o nt
@[simp] theorem State.endBooking_inReset (k : Nat) (b : Booking) (o : BillOutcome) (nt : Word) :
    (s.endBooking k b o nt).inReset = s.inReset :=
  s.endBooking_same State.inReset (by simp) (by simp) (by simp) (by simp) k b o nt
@[simp] theorem State.endBooking_now (k : Nat) (b : Booking) (o : BillOutcome) (nt : Word) :
    (s.endBooking k b o nt).now = s.now :=
  s.endBooking_same State.now (by simp) (by simp) (by simp) (by simp) k b o nt
@[simp] theorem State.endBooking_freeRead (k : Nat) (b : Booking) (o : BillOutcome) (nt : Word) :
    (s.endBooking k b o nt).freeRead = s.freeRead :=
  s.endBooking_same State.freeRead (by simp) (by simp) (by simp) (by simp) k b o nt
@[simp] theorem State.endBooking_ports (k : Nat) (b : Booking) (o : BillOutcome) (nt : Word) :
    (s.endBooking k b o nt).ports = s.ports :=
  s.endBooking_same State.ports (by simp) (by simp) (by simp) (by simp) k b o nt
@[simp] theorem State.endBooking_time (k : Nat) (b : Booking) (o : BillOutcome) (nt : Word) :
    (s.endBooking k b o nt).time = s.time :=
  s.endBooking_same State.time (by simp) (by simp) (by simp) (by simp) k b o nt
@[simp] theorem State.endBooking_refillTicks (k : Nat) (b : Booking) (o : BillOutcome) (nt : Word) :
    (s.endBooking k b o nt).refillTicks = s.refillTicks :=
  s.endBooking_same State.refillTicks (by simp) (by simp) (by simp) (by simp) k b o nt
@[simp] theorem State.endBooking_bookingTicks (k : Nat) (b : Booking) (o : BillOutcome) (nt : Word) :
    (s.endBooking k b o nt).bookingTicks = s.bookingTicks :=
  s.endBooking_same State.bookingTicks (by simp) (by simp) (by simp) (by simp) k b o nt
@[simp] theorem State.endBooking_defaults (k : Nat) (b : Booking) (o : BillOutcome) (nt : Word) :
    (s.endBooking k b o nt).defaults = s.defaults :=
  s.endBooking_same State.defaults (by simp) (by simp) (by simp) (by simp) k b o nt
@[simp] theorem State.endBooking_tariffs (k : Nat) (b : Booking) (o : BillOutcome) (nt : Word) :
    (s.endBooking k b o nt).tariffs = s.tariffs :=
  s.endBooking_same State.tariffs (by simp) (by simp) (by simp) (by simp) k b o nt

/-- A property that every ending keeps holds after any number of cuts (R89). -/
theorem cutSlot_keeps (P : State → Prop) (h : ∀ t k b o nt, P t → P (State.endBooking t k b o nt)) (nt : Word) (c : Cuts)
    (k : Nat) (hc : P c.1) : P (cutSlot nt c k).1 := by
  simp only [cutSlot, State.endSlot]
  split
  · exact h _ _ _ _ _ hc
  · exact hc

theorem cutWhile_keeps (P : State → Prop) (h : ∀ t k b o nt, P t → P (State.endBooking t k b o nt)) (nt : Word)
    (tooMuch : State → Bool) (at_ : SrcId → Leg → Bool) :
    ∀ (fuel : Nat) (c : Cuts), P c.1 → P (cutWhile nt tooMuch at_ fuel c).1
  | 0, _, hc => hc
  | fuel + 1, c, hc => by
    unfold cutWhile
    split
    · split
      · exact cutWhile_keeps P h nt tooMuch at_ fuel _ (cutSlot_keeps P h nt c _ hc)
      · exact hc
    · exact hc

theorem clearGround_keeps (P : State → Prop) (h : ∀ t k b o nt, P t → P (State.endBooking t k b o nt)) (nt : Word) (i : SrcId)
    (n : Nat) (ps : List Pair) (hs : P s) : P (s.clearGround nt i n ps).1 := by
  unfold State.clearGround cutPlaces cutCapacity cutPairs
  refine cutWhile_keeps P h _ _ _ _ _ ?_
  refine foldl_keeps (fun c : Cuts => P c.1) _ (fun c q hc => cutWhile_keeps P h _ _ _ _ _ hc) _ _ ?_
  refine foldl_keeps (fun c : Cuts => P c.1) _ (fun c x hc => ?_) _ _ hs
  split
  · exact cutSlot_keeps P h nt c _ hc
  · exact hc

/-! ## The booking tick (R79) -/

/-- The Booking Engine takes its next tick whole, or nothing happens (R79). -/
theorem State.bookingTickIf_cases (want : Tick → State → Bool) :
    s.bookingTickIf want = s ∨ ∃ t rest, s.bookingTicks = t :: rest
      ∧ s.bookingTickIf want = wholeTick t { s with bookingTicks := rest } := by
  unfold State.bookingTickIf
  split
  · exact .inl rfl
  · next t rest h =>
    dsimp only
    split
    · exact .inr ⟨t, rest, h, rfl⟩
    · exact .inl rfl

/-- A switch is made with its move, its count and its notice, or leaves the state after its cuts (R123, R124). -/
theorem State.trySwitch_cases (k : Nat) (b : Booking) (to_ : Position) (cause : SwitchCause) (nt : Word) :
    ∃ c : Cuts,
      (c = (s, 0) ∨ c = cutPlaces nt (b.fields.at to_) (s.ownedOn k b.selected) (s, 0))
      ∧ (s.trySwitch k b to_ cause nt = c.1
        ∨ ∃ v n, c.1.moveLegs k b.selected (b.fields.at to_) = (.taken, v)
          ∧ s.trySwitch k b to_ cause nt =
              (v.setBooking k { b with
                position := to_, holdOffLeft := none, wtrLeft := none
                meter := b.meter.countSwitch cause.isForced }).raise n) := by
  refine ⟨if b.state = .extended then (s, 0) else cutPlaces nt (b.fields.at to_) (s.ownedOn k b.selected) (s, 0), ?_, ?_⟩
  · split
    · exact .inl rfl
    · exact .inr rfl
  · unfold State.trySwitch
    dsimp only
    split
    · next v hv => exact .inr ⟨v, _, hv, rfl⟩
    · exact .inl rfl

/-! ### Notices raised one after another -/

@[simp] theorem State.raiseAll_nil (s : State) : s.raiseAll [] = s := rfl
@[simp] theorem State.raiseAll_cons (s : State) (c : NoticeContent) (cs : List NoticeContent) :
    s.raiseAll (c :: cs) = (s.raise c).raiseAll cs := rfl
@[simp] theorem State.raiseAll_append (s : State) (cs ds : List NoticeContent) :
    s.raiseAll (cs ++ ds) = (s.raiseAll cs).raiseAll ds := List.foldl_append

/-- What no notice changes, no run of notices changes. -/
theorem State.raiseAll_same {γ : Type} (g : State → γ) (hg : ∀ t c, g (State.raise t c) = g t) (s : State)
    (cs : List NoticeContent) : g (s.raiseAll cs) = g s :=
  foldl_same g State.raise hg cs s

end Sys2Proof.Machine
end

