-- ==== Sys2Proof/WellFormed.lean ====
section
/-! DEFINITION. Which commands are well formed. The ports, slots, straps and light are bounded by their types. -/

namespace Sys2Proof

/-- A label of the feed stream, 1 to 254 (R1). -/
def feedLabel (l : Byte) : Bool := l != 0#8 && l != 255#8

/-- A well-formed command: an arriving cell has 256 bytes (R1), and a source is named by a feed label (R33). -/
def Instr.wf : Instr → Bool
  | .cellArrival _ bytes => bytes.length == 256
  | .sourceTick _ l => feedLabel l
  | .silent _ l => feedLabel l
  | .cleared _ l => feedLabel l
  | .windowEnd _ l => feedLabel l
  | _ => true

end Sys2Proof
end

