-- ==== Sys2Proof/Tests/Slice0.lean ====
section
/-! SUPPORT. Tests of the model on small states, each with its source, and, for every statement of the certificate that has
hypotheses, a witness: concrete states and operands that meet them, clause by clause. -/

set_option Elab.async false

namespace Sys2Proof.Tests

open Sys2Proof Sys2Proof.Machine

/-! ## Well-formedness: ill-formed commands are refused -/

theorem test_wf_short_cell : (Instr.cellArrival 0 (List.replicate 255 0)).wf = false := by decide +kernel
theorem test_wf_full_cell : (Instr.cellArrival 0 (List.replicate 256 0)).wf = true := by decide +kernel
theorem test_wf_tick_of_label_0 : (Instr.sourceTick 0 0).wf = false := by decide
theorem test_wf_silent_of_label_255 : (Instr.silent 0 255).wf = false := by decide
theorem test_wf_cleared_of_label_0 : (Instr.cleared 15 0).wf = false := by decide
theorem test_wf_window_of_label_255 : (Instr.windowEnd 15 255).wf = false := by decide
theorem test_wf_feed_labels : (Instr.sourceTick 0 1).wf = true ∧ (Instr.windowEnd 0 254).wf = true := by decide

/-- No row of the opcode table has bits, so no word spells a command. -/
theorem test_no_word_spells_a_command : decodeTableWord 16 0 = none := rfl

/-! ## Fixtures -/

/-- The next state of a command; none if it stopped. -/
def next (c : Instr) (s : State) : Option State :=
  match exec c s with
  | .next t => some t
  | _ => none

/-- A node in SERVICE with every port ENABLED and DELINEATED, its clock on the local reference, at NT 1,000. -/
def up : State :=
  { State.reset with
    ports := Vector.replicate 16 { resetPort true with line := .delineated }
    time := { State.reset.time with nt := 1000, state := .localRef }
    mgmt := { State.reset.mgmt with mode := .service } }

/-- An order cell for a node, with tag 0x1234 and controller id 5, from node 77, with hop limit 15. -/
def orderTo (dest : BitVec 10) (code : BitVec 16) (ps : List Byte) : Cell :=
  ⟨0, 0, padTo 252 (mgmtHeader dest 77 5 0 0x1234 code ps.length ++ ps)⟩

/-- An order of a kind for node 1, arrived on port 2. -/
def order (k : OrderKind) (ps : List Byte) : Order := ⟨2, orderTo 1 k.code ps⟩

/-- A state with that order at the head of its queue. -/
def asks (s : State) (k : OrderKind) (ps : List Byte) : State := { s with mgmt := { s.mgmt with orders := [order k ps] } }

def withPort (s : State) (r : PortRec) : State := { s with ports := Vector.replicate 16 r }

def darkPort : PortRec := { resetPort true with state := .dark .enabled, line := .noLight }

def feed : Cell := ⟨20, 0, []⟩

def mgmtCells (n : Nat) : List MgmtCell := List.replicate n (.forwarded ⟨0, 0, []⟩)

/-- Port 4 label 7; source port 0 label 20, and its spare on port 1. -/
def pair : Pair := ⟨4, 7⟩
def main : SrcId := ⟨0, 20⟩
def spare : SrcId := ⟨1, 20⟩

def fields : Fields :=
  { account := 1, tariffClass := 0, main := main, spare := none, bandwidth := 100, legs := [pair], start := 1100
    effStart := 1100, duration := 100, allowance := 50, extend := false, preroll := 20, group := 0, revertive := true
    switchOnDegrade := true, holdOff := 0, wtr := 2 }

def booking (st : BookingState) (f : Fields := fields) : Booking :=
  { ref := 9, fields := f, state := st, position := .onMain, request := .noRequest, holdOffLeft := none, wtrLeft := none
    afresh := false, meter := .new, pending := none, endPending := false, delivered := 0, dropped := 0 }

def source (i : SrcId) (st : WatchState) (legs : List Leg) : Source :=
  let x := newSource i 100 ⟨5, 100, 10⟩
  { x with watch := { x.watch with state := st }, legs := legs, tokens := 125, resync := false }

def leg (slot : Nat) : Leg := ⟨pair, slot, 3, 3, 0⟩

def sources (xs : List Source) : List (Nat × Source) := xs.map fun x => (srcKey x.id, x)

/-- The node with some bookings and sources. -/
def withTables (bs : List (Nat × Booking)) (xs : List Source) : State :=
  { up with bookings := bs, sources := sources xs }

/-- The same, with a tick for the Booking Engine. -/
def atTick (nt : Word) (bs : List (Nat × Booking)) (xs : List Source) : State :=
  { withTables bs xs with bookingTicks := [⟨nt, false⟩] }

def billOf (seq : Word) : BillRec := ⟨seq, closeUnlive (booking .booked) .cut 900 false 0⟩

/-- A Bill Queue of `n` records, from number 1 on. -/
def billsTo (n : Nat) (s : State) : State :=
  { s with bills := ⟨(List.range n).map fun i => billOf (BitVec.ofNat 32 (i + 1)), BitVec.ofNat 32 (n + 1)⟩ }

theorem offers_of {s : State} {k : OrderKind} {n : Nat} {o : Order} {rest : List Order}
    (h : s.inReset = false ∧ s.mgmt.engine = .ready ∧ s.mgmt.restart = false ∧ s.mgmt.orders = o :: rest
      ∧ codeOf o.cell = k.code ∧ lengthOf o.cell = n) : Offers s k n o rest :=
  ⟨h.1, h.2.1, h.2.2.1, h.2.2.2.1, h.2.2.2.2.1, h.2.2.2.2.2⟩

theorem tables_of {s : State}
    (h : (s.bookings.map Prod.fst).Pairwise (· < ·) ∧ (s.sources.map Prod.fst).Pairwise (· < ·)
      ∧ ∀ e ∈ s.sources, e.1 = srcKey e.2.id) : TablesInForm s :=
  ⟨h.1, h.2.1, h.2.2⟩

theorem asks_offers {s : State} {k : OrderKind} {ps : List Byte} {n : Nat}
    (hs : s.inReset = false ∧ s.mgmt.engine = .ready ∧ s.mgmt.restart = false)
    (ho : codeOf (order k ps).cell = k.code ∧ lengthOf (order k ps).cell = n) :
    Offers (asks s k ps) k n (order k ps) [] :=
  ⟨hs.1, hs.2.1, hs.2.2, rfl, ho.1, ho.2⟩

/-- A state whose engine takes an order. -/
def Awake (s : State) : Prop := s.inReset = false ∧ s.mgmt.engine = .ready ∧ s.mgmt.restart = false

/-- Orders of one kind and length, each at the head of the queue. -/
theorem asks_each {k : OrderKind} {n : Nat} {pss : List (List Byte)}
    (h : ∀ ps ∈ pss, codeOf (order k ps).cell = k.code ∧ lengthOf (order k ps).cell = n) {s : State} (hs : Awake s) :
    ∀ ps ∈ pss, Offers (asks s k ps) k n (order k ps) [] :=
  fun ps hp => asks_offers hs (h ps hp)

def working (j : Job) (s : State) : State := { s with mgmt := { s.mgmt with engine := .working j } }

/-! ## Witnesses: reset, ports and cells -/

def linePort (st : PortState) (line : LineCond) (mgmtQ : List MgmtCell) (feedQ : List Cell) : PortRec :=
  { resetPort true with state := st, line := line, mgmtQ := mgmtQ, feedQ := feedQ }

theorem wit_ResetAssertStopsThePart :
    ({ up with inReset := true } : State).inReset = true ∧ Instr.identify ≠ .hardResetAssert
      ∧ ∀ straps light, Instr.identify ≠ .hardResetRelease straps light :=
  ⟨rfl, by decide, fun _ _ h => nomatch h⟩

/-- ENABLED and DRAINING with light; DISABLED; DARK and SEARCHING. -/
theorem wit_LossOfLightDarkensAPort :
    (TablesInForm up ∧ up.inReset = false ∧ (up.port 0).line ≠ .noLight ∧ (up.port 0).state = .enabled)
    ∧ (∀ r, r = linePort .draining .searching [] [feed] ∨ r = linePort .disabled .delineated [] []
          ∨ r = linePort (.dark .enabled) .searching [] [] →
        TablesInForm (withPort up r) ∧ (withPort up r).inReset = false ∧ ((withPort up r).port 0).line ≠ .noLight)
    ∧ (linePort .draining .searching [] [feed]).state = .draining
    ∧ (linePort .disabled .delineated [] []).state = .disabled
    ∧ (linePort (.dark .enabled) .searching [] []).isDark = true := by
  refine ⟨⟨tables_of ?_, ?_⟩, ?_, ?_⟩
  · decide +kernel
  · decide +kernel
  · rintro r (rfl | rfl | rfl) <;> exact ⟨tables_of (by decide +kernel), by decide +kernel⟩
  · decide +kernel

theorem wit_LossOfDelineationDarkensAPort :
    ∀ r ∈ [linePort .enabled .delineated [] [], linePort .draining .delineated [] [feed],
        linePort .disabled .delineated [] []],
      (withPort up r).inReset = false ∧ ((withPort up r).port 5).line = .delineated := by decide +kernel

theorem wit_LineComesBack :
    (withPort up darkPort).inReset = false ∧ ((withPort up darkPort).port 0).line = .noLight
    ∧ (let s := withPort up (linePort (.dark .disabled) .searching [] []);
        s.inReset = false ∧ (s.port 0).line = .searching ∧ (s.port 0).state = .dark .disabled)
    ∧ (State.reset.inReset = false ∧ (State.reset.port 0).line = .searching
        ∧ (State.reset.port 0).isDark = false) := by decide +kernel

/-- The bytes of a feed cell, and of one whose check fails. -/
def good : List Byte := cellBytes feed
def bad : List Byte := good.set 0 21

theorem wit_ArrivingFeedCellIsSorted :
    (State.reset.inReset = false ∧ (State.reset.port 0).line ≠ .delineated)
    ∧ (let s := withPort up { linePort .enabled .delineated [] [] with failRun := 14 };
        s.inReset = false ∧ (s.port 0).line = .delineated ∧ checkPasses bad = false ∧ (s.port 0).failRun < 15)
    ∧ (checkPasses good = true ∧ (cellOf good).label ≠ 0 ∧ (cellOf good).label ≠ 255)
    ∧ (∀ st ∈ [PortState.draining, .disabled],
        let s := withPort up (linePort st .delineated [] [])
        s.inReset = false ∧ (s.port 0).line = .delineated
          ∧ ((s.port 0).state = .draining ∨ (s.port 0).state = .disabled))
    ∧ (up.inReset = false ∧ (up.port 0).line = .delineated ∧ (up.port 0).state = .enabled
        ∧ up.source ⟨0, (cellOf good).label⟩ = none)
    ∧ (let s := withTables [] [source main .unwatched []];
        s.inReset = false ∧ (s.port 0).state = .enabled
          ∧ s.source ⟨0, (cellOf good).label⟩ = some (source main .unwatched []))
    ∧ (let s := withTables [] [source main .ok []];
        s.inReset = false ∧ (s.port 0).line = .delineated ∧ (s.port 0).state = .enabled
          ∧ s.source ⟨0, (cellOf good).label⟩ = some (source main .ok [])
          ∧ (source main .ok []).watch.state ≠ .unwatched) := by decide +kernel

/-- The 16th failing cell in a row on an ENABLED, a DRAINING and a DISABLED port. -/
theorem wit_ArrivingFeedCellIsSorted_16th :
    ∀ st ∈ [PortState.enabled, .draining, .disabled],
      let s := withPort up { linePort st .delineated [] [] with failRun := 15 }
      s.inReset = false ∧ (s.port 0).line = .delineated ∧ checkPasses bad = false ∧ 15 ≤ (s.port 0).failRun := by
  decide +kernel

theorem wit_LineTakesTheRightCell :
    ((withPort up (linePort .enabled .delineated (mgmtCells 1) [feed])).port 0).mgmtQ = .forwarded ⟨0, 0, []⟩ :: []
    ∧ (let r := linePort .enabled .delineated [] [feed];
        r.mgmtQ = [] ∧ r.feedQ = feed :: [] ∧ r.state = .enabled)
    ∧ (let r := linePort .draining .delineated [] [feed, feed];
        r.mgmtQ = [] ∧ r.feedQ = feed :: [feed] ∧ r.state = .draining ∧ [feed] ≠ [])
    ∧ (let r := linePort .draining .delineated [] [feed];
        r.mgmtQ = [] ∧ r.feedQ = [feed] ∧ r.state = .draining)
    ∧ (let r := linePort .draining .delineated (mgmtCells 1) [];
        r.feedQ = [] ∧ r.state = .draining ∧ (linePort .enabled .delineated [] []).state ≠ .draining)
    ∧ (2 ≤ (linePort .draining .delineated [] [feed, feed]).feedQ.length
        ∧ (linePort .draining .delineated (mgmtCells 1) [feed]).feedQ ≠ []
        ∧ (linePort .draining .delineated (mgmtCells 1) [feed]).mgmtQ ≠ [])
    ∧ (withPort up darkPort).inReset = false := by decide +kernel

def anAnswer : Answer := up.answerTo (order .identify []) .done .empty

/-- A state whose port records are all `r`, with the engine, notices and controller as given. -/
def waiting (r : PortRec) (e : Engine) : State :=
  { withPort up r with
    mgmt := { up.mgmt with engine := e, notices := [⟨1000, .timeState .free .localRef .setOrder 1000 none⟩]
                           controller := some ⟨2, 5, 77⟩ } }

theorem wit_WaitingAnswerAndHeadNoticeAreAppended :
    (let s := waiting (linePort .enabled .delineated (mgmtCells 64) []) (.answerWait 0 anAnswer);
      s.inReset = false ∧ s.mgmt.engine = .answerWait 0 anAnswer ∧ (s.port 0).isDark = false
        ∧ (s.port 0).mgmtQ = .forwarded ⟨0, 0, []⟩ :: mgmtCells 63 ∧ (mgmtCells 63).length = 63)
    ∧ (let s := waiting (linePort .enabled .delineated (mgmtCells 63) []) .ready;
        s.inReset = false ∧ s.mgmt.controller = some ⟨2, 5, 77⟩
          ∧ s.mgmt.notices = ⟨1000, .timeState .free .localRef .setOrder 1000 none⟩ :: []
          ∧ s.mgmt.engine.isWaiting = false ∧ (s.port 2).isDark = false ∧ (s.port 2).mgmtQ.length < 64)
    ∧ (waiting (linePort .enabled .delineated [] []) (.answerWait 0 anAnswer)).mgmt.engine.isWaiting = true
    ∧ ((waiting darkPort .ready).port 2).isDark = true
    ∧ 64 ≤ ((waiting (linePort .enabled .delineated (mgmtCells 64) []) .ready).port 2).mgmtQ.length := by decide +kernel

/-- Room for an answer and for a notice; no room in a full queue; nothing waiting. -/
theorem wit_LineTakesTheRightCell_places :
    (let s := waiting (linePort .enabled .delineated (mgmtCells 64) []) (.answerWait 5 anAnswer);
      s.inReset = false ∧ (s.port 5).mgmtQ = .forwarded ⟨0, 0, []⟩ :: mgmtCells 63 ∧ (s.port 5).isDark = false
        ∧ (mgmtCells 63).length < 64 ∧ s.mgmt.engine = .answerWait 5 anAnswer)
    ∧ (let s := waiting (linePort .draining .delineated (mgmtCells 64) [feed]) .ready;
        s.inReset = false ∧ (s.port 2).mgmtQ = .forwarded ⟨0, 0, []⟩ :: mgmtCells 63 ∧ (s.port 2).isDark = false
          ∧ s.mgmt.engine.isWaiting = false ∧ s.mgmt.controller = some ⟨2, 5, 77⟩
          ∧ s.mgmt.notices = ⟨1000, .timeState .free .localRef .setOrder 1000 none⟩ :: [])
    ∧ (let s := waiting (linePort .enabled .delineated (mgmtCells 65) []) (.answerWait 5 anAnswer);
        (s.port 5).mgmtQ = .forwarded ⟨0, 0, []⟩ :: mgmtCells 64 ∧ ¬ (mgmtCells 64).length < 64)
    ∧ (let s := withPort up (linePort .enabled .delineated (mgmtCells 1) []);
        (s.port 5).mgmtQ = .forwarded ⟨0, 0, []⟩ :: mgmtCells 0 ∧ s.mgmt.engine = .ready ∧ s.mgmt.controller = none) := by
  decide +kernel

theorem wit_AnswerIsOfferedToItsPort :
    destOf (orderTo 0 OrderKind.timeSet.code (nat32 5)) = 0
    ∧ ((withPort up darkPort).port (order .identify []).arrival).isDark = true
    ∧ destOf (order .identify []).cell ≠ 0
    ∧ (let s := withPort up (linePort .enabled .delineated (mgmtCells 63) []);
        (s.port (order .identify []).arrival).isDark = false ∧ (s.port (order .identify []).arrival).mgmtQ.length < 64)
    ∧ (let s := withPort up (linePort .enabled .delineated (mgmtCells 64) []);
        (s.port (order .identify []).arrival).isDark = false
          ∧ 64 ≤ (s.port (order .identify []).arrival).mgmtQ.length) := by decide +kernel

/-- An order with six parameter bytes, which is the length of no kind, of every kind but BOOK and MODIFY. -/
theorem wit_AnswerIsOfferedToItsPort_format (s : State) (hs : Awake s) (k : OrderKind) (hb : k ≠ .book) (hm : k ≠ .modify) :
    Offers (asks s k (List.replicate 6 0)) k 6 (order k (List.replicate 6 0)) [] := by
  refine asks_offers hs ?_
  cases k <;> first
    | exact absurd rfl hb
    | exact absurd rfl hm
    | decide +kernel

/-- A node with `n` notices waiting and `d` discarded. -/
def noted (n d : Nat) : State :=
  { up with
    mgmt :=
      { up.mgmt with notices := List.replicate n ⟨1000, .timeState .free .localRef .setOrder 1000 none⟩, discarded := d } }

/-- Thirty-one notices, the last place; thirty-two, with the count of discarded ones one below its maximum and at it. -/
theorem wit_AnswerIsOfferedToItsPort_notices :
    (noted 31 0).mgmt.notices.length < 32 ∧ 32 ≤ (noted 32 65534).mgmt.notices.length
    ∧ (noted 32 65534).mgmt.discarded < 65535
    ∧ 32 ≤ (noted 32 65535).mgmt.notices.length ∧ ¬ (noted 32 65535).mgmt.discarded < 65535 := by decide +kernel

/-- What the three do: the notice is the 32nd, with the NT of the moment; the count reaches its maximum, and stays there (R165). -/
theorem test_raise_at_its_bounds :
    let c : NoticeContent := .timeState .localRef .free .setOrder 1000 none
    ((noted 31 0).raise c).mgmt.notices.length = 32 ∧ ((noted 31 0).raise c).mgmt.notices.getLast? = some ⟨1000, c⟩
    ∧ ((noted 31 0).raise c).mgmt.discarded = 0
    ∧ ((noted 32 65534).raise c).mgmt.discarded = 65535
    ∧ ((noted 32 65535).raise c).mgmt.discarded = 65535 ∧ ((noted 32 65535).raise c).mgmt.notices.length = 32 := by
  decide +kernel

/-- The six port records of the clauses, under an order for port 0; and an order for port 16. -/
theorem wit_PortOrdersByState :
    (∀ r : PortRec,
      Offers (asks (withPort up r) .portDisable [0]) .portDisable 1 (order .portDisable [0]) []
      ∧ Offers (asks (withPort up r) .portEnable [0]) .portEnable 1 (order .portEnable [0]) [])
    ∧ ((order .portDisable [0]).param 0).toNat = (0 : Port).val ∧ ((order .portEnable [0]).param 0).toNat = (0 : Port).val
    ∧ (let r := linePort .enabled .delineated [] [feed]; r.state = .enabled ∧ r.feedQ ≠ [])
    ∧ (let r := linePort .enabled .delineated [] []; r.state = .enabled ∧ r.feedQ = [])
    ∧ (linePort .draining .delineated [] [feed]).state = .draining
    ∧ (let r := linePort .disabled .delineated [] []; r.state = .disabled ∧ r.line = .delineated)
    ∧ (let r := linePort .disabled .searching [] []; r.state = .disabled ∧ r.line ≠ .delineated)
    ∧ darkPort.state = .dark .enabled
    ∧ Offers (asks up .portDisable [16]) .portDisable 1 (order .portDisable [16]) []
    ∧ Offers (asks up .portEnable [16]) .portEnable 1 (order .portEnable [16]) []
    ∧ 15 < ((order .portDisable [16]).param 0).toNat ∧ 15 < ((order .portEnable [16]).param 0).toNat := by
  refine ⟨fun r => ⟨asks_offers ⟨rfl, rfl, rfl⟩ ?_, asks_offers ⟨rfl, rfl, rfl⟩ ?_⟩, ?_, ?_, ?_, ?_, ?_, ?_, ?_, ?_,
    asks_offers ⟨rfl, rfl, rfl⟩ ?_, asks_offers ⟨rfl, rfl, rfl⟩ ?_, ?_⟩ <;> decide +kernel

/-- What bookings put on a port at an offset, in PortCapacityIsBounded. -/
def loadOn (s : State) (p : Port) (x : Int) : Nat :=
  totalAt s.time.nt (Fields.onPort p) x (s.bookings.filter fun e => e.2.state != .extended)

/-- Every port of capacity `c`, with a LIVE booking of 100 on port 4, installed. -/
def loaded (c : Nat) (more : List (Nat × Booking)) : State :=
  { withTables ((3, booking .live) :: more) [source main .ok [leg 3]] with
    ports := Vector.replicate 16 { linePort .enabled .delineated [] [] with capacity := c } }

/-- A booking of another pair of port 4, from offset 200 to offset 300. -/
def later : Booking :=
  { booking .booked { fields with legs := [⟨4, 8⟩], start := 1200, effStart := 1200, duration := 50 } with ref := 8 }

theorem shareAt_le {nt : Word} {f : Fields → Nat} {x : Int} {b : Booking} {n : Nat}
    (h : ∀ g ∈ b.reserved, g.opens nt b.state.isRunning ≤ x → f g ≤ n) : b.shareAt nt f x ≤ n := by
  unfold Booking.shareAt
  generalize hl : (b.reserved.filter fun g => g.opens nt b.state.isRunning ≤ x && x < g.shuts nt) = l
  have hm : ∀ g ∈ l, f g ≤ n := fun g hg => by
    rw [← hl, List.mem_filter] at hg
    simp only [Bool.and_eq_true, decide_eq_true_eq] at hg
    exact h g hg.1 hg.2.1
  clear hl
  induction l with
  | nil => simp
  | cons g l ih =>
    simp only [List.map_cons, List.foldr_cons]
    exact Nat.max_le.mpr ⟨hm g (by simp), ih fun g hg => hm g (by simp [hg])⟩

/-- FROZEN; port 16; raised by one; the same value, which the load just meets, with 100 installed; one below the installed; and a load of 200 from
offset 200 on over 199. -/
theorem wit_PortCapacityIsBounded :
    (∀ (s : State) (v : Byte), s.inReset = false ∧ s.mgmt.engine = .ready ∧ s.mgmt.restart = false →
      v = 99 ∨ v = 100 ∨ v = 101 ∨ v = 199 →
      Offers (asks s .portCapacity [4, 0, v]) .portCapacity 3 (order .portCapacity [4, 0, v]) []
        ∧ ((order .portCapacity [4, 0, v]).param 0).toNat = (4 : Port).val
        ∧ min (word16 (paramsOf (order .portCapacity [4, 0, v]).cell) 1).toNat 48000 = v.toNat)
    ∧ (∀ s, Awake s → Offers (asks s .portCapacity [16, 0, 1]) .portCapacity 3 (order .portCapacity [16, 0, 1]) [])
    ∧ 15 < ((order .portCapacity [16, 0, 1]).param 0).toNat
    ∧ ({ up.mgmt with mode := .frozen } : OrderEngine).mode = .frozen ∧ up.mgmt.mode ≠ .frozen
    ∧ ((loaded 100 []).port 4).capacity < 101 ∧ 100 ≤ ((loaded 100 []).port 4).capacity
    ∧ 99 < (loaded 100 []).installed 4 ∧ (loaded 100 []).installed 4 ≤ 100
    ∧ (∀ x : Int, 0 ≤ x → loadOn (loaded 100 []) 4 x ≤ 100)
    ∧ (199 ≤ ((loaded 200 [(4, later)]).port 4).capacity ∧ (loaded 200 [(4, later)]).installed 4 ≤ 199)
    ∧ 199 < loadOn (loaded 200 [(4, later)]) 4 200
    ∧ ∀ y : Int, 0 ≤ y → y < 200 → loadOn (loaded 200 [(4, later)]) 4 y ≤ 199 := by
  refine ⟨fun s v hs hv => ⟨asks_offers hs ?_, ?_⟩, fun s hs => asks_offers hs (by decide +kernel), by decide +kernel, by decide,
    by decide, by decide +kernel, by decide +kernel, by decide +kernel,
    by decide +kernel, ?_, by decide +kernel, by decide +kernel, ?_⟩
  · rcases hv with rfl | rfl | rfl | rfl <;> decide +kernel
  · rcases hv with rfl | rfl | rfl | rfl <;> decide +kernel
  · intro x _
    show (booking .live).shareAt 1000 (Fields.onPort 4) x + 0 ≤ 100
    exact shareAt_le fun g hg _ => (by decide +kernel : ∀ g ∈ (booking .live).reserved, g.onPort 4 ≤ 100) g hg
  · intro y _ h
    show (booking .live).shareAt 1000 (Fields.onPort 4) y + (later.shareAt 1000 (Fields.onPort 4) y + 0) ≤ 199
    have h1 : (booking .live).shareAt 1000 (Fields.onPort 4) y ≤ 100 :=
      shareAt_le fun g hg _ => (by decide +kernel : ∀ g ∈ (booking .live).reserved, g.onPort 4 ≤ 100) g hg
    have h2 : later.shareAt 1000 (Fields.onPort 4) y ≤ 0 :=
      shareAt_le fun g hg ho => absurd (Int.lt_of_le_of_lt ho h)
        ((by decide +kernel : ∀ g ∈ later.reserved, ¬ g.opens 1000 later.state.isRunning < 200) g hg)
    omega

theorem wit_StatusOrdersReadTheRecord :
    Offers (asks up .portStatus [15]) .portStatus 1 (order .portStatus [15]) []
    ∧ ((order .portStatus [15]).param 0).toNat = (15 : Port).val
    ∧ Offers (asks up .portStatus [16]) .portStatus 1 (order .portStatus [16]) []
    ∧ 15 < ((order .portStatus [16]).param 0).toNat
    ∧ Offers (asks up .timeStatus []) .timeStatus 0 (order .timeStatus []) [] := by
  refine ⟨asks_offers ⟨rfl, rfl, rfl⟩ ?_, ?_, asks_offers ⟨rfl, rfl, rfl⟩ ?_, ?_, asks_offers ⟨rfl, rfl, rfl⟩ ?_⟩ <;>
    decide +kernel

/-! ## Witnesses: time -/

/-- The node with its Time Unit in a state, on port 3 unless the selection is given. -/
def timed (st : TimeState) (sel : Option Port := some 3) (pol : StepPolicy := .refuse) : State :=
  { up with
    now := 100
    time :=
      { up.time with
        state := st, selection := sel, policy := pol, nextLocal := if st = .locked then none else some 107
        deadline := if st = .locked then some 108 else none } }

/-- The bytes of a time cell. -/
def timeBytes (v : Word) : List Byte := cellBytes ⟨255, 0, bytes32 v⟩

theorem wit_SerialTimeOrders : (5 : Word) - 4 ≠ 0x80000000#32 ∧ 2 ^ 31 - 1 < 2 ^ 31 := by decide

theorem wit_LocalReferenceMakesTicks :
    (timed .localRef).inReset = false ∧ (timed .localRef).time.nextLocal = some 107
    ∧ (timed .locked).inReset = false ∧ (timed .locked).time.state = .locked
    ∧ (timed .locked).time.deadline = some 108 := by decide +kernel

theorem wit_TimeCellMakesTheTick :
    (timed .locked).inReset = false ∧ ((timed .locked).port 3).line = .delineated
    ∧ ((timed .locked).port 3).isDark = false ∧ checkPasses (timeBytes 1001) = true
    ∧ (cellOf (timeBytes 1001)).label = 255 ∧ (timed .locked none).time.selection ≠ some 3
    ∧ (timed .locked).time.selection = some 3
    ∧ timeValue (cellOf (timeBytes 1001)) = (timed .locked).time.nt + 1 ∧ (timed .free).time.selection = some 3
    ∧ (timed .free).time.state = .free := by decide +kernel

theorem wit_StepFollowsThePolicy :
    ∀ pol ∈ [StepPolicy.accept, .refuse], ∀ st ∈ [TimeState.locked, .holdover],
      let s := timed st (some 3) pol
      s.inReset = false ∧ (s.port 3).line = .delineated ∧ (s.port 3).isDark = false
        ∧ checkPasses (timeBytes 1002) = true ∧ (cellOf (timeBytes 1002)).label = 255 ∧ s.time.selection = some 3
        ∧ s.time.state ≠ .free ∧ timeValue (cellOf (timeBytes 1002)) ≠ s.time.nt + 1 ∧ s.time.policy = pol := by
  decide +kernel

/-- In each time state, orders that name the port selected, another port, and LOCAL; and selections 16 and 254. -/
theorem wit_TimeSourceFollowsItsTable :
    (∀ x ∈ [[(16 : Byte)], [254]],
      Offers (asks up .timeSource x) .timeSource 1 (order .timeSource x) [] ∧ 15 < ((order .timeSource x).param 0).toNat
        ∧ (order .timeSource x).param 0 ≠ 255)
    ∧ (∀ st : TimeState,
      Offers (asks (timed st) .timeSource [3]) .timeSource 1 (order .timeSource [3]) []
      ∧ Offers (asks (timed st) .timeSource [15]) .timeSource 1 (order .timeSource [15]) []
      ∧ Offers (asks (timed st) .timeSource [255]) .timeSource 1 (order .timeSource [255]) [])
    ∧ ((order .timeSource [3]).param 0).toNat = (3 : Port).val
    ∧ ((order .timeSource [15]).param 0).toNat = (15 : Port).val ∧ (order .timeSource [255]).param 0 = 255
    ∧ ∀ st ∈ [TimeState.free, .localRef, .locked, .holdover],
        some (3 : Port) = (timed st).time.selection ∧ some (15 : Port) ≠ (timed st).time.selection
          ∧ (none : Option Port) ≠ (timed st).time.selection ∧ (timed st).time.state = st := by
  refine ⟨fun x hx => ⟨asks_each ?_ ⟨rfl, rfl, rfl⟩ x hx, ?_⟩,
    fun st => ⟨asks_offers ⟨rfl, rfl, rfl⟩ ?_, asks_offers ⟨rfl, rfl, rfl⟩ ?_, asks_offers ⟨rfl, rfl, rfl⟩ ?_⟩, ?_⟩
  · decide +kernel
  · revert x hx; decide +kernel
  all_goals decide +kernel

theorem wit_TimeSetAndPolicy :
    (∀ st : TimeState,
      Offers (asks (timed st) .timeSet (nat32 1000)) .timeSet 4 (order .timeSet (nat32 1000)) []
      ∧ Offers (asks (timed st) .timeSet (nat32 5)) .timeSet 4 (order .timeSet (nat32 5)) [])
    ∧ (∀ st ∈ [TimeState.free, .localRef, .locked, .holdover],
        (timed st).time.state = st ∧ (order .timeSet (nat32 1000)).word 0 = (timed st).time.nt
          ∧ (order .timeSet (nat32 5)).word 0 ≠ (timed st).time.nt)
    ∧ (Offers (asks up .timePolicy [0]) .timePolicy 1 (order .timePolicy [0]) [] ∧ (order .timePolicy [0]).param 0 = 0)
    ∧ (Offers (asks up .timePolicy [1]) .timePolicy 1 (order .timePolicy [1]) [] ∧ (order .timePolicy [1]).param 0 = 1)
    ∧ Offers (asks up .timePolicy [2]) .timePolicy 1 (order .timePolicy [2]) []
    ∧ 1 < ((order .timePolicy [2]).param 0).toNat := by
  refine ⟨fun st => ⟨asks_offers ⟨rfl, rfl, rfl⟩ ?_, asks_offers ⟨rfl, rfl, rfl⟩ ?_⟩, ?_,
    ⟨asks_offers ⟨rfl, rfl, rfl⟩ ?_, ?_⟩, ⟨asks_offers ⟨rfl, rfl, rfl⟩ ?_, ?_⟩, asks_offers ⟨rfl, rfl, rfl⟩ ?_, ?_⟩
    <;> decide +kernel

/-! ## Witnesses: sources and the fault watch -/

theorem wit_RefillFillsEveryBucket :
    let s : State := { withTables [] [source main .ok []] with refillTicks := [⟨1001, false⟩] }
    s.inReset = false ∧ s.refillTicks = ⟨1001, false⟩ :: [] := by decide +kernel

/-- In order, 1 and 2,047 ahead, and 2,048 ahead of the expected sequence 0, with resync clear; and resync pending. -/
theorem wit_ContinuityByDistance :
    let x := source main .ok []
    let d (q : Seq) : Nat := (q - x.expected).toNat
    x.resync = false ∧ [d 0, d 1, d 2047, d 2048] = [0, 1, 2047, 2048] ∧ (newSource main 100 ⟨5, 100, 10⟩).resync = true := by
  decide +kernel

/-- The resynchronising cell, the one in order and the one 2,047 ahead, each with a token and with none. -/
theorem wit_PolicingUsesOneToken :
    (∀ q ∈ [(0 : Seq), 2047], (q - (source main .ok []).expected).toNat ≤ 2047)
    ∧ (newSource main 100 ⟨5, 100, 10⟩).resync = true
    ∧ 0 < (source main .ok []).tokens ∧ (newSource main 100 ⟨5, 100, 10⟩).tokens = 0 := by decide +kernel

/-- Two legs on one port whose queue takes one copy more, the second of which is dropped. -/
theorem wit_ReplicationAccountsForEveryCopy :
    let legs := [leg 3, { leg 4 with pair := ⟨4, 8⟩ }]
    let ports := (withPort up (linePort .enabled .delineated [] (List.replicate 2047 feed))).ports
    legs[0]? = some (leg 3) ∧ legs[1]?.isSome
    ∧ ports[(4 : Port)].feedQ.length + legsOn 4 (legs.take 0) < 2048
    ∧ ¬ ports[(4 : Port)].feedQ.length + legsOn 4 (legs.take 1) < 2048
    ∧ (withPort up (linePort .disabled .delineated [] [])).ports[(4 : Port)].state ≠ .enabled := by decide +kernel

/-- Legs of slot 3 on a main with a spare of 15 and of 16 legs. -/
theorem wit_MoveKeepsLegsAndBandwidth :
    ∀ n, n = 15 ∨ n = 16 →
      let x := source main .ok [leg 3]
      let y := source spare .ok (List.replicate n (leg 4))
      let s := withTables [] [x, y]
      TablesInForm s ∧ s.source x.id = some x ∧ s.source y.id = some y ∧ x.id ≠ y.id ∧ x.bandwidth = y.bandwidth
        ∧ y.legs.length + (x.legs.countP fun l => l.owner == 3) = n + 1 := by
  rintro n (rfl | rfl) <;> exact ⟨tables_of (by decide +kernel), by decide +kernel⟩

/-- The main with `n` legs of slot 4 on port 5, on a node whose ports are of capacity `c`. -/
def legged (c n : Nat) : State :=
  { withTables [] [source main .ok (List.replicate n { leg 4 with pair := ⟨5, 7⟩ })] with
    ports := Vector.replicate 16 { linePort .enabled .delineated [] [] with capacity := c } }

def pairsInUse (s : State) (ps : List Pair) : Bool := ps.any fun q => s.sources.any fun e => e.2.legs.any fun l => l.pair == q

/-- Legs of port 4 for the main of bandwidth 100: a pair in use, and the same when the port and the list are full; the port one below what it
then carries, with a full list too; the list one over; and both just enough. -/
theorem wit_MoveKeepsLegsAndBandwidth_install :
    (∀ e ∈ [(9999, 1), (0, 17)], let s := legged e.1 e.2
      (s.source main).isSome ∧ pairsInUse s [pair, ⟨5, 7⟩] = true)
    ∧ (∀ e ∈ [(199, 15), (199, 0)], let s := legged e.1 e.2
      (s.source main).isSome ∧ pairsInUse s [pair, ⟨4, 8⟩] = false
        ∧ (s.port 4).capacity < s.installed 4 + 100 * [pair, ⟨4, 8⟩].countP fun r => r.port == 4)
    ∧ (∀ e ∈ [(15, false), (14, true)], let s := legged 1500 e.1
      (s.source main).isSome ∧ pairsInUse s [pair, ⟨4, 8⟩] = false
        ∧ (∀ q ∈ [pair, (⟨4, 8⟩ : Pair)],
            s.installed q.port + 100 * [pair, (⟨4, 8⟩ : Pair)].countP (fun r => r.port == q.port) ≤ (s.port q.port).capacity)
        ∧ decide (e.1 + 2 ≤ 16) = e.2)
    ∧ (let s := legged 200 2
      s.installed 4 + 100 * [pair, (⟨4, 8⟩ : Pair)].countP (fun r => r.port == 4) = (s.port 4).capacity) := by
  decide +kernel

/-- SOURCE STATUS of a port 16, of labels 0 and 255, and of the source. -/
def statusOrders : List (List Byte) := [[16, 20], [0, 0], [0, 255], [0, 20]]

/-- SOURCE WATCH of a third target, of the defaults, and as for SOURCE STATUS. -/
def watchOrders : List (List Byte) :=
  [[2, 0, 20, 0, 0, 0, 0, 0], [1, 0, 0, 0, 0, 0, 0, 0], [0, 16, 20, 0, 0, 0, 0, 0], [0, 0, 0, 0, 0, 0, 0, 0],
    [0, 0, 255, 0, 0, 0, 0, 0], [0, 0, 20, 0xFF, 0xFF, 0, 1, 100]]

theorem wit_SourceOrdersByTheMap :
    (∀ s, Awake s →
      (∀ ps ∈ statusOrders, Offers (asks s .sourceStatus ps) .sourceStatus 2 (order .sourceStatus ps) [])
      ∧ ∀ ps ∈ watchOrders, Offers (asks s .sourceWatch ps) .sourceWatch 8 (order .sourceWatch ps) [])
    ∧ (statusOrders.map fun ps => ((order .sourceStatus ps).param 0, (order .sourceStatus ps).param 1))
        = [(16, 20), (0, 0), (0, 255), (0, 20)]
    ∧ (watchOrders.map fun ps =>
          ((order .sourceWatch ps).param 0, (order .sourceWatch ps).param 1, (order .sourceWatch ps).param 2))
        = [(2, 0, 20), (1, 0, 0), (0, 16, 20), (0, 0, 0), (0, 0, 255), (0, 0, 20)]
    ∧ main = ⟨0, 20⟩ ∧ up.source main = none
    ∧ (withTables [] [source main .ok []]).source main = some (source main .ok []) := by
  refine ⟨fun s hs => ⟨asks_each ?_ hs, asks_each ?_ hs⟩, ?_⟩ <;> decide +kernel

/-- A source with a tick to take. -/
def ticking (st : WatchState) : Source := { source main st [] with ticks := [⟨1001, false⟩] }

/-- UNWATCHED and not demanded, UNWATCHED and demanded by a LIVE booking, watched and not demanded. -/
theorem wit_SourceTickStartsAndEndsTheWatch :
    (∀ st ∈ [WatchState.unwatched, .ok],
      let s := withTables [] [ticking st]
      s.inReset = false ∧ s.source (ticking st).id = some (ticking st) ∧ (ticking st).ticks = ⟨1001, false⟩ :: []
        ∧ (ticking st).watch.state = st ∧ s.demanded (ticking st).id = false)
    ∧ (let s := withTables [(3, booking .live)] [ticking .unwatched];
        s.inReset = false ∧ s.source (ticking .unwatched).id = some (ticking .unwatched)
          ∧ (ticking .unwatched).watch.state = .unwatched ∧ s.demanded (ticking .unwatched).id = true) := by
  decide +kernel

theorem wit_ClassifiedTickChangesStateOnce : (source main .ok []).watch.state ≠ .unwatched := by decide +kernel

/-- Silent at its F; good at its C; at its window end. Each is demanded by a LIVE booking. -/
theorem wit_ClassifiedTickCommands :
    let x : Source := { ticking .recovering with watch := { (ticking .recovering).watch with silentRun := 4 } }
    let y : Source :=
      { ticking .recovering with arrivals := 1, watch := { (ticking .recovering).watch with goodRun := 99, position := 99 } }
    ∀ z ∈ [x, y],
      let s := withTables [(3, booking .live)] [z]
      s.inReset = false ∧ s.source z.id = some z ∧ z.ticks = ⟨1001, false⟩ :: [] ∧ z.watch.state ≠ .unwatched
        ∧ s.demanded z.id = true
        ∧ (z = x → (classifiedTick ⟨1001, false⟩ { z with ticks := [] }).cause = some .silent)
        ∧ (z = y → (classifiedTick ⟨1001, false⟩ { z with ticks := [] }).cause = some .cleared
            ∧ (classifiedTick ⟨1001, false⟩ { z with ticks := [] }).windowEnd = true) := by decide +kernel

/-! ## Witnesses: booking orders -/

/-- The parameters of a BOOK of reference 9, class 0, no group, on a main and a spare, of bandwidth 100, one leg, with the extend,
revertive and switch-on-degrade bytes given (R172). -/
def bookBytes (cls : Byte) (yesNo : Byte) (mainPort : Byte) (spare : List Byte) (start : Nat) : List Byte :=
  nat32 9 ++ nat16 1 ++ [cls, 0, mainPort, 20] ++ spare ++ [yesNo, 1, 1] ++ nat16 100 ++ nat16 10001 ++ nat32 start
    ++ nat32 100 ++ nat32 50 ++ nat32 60001 ++ nat32 2 ++ [1, 4, 7]

def bookGood : List Byte := bookBytes 31 0 0 [1, 1, 20] 1100

theorem wit_EvaluationPointsSuffice : (partOf 1000 false fields).from_ < (partOf 1000 false fields).upTo := by
  decide +kernel

/-- The fields that BOOK carries, clamped where R53 clamps. -/
def bookedFields : Fields :=
  { fields with tariffClass := 31, spare := some spare, preroll := 60000, holdOff := 10000, wtr := 2 }

theorem wit_BookInRangeStartsAdmission :
    let s := asks up .book bookGood
    let b := bookBlock (paramsOf (order .book bookGood).cell)
    let nt := s.time.nt
    Offers s .book 43 (order .book bookGood) [] ∧ s.mgmt.mode = .service
    ∧ 43 = 41 + 2 * ((order .book bookGood).param 40).toNat
    ∧ (∀ i, i = 10 ∨ i = 13 ∨ i = 14 ∨ i = 15 → ((order .book bookGood).param i).toNat ≤ 1)
    ∧ b.tariffClass ≤ 31 ∧ srcOf b.main.1 b.main.2 = some main ∧ b.spare = some (1, 20) ∧ srcOf 1 20 = some spare
    ∧ spare ≠ main ∧ b.bandwidth = 100 ∧ pairsOf b.legs = some [pair] ∧ [pair].Nodup ∧ ticksUntil nt b.start ≤ 2 ^ 30
    ∧ b.duration = 100 ∧ reached nt (b.start + BitVec.ofNat 32 b.duration) = false ∧ b.allowance ≤ 1080000
    ∧ b.group ≤ 32 ∧ s.bookings = [] ∧ s.sources = []
    ∧ next .book s = some
        ((s.taken (order .book bookGood) []).setEngine (.working ⟨order .book bookGood, 1000, .book 9 bookedFields, 0, []⟩)) := by
  refine ⟨asks_offers ⟨rfl, rfl, rfl⟩ (by decide +kernel), by decide +kernel, by decide +kernel, ?_, by decide +kernel⟩
  rintro i (rfl | rfl | rfl | rfl) <;> decide +kernel

/-- The steps of BookRefusesInOrder on an order, in their order: those that refuse it. -/
def bookFails (s : State) (n : Nat) (o : Order) : List Bool :=
  let b := bookBlock (paramsOf o.cell)
  let nt := s.time.nt
  [decide (n ≠ 41 + 2 * (o.param 40).toNat ∨ 240 < n ∨ ([10, 13, 14, 15].any fun i => 1 < (o.param i).toNat) = true),
      decide (s.mgmt.mode ≠ .service), decide (31 < b.tariffClass), decide (srcOf b.main.1 b.main.2 = none),
      decide (∃ x ∈ b.spare, srcOf x.1 x.2 = none ∨ srcOf x.1 x.2 = srcOf b.main.1 b.main.2),
      decide (b.bandwidth = 0 ∨ 48000 < b.bandwidth)]
    ++ (List.range 5).map (fun i => decide
      ((i = 0 ∧ b.legs = [])
        ∨ ∃ x ∈ b.legs[i]?, 4 ≤ i ∨ pairOf x = none ∨ ∃ j < i, ∃ y ∈ b.legs[j]?, pairOf y = pairOf x))
    ++ [decide ((2 ^ 30 : Int) < ticksUntil nt b.start),
      decide (b.duration = 0 ∨ 8640000 < b.duration ∨ reached nt (b.start + BitVec.ofNat 32 b.duration) = true),
      decide (1080000 < b.allowance), decide (32 < b.group)]

/-- The first of them. -/
def bookFailsAt (s : State) (ps : List Byte) : Option Nat := (bookFails s ps.length (order .book ps)).findIdx? id

/-- The BOOK of `bookGood` with the bytes from a position on replaced. -/
def put (ps : List Byte) (i : Nat) (v : List Byte) : List Byte := ps.take i ++ v ++ ps.drop (i + v.length)

/-- A BOOK of some legs. -/
def bookLegs (legs : List Byte) : List Byte := bookGood.take 40 ++ [BitVec.ofNat 8 (legs.length / 2)] ++ legs

/-- A BOOK and the step that refuses it; none where none does. Each value is the nearest one past its range; of the two ends of
a range and of each way a leg or a spare can fail, one each. -/
def bookOrders : List (List Byte × Option Nat) :=
  [(bookGood ++ [4], some 0), (put bookGood 13 [2], some 0), (put bookGood 6 [32], some 2), (put bookGood 8 [16], some 3),
    (put bookGood 9 [0], some 3), (put bookGood 11 [16], some 4), (put bookGood 11 [0, 20], some 4),
    (put bookGood 16 (nat16 0), some 5), (put bookGood 16 (nat16 48001), some 5), (bookLegs [], some 6),
    (bookLegs [16, 7], some 6), (bookLegs [4, 7, 4, 7], some 7), (bookLegs [4, 7, 5, 7, 6, 7, 6, 255], some 9),
    (bookLegs [4, 7, 5, 7, 6, 7, 7, 7, 8, 7], some 10), (put bookGood 20 (nat32 (1001 + 2 ^ 30)), some 11),
    (put bookGood 24 (nat32 0), some 12), (put bookGood 24 (nat32 8640001), some 12),
    (put bookGood 20 (nat32 900), some 12), (put bookGood 28 (nat32 1080001), some 13), (put bookGood 7 [33], some 14),
    (bookGood, none)]

theorem wit_BookRefusesInOrder :
    (∀ s, Awake s → ∀ x ∈ bookOrders, Offers (asks s .book x.1) .book x.1.length (order .book x.1) [])
    ∧ (∀ x ∈ bookOrders, bookFailsAt up x.1 = x.2)
    ∧ bookFailsAt { up with mgmt := { up.mgmt with mode := .frozen } } bookGood = some 1
    -- the steps after the ranges, of the BOOK that passes them: its reference, its two sources, a full table
    ∧ (let b := bookBlock (paramsOf (order .book bookGood).cell);
      srcOf b.main.1 b.main.2 = some main ∧ b.spare = some (1, 20) ∧ srcOf 1 20 = some spare ∧ b.bandwidth = 100
        ∧ (withTables [(511, booking .booked)] []).byRef b.ref = some (511, booking .booked) ∧ up.byRef b.ref = none)
    ∧ (let x := { source main .ok [] with bandwidth := 101 };
      (withTables [] [x]).source main = some x ∧ x.bandwidth ≠ 100)
    ∧ (let x := { source spare .ok [] with bandwidth := 99 };
      (withTables [] [source main .ok [], x]).source spare = some x ∧ x.bandwidth ≠ 100
        ∧ (withTables [] [source main .ok [], x]).source main = some (source main .ok []))
    ∧ (let s := withTables ((List.range 512).map fun k => (k, { booking .booked with ref := 8 })) [];
        s.byRef 9 = none ∧ 512 ≤ s.bookings.length ∧ s.source main = none ∧ s.source spare = none)
    ∧ (let s := { up with sources := (List.range 511).map fun k => (300 + k, source main .ok []) };
        s.bookings.length < 512 ∧ 512 - s.sources.length = 1 ∧ s.source main = none ∧ s.source spare = none) := by
  refine ⟨fun s hs x hx => ?_, by decide +kernel⟩
  exact asks_offers hs ((by decide +kernel : ∀ x ∈ bookOrders, codeOf (order .book x.1).cell = OrderKind.book.code
    ∧ lengthOf (order .book x.1).cell = x.1.length) x hx)

/-- The computation of that BOOK, with the slots below one read and free. -/
def bookJobAt (slot : Nat) : Job := ⟨order .book bookGood, 1000, .book 9 bookedFields, slot, []⟩

/-- A BOOK whose computation runs on ports of capacity `c`, with some bookings. -/
def booking_ (c : Nat) (bs : List (Nat × Booking)) : State :=
  working (bookJobAt 0)
    { withTables bs [source main .ok []] with
      ports := Vector.replicate 16 { linePort .enabled .delineated [] [] with capacity := c } }

/-- Admitted by a capacity of just its bandwidth, and by a booking whose window ends where its own opens; refused by a capacity one less,
and by a booking of the same pair. -/
theorem wit_AdmittedBookTakesTheLowestSlot :
    (∀ c, ∀ bs ∈ [[], [(0, booking .booked)]],
      let s := booking_ c bs
      s.inReset = false ∧ TablesInForm s ∧ Rising ((bookJobAt 0).compared s) ∧ s.mgmt.engine = .working (bookJobAt 0)
        ∧ (bookJobAt 0).kind = .book 9 bookedFields ∧ (bookJobAt 0).nt = 1000 ∧ (bookJobAt 0).compared s = bs)
    ∧ Admissible (booking_ 100 []) 1000 false bookedFields []
    ∧ ¬ Admissible (booking_ 99 []) 1000 false bookedFields []
    ∧ ¬ Admissible (booking_ 48000 [(0, booking .booked)]) 1000 false bookedFields [(0, booking .booked)] := by
  refine ⟨?_, ⟨fun e he => ?_, ?_, ?_⟩, fun h => ?_, fun h => ?_⟩
  · intro c bs hb
    have hb : bs = [] ∨ bs = [(0, booking .booked)] := by simpa using hb
    have hc : (bookJobAt 0).compared (booking_ c bs) = bs := by
      simp only [Job.compared, bookJobAt, booking_, working, withTables, List.nil_append]
      exact List.filter_eq_self.mpr fun _ _ => by simp
    have hr : Rising bs := by
      obtain rfl | rfl := hb
      · exact List.Pairwise.nil
      · exact List.pairwise_singleton _ _
    refine ⟨rfl, ⟨hr, List.pairwise_singleton _ _, ?_⟩, by rw [hc]; exact hr, rfl, rfl, rfl, hc⟩
    exact (by decide +kernel : ∀ e ∈ sources [source main .ok []], e.1 = srcKey e.2.id)
  · exact absurd he (by simp)
  · intro q hq x _
    obtain rfl : q = pair := by simpa [bookedFields, fields] using hq
    show 0 + bookedFields.onPort 4 ≤ 100
    decide +kernel
  · intro i _ x _
    show 0 + 1 ≤ 16
    decide
  · exact absurd (h.ports pair (by decide) _ (.inl rfl)) (by show ¬ 0 + bookedFields.onPort 4 ≤ 99; decide +kernel)
  · exact h.pairs (0, booking .booked) (by simp) pair (by decide) fields (by
      refine ⟨?_, ?_, ?_, ?_⟩ <;> decide +kernel)

theorem wit_ReferencesKeepTheSourceTable :
    TablesInForm (withTables [] [source main .ok []]) ∧ spare ≠ main
    ∧ (withTables [] [source main .ok []]).source main = some (source main .ok []) :=
  ⟨tables_of (by decide +kernel), by decide +kernel⟩

/-- MODIFY of reference 9 with a mask and the byte at a position set. -/
def modifyOf (mask : Nat) (i : Nat) (v : List Byte) : List Byte :=
  let ps := nat32 9 ++ [0] ++ nat16 mask ++ List.replicate 36 0
  ps.take i ++ v ++ ps.drop (i + v.length)

/-- No field; more adds than its mask says; a duration of 101, of 99 and of 0; a start; a main, and a spare, on port 1 label 20. -/
def modifyOrders : List (List Byte) :=
  [modifyOf 0 7 [], modifyOf 0x200 41 [], modifyOf 0x40 21 (nat32 101), modifyOf 0x40 21 (nat32 99),
    modifyOf 0x40 21 (nat32 0), modifyOf 1 7 (nat32 1200), modifyOf 2 11 [1, 20], modifyOf 0x800 30 [1, 1, 20]]

def changeOf (ps : List Byte) : Change := modifyBlock (paramsOf (order .modify ps).cell)

/-- A change of the duration, the main and the spare, and the modification it comes to. -/
def change (d : Option Nat) (x : Option (Byte × Byte)) (y : Option (Option (Byte × Byte))) : Change :=
  ⟨none, x, none, none, none, none, d, none, none, none, none, y, none, none, none, none⟩

/-- A modification that names nothing. -/
def noMod : Mod := ⟨none, none, none, none, none, none, none, none, none, none, none, none, none, none, none⟩

def modTo (d : Option Nat) (x : Option SrcId) (y : Option (Option SrcId)) : Mod :=
  { noMod with duration := d, main := x, spare := y }

theorem inRange_of {d : Option Nat} {x : Option (Byte × Byte)} {y : Option (Option (Byte × Byte))} {b : Booking}
    {x' : Option SrcId} {y' : Option (Option SrcId)}
    (hd : ∀ n, d = some n → 1 ≤ n ∧ n ≤ 8640000)
    (hm : match x with
      | none => x' = none
      | some x => ∃ i, srcOf x.1 x.2 = some i ∧ x' = some i)
    (hs : match y with
      | none => y' = none
      | some none => y' = some none
      | some (some x) => ∃ i, srcOf x.1 x.2 = some i ∧ y' = some (some i))
    (h : ((modTo d x' y').apply b.fields).spare ≠ some ((modTo d x' y').apply b.fields).main
      ∧ reached 1000 ((modTo d x' y').apply b.fields).plannedEnd = false) :
    InRange 1000 (change d x y) b (modTo d x' y') where
  start := rfl
  startAhead _ h := nomatch h
  main := hm
  group := ⟨rfl, fun _ h => nomatch h⟩
  preroll := rfl
  account := rfl
  tariffClass := ⟨rfl, fun _ h => nomatch h⟩
  duration := ⟨rfl, hd⟩
  allowance := ⟨rfl, fun _ h => nomatch h⟩
  extend := rfl
  legs := rfl
  spare := hs
  revertive := rfl
  switchOnDegrade := rfl
  holdOff := rfl
  wtr := rfl
  otherSpare := h.1
  planAhead _ := h.2
  addsAhead h := nomatch h

theorem wit_ModifyBecomesPending :
    (∀ s, Awake s → ∀ ps ∈ modifyOrders, Offers (asks s .modify ps) .modify 43 (order .modify ps) [])
    ∧ (modifyOrders.map fun ps => modifyMalformed 43 (paramsOf (order .modify ps).cell))
        = [true, true, false, false, false, false, false, false]
    ∧ ({ up.mgmt with mode := .frozen } : OrderEngine).mode ≠ .service ∧ up.mgmt.mode = .service
    ∧ up.byRef 9 = none ∧ (withTables [(3, booking .booked)] []).byRef 9 = some (3, booking .booked)
    ∧ (booking (.ended (billOf 1).bill)).state.isEnded = true ∧ (booking .booked).state.isEnded = false
    -- a start is barred in LIVE, and a spare ON_SPARE; neither in BOOKED
    ∧ ((modifyOrders.drop 5).map fun ps => (changeOf ps).start.isSome || (changeOf ps).spare.isSome) = [true, false, true]
    ∧ (booking .live).state ≠ .booked ∧ (booking .live).state ≠ .preroll
    ∧ ((modifyOrders.drop 2).map changeOf).take 3 = [change (some 101) none none, change (some 99) none none, change (some 0) none none]
    ∧ (modifyOrders.drop 6).map changeOf = [change none (some (1, 20)) none, change none none (some (some (1, 20)))]
    -- no modification comes to a duration of 0
    ∧ (∀ m, ¬ InRange 1000 (change (some 0) none none) (booking .booked) m)
    ∧ InRange 1000 (change (some 101) none none) (booking .booked) (modTo (some 101) none none)
    ∧ InRange 1000 (change (some 99) none none) (booking .booked) (modTo (some 99) none none)
    ∧ InRange 1000 (change none (some (1, 20)) none) (booking .booked) (modTo none (some spare) none)
    ∧ InRange 1000 (change none none (some (some (1, 20)))) (booking .booked) (modTo none none (some (some spare)))
    -- a source of another bandwidth, and no record free
    ∧ (let x := { source spare .ok [] with bandwidth := 101 };
        (withTables [] [x]).source spare = some x ∧ x.bandwidth ≠ (booking .booked).fields.bandwidth)
    ∧ (let s := { up with sources := (List.range 512).map fun k => (300 + k, source main .ok []) };
        512 - s.sources.length = 0 ∧ s.source spare = none)
    ∧ NeedsAdmission 1000 (booking .booked) ((modTo (some 101) none none).apply fields)
    ∧ ¬ NeedsAdmission 1000 (booking .booked) ((modTo (some 99) none none).apply fields) := by
  refine ⟨fun s hs => asks_each (by decide +kernel) hs, by decide +kernel, by decide, by decide, by decide +kernel,
    by decide +kernel, by decide, by decide, by decide +kernel, by decide, by decide, by decide +kernel, by decide +kernel,
    fun m h => absurd (h.duration.2 0 rfl).1 (by decide), inRange_of ?_ rfl rfl ?_, inRange_of ?_ rfl rfl ?_,
    inRange_of (fun _ h => nomatch h) ⟨spare, ?_, rfl⟩ rfl ?_, inRange_of (fun _ h => nomatch h) rfl ⟨spare, ?_, rfl⟩ ?_,
    by decide +kernel, by decide +kernel, ⟨by decide +kernel, .inr (.inl ⟨250, ?_, ?_⟩)⟩, ?_⟩
  all_goals try decide +kernel
  · exact ⟨by decide +kernel, by decide +kernel⟩
  · intro h; exact absurd h.2 (by decide +kernel)
  · rintro ⟨-, h | ⟨x, h, h'⟩ | ⟨x, h, h'⟩ | ⟨i, h, h'⟩⟩
    · exact absurd h (by decide)
    · refine h' ⟨h.1, Int.lt_trans h.2 ?_⟩
      decide +kernel
    · exact h' h
    · exact h' h

/-- A MODIFY of slot 3 whose computation has read nothing, built from a BOOKED record one tick longer. -/
def modJob : Job :=
  ⟨order .modify (modifyOf 0x40 21 (nat32 101)), 1000,
    .modify 3 (change (some 101) none none) (modTo (some 101) none none) (booking .booked), 0, []⟩

/-- A booking of the same pair that starts at the added tick. -/
def next_ : Booking := { booking .booked { fields with start := 1250, effStart := 1250 } with ref := 8 }

/-- The record stands, alone and against that booking; and it has gone to PREROLL. -/
theorem wit_ModifyBecomesPending_completion :
    (∀ bs ∈ [[(3, booking .booked)], [(3, booking .booked), (4, next_)], [(3, booking .preroll)]],
      let s := working modJob (withTables bs [])
      s.inReset = false ∧ s.mgmt.engine = .working modJob ∧ s.booking 3 = bs.head?.map Prod.snd
        ∧ modJob.compared s = bs ∧ (bs.map Prod.fst).Pairwise (· < ·))
    ∧ Admissible (working modJob (withTables [] [])) 1000 false ((modTo (some 101) none none).apply fields) []
    ∧ ¬ Admissible (working modJob (withTables [] [])) 1000 false ((modTo (some 101) none none).apply fields) [(4, next_)]
    ∧ (booking .preroll).state ≠ (booking .booked).state := by
  refine ⟨by decide +kernel, ⟨fun e he => absurd he (by simp), ?_, ?_⟩, fun h => ?_, by decide⟩
  · intro q hq x _
    obtain rfl : q = pair := List.mem_singleton.mp hq
    exact (by decide +kernel : 0 + ((modTo (some 101) none none).apply fields).onPort 4 ≤ 48000)
  · intro i _ x _
    exact (by decide : 0 + 1 ≤ 16)
  · exact h.pairs (4, next_) (by simp) pair (by decide) next_.fields (by
      refine ⟨?_, ?_, ?_, ?_⟩ <;> decide +kernel)



def class0 (t : Tariff) : Vector (Option Tariff) 32 := (Vector.replicate 32 none).set 0 (some t)

/-- BOOKED with the start 100 ticks off, under a BLANK class, a window of 100 and one of 101; at its start; HELD; LIVE. A length of 5;
FROZEN; a reference nobody holds; and a Bill Queue with room and a full one. -/
theorem wit_CancelEarlyOrLate :
    (∀ st, st = .booked ∨ st = .held ∨ st = .live →
      let s := asks (withTables [(3, booking st)] []) .cancel (nat32 9)
      Offers s .cancel 4 (order .cancel (nat32 9)) [] ∧ s.mgmt.mode = .service
        ∧ s.byRef ((order .cancel (nat32 9)).word 0) = some (3, booking st))
    ∧ reached 1000 fields.start = false ∧ reached 1100 fields.start = true ∧ ¬ ticksUntil 1000 fields.start < (100 : Nat)
    ∧ ticksUntil 1000 fields.start < (101 : Nat) ∧ (booking .live).state.isLive = true
    ∧ Offers (asks up .cancel [0, 0, 0, 9, 0]) .cancel 5 (order .cancel [0, 0, 0, 9, 0]) []
    ∧ (let s : State := { up with mgmt.mode := .frozen };
        Offers (asks s .cancel (nat32 9)) .cancel 4 (order .cancel (nat32 9)) [] ∧ s.mgmt.mode ≠ .service)
    ∧ (withTables [(3, booking .held)] []).byRef ((order .cancel (nat32 8)).word 0) = none
    ∧ (∀ n ∈ [47, 63], (billsTo n up).bills.records.length = n) ∧ 64 ≤ (billsTo 64 up).bills.records.length := by
  refine ⟨?_, by decide +kernel, by decide +kernel, by decide +kernel, by decide +kernel, by decide +kernel,
    asks_offers ⟨rfl, rfl, rfl⟩ (by decide +kernel), ⟨asks_offers ⟨rfl, rfl, rfl⟩ (by decide +kernel), by decide⟩,
    by decide +kernel, by decide +kernel, by decide +kernel⟩
  rintro st (rfl | rfl | rfl) <;> exact ⟨asks_offers ⟨rfl, rfl, rfl⟩ (by decide +kernel), by decide +kernel⟩

theorem wit_BookingReadReturnsTheRecord :
    (∀ ps, ps = [1] ++ nat32 512 ∨ ps = [1] ++ nat32 511 ∨ ps = [1] ++ nat32 0 ∨ ps = [0] ++ nat32 9 ∨ ps = [0] ++ nat32 8
        ∨ ps = [2] ++ nat32 9 →
      Offers (asks (withTables [(511, booking .live)] []) .bookingRead ps) .bookingRead 5 (order .bookingRead ps) [])
    ∧ (order .bookingRead ([1] ++ nat32 512)).param 0 = 1 ∧ 511 < ((order .bookingRead ([1] ++ nat32 512)).word 1).toNat
    ∧ ((order .bookingRead ([1] ++ nat32 511)).word 1).toNat = 511
    ∧ (order .bookingRead ([0] ++ nat32 9)).param 0 = 0 ∧ 1 < ((order .bookingRead ([2] ++ nat32 9)).param 0).toNat
    ∧ (let s := withTables [(511, booking .live)] [];
        s.booking 511 = some (booking .live) ∧ s.booking 0 = none ∧ s.byRef 9 = some (511, booking .live)
          ∧ s.byRef 8 = none) := by
  refine ⟨?_, by decide +kernel⟩
  rintro ps (rfl | rfl | rfl | rfl | rfl | rfl) <;> exact asks_offers ⟨rfl, rfl, rfl⟩ (by decide +kernel)

/-- Groups 1 and 32, and 0 and 33 out of range. -/
theorem wit_GroupOrdersSetTheGroup :
    (∀ g : Byte, g = 0 ∨ g = 1 ∨ g = 32 ∨ g = 33 →
      Offers (asks up .groupHold [g]) .groupHold 1 (order .groupHold [g]) []
      ∧ Offers (asks up .groupRelease [g]) .groupRelease 1 (order .groupRelease [g]) []
      ∧ (order .groupHold [g]).param 0 = g ∧ (order .groupRelease [g]).param 0 = g)
    ∧ (1 ≤ (1 : Byte).toNat ∧ (32 : Byte).toNat ≤ 32 ∧ 32 < (33 : Byte).toNat)
    ∧ ∀ x ∈ [(⟨.releasing, 2⟩ : Group), ⟨.releasing, 1⟩, ⟨.holding, 1⟩], ∀ g ∈ [1, 32],
        ({ up with groups := Vector.replicate 32 x } : State).groups[g - 1]? = some x := by
  refine ⟨?_, by decide, by decide +kernel⟩
  rintro g (rfl | rfl | rfl | rfl) <;>
    exact ⟨asks_offers ⟨rfl, rfl, rfl⟩ (by decide +kernel), asks_offers ⟨rfl, rfl, rfl⟩ (by decide +kernel), by decide +kernel⟩

/-! ## Witnesses: the step -/

/-- A head order of no known code. -/
def strange : Order := ⟨2, orderTo 1 0x00FF []⟩

/-- RESET asserted; a tick 1 ms ahead and one that is due; a head order of no known code; a computation whose next slot is in use, and one
that has read every slot. -/
theorem wit_StepRunsFrontCommand :
    ({ State.reset with inReset := true } : State).pending = [] ∧ up.pending = [] ∧ up.inReset = false
    ∧ (∀ n ∈ [106, 107], ({ timed .localRef with now := n } : State).time.nextLocal.toList
        ++ ({ timed .localRef with now := n } : State).time.deadline.toList = [107])
    ∧ (let s : State := { up with mgmt := { up.mgmt with orders := [strange] } };
        s.inReset = false ∧ s.mgmt.engine = .ready ∧ s.mgmt.restart = false ∧ s.mgmt.orders = strange :: []
          ∧ (∀ k : OrderKind, codeOf strange.cell ≠ k.code) ∧ ∀ j : Job, s.mgmt.engine ≠ .working j)
    ∧ (let s := working (bookJobAt 3) (withTables [(3, booking .booked)] []);
        s.inReset = false ∧ s.mgmt.engine = .working (bookJobAt 3) ∧ s.booking 3 = some (booking .booked)
          ∧ Rising s.bookings ∧ (bookJobAt 3).nextSlot ≤ 3 ∧ ∀ i, (bookJobAt 3).nextSlot ≤ i → i < 3 → s.booking i = none)
    ∧ (let s := working (bookJobAt 512) (withTables [(3, booking .booked)] []);
        s.inReset = false ∧ s.mgmt.engine = .working (bookJobAt 512) ∧ s.mgmt.engine ≠ .ready
          ∧ ∀ k b, s.booking k = some b → ¬ (bookJobAt 512).nextSlot ≤ k) := by
  refine ⟨rfl, rfl, rfl, by decide +kernel, ⟨rfl, rfl, rfl, rfl, ?_, ?_⟩, ⟨rfl, rfl, rfl, ?_, by decide, ?_⟩, ⟨rfl, rfl, ?_, ?_⟩⟩
  · intro k; cases k <;> decide +kernel
  · exact fun _ h => nomatch h
  · exact List.pairwise_singleton _ _
  · intro i h h'; exact absurd h (by show ¬ 3 ≤ i; omega)
  · exact fun h => nomatch h
  · intro k b h
    simp only [working, State.booking, withTables, tabFind] at h
    split at h
    · next hk => subst hk; decide
    · cases h

/-! ## Witnesses: the booking tick and the selector -/

/-- A booking of group 32, and a group table with group 32 HOLDING. -/
def grouped (st : BookingState) : Booking := booking st { fields with group := 32 }
def holding (s : State) : State := { s with groups := s.groups.set 31 ⟨.holding, 1⟩ }

/-- What the clauses of LoneBookingPassesItsThresholds ask of a booking at an NT. -/
def atPoint (nt : Word) (b : Booking) : Bool × Bool × Bool × Bool :=
  (reached nt b.fields.prerollPoint, reached nt b.fields.start, reached nt b.fields.plannedEnd, reached nt b.fields.windowEnd)

theorem wit_LoneBookingPassesItsThresholds :
    (∀ b ∈ [booking .booked, booking .preroll, booking .live, booking .overrun, booking .extended, grouped .held,
        grouped .preroll, booking .extended { fields with extend := true }],
      let s := holding (atTick 1100 [(3, b)] [source main .ok [leg 3]])
      s.inReset = false ∧ s.bookingTicks = ⟨1100, false⟩ :: [] ∧ s.bookings = [(3, b)] ∧ b.pending = none
        ∧ b.endPending = false ∧ b.fields.spare = none ∧ b.position = .onMain ∧ b.holdOffLeft = none ∧ b.wtrLeft = none
        ∧ b.afresh = false)
    ∧ atPoint 1079 (booking .booked) = (false, false, false, false)
    ∧ atPoint 1080 (booking .booked) = (true, false, false, false)
    ∧ atPoint 1099 (booking .preroll) = (true, false, false, false)
    ∧ atPoint 1100 (grouped .preroll) = (true, true, false, false)
    ∧ (let s := holding (atTick 1100 [(3, grouped .preroll)] [source main .ok []]);
        1 ≤ (grouped .preroll).fields.group ∧ s.groups[(grouped .preroll).fields.group - 1]? = some ⟨.holding, 1⟩)
    ∧ atPoint 1199 (booking .live) = (true, true, false, false) ∧ atPoint 1200 (booking .live) = (true, true, true, false)
    ∧ atPoint 1249 (booking .overrun) = (true, true, true, false)
    ∧ atPoint 1250 (booking .extended { fields with extend := true }) = (true, true, true, true)
    ∧ (booking .extended { fields with extend := true }).fields.extend = true := by decide +kernel

/-- A booking of reference 9 with a pending modification. -/
def pend (st : BookingState) (m : Mod) (f : Fields := fields) : Booking := { booking st f with pending := some m }

/-- What LoneBookingPassesItsThresholds computes for a modification of the instants: the state after the applying, whether its passage
stops at a changed planned end, and whether it ends. -/
def passage (nt : Word) (b : Booking) (m : Mod) : BookingState × Bool × Bool :=
  let f := m.apply b.fields
  let isUp (w : Word) : Bool := reached nt w
  let preMoved := decide (f.prerollPoint ≠ b.fields.prerollPoint)
  let planMoved := decide (f.plannedEnd ≠ b.fields.plannedEnd)
  let windowMoved := decide (f.windowEnd ≠ b.fields.windowEnd)
  let st : BookingState := match b.state with
    | .preroll => if preMoved ∧ isUp f.prerollPoint = false then .booked else .preroll
    | .overrun => if planMoved ∧ isUp f.plannedEnd = false then .live else .overrun
    | .extended =>
      if windowMoved ∧ isUp f.windowEnd = false then if isUp f.plannedEnd then .overrun else .live else .extended
    | x => x
  let stops := decide (st = .held ∨ st = .live) && planMoved && isUp f.plannedEnd
  (st, stops, decide ((isUp f.windowEnd = true ∨ st = .extended) ∧ windowMoved = false ∧ stops = false))

/-- A modification of the instants, at an NT, in a state, and where its passage goes: a PREROLL booking falls back; a changed preroll point
and a changed start stop it; HELD stops at a changed planned end with its window end reached; LIVE stops there; OVERRUN falls back to
LIVE; LIVE goes on past an unchanged planned end; EXTENDED falls back to OVERRUN, to LIVE, or stays; and it ends. -/
def passages : List (BookingState × Mod × Word × BookingState × Bool × Bool) :=
  [(.preroll, { noMod with start := some (1200, 1200) }, 1179, .booked, false, false),
    (.booked, { noMod with preroll := some 21 }, 1079, .booked, false, false),
    (.preroll, { noMod with start := some (1099, 1099) }, 1099, .preroll, false, false),
    (.held, { noMod with duration := some 50, allowance := some 100 }, 1250, .held, true, false),
    (.live, { noMod with duration := some 50 }, 1150, .live, true, false),
    (.overrun, { noMod with duration := some 111 }, 1210, .live, false, false),
    (.live, { noMod with wtr := some 1 }, 1200, .live, false, false),
    (.overrun, { noMod with wtr := some 1 }, 1249, .overrun, false, false),
    (.extended, { noMod with allowance := some 101 }, 1300, .overrun, false, false),
    (.extended, { noMod with duration := some 201 }, 1300, .live, false, false),
    (.extended, { noMod with wtr := some 1 }, 1251, .extended, false, true),
    (.extended, { noMod with extend := some false }, 1100, .extended, false, true),
    (.booked, { noMod with wtr := some 1 }, 1250, .booked, false, true)]

theorem wit_LoneBookingPassesItsThresholds_modified :
    (∀ x ∈ passages,
      let b := pend x.1 x.2.1
      let s := atTick x.2.2.1 [(3, b)] [source main .ok [leg 3]]
      (s.inReset = false ∧ s.bookingTicks = ⟨x.2.2.1, false⟩ :: [] ∧ s.bookings = [(3, b)] ∧ b.endPending = false
        ∧ b.position = .onMain ∧ b.afresh = false ∧ b.pending = some x.2.1 ∧ x.2.1.main = none ∧ b.state.isEnded = false)
        ∧ x.2.1.spare = none ∧ (x.2.1.apply b.fields).legs = b.fields.legs ∧ (x.2.1.apply b.fields).spare = none
        ∧ passage x.2.2.1 b x.2.1 = x.2.2.2 ∧ s.bills.records.length < 64)
    ∧ ({ noMod with wtr := some 1 }.apply { fields with extend := true }).extend = true
    -- the legs of a LIVE booking: one dropped and one added
    ∧ (let q : Pair := ⟨5, 7⟩
      let m : Mod := { noMod with legs := some [q] };
      let b := pend .live m;
      let s := atTick 1150 [(3, b)] [source main .ok [leg 3]];
      m.apply b.fields = { b.fields with legs := (m.apply b.fields).legs } ∧ s.source main = some (source main .ok [leg 3])
        ∧ reached 1150 (m.apply b.fields).windowEnd = false ∧ reached 1150 (m.apply b.fields).plannedEnd = false
        ∧ ((m.apply b.fields).legs.filter fun q => !b.fields.legs.contains q) = [q]
        ∧ (s.setSource (source main .ok [])).installCheck main [q] = .taken)
    -- a spare replaced and one removed
    ∧ ∀ new ∈ [none, some (⟨2, 20⟩ : SrcId)], ∀ st ∈ [BookingState.booked, .held, .live],
        let m : Mod := { noMod with spare := some new };
        let b := pend st m { fields with spare := some spare, group := 32 };
        let s := holding (atTick 1079 [(3, b)] [source main .ok [leg 3], source spare .ok []]);
        b.fields.spare = some spare ∧ spare ≠ b.fields.main ∧ new ≠ some spare ∧ new ≠ some b.fields.main
          ∧ m.apply b.fields = { b.fields with spare := new } ∧ reached 1079 (m.apply b.fields).windowEnd = false
          ∧ reached 1079 (m.apply b.fields).prerollPoint = false ∧ reached 1079 (m.apply b.fields).plannedEnd = false
          ∧ s.groups[(m.apply b.fields).group - 1]? = some ⟨.holding, 1⟩ ∧ b.request ≠ .forceSpare ∧ s.watchOf main = .ok
          ∧ (s.bookings.map Prod.fst).Pairwise (· < ·) ∧ (s.sources.map Prod.fst).Pairwise (· < ·)
          ∧ ∀ e ∈ s.sources, e.1 = srcKey e.2.id := by
  decide +kernel

/-- Before LIVE, with a spare, a request and the mark of CLEAR. -/
theorem wit_LoneBookingPassesItsThresholds_early :
    ∀ st ∈ [BookingState.booked, .preroll, .held],
      let b : Booking :=
        { booking st { fields with spare := some spare, group := 32 } with request := .forceSpare, afresh := true }
      let s := holding (atTick 1100 [(3, b)] [source main .ok [], source spare .ok []])
      s.inReset = false ∧ s.bookings = [(3, b)] ∧ b.pending = none ∧ b.endPending = false
        ∧ s.groups[b.fields.group - 1]? = some ⟨.holding, 1⟩ ∧ reached 1079 b.fields.prerollPoint = false
        ∧ reached 1099 b.fields.start = false ∧ reached 1100 b.fields.start = true ∧ reached 1249 b.fields.windowEnd = false := by
  decide +kernel

/-- One of two legs dropped, of a booking that is EXTENDED, before and at its window end, or that becomes so at it. -/
theorem wit_LoneBookingPassesItsThresholds_extended :
    ∀ x ∈ [(BookingState.live, (1250 : Word)), (.overrun, 1250), (.extended, 1249), (.extended, 1250)],
      let m : Mod := { noMod with legs := some [pair] }
      let b := pend x.1 m { fields with extend := true, legs := [pair, ⟨5, 7⟩] }
      let s := atTick x.2 [(3, b)] [source main .ok [leg 3, { leg 3 with pair := ⟨5, 7⟩ }]]
      s.bookings = [(3, b)] ∧ m.apply b.fields = { b.fields with legs := (m.apply b.fields).legs }
        ∧ (s.source b.fields.main).isSome ∧ b.state.isLive = true ∧ (m.apply b.fields).extend = true
        ∧ reached x.2 (m.apply b.fields).windowEnd = decide (x.2 = 1250)
        ∧ (b.fields.legs.filter fun q => !(m.apply b.fields).legs.contains q) = [⟨5, 7⟩] := by decide +kernel

/-- Before LIVE a main, a spare, the legs and the settings change at once, the old main losing its reference; and the same settings, the legs
standing, of a LIVE booking with its spare, with no changed threshold reached. -/
theorem wit_LoneBookingPassesItsThresholds_main :
    (∀ st ∈ [BookingState.booked, .preroll, .held],
      let m : Mod :=
        { noMod with main := some ⟨2, 20⟩, spare := some (some main), legs := some [⟨5, 7⟩], holdOff := some 9, duration := some 101 }
      let b := pend st m { fields with spare := some spare, group := 32 }
      let s := holding (atTick 1079 [(3, b)] [source main .ok [], source spare .ok [], source ⟨2, 20⟩ .ok []])
      s.bookings = [(3, b)] ∧ b.pending = some m ∧ b.state.isEnded = false ∧ b.endPending = false
        ∧ (b.named.filter fun i => !({ b with fields := m.apply b.fields, pending := none } : Booking).named.contains i) = [spare]
        ∧ reached 1079 (m.apply b.fields).plannedEnd = false ∧ reached 1079 (m.apply b.fields).windowEnd = false
        ∧ reached 1079 (m.apply b.fields).start = false ∧ reached 1079 (m.apply b.fields).prerollPoint = false
        ∧ s.groups[(m.apply b.fields).group - 1]? = some ⟨.holding, 1⟩)
    ∧ (let m : Mod := { noMod with duration := some 101, holdOff := some 9, revertive := some false }
      let b := pend .live m { fields with spare := some spare }
      (m.apply b.fields).legs = b.fields.legs ∧ (m.apply b.fields).plannedEnd ≠ b.fields.plannedEnd
        ∧ reached 1200 (m.apply b.fields).plannedEnd = false ∧ reached 1200 (m.apply b.fields).windowEnd = false) := by
  decide +kernel

/-- The spare added, or the settings changed on a booking with a spare, on the main (OK, FAILED, DEGRADED) with a hold-off running and with
none, and on the spare with a wait-to-restore running and with none; in LIVE, OVERRUN and EXTENDED. -/
theorem wit_LoneBookingPassesItsThresholds_countdowns :
    ∀ st ∈ [BookingState.live, .overrun, .extended], ∀ had ∈ [true, false], ∀ w ∈ [WatchState.ok, .failed, .degraded],
      ∀ n ∈ [none, some 2], ∀ pos ∈ [Position.onMain, .onSpare], (had = true ∨ pos = .onMain ∧ n = none) →
        let m : Mod := { noMod with spare := if had then none else some (some spare), holdOff := some 3, wtr := some 4 }
        let b : Booking :=
          { pend st m { fields with extend := true, spare := if had then some spare else none } with
            position := pos, holdOffLeft := n, wtrLeft := n }
        let f := m.apply b.fields
        let s := atTick 1150 [(3, b)] [source main w [], source spare .ok []]
        s.bookings = [(3, b)] ∧ b.pending = some m ∧ b.endPending = false ∧ b.state.isLive = true ∧ b.request = .noRequest
          ∧ b.afresh = false ∧ f.spare = some spare ∧ (b.fields.spare = none ∨ b.fields.spare = some spare)
          ∧ f.main = b.fields.main ∧ f.legs = b.fields.legs ∧ f.start = b.fields.start ∧ f.duration = b.fields.duration
          ∧ f.allowance = b.fields.allowance ∧ f.extend = true ∧ f.holdOff = 3 ∧ f.wtr = 4 ∧ f.revertive = true
          ∧ f.switchOnDegrade = true ∧ s.watchOf b.fields.main = w ∧ s.watchOf spare = .ok := by decide +kernel

/-- A PREROLL booking at its start, a BOOKED one of no preroll at its start, and a HELD one of no group, at its planned end; and one with a
spare whose main is FAILED, and one forced to its spare. -/
theorem wit_LoneBookingEntersLive :
    (∀ x ∈ [(booking .preroll, (1100 : Word), Position.onMain), (booking .booked { fields with preroll := 0 }, 1100, .onMain),
        (booking .booked, 1100, .onMain), (booking .held, 1200, .onMain),
        (booking .preroll { fields with spare := some spare }, 1100, .onSpare),
        ({ booking .preroll { fields with spare := some spare } with request := .forceSpare }, 1100, .onSpare),
        ({ booking .held { fields with spare := some spare } with request := .lockMain }, 1100, .onMain)],
      let b := x.1
      let s := atTick x.2.1 [(3, b)] [source main .failed [], source spare .ok []]
      let i := if x.2.2 = .onMain then main else spare
      (s.inReset = false ∧ s.bookingTicks = ⟨x.2.1, false⟩ :: [] ∧ s.bookings = [(3, b)] ∧ b.pending = none
          ∧ b.endPending = false ∧ reached x.2.1 b.fields.windowEnd = false
          ∧ (b.state = .held
              ∨ (b.state = .preroll ∨ b.state = .booked ∧ reached x.2.1 b.fields.prerollPoint = true)
                  ∧ reached x.2.1 b.fields.start = true))
        ∧ s.choice b = x.2.2 ∧ (s.source i).isSome ∧ (s.source i).map Source.id = some i
        ∧ s.installCheck i b.fields.legs = .taken)
    ∧ ∀ s : State, ∀ g, s.groupOf fields.group = some g → g.state ≠ .holding :=
  ⟨by decide +kernel, fun _ _ h => nomatch h⟩

/-- LIVE with END marked; LIVE, HELD and BOOKED at the window end; EXTENDED with extend permitted no before it; with the Bill Queue at the
places where a notice is raised, and full. -/
theorem wit_LoneBookingEnds :
    (∀ x ∈ [({ booking .live with endPending := true }, (1100 : Word)), (booking .live, 1250), (booking .held, 1250),
        (booking .booked, 1250), (booking .extended, 1249)], ∀ n ∈ [0, 47, 63, 64],
      let b := x.1
      let s := billsTo n (atTick x.2 [(3, b)] [source main .ok [leg 3]])
      (s.inReset = false ∧ s.bookingTicks = ⟨x.2, false⟩ :: [] ∧ s.bookings = [(3, b)] ∧ b.pending = none
          ∧ s.bills.records.length = n ∧ b.state.isEnded = false ∧ b.fields.extend = false
          ∧ (b.state.isLive = true ∧ b.endPending = true
              ∨ b.endPending = false ∧ (reached x.2 b.fields.windowEnd = true ∨ b.state = .extended)))
        ∧ (s.bookings.map Prod.fst).Pairwise (· < ·) ∧ (s.sources.map Prod.fst).Pairwise (· < ·)
        ∧ ∀ e ∈ s.sources, e.1 = srcKey e.2.id) := by decide +kernel

theorem wit_EndAndSelectMarkTheBooking :
    (∀ s : State, s.inReset = false ∧ s.mgmt.engine = .ready ∧ s.mgmt.restart = false →
      Offers (asks s .endBooking (nat32 9)) .endBooking 4 (order .endBooking (nat32 9)) []
      ∧ ∀ v : Byte, v = 0 ∨ v = 1 ∨ v = 2 ∨ v = 3 ∨ v = 4 →
          Offers (asks s .select (nat32 9 ++ [v])) .select 5 (order .select (nat32 9 ++ [v])) []
            ∧ (order .select (nat32 9 ++ [v])).param 4 = v)
    ∧ State.reset.mgmt.mode = .commissioning ∧ up.mgmt.mode ≠ .commissioning
    ∧ up.byRef ((order .endBooking (nat32 9)).word 0) = none
    ∧ (∀ st ∈ [BookingState.live, .booked],
        (withTables [(3, booking st)] []).byRef ((order .endBooking (nat32 9)).word 0) = some (3, booking st))
    ∧ (booking .live).state.isLive = true ∧ (booking .booked).state.isLive = false
    ∧ (booking (.ended (billOf 1).bill)).state.isEnded = true ∧ fields.spare = none
    ∧ ({ fields with spare := some spare } : Fields).spare.isSome = true := by
  refine ⟨fun s hs => ⟨asks_offers hs (by decide +kernel), ?_⟩, by decide +kernel⟩
  rintro v (rfl | rfl | rfl | rfl | rfl) <;> exact ⟨asks_offers hs (by decide +kernel), by decide +kernel⟩

/-- Two EXTENDED bookings with legs on port 4, the second with more extended ticks; and none on port 5. -/
theorem wit_CutsTakeTheLongestExtended :
    ∀ n, n = 0 ∨ n = 64 →
      let b : Booking := { booking .extended with meter := { Meter.new with extended := 7 } }
      let s := billsTo n (withTables [(3, booking .extended), (4, b)] [source main .ok [leg 3, leg 4]])
      TablesInForm s ∧ s.toCut (fun _ l => l.pair.port == 4) = some 4 ∧ s.toCut (fun _ l => l.pair.port == 5) = none := by
  rintro n (rfl | rfl) <;> exact ⟨tables_of (by decide +kernel), by decide +kernel⟩

/-- An EXTENDED booking in slot `j` and one of a leg on port 4 label 7 that goes LIVE, in slot 5. -/
def contest (j : Nat) (own : Pair) (capacity n : Nat) : State :=
  let s := atTick 1100
    (if j < 5 then [(j, { booking .extended { fields with extend := true, legs := [own] } with ref := 8 }), (5, booking .preroll)]
     else [(5, booking .preroll), (j, { booking .extended { fields with extend := true, legs := [own] } with ref := 8 })])
    [{ source main .ok (⟨own, j, 0, 0, 0⟩ :: (List.range n).map fun i => ⟨⟨9, BitVec.ofNat 8 (i + 1)⟩, 77, 0, 0, 0⟩) with refs := 2 }]
  { s with ports := Vector.replicate 16 { linePort .enabled .delineated [] [] with capacity := capacity } }

/-- In the way by its pair, by a capacity one too small, and by a list one too long; and not in the way. -/
theorem wit_CutsTakeTheLongestExtended_tick :
    ∀ x ∈ [((⟨4, 7⟩ : Pair), 48000, 0, true), (⟨4, 8⟩, 199, 0, true), (⟨4, 8⟩, 200, 0, false), (⟨5, 7⟩, 100, 0, false),
        (⟨5, 7⟩, 48000, 15, true), (⟨5, 7⟩, 48000, 14, false)],
      ∀ j ∈ [4, 511],
        let s := contest j x.1 x.2.1 x.2.2.1
        let c : Booking := { booking .extended { fields with extend := true, legs := [x.1] } with ref := 8 }
        let b := booking .preroll
        (s.inReset = false ∧ s.bookingTicks = ⟨1100, false⟩ :: []
            ∧ (s.bookings = [(j, c), (5, b)] ∨ s.bookings = [(5, b), (j, c)])
            ∧ (s.sources.flatMap fun e => e.2.legs.map Leg.pair).Nodup
            ∧ (s.bookings.map Prod.fst).Pairwise (· < ·) ∧ (s.sources.map Prod.fst).Pairwise (· < ·)
            ∧ (∀ e ∈ s.sources, e.1 = srcKey e.2.id) ∧ reached 1100 b.fields.start = true
            ∧ reached 1100 b.fields.plannedEnd = false ∧ (s.source main).isSome)
          ∧ (decide (x.1 ∈ b.fields.legs)
              || (b.fields.legs.any fun q => q.port == x.1.port)
                && decide ((s.port x.1.port).capacity < s.installed x.1.port + 100 * pairsOn x.1.port b.fields.legs)
              || decide (16 < s.legCount main + 1)) = x.2.2.2 := by decide +kernel

/-- An EXTENDED booking of one leg, in slot `j`, with one in slot 5 that adds or switches; the EXTENDED one's leg is on the list of `at_`, and
so are `n` legs of others; the rest of slot 5's legs are on the main. -/
def contestOf (j : Nat) (b : Booking) (own : Pair) (at_ : SrcId) (capacity n : Nat) : State :=
  let c : Booking := { booking .extended { fields with extend := true, legs := [own], main := at_ } with ref := 8 }
  let list (i : SrcId) (mine : List Leg) : List Leg :=
    if i = at_ then mine ++ ⟨own, j, 0, 0, 0⟩ :: (List.range n).map fun i => ⟨⟨9, BitVec.ofNat 8 (i + 1)⟩, 77, 0, 0, 0⟩ else mine
  let s := atTick 1110 (if j < 5 then [(j, c), (5, b)] else [(5, b), (j, c)])
    [{ source main .ok (list main [leg 5]) with refs := 2 }, { source spare .ok (list spare []) with refs := 2 }]
  { s with ports := Vector.replicate 16 { linePort .enabled .delineated [] [] with capacity := capacity } }

/-- What the two statements ask of the EXTENDED booking and of the state. -/
def Contest (s : State) (j : Nat) : Prop :=
  s.inReset = false ∧ s.bookingTicks = ⟨1110, false⟩ :: [] ∧ (s.bookings.map Prod.fst).Pairwise (· < ·)
    ∧ (s.sources.map Prod.fst).Pairwise (· < ·)
    ∧ (∀ e ∈ s.sources, e.1 = srcKey e.2.id) ∧ (s.sources.flatMap fun e => e.2.legs.map Leg.pair).Nodup
    ∧ (s.booking j).all fun c =>
      decide (c.state = .extended ∧ c.fields.extend = true ∧ c.fields.spare = none ∧ c.position = .onMain ∧ c.pending = none
        ∧ c.endPending = false)
      && s.sources.all fun e => decide (1 < e.2.refs) && (decide (e.2.id = c.fields.main) || e.2.legs.all fun l => l.owner != j)

/-- One leg of port 4 added and none or the old one dropped: in the way by the pair, by a capacity one too small, and by a list one too
long; and not in the way, by a capacity just enough, a list just full, and after the drop. -/
theorem wit_CutsTakeTheLongestExtended_added :
    ∀ x ∈ [((⟨4, 9⟩ : Pair), true, 48000, 0, true), (⟨4, 8⟩, true, 299, 0, true), (⟨4, 8⟩, true, 300, 0, false),
        (⟨4, 8⟩, false, 200, 0, false), (⟨5, 7⟩, true, 48000, 14, true), (⟨5, 7⟩, true, 48000, 13, false),
        (⟨5, 7⟩, false, 48000, 14, false)],
      ∀ j ∈ [4, 511], ∀ st ∈ [BookingState.live, .overrun],
        let m : Mod := { noMod with legs := some (if x.2.1 then [pair, ⟨4, 9⟩] else [⟨4, 9⟩]) }
        let b := pend st m
        let f := m.apply b.fields
        let s := contestOf j b x.1 main x.2.2.1 x.2.2.2.1
        let added := f.legs.filter fun q => !b.fields.legs.contains q
        let dropped := b.fields.legs.filter fun q => !f.legs.contains q
        Contest s j ∧ s.booking 5 = some b ∧ f = { b.fields with legs := f.legs } ∧ reached 1110 f.plannedEnd = false
          ∧ reached 1110 f.windowEnd = false ∧ added = [⟨4, 9⟩]
          ∧ ((s.source main).map fun y =>
              let kept : List Leg := y.legs.filter fun l => !(l.owner == 5 && dropped.contains l.pair)
              added.contains x.1
                || decide (x.1.port = 4 ∧ x.2.2.1 < (s.setSource { y with legs := kept }).installed 4 + 100)
                || decide (16 < kept.length + 1)) = some x.2.2.2.2 := by
  unfold Contest
  decide +kernel

/-- A switch to the spare, forced and for a failure, in LIVE, OVERRUN and EXTENDED, with the spare's list just full and one too long; and with
no room even after the cut. -/
theorem wit_CutsTakeTheLongestExtended_switch :
    ∀ n ∈ [14, 15, 16], ∀ j ∈ [4, 511], ∀ st ∈ [BookingState.live, .overrun, .extended],
      ∀ b ∈ [{ booking st { fields with extend := true, spare := some spare } with request := .forceSpare },
          booking st { fields with extend := true, spare := some spare }],
        let s := contestOf j b ⟨5, 7⟩ spare 48000 n
        let s : State := if b.request = .noRequest then
            { s with sources := s.sources.map fun e =>
              (e.1, if e.2.id = main then { e.2 with watch := { e.2.watch with state := .failed } } else e.2) }
          else s
        Contest s j ∧ s.booking 5 = some b ∧ b.state.isLive = true ∧ b.fields.extend = true ∧ b.pending = none
          ∧ b.endPending = false ∧ b.fields.main ≠ spare ∧ b.fields.holdOff = 0 ∧ b.holdOffLeft = none ∧ b.afresh = false
          ∧ (b.request = .noRequest → s.watchOf main = .failed ∧ s.watchOf spare = .ok)
          ∧ (s.source b.selected).map (fun x => x.legs) = some [leg 5]
          ∧ (s.source spare).map (fun y => (y.legs.length, y.legs.countP fun l => l.owner == j)) = some (n + 1, 1) := by
  unfold Contest
  decide +kernel

/-- A booking with a spare, in a position, with a request, its countdowns, and the mark of CLEAR. -/
def protect (st : BookingState) (pos : Position) (r : Request) (h w : Option Nat) (fresh : Bool) : Booking :=
  { booking st { fields with spare := some spare, holdOff := 3, extend := true } with
    position := pos, request := r, holdOffLeft := h, wtrLeft := w, afresh := fresh }

/-- The case, the position, the request, the countdowns, the mark, the two watch states, and the other list's legs. -/
def switches : List (Position × Request × Option Nat × Option Nat × Bool × WatchState × WatchState × Nat) :=
  [(.onMain, .forceSpare, none, none, false, .ok, .failed, 15), (.onSpare, .forceMain, none, none, false, .ok, .ok, 15),
    (.onSpare, .lockMain, none, none, false, .ok, .ok, 16), (.onSpare, .forceSpare, none, none, false, .ok, .ok, 0),
    (.onMain, .forceMain, none, none, false, .failed, .ok, 0), (.onMain, .lockMain, none, none, false, .failed, .ok, 0),
    (.onMain, .noRequest, some 1, none, false, .failed, .ok, 15), (.onMain, .noRequest, some 1, none, false, .failed, .ok, 16),
    (.onMain, .noRequest, some 2, none, false, .degraded, .ok, 0), (.onMain, .noRequest, none, none, false, .failed, .ok, 0),
    (.onMain, .noRequest, some 1, none, true, .failed, .ok, 0), (.onMain, .noRequest, none, none, false, .failed, .failed, 0),
    (.onSpare, .noRequest, none, none, false, .ok, .failed, 15), (.onSpare, .noRequest, none, none, false, .ok, .failed, 16),
    (.onSpare, .noRequest, none, some 1, false, .ok, .ok, 15), (.onSpare, .noRequest, none, some 1, false, .ok, .ok, 16),
    (.onSpare, .noRequest, none, some 2, false, .ok, .ok, 0), (.onSpare, .noRequest, none, some 1, true, .ok, .ok, 0),
    (.onSpare, .noRequest, none, none, false, .degraded, .ok, 0)]

/-- In LIVE, in OVERRUN and in EXTENDED before the planned end; in LIVE at the planned end; and at the window end. -/
theorem wit_SwitchAtExpiry :
    ∀ x ∈ switches, ∀ y ∈ [((1110 : Word), BookingState.live, false, false), (1110, .overrun, false, false),
        (1110, .extended, false, false), (1200, .live, true, false), (1249, .overrun, true, false),
        (1250, .live, true, true), (1250, .extended, true, true)],
      let b := protect y.2.1 x.1 x.2.1 x.2.2.1 x.2.2.2.1 x.2.2.2.2.1
      let onM := decide (x.1 = .onMain)
      let others := (List.range x.2.2.2.2.2.2.2).map fun i => (⟨⟨9, BitVec.ofNat 8 (i + 1)⟩, 7, 0, 0, 0⟩ : Leg)
      let s := atTick y.1 [(511, b)]
        [source main x.2.2.2.2.2.1 (if onM then [leg 511] else others),
          source spare x.2.2.2.2.2.2.1 (if onM then others else [leg 511])]
      let other := if onM then spare else main
      s.inReset = false ∧ s.bookingTicks = ⟨y.1, false⟩ :: [] ∧ s.bookings = [(511, b)] ∧ b.pending = none
        ∧ b.endPending = false ∧ b.state.isLive = true ∧ reached y.1 b.fields.plannedEnd = y.2.2.1
        ∧ reached y.1 b.fields.windowEnd = y.2.2.2 ∧ b.fields.extend = true ∧ b.fields.spare = some spare ∧ b.fields.main ≠ spare
        ∧ (s.source b.selected).map (fun y => y.legs) = some [leg 511]
        ∧ (s.source other).map (fun y => y.legs) = some others
        ∧ s.watchOf b.fields.main = x.2.2.2.2.2.1 ∧ s.watchOf spare = x.2.2.2.2.2.2.1 ∧ b.fields.switchOnDegrade = true
        ∧ b.fields.revertive = true
        ∧ (s.bookings.map Prod.fst).Pairwise (· < ·) ∧ (s.sources.map Prod.fst).Pairwise (· < ·)
        ∧ ∀ e ∈ s.sources, e.1 = srcKey e.2.id := by decide +kernel

/-! ## Witnesses: tariffs, the Meter and bills -/

/-- The 24 bytes of a class with a base rate; rounding UP, every other field 0. -/
def classBytes (head : Byte) (base : Nat) : List Byte :=
  [head] ++ nat32 base ++ List.replicate 10 0 ++ [1] ++ List.replicate 8 0

/-- The steps of TariffOrdersWriteTheTable on a TARIFF WRITE, in order: the first that refuses it. -/
def tariffFailsAt (s : State) (ps : List Byte) : Option Nat :=
  let o := order .tariffWrite ps
  [decide (1 < (o.param 15).toNat), decide (s.mgmt.mode = .frozen), decide (31 < (o.param 0).toNat),
    decide (1000000 < (o.word 1).toNat), decide (1000000 < (o.word 5).toNat), decide (1000000 < (o.word 11).toNat),
    decide (8640000 < (o.word 16).toNat), decide (1000000 < (o.word 20).toNat), s.tariffs.locked].findIdx? id

/-- The 24 bytes of a class at the top of each range. -/
def topClass : List Byte :=
  [31] ++ nat32 1000000 ++ nat32 1000000 ++ nat16 65535 ++ nat32 1000000 ++ [1] ++ nat32 8640000 ++ nat32 1000000

def tariffOrders : List (List Byte × Option Nat) :=
  [(topClass.set 15 2, some 0), (topClass.set 0 32, some 2), (topClass.set 4 0x41, some 3), (topClass.set 8 0x41, some 4),
    (topClass.set 14 0x41, some 5), (topClass.set 19 0x01, some 6), (topClass.set 23 0x41, some 7), (topClass, none)]

theorem wit_TariffOrdersWriteTheTable :
    (∀ s, Awake s →
      (∀ ps ∈ tariffOrders.map Prod.fst, Offers (asks s .tariffWrite ps) .tariffWrite 24 (order .tariffWrite ps) [])
      ∧ Offers (asks s .tariffLock []) .tariffLock 0 (order .tariffLock []) []
      ∧ Offers (asks s .tariffClearAll []) .tariffClearAll 0 (order .tariffClearAll []) [])
    ∧ (∀ x ∈ tariffOrders, tariffFailsAt up x.1 = x.2)
    ∧ tariffFailsAt { up with mgmt := { up.mgmt with mode := .frozen } } topClass = some 1 ∧ up.mgmt.mode ≠ .frozen
    ∧ tariffFailsAt { up with tariffs := ⟨Vector.replicate 32 none, true⟩ } topClass = some 8 := by
  refine ⟨fun s hs => ⟨asks_each ?_ hs, asks_offers hs ?_, asks_offers hs ?_⟩, ?_⟩ <;> decide +kernel

theorem wit_TariffReadReports :
    (∀ ps : List Byte, ps = [31] ∨ ps = [32] ∨ ps = [] →
      Offers (asks up .tariffRead ps) .tariffRead ps.length (order .tariffRead ps) [])
    ∧ ((order .tariffRead [31]).param 0).toNat = (31 : Fin 32).val
    ∧ 31 < ((order .tariffRead [32]).param 0).toNat := by
  refine ⟨?_, by decide +kernel⟩
  rintro ps (rfl | rfl | rfl) <;> exact asks_offers ⟨rfl, rfl, rfl⟩ (by decide +kernel)

/-- The part 3 image whose first class is SET with a base rate of 7, the others BLANK. -/
def imageBytes (part : Byte) : List Byte := [part] ++ classBytes 1 7 ++ List.replicate 168 0

/-- The image of part 3 with its first class as given; and of part 4; and with a state byte, and a rounding, of 2. -/
def images : List (List Byte) :=
  [imageBytes 3, imageBytes 4, (imageBytes 3).set 25 2, (imageBytes 3).set 16 2]

/-- What makes an image good, in TariffCheckFindsTheFirstDifference. -/
def imageGood (ps : List Byte) : Bool :=
  let o := order .tariffCheck ps
  (List.range 8).all fun j =>
    decide ((o.param (1 + 24 * j)).toNat ≤ 1) && (o.param (1 + 24 * j) != 1 || decide ((o.param (16 + 24 * j)).toNat ≤ 1))

/-- The class that image holds, and the same with one field changed, for each field in order. -/
def heldClasses : List (Option Tariff) :=
  let t : Tariff := ⟨7, 0, 0, 0, true, 0, 0⟩
  [some t, none, some { t with baseRate := 8 }, some { t with overRate := 1 }, some { t with grace := 1 },
    some { t with minimum := 1 }, some { t with roundUp := false }, some { t with window := 1 }, some { t with fee := 1 }]

theorem wit_TariffCheckFindsTheFirstDifference :
    (∀ s, Awake s → ∀ ps ∈ images, Offers (asks s .tariffCheck ps) .tariffCheck 193 (order .tariffCheck ps) [])
    ∧ (images.map fun ps => (((order .tariffCheck ps).param 0).toNat, imageGood ps))
        = [(3, true), (4, true), (3, false), (3, false)]
    ∧ (let ps := paramsOf (order .tariffCheck (imageBytes 3)).cell
      imageEntry ps 1 = heldClasses.head?.join ∧ (∀ j < 8, 1 ≤ j → imageEntry ps (1 + 24 * j) = none))
    ∧ heldClasses.Nodup
    ∧ ∀ c ∈ heldClasses,
        let v : Vector (Option Tariff) 32 := (Vector.replicate 32 none).set 24 c
        (v[8 * 3 + 0]?).getD none = c ∧ ∀ j < 8, 1 ≤ j → (v[8 * 3 + j]?).getD none = none := by
  refine ⟨fun s hs => asks_each ?_ hs, ?_⟩ <;> decide +kernel

/-- A meter with a snapshot of grace 2, one outage tick in a row, and an accumulator one below a unit. -/
def metered : Meter :=
  { Meter.new with snapshot := some ⟨0, 3, 5, 2, 10, true, false⟩, acc := 359999, outageRun := 1 }

theorem wit_MeterChargesEveryMeteredTick :
    metered.snapshot = some ⟨0, 3, 5, 2, 10, true, false⟩ ∧ metered.acc < 360000
    ∧ (metered.liveTick .scheduled .outage false).saturated = false
    ∧ (({ metered with outageRun := 2 } : Meter).liveTick .overrun .outage true).saturated = false := by decide +kernel

/-- A count at its maximum stays there and makes the RESULT SATURATED; a carry past the maximum of U_base does; a count that reaches its
maximum, and a count at its maximum that the tick is not of, do not; and the flag stays once set (R136, R141). -/
theorem wit_MeterChargesEveryMeteredTick_saturated :
    (({ metered with scheduled := 4294967295 } : Meter).liveTick .scheduled .good false).saturated = true
    ∧ (({ metered with scheduled := 4294967295 } : Meter).liveTick .scheduled .good false).scheduled = 4294967295
    ∧ (({ metered with uBase := 4294967295 } : Meter).liveTick .scheduled .good false).saturated = true
    ∧ (({ metered with uBase := 4294967295 } : Meter).liveTick .scheduled .good false).uBase = 4294967295
    ∧ (({ metered with scheduled := 4294967294 } : Meter).liveTick .scheduled .good false).scheduled = 4294967295
    ∧ (({ metered with scheduled := 4294967294 } : Meter).liveTick .scheduled .good false).saturated = false
    ∧ (({ metered with overrun := 4294967295, uOver := 4294967295, outage := 4294967295 } : Meter).liveTick .scheduled .good
        false).saturated = false
    ∧ (({ metered with saturated := true } : Meter).liveTick .scheduled .good false).saturated = true := by decide +kernel

/-- A booking that went live and one that did not; and a metered sum of 2^32, past the maximum. -/
theorem wit_BillTotalsAtTheClose :
    ({ booking .live with meter := { Meter.new with snapshot := some ⟨0, 3, 5, 2, 10, true, false⟩, acc := 1 } } : Booking).meter.snapshot
        = some ⟨0, 3, 5, 2, 10, true, false⟩
    ∧ (booking .held).meter.snapshot = none
    ∧ (let m : Meter := { metered with uBase := 4294967290, uOver := 5 };
        m.snapshot = some ⟨0, 3, 5, 2, 10, true, false⟩ ∧ 0 < m.acc ∧ 4294967295 < m.uBase + m.uOver + 1) := by decide

/-- A queue of 64 with two waiters; position 63 and 64; releases of 0, 65, 2 and 1, and of 1 with no waiter. -/
theorem wit_BillOrdersServeTheOldest :
    (∀ s : State, s.inReset = false ∧ s.mgmt.engine = .ready ∧ s.mgmt.restart = false →
      (∀ k : Byte, k = 0 ∨ k = 63 ∨ k = 64 →
        Offers (asks s .billRead [k]) .billRead 1 (order .billRead [k]) [] ∧ (order .billRead [k]).param 0 = k)
      ∧ ∀ q, q = 0 ∨ q = 1 ∨ q = 2 ∨ q = 65 →
          Offers (asks s .billRelease (nat32 q)) .billRelease 4 (order .billRelease (nat32 q)) []
            ∧ (order .billRelease (nat32 q)).word 0 = BitVec.ofNat 32 q)
    ∧ (let s := billsTo 64 up;
        s.bills.records[63]? = some (billOf 64) ∧ s.bills.records.head? = some (billOf 1) ∧ (billOf 1).seq = 1
          ∧ (∀ r ∈ s.bills.records, r.seq ≠ 65) ∧ (∃ r ∈ s.bills.records, r.seq = 2) ∧ s.waiters = 0)
    ∧ up.bills.records.length ≤ 63 := by
  refine ⟨fun s hs => ⟨?_, ?_⟩, by decide +kernel⟩
  · rintro k (rfl | rfl | rfl) <;> exact ⟨asks_offers hs (by decide +kernel), by decide +kernel⟩
  · rintro q (rfl | rfl | rfl | rfl) <;> exact ⟨asks_offers hs (by decide +kernel), by decide +kernel⟩

/-- Two waiters of one end NT: the lower slot is first. -/
theorem wit_BillOrdersServeTheOldest_waiters :
    let w : Booking := booking (.ended (billOf 1).bill)
    let s := billsTo 64 (withTables [(3, w), (4, w)] [])
    TablesInForm s ∧ s.booking 3 = some w ∧ w.state = .ended (billOf 1).bill
      ∧ ∀ j b' bill', s.booking j = some b' → b'.state = .ended bill' →
          ticksUntil s.time.nt (billOf 1).bill.endNt < ticksUntil s.time.nt bill'.endNt
            ∨ ticksUntil s.time.nt (billOf 1).bill.endNt = ticksUntil s.time.nt bill'.endNt ∧ 3 ≤ j := by
  refine ⟨tables_of (by decide +kernel), by decide +kernel, by decide +kernel, ?_⟩
  intro j b' bill' h h'
  simp only [State.booking, billsTo, withTables, tabFind] at h
  split at h
  · next hj => cases h; cases h'; exact .inr ⟨rfl, by omega⟩
  · split at h
    · next hj => cases h; cases h'; exact .inr ⟨rfl, by omega⟩
    · cases h

/-! ## Witnesses: management cells and the node's orders -/

/-- The bytes of an order cell for a node. -/
def orderBytes (dest : BitVec 10) (code : BitVec 16) (ps : List Byte) : List Byte := cellBytes (orderTo dest code ps)

/-- A route list whose entry 15 sends 2 to 1,000 to port 7, with an order queue of `n` orders and management queues of `m` cells. -/
def routed (n m : Nat) : State :=
  let s := withPort up (linePort .enabled .delineated (mgmtCells m) [])
  { s with
    mgmt :=
      { s.mgmt with
        orders := List.replicate n (order .identify [])
        routes := (Vector.replicate 16 none).set 15 (some ⟨2, 1000, 7⟩) } }

/-- To nodes 1,001, 1, 2 and 0, with the order queue at 15 and 16 and the management queue at 63 and 64. -/
theorem wit_ManagementCellIsDisposedOf :
    (∀ n ∈ [15, 16], ∀ m ∈ [63, 64],
      let s := routed n m
      s.inReset = false ∧ (s.port 2).line = .delineated ∧ (s.port 2).isDark = false ∧ s.mgmt.address = 1
        ∧ s.mgmt.orders.length = n ∧ (s.port 2).mgmtQ.length = m
        ∧ s.mgmt.routes[15]? = some (some ⟨2, 1000, 7⟩))
    ∧ (∀ d ∈ [(1001 : BitVec 10), 1, 2, 0],
        let bytes := orderBytes d OrderKind.timeSet.code (nat32 5)
        checkPasses bytes = true ∧ (cellOf bytes).label = 0 ∧ destOf (cellOf bytes) = d.toNat
          ∧ typeOf (cellOf bytes) = .order ∧ inBroadcastSet (codeOf (cellOf bytes)) = true
          ∧ hopOf (cellOf bytes) ≠ 0) := by decide +kernel

/-- Cells of hop limit 15 and of hop limit 1. -/
theorem wit_ManagementCellIsDisposedOf_hops :
    ∀ h ∈ [(15 : BitVec 4), 1],
      let c : Cell := { orderTo 1001 OrderKind.identify.code [] with
        payload := (orderTo 1001 OrderKind.identify.code []).payload.set 5 (BitVec.ofNat 8 (16 * h.toNat)) }
      c.payload.length = 252 ∧ hopOf c = h ∧ hopOf c ≠ 0 := by decide +kernel

theorem wit_SentCellReadsBack : (orderTo 1 OrderKind.identify.code []).payload.length = 252 := by decide +kernel

theorem wit_IdentifyReports :
    Offers (asks up .identify []) .identify 0 (order .identify []) []
    ∧ Offers (asks up .identify [1]) .identify 1 (order .identify [1]) [] :=
  ⟨asks_offers ⟨rfl, rfl, rfl⟩ (by decide +kernel), asks_offers ⟨rfl, rfl, rfl⟩ (by decide +kernel)⟩

theorem wit_NodeOrdersSetTheNode :
    (∀ s : State, s.inReset = false ∧ s.mgmt.engine = .ready ∧ s.mgmt.restart = false →
      (∀ m : Byte, m = 0 ∨ m = 1 ∨ m = 2 ∨ m = 3 →
        Offers (asks s .setMode [m]) .setMode 1 (order .setMode [m]) [] ∧ (order .setMode [m]).param 0 = m)
      ∧ Offers (asks s .setHoldThreshold [17]) .setHoldThreshold 1 (order .setHoldThreshold [17]) []
      ∧ (∀ ps : List Byte, ps = [15, 2, 0, 0, 0, 0, 0] ∨ ps = [15, 0, 0, 0, 0, 0, 0]
            ∨ ps = [15, 1, 0, 1, 3, 232, 15] ∨ ps = [0, 1, 0, 0, 3, 232, 15] ∨ ps = [0, 1, 0, 1, 3, 233, 15]
            ∨ ps = [16, 0, 0, 0, 0, 0, 0] →
          Offers (asks s .setRoute ps) .setRoute 7 (order .setRoute ps) [])
      ∧ Offers (asks s .managementRestart []) .managementRestart 0 (order .managementRestart []) [])
    ∧ (∀ ps ∈ [[15, 0, 0, 0, 0, 0, 0], [15, 1, 0, 1, 3, 232, (15 : Byte)]],
        ((order .setRoute ps).param 0).toNat = (15 : Port).val ∧ (order .setRoute ps).param 1 = ps.getD 1 0)
    ∧ 15 < ((order .setRoute [16, 0, 0, 0, 0, 0, 0]).param 0).toNat
    ∧ ((order .setRoute [15, 1, 0, 1, 3, 232, 15]).param 6).toNat = (15 : Port).val
    ∧ (word16 (paramsOf (order .setRoute [15, 1, 0, 1, 3, 232, 15]).cell) 2).toNat = 1
    ∧ (word16 (paramsOf (order .setRoute [15, 1, 0, 1, 3, 232, 15]).cell) 4).toNat = 1000
    ∧ (State.reset.mgmt.mode = .commissioning ∧ State.reset.time.state = .free) ∧ up.mgmt.mode ≠ .commissioning
    ∧ (up.bookings = [] ∧ up.bills.records = []) ∧ (withTables [(3, booking .booked)] []).bookings ≠ []
    ∧ (∀ e ∈ [Engine.ready, .answerWait 0 anAnswer],
        let s : State := { up with mgmt := { up.mgmt with restart := true, engine := e } }
        s.inReset = false ∧ s.mgmt.restart = true ∧ s.mgmt.engine = e) := by
  refine ⟨fun s hs => ⟨?_, asks_offers hs (by decide +kernel), ?_, asks_offers hs (by decide +kernel)⟩, by decide +kernel⟩
  · rintro m (rfl | rfl | rfl | rfl) <;> exact ⟨asks_offers hs (by decide +kernel), by decide +kernel⟩
  · rintro ps (rfl | rfl | rfl | rfl | rfl | rfl) <;> exact asks_offers hs (by decide +kernel)

/-- A LIVE booking in the last slot with its source and its leg, on a port of just the capacity that it takes. -/
def topped : State :=
  { withTables [(511, booking .live)] [source main .ok [leg 511]] with
    ports := Vector.replicate 16 { linePort .enabled .delineated [] [] with capacity := 100 } }

theorem topped_tables : TablesInForm topped := tables_of (by decide +kernel)

theorem topped_links : LinksInForm topped := by
  refine ⟨?_, ?_, ?_, ?_, ?_, ?_, ?_, ?_, ?_⟩
  · intro i x h
    simp only [State.source, topped, withTables, sources, List.map_cons, List.map_nil, tabFind] at h
    split at h
    · next hk =>
      obtain rfl : main = i := srcKey_inj hk
      cases h
      decide +kernel
    · cases h
  · decide +kernel
  · intro e he l hl
    obtain rfl : e = (srcKey main, source main .ok [leg 511]) := by simpa [topped, withTables, sources, source, newSource] using he
    obtain rfl : l = leg 511 := by simpa [source] using hl
    exact ⟨booking .live, by decide +kernel, rfl, rfl⟩
  · decide +kernel
  · decide +kernel
  · intro g x h
    have hx : x = ⟨.opened, 0⟩ := by
      simp only [State.groupOf, topped, withTables, up, State.reset, State.hardReset] at h
      split at h
      · cases h
      · rw [Vector.getElem?_replicate] at h
        split at h <;> cases h
        rfl
    subst hx
    refine ⟨(List.countP_eq_zero.mpr fun e he => ?_).symm, fun _ => rfl⟩
    obtain rfl : e = (511, booking .live) := List.mem_singleton.mp he
    simp [booking]
  · decide +kernel
  · intro e he
    obtain rfl : e = (511, booking .live) := by simpa [topped, withTables] using he
    exact ⟨⟨by decide, by decide⟩, fun _ => rfl, fun h => (nomatch h), fun _ _ h => nomatch h⟩
  · exact fun j h => nomatch h

theorem wit_StepKeepsTheTables_links :
    TablesInForm topped ∧ LinksInForm topped ∧ CapacityForm topped ∧ topped.installed 4 = (topped.port 4).capacity
      ∧ BoundsForm topped ∧ (topped.booking 511).isSome ∧ ∃ t, step topped = .next t := by
  refine ⟨topped_tables, topped_links, ⟨by decide +kernel, ?_, fun j h => nomatch h⟩, by decide +kernel,
    ⟨by decide +kernel, by decide +kernel, fun j h => nomatch h⟩, by decide +kernel, _, rfl⟩
  show ∀ e ∈ [(511, booking .live)], e.2.state.isEnded = false → ∀ i ∈ e.2.named, ∀ x ∈ topped.source i,
    x.bandwidth = e.2.fields.bandwidth
  decide +kernel

/-- A LIVE, a BOOKED and an ENDED booking, with one place left in the Bill Queue. -/
def busy : State :=
  billsTo 63 (withTables
    [(0, booking .live), (1, { booking .booked with ref := 8 }), (2, { booking (.ended (billOf 1).bill) with ref := 7 })]
    [source main .ok [leg 0]])

theorem wit_ClearTrafficEmptiesTheNode :
    TablesInForm (asks busy .clearTraffic [])
    ∧ Offers (asks busy .clearTraffic []) .clearTraffic 0 (order .clearTraffic []) []
    ∧ (asks busy .clearTraffic []).mgmt.mode ≠ .commissioning ∧ State.reset.mgmt.mode = .commissioning
    ∧ Offers (asks State.reset .clearTraffic []) .clearTraffic 0 (order .clearTraffic []) [] := by
  refine ⟨tables_of ?_, asks_offers ⟨rfl, rfl, rfl⟩ ?_, ?_, ?_, asks_offers ⟨rfl, rfl, rfl⟩ ?_⟩ <;> decide +kernel

/-- The one LIVE booking, with two DRAINING ports, at the places of the Bill Queue where a notice is raised, and with it full. -/
theorem wit_ClearTrafficEmptiesTheNode_bills :
    ∀ n ∈ [46, 47, 63, 64],
      let r := linePort .draining .delineated [] [feed]
      let s := asks (billsTo n { topped with ports := (topped.ports.set 2 r).set 6 r }) .clearTraffic []
      TablesInForm s ∧ LinksInForm s ∧ Offers s .clearTraffic 0 (order .clearTraffic []) [] ∧ s.mgmt.mode ≠ .commissioning
        ∧ s.bills.records.length = n ∧ (s.bookings.filter fun e => e.2.state.isLive) = [(511, booking .live)]
        ∧ (s.port 2).state = .draining ∧ (s.port 6).state = .draining := by
  intro n hn
  have h := topped_links
  refine ⟨⟨topped_tables.1, topped_tables.2, topped_tables.3⟩, ⟨h.1, h.2, h.3, h.4, h.5, h.6, h.7, h.8, fun j h => nomatch h⟩,
    asks_offers ⟨rfl, rfl, rfl⟩ (by decide +kernel), fun e => (nomatch e), ?_⟩
  fin_cases hn <;> decide +kernel

/-! ## Witnesses: what every step keeps -/

theorem wit_StepKeepsQueueBounds : QueueBounds up ∧ ∃ t, step up = .next t :=
  ⟨⟨by decide +kernel, by decide +kernel, by decide +kernel, by decide, by decide, by decide, by decide, by decide⟩, _, rfl⟩

theorem wit_StepKeepsTheTables :
    let s := withTables [(3, booking .live)] [source main .ok [leg 3]]
    TablesInForm s ∧ SourcesInForm s ∧ ∃ t, step s = .next t := by
  refine ⟨tables_of (by decide +kernel), ⟨by unfold WatchParams.ok; decide, ?_⟩, _, rfl⟩
  intro e he
  obtain rfl : e = (srcKey main, source main .ok [leg 3]) := by simpa [withTables, sources, source, newSource] using he
  exact ⟨by decide, by decide, by unfold WatchParams.ok; decide, by decide, by decide, by decide, by decide, fun n h => nomatch h⟩

theorem wit_StepKeepsBillsAndMeters :
    let s := billsTo 2 (withTables [(3, booking .live)] [])
    BillForm s ∧ AccumulatorsBelowUnit s ∧ ∃ t, step s = .next t := by
  refine ⟨⟨⟨?_, ?_⟩, ?_, ?_, ?_⟩, ?_, _, rfl⟩
  · decide +kernel
  · show _ = nextSeq _
    decide +kernel
  · decide +kernel
  · decide +kernel
  · decide +kernel
  · intro e he
    obtain rfl : e = (3, booking .live) := by simpa [billsTo, withTables] using he
    decide

theorem wit_StepKeepsPortsTimeAndMode :
    PortsInForm up ∧ TimeForm up ∧ ModeForm up ∧ ∃ t, step up = .next t := by
  refine ⟨.inr fun p => ?_, ⟨by decide, by decide, by decide, by decide, ?_, ?_⟩, ⟨?_, by decide, by decide⟩, _, rfl⟩
  · simp [State.port, up, resetPort, PortForm]
  · rintro a h
    exact Nat.zero_le _
  · rintro a h
    exact Nat.zero_le _
  · intro h
    exact absurd h (by decide)

/-! ## Behaviour: the manual's worked sequences, one step each -/

/-- What a test reads off the state after a command. -/
def look {α : Type} (c : Instr) (s : State) (f : State → α) : Option α := (next c s).map f

/-- The result and data of the answer to an order of a kind. -/
def answered (c : Instr) (s : State) (k : OrderKind) (ps : List Byte) : Option (Result × AnswerData) :=
  match look c (asks s k ps) fun t => (t.port 2).mgmtQ with
  | some [.answer _ a] => some (a.result, a.data)
  | _ => none

/-- R2: the check of the bytes 01, 12, 30 and of FF, FF, F0, by long division with 1D5 on paper. -/
theorem test_header_check : headerCheck 0x01 0x12 0x30 = 0xd3 ∧ headerCheck 0xFF 0xFF 0xF0 = 0xbe := by decide +kernel

/-- 1.9: PORT DISABLE with cells queued; the light lost while DRAINING; PORT ENABLE of the DARK port; the line restored. -/
theorem test_disable_with_feed_cells :
    answered .portDisable (withPort up (linePort .enabled .delineated [] [feed])) .portDisable [7]
      = some (.done, .portState 7 .draining) := by decide +kernel
theorem test_light_lost_in_the_drain :
    (look (.lossOfLight 7) (withPort up (linePort .draining .delineated [] [feed])) fun t =>
      ((t.port 7).state, (t.port 7).line, (t.port 7).feedQ, t.mgmt.notices.map Notice.content))
      = some (.dark .disabled, .noLight, [],
          [.portState 7 .draining (.dark .disabled) .noLight .lossOfLight]) := by decide +kernel
theorem test_enable_of_a_dark_port :
    answered .portEnable (withPort up (linePort (.dark .disabled) .noLight [] [])) .portEnable [2] = none
    ∧ (look .portEnable (asks (withPort up (linePort (.dark .disabled) .noLight [] [])) .portEnable [7]) fun t =>
        ((t.port 7).state, t.mgmt.notices)) = some (.dark .enabled, []) := by decide +kernel
theorem test_line_restored :
    (look (.delineationFound 7) (withPort up (linePort (.dark .enabled) .searching [] [])) fun t =>
      ((t.port 7).state, (t.port 7).line)) = some (.enabled, .delineated) := by decide +kernel

/-- 2.9: the deadline at 25 ms; the refused difference of +3; the accepted step. -/
def node412 (st : TimeState) (nt : Word) (pol : StepPolicy) : State :=
  { timed st (some 3) pol with
    now := 20
    time :=
      { (timed st (some 3) pol).time with
        nt := nt, nextLocal := if st = .locked then none else some 35
        deadline := if st = .locked then some 25 else none } }
theorem test_deadline_passes :
    (look .timeCellDeadline (node412 .locked 5000001 .refuse) fun t => (t.time.state, t.time.nt, t.time.nextLocal))
      = some (.holdover, 5000002, some 35) := by decide +kernel
theorem test_step_refused :
    (look (.cellArrival 3 (timeBytes 5000103)) (node412 .holdover 5000099 .refuse) fun t =>
      (t.time.state, t.time.nt, t.time.stepCount, t.time.lastRefused)) = some (.holdover, 5000099, 1, some 3) := by
  decide +kernel
theorem test_step_accepted :
    (look (.cellArrival 3 (timeBytes 5000105)) (node412 .holdover 5000101 .accept) fun t =>
      (t.time.state, t.time.nt, t.bookingTicks, t.mgmt.notices.length))
      = some (.locked, 5000105, [⟨5000105, true⟩], 2) := by decide +kernel

/-- 3.4: one cell, three legs; port 11 is DRAINING. -/
theorem test_one_cell_three_legs :
    (let r := replicate [] [⟨⟨9, 40⟩, 4, 311, 20791, 0⟩, ⟨⟨11, 40⟩, 4, 311, 20791, 0⟩, ⟨⟨9, 41⟩, 7, 2900, 2900, 0⟩]
        (up.ports.set 11 (linePort .draining .delineated [] [feed]));
      (r.2, r.1[9].feedQ, r.1[11].feedQ))
      = ([⟨⟨9, 40⟩, 4, 312, 20792, 0⟩, ⟨⟨11, 40⟩, 4, 311, 20791, 1⟩, ⟨⟨9, 41⟩, 7, 2901, 2901, 0⟩],
          [⟨40, 311, []⟩, ⟨41, 2900, []⟩], [feed]) := by decide +kernel

/-- 4.4: candidates E, F and G on port 6 at NT 2,000,000. -/
def onSix (st : BookingState) (ref : Word) (bw : Nat) (labels : List Byte) (start stop : Nat) : Booking :=
  { booking st { fields with
      bandwidth := bw, legs := labels.map fun l => ⟨6, l⟩, main := ⟨1, ref.setWidth 8⟩
      start := BitVec.ofNat 32 (2000000 + start), effStart := BitVec.ofNat 32 (2000000 + start), duration := stop - start
      allowance := 0 } with ref := ref }
def candE : Booking := onSix .booked 5 12000 [21, 22] 100 1000
def abc : List (Nat × Booking) :=
  [(3, onSix .live 1 12000 [10] 0 400), (9, onSix .booked 2 6000 [11, 12] 250 900),
    (11, onSix .booked 3 12000 [30] 600 2000)]
def admits (b : Booking) (held : List (Nat × Booking)) : Option Refused :=
  up.admission 2000000 (partOf 2000000 false b.fields) held
theorem test_candidate_E : admits candE abc = none := by decide +kernel
theorem test_candidate_F :
    admits (onSix .booked 6 6000 [23] 500 700) ((0, candE) :: abc)
      = some ⟨.capacity, .overCapacity 6 2000600 54000⟩ := by decide +kernel
theorem test_candidate_G :
    admits (onSix .booked 7 12000 [21] 950 1200) ((0, candE) :: abc) = some ⟨.conflict, .conflictWith 5 0 ⟨6, 21⟩⟩
    ∧ admits (onSix .booked 7 12000 [21] 1000 1200) ((0, candE) :: abc) = none := by decide +kernel

/-- 6.8: the window end at 9,000,200; the port DARK; the first tick of arrivals; the fiftieth good tick. -/
def watched (st : WatchState) (silent good pos err : Nat) (arrivals : Word) : State :=
  let x := ticking st
  withTables [(3, booking .live)]
    [{ x with
        arrivals := arrivals
        watch := { x.watch with
          silentRun := silent, goodRun := good, position := pos, errored := err, params := ⟨5, 50, 10⟩ } }]
def seen (t : State) : Option (WatchState × List Nat × Option Nat) :=
  (t.source main).map fun x =>
    (x.watch.state, [x.watch.silentRun, x.watch.goodRun, x.watch.position, x.watch.errored], x.watch.lastErrored)
theorem test_errored_window :
    look (.windowEnd 0 20) (watched .ok 0 3 99 12 40) seen = some (some (.degraded, [0, 4, 0, 0], some 12)) := by
  decide +kernel
theorem test_port_dark_fails_the_source :
    seen ((watched .degraded 0 14 42 3 40).darkEvent 0) = some (.failed, [5, 0, 42, 3], none) := by decide +kernel
theorem test_arrivals :
    look (.sourceTick 0 20) (watched .failed 120 0 57 0 40) seen = some (some (.recovering, [0, 1, 58, 0], none)) := by
  decide +kernel
theorem test_cleared :
    look (.cleared 0 20) (watched .recovering 0 49 6 0 40) seen = some (some (.ok, [0, 50, 7, 0], none)) := by decide +kernel
theorem test_silent :
    look (.silent 0 20) (watched .ok 4 0 6 0 0) seen = some (some (.failed, [5, 0, 7, 0], none)) := by decide +kernel

/-- 7.9: slot 40 switches to P at its last hold-off tick, and slot 9, EXTENDED, is cut for its places. -/
def slot9 : Booking :=
  let b := booking .extended { fields with main := spare, extend := true }
  { b with ref := 1, meter := { Meter.new with extended := 41200 } }
def cutFibre : State :=
  let b := booking .live { fields with spare := some spare, holdOff := 150, switchOnDegrade := false }
  atTick 1110 [(9, slot9), (40, { b with holdOffLeft := some 1 })]
    [source main .failed (List.replicate 3 (leg 40)),
      { source spare .ok (List.replicate 12 (leg 7) ++ List.replicate 2 (leg 9)) with refs := 5 }]
theorem test_hold_off_expiry_cuts :
    (look (.holdOffExpiry 40) cutFibre fun t =>
      ((t.source spare).map fun x => x.legs.length, (t.booking 40).map Booking.position, t.booking 9,
        t.bills.records.map fun r => r.bill.outcome))
      = some (some 15, some .onSpare, none, [.cut]) := by decide +kernel

/-- 8.7 and 8.8: the five-hundredth outage tick and the one after it; the highest rate; the close. -/
def match7 (run a ub : Nat) : Meter :=
  { Meter.new with
    snapshot := some ⟨7, 12000, 18000, 500, 20000, true, false⟩, outageRun := run, acc := a, uBase := ub }
theorem test_last_graced_tick :
    (match7 499 108000 6683).liveTick .scheduled .outage false
      = { match7 500 120000 6683 with scheduled := 1, outage := 1 } := by decide +kernel
theorem test_first_credited_tick :
    (match7 500 120000 6683).liveTick .scheduled .outage false
      = { match7 501 120000 6683 with scheduled := 1, outage := 1, credited := 1 } := by decide +kernel
theorem test_highest_rate :
    let m : Meter := { match7 0 359999 0 with snapshot := some ⟨7, 1000000, 0, 0, 0, false, false⟩ }
    (m.charge .scheduled).uBase = 3 ∧ (m.charge .scheduled).acc = 279999 := by decide +kernel
theorem test_close_of_the_match :
    let m : Meter :=
      { match7 0 96000 23966 with uOver := 1876, scheduled := 720000, overrun := 37512, outage := 1500, credited := 1000 }
    let b : Booking := { booking .overrun { fields with start := 3000000, duration := 720000 } with meter := m }
    let bill := closeBill b .endedByOrder 3757512
    (bill.round, bill.total, bill.minimumApplied, bill.early) = (1, 25843, false, false) := by decide +kernel

/-- 9.6: the release of the oldest writes slot 12, of the earliest end NT; a release of another is refused. -/
def waiter (ref endNt : Word) : Booking :=
  { booking (.ended { (billOf 1).bill with endNt := endNt }) with ref := ref }
def night : State :=
  billsTo 64 (withTables [(7, waiter 70 9160000), (12, waiter 120 9151200), (40, waiter 400 9151200)] [])
theorem test_release_writes_the_earliest_waiter :
    answered .billRelease night .billRelease (nat32 1)
      = some (.done, .released 1 64 (some 2) (some ⟨12, 120, .cut, 65⟩) 2) := by decide +kernel
theorem test_release_of_a_newer_bill :
    answered .billRelease night .billRelease (nat32 2) = some (.notOldest, .oldest (some 1) 64 3) := by decide +kernel
theorem test_bill_read_past_the_newest :
    answered .billRead night .billRead [64] = some (.range, .empty) := by decide +kernel

/-! ## Behaviour: one step of the other commands -/

/-- R172: an order of a wrong parameter length, and one of no known code, are refused with FORMAT. -/
theorem test_wrong_length : answered .identify up .identify [0] = some (.format, .empty) := by decide +kernel
theorem test_unknown_code :
    (let s : State := { up with mgmt := { up.mgmt with orders := [⟨2, orderTo 1 0x00FF []⟩] } };
      (s.idle.port 2).mgmtQ.length) = 1 := by decide +kernel
/-- R168: SERVICE is refused with STATE while NT is not valid. -/
theorem test_service_needs_time :
    answered .setMode { up with mgmt := State.reset.mgmt, time := State.reset.time } .setMode [1]
      = some (.state, .nodeMode .commissioning) := by decide +kernel
/-- R163: a threshold of 17 is stored as 16. -/
theorem test_threshold_is_clamped :
    answered .setHoldThreshold up .setHoldThreshold [17] = some (.done, .threshold ⟨16, true⟩) := by decide +kernel
/-- R160: an entry cleared ignores its range and port. -/
theorem test_route_cleared : answered .setRoute up .setRoute [0, 0, 9, 9, 9, 9, 99] = some (.done, .route 0 none) := by
  decide +kernel
/-- R169: the restart waits for its answer, and then clears the controller record. -/
theorem test_restart :
    (look .managementRestart (asks up .managementRestart []) fun t => (t.mgmt.restart, t.mgmt.controller.isSome))
      = some (true, true)
    ∧ (look .restartAction { up with mgmt := { up.mgmt with restart := true } } fun t =>
        (t.mgmt.restart, t.mgmt.controller)) = some (false, none) := by decide +kernel
/-- R170: one ABORTED bill written, one booking freed, one already waiting. -/
theorem test_clear_traffic :
    answered .clearTraffic busy .clearTraffic [] = some (.done, .trafficCleared 1 1 1 1) := by decide +kernel
/-- R11: below the installed bandwidth of port 4. -/
theorem test_capacity_below_installed :
    answered .portCapacity (withTables [] [source main .ok [leg 3]]) .portCapacity [4, 0, 99]
      = some (.capacity, .overCapacity 4 1000 100) := by decide +kernel
/-- R11: the same capacity, with more admitted on it than it holds; a value above it is stored. -/
theorem test_same_capacity_below_the_peak :
    answered .portCapacity (loaded 100 [(4, later)]) .portCapacity [4, 0, 100]
      = some (.capacity, .overCapacity 4 1200 200)
    ∧ answered .portCapacity (loaded 100 [(4, later)]) .portCapacity [4, 0, 101]
      = some (.done, .portCapacity ⟨101, false⟩) := by decide +kernel
/-- R28: TIME SET in LOCKED. -/
theorem test_time_set_when_locked :
    answered .timeSet (timed .locked) .timeSet (nat32 5) = some (.state, .empty) := by decide +kernel
/-- R27: port 16. -/
theorem test_time_source_16 : answered .timeSource up .timeSource [16] = some (.range, .empty) := by decide +kernel
/-- R50: label 0 is no feed label. -/
theorem test_source_status_label_0 : answered .sourceStatus up .sourceStatus [0, 0] = some (.range, .empty) := by
  decide +kernel
/-- R113: the defaults, each value clamped from below. -/
theorem test_watch_defaults :
    (look .sourceWatch (asks up .sourceWatch [1, 0, 0, 0, 0, 0, 0, 0]) fun t => t.defaults) = some ⟨1, 1, 1⟩ := by
  decide +kernel
/-- R65: the booking stands in the lowest FREE slot, and its two sources are created. -/
theorem test_book_accepted :
    (look .bookAccepted
      { withTables [(0, { booking .booked { fields with legs := [⟨5, 5⟩] } with ref := 8 })] [] with
        mgmt := { up.mgmt with engine := .working (bookJobAt 0) } } fun t =>
      (t.bookings.map Prod.fst, t.sources.map Prod.fst, (t.booking 1).map fun b => b.fields))
      = some ([0, 1], [20, 276], some bookedFields) := by decide +kernel
/-- R70: a pending modification; the record stands. -/
theorem test_modify_is_pending :
    (look .modify (asks (withTables [(3, booking .booked)] []) .modify (modifyOf 0x40 21 (nat32 99))) fun t =>
      (t.booking 3).map fun b => (b.fields.duration, b.pending)) = some (some (100, some (modTo (some 99) none none))) := by decide +kernel
/-- R71: with the start 100 ticks off under a BLANK class the cancel is early; at its start it is late. -/
theorem test_cancel_early :
    answered .cancel (withTables [(3, booking .booked)] []) .cancel (nat32 9) = some (.done, .cancelled) := by decide +kernel
theorem test_cancel_late :
    answered .cancel { withTables [(3, booking .preroll)] [] with time := { up.time with nt := 1100 } } .cancel (nat32 9)
      = some (.done, .cancelledLate (some 1)) := by decide +kernel
/-- R94, R125, R73, R75, R76. -/
theorem test_end_of_a_booked : answered .endBooking (withTables [(3, booking .booked)] []) .endBooking (nat32 9)
    = some (.state, .empty) := by decide +kernel
theorem test_force_spare_without_one :
    answered .select (withTables [(3, booking .live)] []) .select (nat32 9 ++ [2]) = some (.state, .empty) := by
  decide +kernel
theorem test_read_of_a_free_slot :
    answered .bookingRead up .bookingRead ([1] ++ nat32 511) = some (.done, .freeSlot) := by decide +kernel
theorem test_group_hold : answered .groupHold up .groupHold [32] = some (.done, .group .holding 0) := by decide +kernel
theorem test_release_of_a_held_group :
    answered .groupRelease (holding up) .groupRelease [32] = some (.done, .group .releasing 1) := by decide +kernel
/-- R126: CLEAR ends a request, and on the next tick the hold-off starts from its 3 ticks and not from the 1 that was left. -/
theorem test_clear_starts_the_countdowns_afresh :
    (look .select (asks (withTables [(3, protect .live .onMain .forceMain (some 1) none false)] []) .select (nat32 9 ++ [0]))
      fun t => (t.booking 3).map fun b => (b.request, b.holdOffLeft, b.afresh)) = some (some (.noRequest, some 1, true))
    ∧ (look .bookingTick
        (atTick 1110 [(3, protect .live .onMain .noRequest (some 1) none true)]
          [source main .failed [leg 3], source spare .ok []])
        fun t => (t.booking 3).map fun b => (b.position, b.holdOffLeft, b.afresh)) = some (some (.onMain, some 3, false)) := by
  decide +kernel
/-- The slot and the number in a BOOKING_ENDED notice. -/
def endedIn : NoticeContent → Option (Nat × Option Word)
  | .bookingEnded k _ _ _ _ _ seq => some (k, seq)
  | _ => none

/-- R95, R148, R155: of two LIVE bookings the first bill takes the last place and the next number, and the second waits. -/
theorem test_clear_traffic_bills :
    let s := asks (billsTo 63 (withTables [(0, booking .live), (7, { booking .live with ref := 8 })]
      [{ source main .ok [leg 0] with refs := 2 }])) .clearTraffic []
    (look .clearTraffic s fun t => (t.bills.records.drop 63).map fun r => (r.seq, r.bill.ref))
      = some [(64, 9)]
    ∧ (look .clearTraffic s fun t => t.bookings.map fun e => (e.1, e.2.ref, e.2.state.isEnded)) = some [(7, 8, true)]
    ∧ (look .clearTraffic s fun t => t.mgmt.notices.map fun x => endedIn x.content)
      = some [none, some (0, some 64), some (7, none)] := by decide +kernel
/-- R89, R90, R123: the EXTENDED booking in the way of an added leg, and of a switch of a LIVE booking, is cut; an EXTENDED one cuts nothing
and stays on its main. -/
theorem test_cut_for_an_added_leg :
    (look .bookingTick (contestOf 4 (pend .live { noMod with legs := some [pair, ⟨4, 9⟩] }) ⟨4, 9⟩ main 48000 0) fun t =>
      (t.bills.records.map fun r => (r.bill.ref, r.bill.outcome), (t.source main).map fun x => x.legs.map Leg.pair))
      = some ([(8, .cut)], some [pair, ⟨4, 9⟩]) := by decide +kernel
theorem test_cut_for_a_switch :
    [BookingState.live, .extended].map (fun st =>
      look .bookingTick
        (contestOf 511 { booking st { fields with extend := true, spare := some spare } with request := .forceSpare } ⟨5, 7⟩ spare
          48000 15) fun t => (t.bills.records.map fun r => r.bill.ref, (t.booking 5).map Booking.position))
      = [some ([8], some .onSpare), some ([], some .onMain)] := by decide +kernel
/-- R81: HELD stops at the planned end that the modification changed, though its window end is reached too; it ends on the next tick. -/
theorem test_held_stops_at_a_changed_planned_end :
    let b := pend .held { noMod with duration := some 50, allowance := some 100 }
    let s := { withTables [(3, b)] [source main .ok []] with bookingTicks := [⟨1250, false⟩, ⟨1251, false⟩] }
    (look .bookingTick s fun t => (t.booking 3).map fun b => (b.state, b.meter.held)) = some (some (.held, 1))
    ∧ ((look .bookingTick s id).bind fun t => look .bookingTick t fun t => (t.booking 3, t.bills.records.length))
      = some (none, 1) := by decide +kernel
/-- R25, R81: an EXTENDED booking whose window end lies ahead again, and whose modification sets extend permitted to no, ends. -/
theorem test_extended_ends_without_extend :
    (look .bookingTick (atTick 1100 [(3, pend .extended { noMod with extend := some false } { fields with extend := true })]
        [source main .ok [leg 3]])
      fun t => (t.booking 3, t.bills.records.map fun r => r.bill.outcome)) = some (none, [.endedAtLimit]) := by decide +kernel
/-- R64, R67: the spare is changed by a MODIFY, and a tick switches the booking to it while the computation runs. -/
theorem test_switch_during_a_spare_change :
    let b : Booking := booking .live { fields with spare := some spare }
    let ps := modifyOf 0x800 30 [0, 0, 0]
    let j : Job := ⟨order .modify ps, 1000, .modify 3 (modifyBlock (paramsOf (order .modify ps).cell)) { noMod with spare := some none } b, 512, []⟩
    (look .modifyAccepted
      (working j (withTables [(3, { b with position := .onSpare })] [source main .ok [], source spare .ok [leg 3]]))
      fun t => (t.port 2).mgmtQ.map fun c => match c with
        | .answer _ a => some (a.result, a.data)
        | _ => none) = some [some (.state, .badField .spareSource)] := by decide +kernel
/-- R151, R172: the count and the waiters of a refused BILL READ lie in its result data. -/
theorem test_no_bill_bytes : answerDataBytes (.noBill 63 258) = [0, 63, 1, 2] := by decide
/-- R131, R132, R133, R135. -/
theorem test_tariff_write_locked :
    answered .tariffWrite { up with tariffs := ⟨Vector.replicate 32 none, true⟩ } .tariffWrite (classBytes 31 1)
      = some (.locked, .empty) := by decide +kernel
theorem test_clear_all_unlocks :
    (look .tariffClearAll (asks { up with tariffs := ⟨Vector.replicate 32 none, true⟩ } .tariffClearAll []) fun t =>
      t.tariffs.locked) = some false := by decide +kernel
theorem test_tariff_check_mismatch :
    answered .tariffCheck up .tariffCheck (imageBytes 3) = some (.done, .checkMismatch 24 .clsState .blank false) := by
  decide +kernel
/-- R42: 20 tokens of bandwidth 100 become 120, and 60 become 125. -/
theorem test_refill :
    (look .tokenRefill
      { withTables [] [{ source main .ok [] with tokens := 20 }, { source spare .ok [] with tokens := 60 }] with
        refillTicks := [⟨1, false⟩] } fun t => t.sources.map fun e => e.2.tokens) = some [120, 125] := by decide +kernel
/-- R14: an idle cell; and R17: nothing moves while RESET is asserted. -/
theorem test_idle_cell : (look (.lineSend 0) up fun t => (t.port 0).lineOut) = some (some .idle) := by decide +kernel
theorem test_in_reset : look (.lineSend 0) { up with inReset := true } (fun t => (t.port 0).lineOut) = some none := by
  decide +kernel

end Sys2Proof.Tests
end

