-- ==== Sys2Proof/Proofs/StepCases.lean ====
section
/-! What one step can do, said once: the work of an order, the events of the part, and the rule by which an invariant is shown to
be kept by every step. -/

namespace Sys2Proof.Machine

/-! ## Commands that change nothing, and the checks of an order -/

/-- A command other than the two of RESET leaves the state as it is while RESET is asserted, and acts otherwise (R17). -/
theorem State.awake_eq_next {s t : State} {f : State → State} (h : s.awake f = .next t) :
    s.inReset = true ∧ t = s ∨ s.inReset = false ∧ t = f s := by
  rw [State.awake_next] at h
  injection h with h
  subst h
  cases s.inReset <;> simp

theorem clamp_value_le {lo hi n : Nat} (h : lo ≤ hi) : lo ≤ (clamp lo hi n).value ∧ (clamp lo hi n).value ≤ hi := by
  simp only [clamp]
  omega

/-- The work of an order that names a port: refused, or what the order does on that port. -/
theorem onPort_cases (o : Order) (n : Nat) (s : State) (act : Port → Reply) :
    (onPort o n s act).state = s ∨ ∃ p, (onPort o n s act).state = (act p).state := by
  unfold onPort
  split
  · exact .inl rfl
  · split
    · exact .inl rfl
    · next p _ => exact .inr ⟨p, rfl⟩

/-- A new capacity is stored only where it exceeds the old one or reaches what is installed, and a refusal changes nothing (R11). -/
theorem State.setCapacity_cases (s : State) (p : Port) (value : Nat) :
    (s.setCapacity p value).state = s ∨ ∃ v ≤ 48000, ((s.port p).capacity < v ∨ s.installed p ≤ v)
      ∧ (s.setCapacity p value).state = s.setPort p { s.port p with capacity := v } := by
  have hv : min value 48000 ≤ 48000 := by omega
  unfold State.setCapacity
  dsimp only
  split
  · next h => exact .inr ⟨_, hv, .inl h, rfl⟩
  · split
    · exact .inl rfl
    · next h =>
      split
      · exact .inl rfl
      · exact .inr ⟨_, hv, .inr (by simpa using h), rfl⟩

/-! ## What the work of an order can do -/

/-- What the work of an order other than BOOK and MODIFY can do to the state in which it has been taken. -/
inductive OrderWork (s : State) : State → Prop
  | nothing : OrderWork s s
  | mode (m : NodeMode) (h : s.modeAllowed m = true) : OrderWork s { s with mgmt.mode := m }
  | restart : OrderWork s { s with mgmt.restart := true }
  | threshold (n : Nat) (h : 1 ≤ n ∧ n ≤ 16) : OrderWork s { s with mgmt.holdThreshold := n }
  | routes (r : Vector (Option Route) 16) : OrderWork s { s with mgmt.routes := r }
  | clearTraffic (h : s.mgmt.mode ≠ .commissioning) : OrderWork s s.clearTraffic
  | enablePort (p : Port) : OrderWork s (s.enablePort p)
  | disablePort (p : Port) : OrderWork s (s.disablePort p)
  | capacity (p : Port) (v : Nat) (hv : v ≤ 48000) (h : (s.port p).capacity < v ∨ s.installed p ≤ v) :
      OrderWork s (s.setPort p { s.port p with capacity := v })
  | timeSource (sel : Option Port) : OrderWork s (s.selectSource sel)
  | timeSet (t : Word) (h : ¬ (s.time.state = .locked ∨ s.time.state = .holdover)) : OrderWork s (s.setTime t)
  | timePolicy (p : StepPolicy) : OrderWork s { s with time := { s.time with policy := p, lastRefused := none } }
  | defaults (w : WatchParams) (h : w.ok) : OrderWork s { s with defaults := w }
  | watch (i : SrcId) (x : Source) (w : WatchParams) (hx : s.source i = some x) (h : w.ok) :
      OrderWork s (s.setSource { x with watch.params := w })
  | cancelEarly (ref : Word) (k : Nat) (b : Booking) (hb : s.byRef ref = some (k, b))
      (h : b.state = .booked ∨ b.state = .preroll) : OrderWork s (s.cancelEarly k b).state
  | cancelLate (ref : Word) (k : Nat) (b : Booking) (hb : s.byRef ref = some (k, b)) (hl : b.state.isLive = false)
      (he : b.state.isEnded = false) : OrderWork s (s.cancelLate k b).state
  | endPending (ref : Word) (k : Nat) (b : Booking) (hb : s.byRef ref = some (k, b)) (hl : b.state.isLive = true) :
      OrderWork s (s.setBooking k { b with endPending := true })
  | select (ref : Word) (k : Nat) (b : Booking) (r : Request) (hb : s.byRef ref = some (k, b)) (he : b.state.isEnded = false) :
      OrderWork s (s.setBooking k (b.placeRequest r))
  | group (g : Nat) (x : Group) (st : GroupState) (hx : s.groupOf g = some x) (h : st = .opened → x.held = 0) :
      OrderWork s (s.setGroup g { x with state := st })
  | tariffs (u : TariffTable) : OrderWork s { s with tariffs := u }
  | release (seq : Word) (h : s.oldestBill = some seq) : OrderWork s (s.releaseOldest seq).state

/-- A step of checks ends in the state as it is, or in what the order does with every check passed. -/
theorem State.checked_state (s : State) (steps : List (Bool × Refused)) (act : Reply) :
    (s.checked steps act).state = s ∨ firstFail steps = none ∧ (s.checked steps act).state = act.state := by
  rcases s.checked_cases steps act with ⟨r, -, h⟩ | ⟨h, h'⟩
  · exact .inl (by rw [h])
  · exact .inr ⟨h, by rw [h']⟩

/-- An order whose checks are made in order does nothing, or what it does once they have all passed. -/
theorem checked_work {s : State} {steps : List (Bool × Refused)} {act : Reply}
    (h : firstFail steps = none → OrderWork s act.state) : OrderWork s (s.checked steps act).state := by
  rcases s.checked_state steps act with h' | ⟨hf, h'⟩ <;> rw [h']
  · exact .nothing
  · exact h hf

/-- Every check of a list that nothing fails has passed. -/
theorem firstFail_none {steps : List (Bool × Refused)} (h : firstFail steps = none) : ∀ x ∈ steps, x.1 = false := by
  induction steps with
  | nil => simp
  | cons x rest ih =>
    obtain ⟨fails, r⟩ := x
    simp only [firstFail] at h
    split at h
    · cases h
    · next hf =>
      intro y hy
      rcases List.mem_cons.mp hy with rfl | hy
      · simpa using hf
      · exact ih h y hy

section
variable (o : Order) (s : State)

theorem setMode_work : OrderWork s
    (match if o.badLength 1 then none else modeOf (byteAt (paramsOf o.cell) 0) with
    | none => (⟨s, .format, .empty⟩ : Reply)
    | some m =>
      if s.modeAllowed m then ⟨{ s with mgmt.mode := m }, .done, .nodeMode m⟩ else ⟨s, .state, s.modeRefusal m⟩).state := by
  split
  · exact .nothing
  · next m _ =>
    split
    · next h => exact .mode m h
    · exact .nothing

theorem setRoute_work : OrderWork s (setRoute o s).state := by
  unfold setRoute
  dsimp only
  split
  · exact .nothing
  · split
    · exact .nothing
    · split
      · exact .routes _
      · exact .nothing

theorem clearTrafficOrder_state : (clearTrafficOrder o s).state = s
    ∨ s.mgmt.mode ≠ .commissioning ∧ (clearTrafficOrder o s).state = s.clearTraffic := by
  unfold clearTrafficOrder
  generalize s.clearTraffic = u
  by_cases hm : s.mgmt.mode = .commissioning
  · left
    cases hb : o.badLength 0 <;> simp [State.checked, firstFail, checkStep, hm]
  · exact (s.checked_state _ _).imp id fun ⟨_, h⟩ => ⟨hm, h⟩

theorem clearTrafficOrder_work : OrderWork s (clearTrafficOrder o s).state := by
  rcases clearTrafficOrder_state o s with h | ⟨hm, h⟩ <;> rw [h]
  · exact .nothing
  · exact .clearTraffic hm

theorem sourceWatch_work : OrderWork s (sourceWatch o s).state := by
  have hok : ∀ ps, WatchParams.ok ⟨(watchValues ps).1.value, (watchValues ps).2.1.value, (watchValues ps).2.2.value⟩ :=
    fun ps => ⟨clamp_value_le (by omega), clamp_value_le (by omega), clamp_value_le (by omega)⟩
  unfold sourceWatch
  dsimp only
  split
  · exact .nothing
  · split
    · exact .defaults _ (hok _)
    · split
      · split
        · exact .nothing
        · split
          · exact .nothing
          · next hx => exact .watch _ _ _ hx (hok _)
      · exact .nothing

theorem cancelOrder_work : OrderWork s (cancelOrder o s).state := by
  unfold cancelOrder State.namedBooking
  split
  · exact .nothing
  · split
    · exact .nothing
    · split
      · exact .nothing
      · next k b hb =>
        split
        · exact .nothing
        · next h =>
          simp only [Bool.or_eq_true, not_or, Bool.not_eq_true] at h
          split
          · exact .cancelLate _ k b hb h.1 h.2
          · next hl =>
            refine .cancelEarly _ k b hb ?_
            obtain ⟨hlive, hended⟩ := h
            cases hst : b.state <;> simp_all [BookingState.isLive, BookingState.isEnded, State.cancelIsLate]

theorem endOrder_work : OrderWork s (endOrder o s).state := by
  unfold endOrder State.namedBooking
  split
  · exact .nothing
  · split
    · exact .nothing
    · split
      · exact .nothing
      · next k b hb =>
        split
        · next h => exact .endPending _ k b hb h
        · exact .nothing

theorem selectOrder_work : OrderWork s (selectOrder o s).state := by
  unfold selectOrder State.namedBooking
  split
  · exact .nothing
  · split
    · exact .nothing
    · split
      · exact .nothing
      · next k b hb =>
        split
        · exact .nothing
        · next h => exact .select _ k b _ hb (by simp only [Bool.or_eq_true, not_or, Bool.not_eq_true] at h; exact h.1)

theorem bookingReadOrder_work : OrderWork s (bookingReadOrder o s).state := by
  have h : (bookingReadOrder o s).state = s := by
    unfold bookingReadOrder
    dsimp only
    split
    · rfl
    · split
      · split <;> rfl
      · split
        · rfl
        · split <;> rfl
  rw [h]; exact .nothing

theorem groupOrder_work (next : Nat → GroupState) (hn : ∀ n, next n = .opened → n = 0) :
    OrderWork s (groupOrder next o s).state := by
  unfold groupOrder
  dsimp only
  split
  · exact .nothing
  · split
    · exact .nothing
    · next x hx => exact .group _ x _ hx (hn _)

theorem tariffWrite_work : OrderWork s (tariffWrite o s).state := by
  unfold tariffWrite
  dsimp only
  split
  · exact .nothing
  · split
    · exact .nothing
    · split
      · exact .nothing
      · exact .nothing
      · split
        · exact .nothing
        · exact .tariffs _

theorem portOrder_work (n : Nat) (act : Port → Reply) (h : ∀ p, OrderWork s (act p).state) :
    OrderWork s (onPort o n s act).state := by
  rcases onPort_cases o n s act with h' | ⟨p, h'⟩ <;> rw [h']
  · exact .nothing
  · exact h p

theorem setCapacity_work (p : Port) (value : Nat) : OrderWork s (s.setCapacity p value).state := by
  rcases s.setCapacity_cases p value with h | ⟨v, hv, h, h'⟩
  · rw [h]; exact .nothing
  · rw [h']; exact .capacity p v hv h

end

/-! ## What an event can do -/

/-- What can happen at one step while RESET is not asserted, a command of the two of RESET left out. -/
inductive Event (s : State) : State → Prop
  | nothing : Event s s
  | lossOfLight (p : Port) (h : (s.port p).line ≠ .noLight) : Event s (s.loseLine p .noLight .lossOfLight)
  | lightReturns (p : Port) (h : (s.port p).line = .noLight) : Event s (s.setPort p { s.port p with line := .searching })
  | restore (p : Port) (h : (s.port p).line = .searching) : Event s (s.restoreLine p)
  | lossOfDelineation (p : Port) (h : (s.port p).line = .delineated) (n : Word) :
      Event s ((s.setPort p { s.port p with headerErrors := n }).loseLine p .searching .lossOfDelineation)
  | cell (p : Port) (bytes : List Byte) (h : (s.port p).line = .delineated) : Event s (s.takeCell p bytes)
  | send (p : Port) : Event s (s.lineSend p)
  | drained (p : Port) : Event s (s.drainIfEmpty p)
  | answer (p : Port) : Event s (s.appendWaiting p)
  | notice : Event s s.deliverNotice
  | localTick (a : Nat) (h : s.time.nextLocal = some a) : Event s (s.localTick a)
  | deadline (a : Nat) (hl : s.time.state = .locked) (h : s.time.deadline = some a) : Event s (s.missDeadline a)
  | refill (t : Tick) (rest : List Tick) (h : s.refillTicks = t :: rest) :
      Event s { s with refillTicks := rest, sources := s.sources.map fun e => (e.1, Machine.refill e.2) }
  | sourceTick (i : SrcId) (want : WatchStep → Bool) : Event s (s.sourceTickIf i want)
  | bookingTick (t : Tick) (rest : List Tick) (h : s.bookingTicks = t :: rest) :
      Event s (wholeTick t { s with bookingTicks := rest })
  | restartActs : Event s s.actRestart
  | order (o : Order) (rest : List Order) (v : State) (r : Result) (d : AnswerData) (ho : s.mgmt.orders = o :: rest)
      (hc : s.canTake = true) (hw : OrderWork (s.taken o rest) v) : Event s (v.finish o r d)
  | bookStarts (o : Order) (rest : List Order) (f : Fields) (ho : s.mgmt.orders = o :: rest) (hc : s.canTake = true)
      (hb : bookCheck o (s.taken o rest) = .ok f) :
      Event s ((s.taken o rest).setEngine
        (.working ⟨o, s.time.nt, .book (bookBlock (paramsOf o.cell)).ref f, 0, []⟩))
  | modifyStarts (o : Order) (rest : List Order) (nt ref : Word) (c : Change) (k : Nat) (b : Booking) (m : Mod)
      (ho : s.mgmt.orders = o :: rest) (hc : s.canTake = true) (hs : s.mgmt.mode = .service)
      (hm : (s.taken o rest).modifyCheck nt ref c = .ok (k, b, m)) :
      Event s ((s.taken o rest).setEngine (.working ⟨o, s.time.nt, .modify k c m b, 0, []⟩))
  | modifyTaken (o : Order) (rest : List Order) (nt ref : Word) (c : Change) (k : Nat) (b : Booking) (m : Mod) (r : Result)
      (d : AnswerData) (ho : s.mgmt.orders = o :: rest) (hc : s.canTake = true) (hs : s.mgmt.mode = .service)
      (hm : (s.taken o rest).modifyCheck nt ref c = .ok (k, b, m)) :
      Event s (((s.taken o rest).acceptModify k b m).state.finish o r d)
  | jobRefused (j : Job) (r : Result) (d : AnswerData) (hj : s.mgmt.engine = .working j) : Event s (s.finish j.order r d)
  | bookAccepted (j : Job) (ref : Word) (f : Fields) (r : Result) (d : AnswerData) (hj : s.mgmt.engine = .working j)
      (hk : j.kind = .book ref f) : Event s ((s.acceptBook ref f).state.finish j.order r d)
  | modifyAccepted (j : Job) (k : Nat) (c : Change) (m : Mod) (built b : Booking) (r : Result) (d : AnswerData)
      (hj : s.mgmt.engine = .working j) (hk : j.kind = .modify k c m built) (hb : s.booking k = some b)
      (hs : b.sameAs built = true) : Event s ((s.acceptModify k b m).state.finish j.order r d)
  | modifyRebuilt (j : Job) (nt ref : Word) (c : Change) (k : Nat) (b : Booking) (m : Mod) (r : Result) (d : AnswerData)
      (hj : s.mgmt.engine = .working j) (hm : s.modifyCheck nt ref c = .ok (k, b, m)) :
      Event s ((s.acceptModify k b m).state.finish j.order r d)
  | reads (j : Job) (e : Nat × Booking) (hj : s.mgmt.engine = .working j) (he : e ∈ s.bookings) (hn : j.nextSlot ≤ e.1) :
      Event s (s.setEngine (.working { j with nextSlot := e.1 + 1, read := j.read ++ [e] }))
  | clock (n : Nat) (hn : ∀ a, s.time.nextLocal = some a → s.now ≤ a → n ≤ a)
      (hd : ∀ a, s.time.deadline = some a → s.now ≤ a → n ≤ a) : Event s { s with now := n }

section
variable {s t : State}

theorem takeOrder_event {k : OrderKind} {work : Order → State → Reply} (hw : ∀ o u, OrderWork u (work o u).state) :
    Event s (s.takeOrder k work) := by
  rcases s.takeOrder_cases k work with h | ⟨o, rest, ho, hc, -, h⟩ <;> rw [h]
  · exact .nothing
  · exact .order o rest _ _ _ ho hc (hw o _)

/-- The order that heads the queue when it is of this kind and can be taken (R162). -/
theorem State.headOrder_cases {k : OrderKind} {x : Order × List Order} (h : s.headOrder k = some x) :
    s.mgmt.orders = x.1 :: x.2 ∧ s.canTake = true := by
  unfold State.headOrder at h
  split at h
  · next ho =>
    split at h
    · next hc => cases h; exact ⟨ho, hc.1⟩
    · cases h
  · cases h

theorem book_event {o : Order} {rest : List Order} (ho : s.mgmt.orders = o :: rest) (hc : s.canTake = true) :
    Event s ((s.taken o rest).book o) := by
  unfold State.book
  split
  · exact .order o rest _ _ _ ho hc .nothing
  · next f hf => exact .bookStarts o rest f ho hc hf

theorem modify_event {o : Order} {rest : List Order} (ho : s.mgmt.orders = o :: rest) (hc : s.canTake = true) :
    Event s ((s.taken o rest).modify o) := by
  unfold State.modify
  dsimp only
  split
  · exact .order o rest _ _ _ ho hc .nothing
  · split
    · exact .order o rest _ _ _ ho hc .nothing
    · next hs =>
      have hs : s.mgmt.mode = .service := by simpa using hs
      split
      · exact .order o rest _ _ _ ho hc .nothing
      · next k b m hm =>
        split
        · exact .modifyStarts o rest _ _ _ k b m ho hc hs hm
        · exact .modifyTaken o rest _ _ _ k b m _ _ ho hc hs hm

theorem State.decideModify_cases (s : State) (nt : Word) (k : Nat) (b : Booking) (m : Mod) (compared : List (Nat × Booking)) :
    (s.decideModify nt k b m compared).state = s ∨ (s.decideModify nt k b m compared).state = (s.acceptModify k b m).state := by
  unfold State.decideModify
  split
  · exact .inl rfl
  · exact .inr rfl

/-- A candidate built again is refused with nothing changed, or accepted after its checks have passed again (R64). -/
theorem State.rebuildModify_cases (s : State) (nt ref : Word) (c : Change) :
    (s.rebuildModify nt ref c).state = s ∨ ∃ k b m, s.modifyCheck nt ref c = .ok (k, b, m)
      ∧ (s.rebuildModify nt ref c).state = (s.acceptModify k b m).state := by
  unfold State.rebuildModify
  split
  · exact .inl rfl
  · next k b m hm =>
    split
    · exact (s.decideModify_cases nt k b m s.bookings).imp id fun h => ⟨k, b, m, hm, h⟩
    · exact .inr ⟨k, b, m, hm, rfl⟩

theorem rebuild_event {j : Job} (hj : s.mgmt.engine = .working j) (nt ref : Word) (c : Change) (r : Result) (d : AnswerData) :
    Event s ((s.rebuildModify nt ref c).state.finish j.order r d) := by
  rcases s.rebuildModify_cases nt ref c with h | ⟨k, b, m, hm, h⟩ <;> rw [h]
  · exact .jobRefused j _ _ hj
  · exact .modifyRebuilt j nt ref c k b m _ _ hj hm

theorem completeModify_event {j : Job} {k : Nat} {c : Change} {m : Mod} {built : Booking} (hj : s.mgmt.engine = .working j)
    (hk : j.kind = .modify k c m built) (r : Result) (d : AnswerData) :
    Event s ((s.completeModify j k c m built).state.finish j.order r d) := by
  unfold State.completeModify
  split
  · next b hb =>
    split
    · next hs =>
      rcases s.decideModify_cases j.nt k b m (j.compared s) with h | h <;> rw [h]
      · exact .jobRefused j _ _ hj
      · exact .modifyAccepted j k c m built b _ _ hj hk hb hs
    · exact rebuild_event hj _ _ _ _ _
  · exact rebuild_event hj _ _ _ _ _

theorem completeBook_event {j : Job} {ref : Word} {f : Fields} (hj : s.mgmt.engine = .working j) (hk : j.kind = .book ref f)
    (r : Result) (d : AnswerData) : Event s ((s.completeBook j ref f).state.finish j.order r d) := by
  unfold State.completeBook
  split
  · exact .jobRefused j _ _ hj
  · exact .bookAccepted j ref f _ _ hj hk

theorem bookingTickIf_event (want : Tick → State → Bool) : Event s (s.bookingTickIf want) := by
  rcases s.bookingTickIf_cases want with h | ⟨t, rest, ht, h⟩ <;> rw [h]
  · exact .nothing
  · exact .bookingTick t rest ht

theorem awake_event {f : State → State} (h : s.awake f = .next t) (he : Event s (f s)) :
    t = s ∨ s.inReset = false ∧ Event s t := by
  rcases State.awake_eq_next h with ⟨-, rfl⟩ | ⟨hr, rfl⟩
  · exact .inl rfl
  · exact .inr ⟨hr, he⟩

/-- The part's own event at a command, where RESET is not asserted. -/
theorem exec_event {c : Instr} (ha : c ≠ .hardResetAssert) (hr : ∀ straps light, c ≠ .hardResetRelease straps light)
    (h : exec c s = .next t) : t = s ∨ s.inReset = false ∧ Event s t := by
  cases c with
  | hardResetAssert => exact absurd rfl ha
  | hardResetRelease straps light => exact absurd rfl (hr straps light)
  | lossOfLight p =>
    unfold exec execLossOfLight at h
    refine awake_event h ?_
    split
    · exact .nothing
    · next hl => exact .lossOfLight p hl
  | lightReturns p =>
    unfold exec execLightReturns at h
    refine awake_event h ?_
    split
    · next hl => exact .lightReturns p hl
    · exact .nothing
  | cellArrival p bytes =>
    unfold exec execCellArrival at h
    refine awake_event h ?_
    split
    · next hl => exact .cell p bytes hl
    · exact .nothing
  | delineationFound p =>
    unfold exec execDelineationFound at h
    refine awake_event h ?_
    split
    · next hl => exact .restore p hl
    · exact .nothing
  | lossOfDelineation p =>
    unfold exec execLossOfDelineation at h
    refine awake_event h ?_
    dsimp only
    split
    · next hl => exact .lossOfDelineation p hl _
    · exact .nothing
  | lineSend p =>
    unfold exec execLineSend at h
    exact awake_event h (.send p)
  | drained p =>
    unfold exec execDrained at h
    refine awake_event h ?_
    dsimp only
    split
    · split
      · exact .drained p
      · split
        · exact .send p
        · exact .nothing
    · exact .nothing
  | answerAppended =>
    unfold exec execAnswerAppended at h
    refine awake_event h ?_
    split
    · split
      · exact .answer _
      · exact .send _
    · exact .nothing
  | noticeDelivery =>
    unfold exec execNoticeDelivery at h
    exact awake_event h .notice
  | localTick =>
    unfold exec execLocalTick at h
    refine awake_event h ?_
    split
    · next a ha => exact .localTick a ha
    · exact .nothing
  | timeCellDeadline =>
    unfold exec execTimeCellDeadline at h
    refine awake_event h ?_
    split
    · next a hl hd => exact .deadline a hl hd
    · exact .nothing
  | tokenRefill =>
    unfold exec execTokenRefill at h
    refine awake_event h ?_
    split
    · exact .nothing
    · next t rest ht => exact .refill t rest ht
  | sourceTick p label =>
    unfold exec execSourceTick at h
    exact awake_event h (.sourceTick _ _)
  | silent p label =>
    unfold exec execSilent at h
    exact awake_event h (.sourceTick _ _)
  | cleared p label =>
    unfold exec execCleared at h
    exact awake_event h (.sourceTick _ _)
  | windowEnd p label =>
    unfold exec execWindowEnd at h
    exact awake_event h (.sourceTick _ _)
  | bookingTick =>
    unfold exec execBookingTick at h
    exact awake_event h (bookingTickIf_event _)
  | holdOffExpiry slot =>
    unfold exec execHoldOffExpiry at h
    exact awake_event h (bookingTickIf_event _)
  | wtrExpiry slot =>
    unfold exec execWtrExpiry at h
    exact awake_event h (bookingTickIf_event _)
  | restartAction =>
    unfold exec execRestartAction at h
    refine awake_event h ?_
    split
    · exact .restartActs
    · exact .nothing
  | book =>
    unfold exec execBook at h
    refine awake_event h ?_
    split
    · next o rest ho => exact book_event (State.headOrder_cases ho).1 (State.headOrder_cases ho).2
    · exact .nothing
  | modify =>
    unfold exec execModify at h
    refine awake_event h ?_
    split
    · next o rest ho => exact modify_event (State.headOrder_cases ho).1 (State.headOrder_cases ho).2
    · exact .nothing
  | bookAccepted =>
    unfold exec execBookAccepted at h
    refine awake_event h ?_
    split
    · next j hj =>
      split
      · next ref f hk => exact completeBook_event hj hk _ _
      · exact .nothing
    · exact .nothing
  | modifyAccepted =>
    unfold exec execModifyAccepted at h
    refine awake_event h ?_
    split
    · next j hj =>
      split
      · next k c m built hk => exact completeModify_event hj hk _ _
      · exact .nothing
    · exact .nothing
  | identify =>
    unfold exec execIdentify at h
    exact awake_event h (takeOrder_event fun o u => by split <;> exact .nothing)
  | setMode =>
    unfold exec execSetMode at h
    exact awake_event h (takeOrder_event setMode_work)
  | managementRestart =>
    unfold exec execManagementRestart at h
    exact awake_event h (takeOrder_event fun o u => by
      split
      · exact .nothing
      · exact .restart)
  | setHoldThreshold =>
    unfold exec execSetHoldThreshold at h
    exact awake_event h (takeOrder_event fun o u => checked_work fun _ => .threshold _ (clamp_value_le (by omega)))
  | setRoute =>
    unfold exec execSetRoute at h
    exact awake_event h (takeOrder_event setRoute_work)
  | clearTraffic =>
    unfold exec execClearTraffic at h
    exact awake_event h (takeOrder_event clearTrafficOrder_work)
  | portEnable =>
    unfold exec execPortEnable at h
    exact awake_event h (takeOrder_event fun o u => portOrder_work o u 1 _ fun p => .enablePort p)
  | portDisable =>
    unfold exec execPortDisable at h
    exact awake_event h (takeOrder_event fun o u => portOrder_work o u 1 _ fun p => .disablePort p)
  | portStatus =>
    unfold exec execPortStatus at h
    exact awake_event h (takeOrder_event fun o u => portOrder_work o u 1 _ fun p => .nothing)
  | portCapacity =>
    unfold exec execPortCapacity at h
    exact awake_event h (takeOrder_event fun o u => by
      split
      · exact .nothing
      · split
        · exact .nothing
        · exact portOrder_work o u 3 _ fun p => setCapacity_work u p _)
  | timeSource =>
    unfold exec execTimeSource at h
    exact awake_event h (takeOrder_event fun o u => by
      split
      · exact .nothing
      · split
        · exact .nothing
        · exact .timeSource _)
  | timeSet =>
    unfold exec execTimeSet at h
    exact awake_event h (takeOrder_event fun o u => by
      split
      · exact .nothing
      · split
        · exact .nothing
        · next hs => exact .timeSet _ hs)
  | timePolicy =>
    unfold exec execTimePolicy at h
    exact awake_event h (takeOrder_event fun o u => by
      split
      · exact .nothing
      · exact .timePolicy _)
  | timeStatus =>
    unfold exec execTimeStatus at h
    exact awake_event h (takeOrder_event fun o u => by split <;> exact .nothing)
  | sourceStatus =>
    unfold exec execSourceStatus at h
    exact awake_event h (takeOrder_event fun o u => by
      split
      · exact .nothing
      · split
        · exact .nothing
        · split <;> exact .nothing)
  | sourceWatch =>
    unfold exec execSourceWatch at h
    exact awake_event h (takeOrder_event sourceWatch_work)
  | cancel =>
    unfold exec execCancel at h
    exact awake_event h (takeOrder_event cancelOrder_work)
  | endBooking =>
    unfold exec execEndBooking at h
    exact awake_event h (takeOrder_event endOrder_work)
  | select =>
    unfold exec execSelect at h
    exact awake_event h (takeOrder_event selectOrder_work)
  | bookingRead =>
    unfold exec execBookingRead at h
    exact awake_event h (takeOrder_event bookingReadOrder_work)
  | groupHold =>
    unfold exec execGroupHold at h
    exact awake_event h (takeOrder_event fun o u => groupOrder_work o u _ fun _ h => nomatch h)
  | groupRelease =>
    unfold exec execGroupRelease at h
    exact awake_event h (takeOrder_event fun o u => groupOrder_work o u _ fun n h => by
      by_contra hn
      simp [Nat.pos_of_ne_zero hn] at h)
  | tariffWrite =>
    unfold exec execTariffWrite at h
    exact awake_event h (takeOrder_event tariffWrite_work)
  | tariffLock =>
    unfold exec execTariffLock at h
    exact awake_event h (takeOrder_event fun o u => checked_work fun _ => .tariffs _)
  | tariffClearAll =>
    unfold exec execTariffClearAll at h
    exact awake_event h (takeOrder_event fun o u => checked_work fun _ => .tariffs _)
  | tariffRead =>
    unfold exec execTariffRead at h
    exact awake_event h (takeOrder_event fun o u => by
      split
      · exact .nothing
      · split <;> exact .nothing)
  | tariffCheck =>
    unfold exec execTariffCheck at h
    exact awake_event h (takeOrder_event fun o u => by
      dsimp only
      split
      · exact .nothing
      · split <;> exact .nothing)
  | billRead =>
    unfold exec execBillRead at h
    exact awake_event h (takeOrder_event fun o u => by
      dsimp only
      split
      · exact .nothing
      · split
        · exact .nothing
        · split <;> exact .nothing)
  | billRelease =>
    unfold exec execBillRelease at h
    refine awake_event h (takeOrder_event fun o u => checked_work fun hf => .release _ ?_)
    simpa using firstFail_none hf (u.oldestBill != some _, u.billRefusal .notOldest) (by simp)

end

/-! ## The rule for what every step keeps -/

theorem takeUnknown_event (s : State) : Event s s.takeUnknown := by
  unfold State.takeUnknown
  split
  · next o rest ho =>
    split
    · next hc => exact .order o rest _ _ _ ho hc.1 .nothing
    · exact .nothing
  · exact .nothing

@[simp] theorem State.takeUnknown_inReset (s : State) : s.takeUnknown.inReset = s.inReset := by
  unfold State.takeUnknown
  split
  · split <;> simp
  · rfl

theorem readNext_event (s : State) : Event s s.readNext := by
  unfold State.readNext
  split
  · next j hj =>
    split
    · next e he =>
      exact .reads j e hj (List.mem_of_find?_eq_some he) (by simpa using List.find?_some he)
    · exact .nothing
  · exact .nothing

@[simp] theorem State.readNext_inReset (s : State) : s.readNext.inReset = s.inReset := by
  unfold State.readNext
  split
  · split <;> rfl
  · rfl

/-- The clock moves past no instant at which a tick is due (assumption log 4). -/
theorem passTime_event (s : State) : Event s s.passTime := by
  refine .clock _ (fun a ha hn => ?_) (fun a ha hn => ?_)
  · simp only [ha]
    cases s.time.deadline <;> dsimp only <;> split_ifs <;> omega
  · simp only [ha]
    cases s.time.nextLocal <;> dsimp only <;> split_ifs <;> omega

/-- What every event keeps, and RESET, its release and the queue of commands too, every step keeps. -/
theorem step_keeps {P : State → Prop} (hp : ∀ s q, P s → P { s with pending := q })
    (ha : ∀ s t, P s → execHardResetAssert s = .next t → P t)
    (hr : ∀ straps light s t, P s → execHardResetRelease straps light s = .next t → P t)
    (he : ∀ s t, s.inReset = false → P s → Event s t → P t) {s t : State} (hs : P s) (h : step s = .next t) : P t := by
  unfold step at h
  split at h
  · injection h with h
    subst h
    unfold State.idle
    split
    · exact hs
    · next hi =>
      have hi : s.inReset = false := by simpa using hi
      have h1 := he _ _ hi hs (takeUnknown_event s)
      have h2 := he _ _ (by simpa using hi) h1 (readNext_event _)
      exact he _ _ (by simpa using hi) h2 (passTime_event _)
  · next c rest _ =>
    have hq := hp s rest hs
    by_cases h1 : c = .hardResetAssert
    · subst h1
      exact ha _ _ hq h
    · by_cases h2 : ∃ straps light, c = .hardResetRelease straps light
      · obtain ⟨straps, light, rfl⟩ := h2
        exact hr straps light _ _ hq h
      · rcases exec_event h1 (fun straps light h => h2 ⟨straps, light, h⟩) h with rfl | ⟨hi, h⟩
        · exact hq
        · exact he _ _ hi hq h

end Sys2Proof.Machine
end

