-- ==== Sys2Proof/Proofs/BookingClosed.lean ====
section
/-! Properties that the updates of the booking, source, group and bill tables keep, and so every operation that the Booking Engine and
the booking orders are made of. -/

namespace Sys2Proof.Machine

/-- A source with another reference count is in its ranges as before. -/
theorem SourceForm.refs {x : Source} (h : SourceForm x) (n : Nat) : SourceForm { x with refs := n } :=
  ⟨h.tokens, h.legs, h.params, h.silentRun, h.goodRun, h.position, h.errored, h.lastErrored⟩

/-- A source with another leg list of at most 16 is in its ranges as before. -/
theorem SourceForm.withLegs {x : Source} (h : SourceForm x) {ls : List Leg} (hl : ls.length ≤ 16) : SourceForm { x with legs := ls } :=
  ⟨h.tokens, hl, h.params, h.silentRun, h.goodRun, h.position, h.errored, h.lastErrored⟩

theorem SourceForm.filter {x : Source} (h : SourceForm x) (p : Leg → Bool) : SourceForm { x with legs := x.legs.filter p } :=
  h.withLegs ((List.length_filter_le p x.legs).trans h.legs)

/-- A property that no update of the tables on which the Booking Engine works can break, nor a notice. -/
structure BookingClosed (P : State → Prop) : Prop where
  source : ∀ s i x y, s.source i = some x → (SourceForm x → SourceForm y) → P s → P (s.setSource y)
  move : ∀ s i j x y x' y', s.source i = some x → s.source j = some y → (SourceForm x → SourceForm x') →
    (SourceForm y → SourceForm y') → P s → P ((s.setSource x').setSource y')
  create : ∀ s i n, s.source i = none → P s → P (s.setSource (newSource i n s.defaults))
  drop : ∀ s i, P s → P (s.delSource i)
  booking : ∀ s k b, P s → P (s.setBooking k b)
  free : ∀ s k, P s → P (s.freeSlot k)
  group : ∀ s g x, P s → P (s.setGroup g x)
  notice : ∀ s c, P s → P (s.raise c)
  bill : ∀ s r n, s.bills.records.length < 64 → P s → P { s with bills := ⟨s.bills.records ++ [r], n⟩ }

namespace BookingClosed

variable {P : State → Prop} (h : BookingClosed P) {s : State}
include h

/-! ### References, requests, groups and bills -/

theorem gainRef (n : Nat) (i : SrcId) (hs : P s) : P (s.gainRef n i) := by
  unfold State.gainRef
  split
  · next x hx => exact h.source s i x _ hx (·.refs _) hs
  · next hx => exact h.create s i n hx hs

theorem loseRef (i : SrcId) (hs : P s) : P (s.loseRef i) := by
  unfold State.loseRef
  split
  · next x hx =>
    split
    · exact h.drop _ _ hs
    · exact h.source s i x _ hx (·.refs _) hs
  · exact hs

theorem gainRefs (n : Nat) (is : List SrcId) (hs : P s) : P (is.foldl (State.gainRef · n ·) s) :=
  foldl_keeps P _ (fun _ i => h.gainRef n i) is s hs

theorem loseRefs (is : List SrcId) (hs : P s) : P (is.foldl State.loseRef s) :=
  foldl_keeps P _ (fun _ i => h.loseRef i) is s hs

theorem moveRefs (n : Nat) (before after : List SrcId) (hs : P s) : P (s.moveRefs n before after) :=
  s.moveRefs_keeps P (fun _ n i => h.gainRef n i) (fun _ i => h.loseRef i) n before after hs

theorem install (k : Nat) (i : SrcId) (ps : List Pair) (hs : P s) : P (s.install k i ps) := by
  rcases s.install_cases k i ps with e | ⟨x, hx, -, hl, e⟩ <;> rw [e]
  · exact hs
  · exact h.source s i x _ hx (·.withLegs (by simpa using hl)) hs

theorem removeLegs (k : Nat) (i : SrcId) (named : Pair → Bool) (hs : P s) : P (s.removeLegs k i named).1 := by
  rcases s.removeLegs_cases k i named with ⟨-, e⟩ | ⟨x, hx, e⟩ <;> rw [e]
  · exact hs
  · exact h.source s i x _ hx (·.filter _) hs

theorem moveLegs (k : Nat) (src dst : SrcId) (hs : P s) : P (s.moveLegs k src dst).2 := by
  rcases s.moveLegs_cases k src dst with e | ⟨x, y, hx, hy, hl, e⟩ <;> rw [e]
  · exact hs
  · exact h.move s src dst x y _ _ hx hy (·.filter _) (·.withLegs (by simpa using hl)) hs

theorem joinGroup (g : Nat) (hs : P s) : P (s.joinGroup g) := by
  unfold State.joinGroup
  split
  · exact h.group _ _ _ hs
  · exact hs

theorem leaveGroup (g : Nat) (hs : P s) : P (s.leaveGroup g) := by
  unfold State.leaveGroup
  split
  · exact h.group _ _ _ hs
  · exact hs

theorem noteLevel (q : Word) (hs : P s) : P (s.noteLevel q) := by
  unfold State.noteLevel
  dsimp only
  split
  · exact h.notice _ _ hs
  · split
    · exact h.notice _ _ hs
    · exact hs

theorem writeBill (k : Nat) (bill : Bill) (hr : s.bills.records.length < 64) (hs : P s) : P (s.writeBill k bill) :=
  h.noteLevel _ (h.free _ _ (h.bill _ _ _ hr hs))

theorem handAndNote (k : Nat) (b : Booking) (bill : Bill) (hs : P s) : P (s.handAndNote k b bill) := by
  unfold State.handAndNote
  rcases s.handBill_cases k b bill with ⟨hr, e⟩ | ⟨-, e⟩ <;> rw [e]
  · exact h.notice _ _ (h.writeBill k bill hr hs)
  · exact h.notice _ _ (h.booking _ _ _ hs)

/-! ### Endings, cuts and LIVE entry -/

theorem endBooking (k : Nat) (b : Booking) (o : BillOutcome) (nt : Word) (hs : P s) : P (s.endBooking k b o nt) := by
  have h1 : P (if b.state.isLive then s.takeLegs k b fun _ => true else (s, b)).1 := by
    split
    · exact h.removeLegs k b.selected (fun _ => true) hs
    · exact hs
  unfold State.endBooking
  refine h.handAndNote _ _ _ (h.loseRefs _ ?_)
  split
  · exact h.leaveGroup _ h1
  · exact h1

theorem clearGround (nt : Word) (i : SrcId) (n : Nat) (ps : List Pair) (hs : P s) : P (s.clearGround nt i n ps).1 :=
  clearGround_keeps s P (fun _ k b o nt => h.endBooking k b o nt) nt i n ps hs

theorem cutPlaces (nt : Word) (i : SrcId) (n : Nat) (c : Cuts) (hs : P c.1) : P (Machine.cutPlaces nt i n c).1 :=
  cutWhile_keeps P (fun _ k b o nt => h.endBooking k b o nt) nt _ _ _ c hs

theorem enterLive (k : Nat) (b : Booking) (nt : Word) (overrun : Bool) (hs : P s) : P (s.enterLive k b nt overrun) := by
  unfold State.enterLive
  dsimp only
  refine h.notice _ _ ?_
  split
  · exact h.leaveGroup _ (h.booking _ _ _ (h.install _ _ _ (h.clearGround _ _ _ _ hs)))
  · exact h.booking _ _ _ (h.install _ _ _ (h.clearGround _ _ _ _ hs))

/-! ### The selector -/

theorem trySwitch (k : Nat) (b : Booking) (to_ : Position) (cause : SwitchCause) (nt : Word) (hs : P s) :
    P (s.trySwitch k b to_ cause nt) := by
  obtain ⟨c, hc, e⟩ := s.trySwitch_cases k b to_ cause nt
  have hc : P c.1 := by
    rcases hc with rfl | rfl
    · exact hs
    · exact h.cutPlaces _ _ _ _ hs
  rcases e with e | ⟨v, n, hv, e⟩ <;> rw [e]
  · exact hc
  · have := h.moveLegs k b.selected (b.fields.at to_) hc
    rw [hv] at this
    exact h.notice _ _ (h.booking _ _ _ this)

theorem forceSwitch (k : Nat) (b : Booking) (to_ : Position) (cause : SwitchCause) (nt : Word) (hs : P s) :
    P (s.forceSwitch k b to_ cause nt) := by
  unfold State.forceSwitch
  dsimp only
  split
  · exact h.booking _ _ _ hs
  · exact h.trySwitch _ _ _ _ _ (h.booking _ _ _ hs)

theorem holdOffRule (k : Nat) (b : Booking) (nt : Word) (hs : P s) : P (s.holdOffRule k b nt) := by
  unfold State.holdOffRule
  split
  · dsimp only
    split
    · exact h.trySwitch _ _ _ _ _ (h.booking _ _ _ hs)
    · exact h.booking _ _ _ hs
  · exact h.booking _ _ _ hs

theorem wtrRule (k : Nat) (b : Booking) (nt : Word) (hs : P s) : P (s.wtrRule k b nt) := by
  unfold State.wtrRule
  split
  · dsimp only
    split
    · exact h.trySwitch _ _ _ _ _ (h.booking _ _ _ hs)
    · exact h.booking _ _ _ hs
  · exact h.booking _ _ _ hs

theorem onSpareRule (k : Nat) (b : Booking) (nt : Word) (hs : P s) : P (s.onSpareRule k b nt) := by
  have h1 : P (s.trySwitch k b .onMain .spareFailed nt) := h.trySwitch _ _ _ _ _ hs
  unfold State.onSpareRule
  split
  · dsimp only
    split
    · split
      · exact h1
      · exact h.wtrRule _ _ _ h1
    · exact h1
  · exact h.wtrRule _ _ _ hs

theorem runSelector (k : Nat) (b : Booking) (nt : Word) (hs : P s) : P (s.runSelector k b nt) := by
  unfold State.runSelector
  split
  · exact h.forceSwitch _ _ _ _ _ hs
  · exact h.forceSwitch _ _ _ _ _ hs
  · exact h.forceSwitch _ _ _ _ _ hs
  · exact h.holdOffRule _ _ _ hs
  · exact h.onSpareRule _ _ _ hs
  · exact h.booking _ _ _ hs

theorem selectorSlot (nt : Word) (k : Nat) (hs : P s) : P (Machine.selectorSlot nt s k) := by
  unfold Machine.selectorSlot
  split
  · split
    · exact hs
    · split
      · exact h.runSelector _ _ _ (h.booking _ _ _ hs)
      · exact h.runSelector _ _ _ hs
  · exact hs

/-! ### The booking tick -/

theorem endIfPending (t : Tick) (k : Nat) (hs : P s) : P (Machine.endIfPending t k s) := by
  unfold Machine.endIfPending
  split
  · split
    · exact h.endBooking _ _ _ _ hs
    · exact hs
  · exact hs

theorem stage1Slot (t : Tick) (c : State × Notes) (k : Nat) (hs : P c.1) : P (Machine.stage1Slot t c k).1 := by
  unfold Machine.stage1Slot
  split
  · exact hs
  · split
    · exact hs
    · split
      · exact h.endIfPending _ _ hs
      · exact h.endIfPending _ _ (h.moveRefs _ _ _ (h.booking _ _ _ hs))

theorem stage1 (t : Tick) (hs : P s) : P (Machine.stage1 t s).1 :=
  foldl_keeps (fun c : State × Notes => P c.1) _ (fun c k hc => h.stage1Slot t c k hc) _ _ hs

theorem dropLegs (k : Nat) (dropped : List Pair) (hs : P s) : P (Machine.dropLegs k dropped s) := by
  unfold Machine.dropLegs
  split
  · split
    · exact h.booking _ _ _ (h.removeLegs _ _ _ hs)
    · exact hs
  · exact hs

theorem atWindowEnd (t : Tick) (k : Nat) (b : Booking) (hs : P s) : P (Machine.atWindowEnd t k b s) := by
  unfold Machine.atWindowEnd
  split
  · exact h.endBooking _ _ _ _ hs
  · split
    · exact h.booking _ _ _ hs
    · exact h.endBooking _ _ _ _ hs
  · split
    · exact h.booking _ _ _ hs
    · exact h.endBooking _ _ _ _ hs
  · split
    · exact hs
    · exact h.endBooking _ _ _ _ hs
  · exact hs

theorem stage2 (t : Tick) (notes : Notes) (hs : P s) : P (Machine.stage2 t notes s) := by
  refine foldl_keeps P _ (fun s k hs => ?_) _ _ hs
  unfold stage2Slot
  split
  · exact hs
  · refine h.dropLegs _ _ ?_
    split
    · exact h.atWindowEnd _ _ _ hs
    · exact hs

theorem passPlan (nt : Word) (n : TickNote) (k : Nat) (hs : P s) : P (Machine.passPlan nt n k s) := by
  unfold Machine.passPlan
  split
  · split
    · exact h.booking _ _ _ hs
    · exact hs
  · exact hs

theorem goLive (nt : Word) (n : TickNote) (k : Nat) (b : Booking) (hs : P s) : P (Machine.goLive nt n k b s) :=
  h.passPlan _ _ _ (h.enterLive _ _ _ _ hs)

theorem passStart (nt : Word) (n : TickNote) (k : Nat) (b : Booking) (hs : P s) : P (Machine.passStart nt n k b s) := by
  unfold Machine.passStart
  split
  · split
    · exact h.joinGroup _ (h.booking _ _ _ hs)
    · exact h.goLive _ _ _ _ hs
  · exact hs

theorem passEarly (t : Tick) (n : TickNote) (k : Nat) (b : Booking) (hs : P s) : P (Machine.passEarly t n k b s) := by
  unfold Machine.passEarly
  split
  · exact h.endBooking _ _ _ _ hs
  · split
    · split
      · exact h.passStart _ _ _ _ (h.booking _ _ _ hs)
      · exact hs
    · exact h.passStart _ _ _ _ hs

theorem passHeld (nt : Word) (n : TickNote) (k : Nat) (b : Booking) (hs : P s) : P (Machine.passHeld nt n k b s) := by
  unfold Machine.passHeld
  split
  · exact hs
  · exact h.goLive _ _ _ _ hs

theorem installAdded (nt : Word) (added : List Pair) (k : Nat) (hs : P s) : P (Machine.installAdded nt added k s) := by
  unfold Machine.installAdded
  split
  · split
    · exact h.install _ _ _ (h.clearGround _ _ _ _ hs)
    · exact hs
  · exact hs

theorem stage3 (t : Tick) (notes : Notes) (hs : P s) : P (Machine.stage3 t notes s) := by
  refine foldl_keeps P _ (fun s k hs => ?_) _ _ hs
  unfold stage3Slot
  split
  · exact hs
  · dsimp only
    split
    · exact h.passEarly _ _ _ _ hs
    · exact h.passEarly _ _ _ _ hs
    · exact h.passHeld _ _ _ _ hs
    · exact h.installAdded _ _ _ (h.passPlan _ _ _ hs)
    · exact h.installAdded _ _ _ hs
    · exact hs

theorem stage5 (t : Tick) (hs : P s) : P (Machine.stage5 t s) := by
  refine foldl_keeps P _ (fun s k hs => ?_) _ _ hs
  unfold meterSlot
  split
  · exact hs
  · split
    · exact h.booking _ _ _ hs
    · split
      · exact h.booking _ _ _ hs
      · exact hs

theorem wholeTick (t : Tick) (hs : P s) : P (Machine.wholeTick t s) :=
  h.stage5 t <| foldl_keeps P _ (fun _ k => h.selectorSlot t.nt k) _ _ <| h.stage3 t _ <| h.stage2 t _ <| h.stage1 t hs

/-! ### The booking orders -/

theorem cancelEarly (k : Nat) (b : Booking) (hs : P s) : P (s.cancelEarly k b).state :=
  h.free _ _ (h.loseRefs _ hs)

theorem cancelLate (k : Nat) (b : Booking) (hs : P s) : P (s.cancelLate k b).state := by
  unfold State.cancelLate
  refine h.handAndNote _ _ _ (h.loseRefs _ ?_)
  split
  · exact h.leaveGroup _ hs
  · exact hs

theorem acceptBook (ref : Word) (f : Fields) (hs : P s) : P (s.acceptBook ref f).state :=
  h.gainRefs _ _ (h.booking _ _ _ hs)

theorem acceptModify (k : Nat) (b : Booking) (m : Mod) (hs : P s) : P (s.acceptModify k b m).state :=
  h.moveRefs _ _ _ (h.booking _ _ _ hs)

theorem abortSlots (ks : List Nat) (hs : P s) : P (ks.foldl abortSlot s) := by
  refine foldl_keeps P _ (fun s k hs => ?_) _ _ hs
  unfold abortSlot
  split
  · split
    · exact h.endBooking _ _ _ _ hs
    · exact hs
  · exact hs

theorem freeEarlySlots (ks : List Nat) (hs : P s) : P (ks.foldl freeEarly s) := by
  refine foldl_keeps P _ (fun s k hs => ?_) _ _ hs
  unfold freeEarly
  split
  · split
    · exact hs
    · exact h.free _ _ (h.loseRefs _ hs)
  · exact hs

end BookingClosed

end Sys2Proof.Machine
end

