-- ==== Sys2Proof/Proofs/Quiet.lean ====
section
/-! Properties that no cell, line, watch or clock event can break: they look at no queue, at no counter of a source, and at the
engine's work only while an admission computation runs. -/

namespace Sys2Proof.Machine

/-! ## A source whose identity, bandwidth, references and legs stand -/

/-- A leg without its counters (R43). -/
def Leg.place (l : Leg) : Pair × Nat := (l.pair, l.owner)

/-- The record `y` is the source `x` with nothing changed but its counters, tokens and watch part, and in its ranges if `x` is
(R33). -/
structure Touched (x y : Source) : Prop where
  id : y.id = x.id
  bandwidth : y.bandwidth = x.bandwidth
  refs : y.refs = x.refs
  legs : y.legs.map Leg.place = x.legs.map Leg.place
  form : SourceForm x → SourceForm y

theorem Touched.refl (x : Source) : Touched x x := ⟨rfl, rfl, rfl, rfl, fun h => h⟩

theorem Touched.trans {x y z : Source} (h : Touched x y) (h' : Touched y z) : Touched x z :=
  ⟨h'.id.trans h.id, h'.bandwidth.trans h.bandwidth, h'.refs.trans h.refs, h'.legs.trans h.legs, h'.form ∘ h.form⟩

theorem touched_ticks (x : Source) (ts : List Tick) : Touched x { x with ticks := ts } :=
  ⟨rfl, rfl, rfl, rfl, fun h => ⟨h.tokens, h.legs, h.params, h.silentRun, h.goodRun, h.position, h.errored, h.lastErrored⟩⟩

theorem touched_refill (x : Source) : Touched x (refill x) := by
  refine ⟨rfl, rfl, rfl, rfl, fun h => ⟨?_, h.legs, h.params, h.silentRun, h.goodRun, h.position, h.errored, h.lastErrored⟩⟩
  exact Nat.min_le_left _ _

theorem touched_params (x : Source) {w : WatchParams} (hw : w.ok) : Touched x { x with watch.params := w } :=
  ⟨rfl, rfl, rfl, rfl, fun h => ⟨h.tokens, h.legs, hw, h.silentRun, h.goodRun, h.position, h.errored, h.lastErrored⟩⟩

theorem touched_dark (nt : Word) (x : Source) : Touched x (darkSource nt x) := by
  refine ⟨rfl, rfl, rfl, rfl, fun h => ?_⟩
  have hf : x.watch.params.failCount ≤ 1000 := h.params.1.2
  unfold darkSource
  constructor
  · exact h.tokens
  · exact h.legs
  all_goals dsimp only; split
  all_goals first | exact h.params | exact hf | exact Nat.zero_le _ | exact h.position | exact h.errored | exact h.lastErrored

/-- The runs hold at their limits, and the rest of the watch part stands (R105). -/
theorem runsAfter_form (w : Watch) (c : TickClass) :
    (runsAfter w c).silentRun ≤ 1000 ∧ (runsAfter w c).goodRun ≤ 60000 ∧ (runsAfter w c).params = w.params
      ∧ (runsAfter w c).position = w.position ∧ (runsAfter w c).errored = w.errored
      ∧ (runsAfter w c).lastErrored = w.lastErrored := by
  cases c with
  | silent => exact ⟨Nat.min_le_right _ _, Nat.zero_le _, rfl, rfl, rfl, rfl⟩
  | errored => exact ⟨Nat.zero_le _, Nat.zero_le _, rfl, rfl, rfl, rfl⟩
  | good => exact ⟨Nat.zero_le _, Nat.min_le_right _ _, rfl, rfl, rfl, rfl⟩

/-- A window holds 100 ticks, and counts no more errored ones than it has had (R106). -/
theorem windowAfter_form {w : Watch} (hp : w.position ≤ 99) (he : w.errored ≤ w.position)
    (hl : ∀ n, w.lastErrored = some n → n ≤ 100) (c : TickClass) :
    (windowAfter w c).position ≤ 99 ∧ (windowAfter w c).errored ≤ (windowAfter w c).position
      ∧ (∀ n, (windowAfter w c).lastErrored = some n → n ≤ 100) ∧ (windowAfter w c).params = w.params
      ∧ (windowAfter w c).silentRun = w.silentRun ∧ (windowAfter w c).goodRun = w.goodRun := by
  have hc : windowCount w c ≤ w.errored + 1 := by
    unfold windowCount
    split <;> omega
  unfold windowAfter isWindowEnd
  split
  · refine ⟨Nat.zero_le _, Nat.le_refl _, ?_, rfl, rfl, rfl⟩
    rintro n ⟨⟩
    omega
  · next h =>
    simp only [decide_eq_true_eq, not_le] at h
    refine ⟨?_, ?_, hl, rfl, rfl, rfl⟩ <;> dsimp only <;> omega

theorem touched_change (nt : Word) (x : Source) (k : WatchCause) : Touched x (applyChange nt x k) := by
  have form {st : WatchState} {f d : Word} {r : Bool} (h : SourceForm x) :
      SourceForm { x with watch := { x.watch.change st nt with failures := f, degradations := d }, resync := r } :=
    ⟨h.tokens, h.legs, h.params, h.silentRun, h.goodRun, h.position, h.errored, h.lastErrored⟩
  cases k
  case silent | arrivals | cleared | erroredWindow | cleanWindow => exact ⟨rfl, rfl, rfl, rfl, form⟩
  all_goals exact Touched.refl x

theorem touched_classified (t : Tick) (x : Source) : Touched x (classifiedTick t x).src := by
  have h1 : Touched x { x.clearAccount with watch := windowAfter (runsAfter x.watch (classify x)) (classify x) } := by
    refine ⟨rfl, rfl, rfl, rfl, fun h => ?_⟩
    obtain ⟨hs, hg, hp, hpos, herr, hlast⟩ := runsAfter_form x.watch (classify x)
    obtain ⟨hpos', herr', hlast', hp', hs', hg'⟩ :=
      windowAfter_form (hpos ▸ h.position) (by rw [hpos, herr]; exact h.errored) (hlast ▸ h.lastErrored) (classify x)
    exact ⟨h.tokens, h.legs, hp'.trans hp ▸ h.params, hs' ▸ hs, hg' ▸ hg, hpos', herr', hlast'⟩
  unfold classifiedTick
  dsimp only
  split
  · exact h1.trans (touched_change _ _ _)
  · exact h1

theorem touched_watchTick (d : Bool) (t : Tick) (x : Source) : Touched x (watchTick d t x).src := by
  unfold watchTick
  split
  · split
    · refine ⟨rfl, rfl, rfl, rfl, fun h => ⟨Nat.le_refl _, h.legs, h.params, Nat.zero_le _, Nat.zero_le _, Nat.zero_le _,
        Nat.le_refl _, ?_⟩⟩
      rintro n ⟨⟩
    · exact Touched.refl x
  · split
    · exact touched_classified t x
    · exact ⟨rfl, rfl, rfl, rfl, fun h =>
        ⟨h.tokens, h.legs, h.params, h.silentRun, h.goodRun, h.position, h.errored, h.lastErrored⟩⟩

theorem touched_continuity (q : Seq) (x : Source) : Touched x (continuity q x).1 := by
  have h {e : Seq} {r d : Bool} {m l : Word} :
      Touched x { x with expected := e, resync := r, missing := m, late := l, errored := d } :=
    ⟨rfl, rfl, rfl, rfl, fun h =>
      ⟨h.tokens, h.legs, h.params, h.silentRun, h.goodRun, h.position, h.errored, h.lastErrored⟩⟩
  unfold continuity
  split
  · exact h
  · dsimp only
    split
    · exact h
    · split <;> exact h

theorem touched_counting (x : Source) : Touched x (counting x) :=
  ⟨rfl, rfl, rfl, rfl, fun h => ⟨h.tokens, h.legs, h.params, h.silentRun, h.goodRun, h.position, h.errored, h.lastErrored⟩⟩

theorem touched_policing (x : Source) : Touched x (policing x).1 := by
  unfold policing
  split
  · refine ⟨rfl, rfl, rfl, rfl, fun h => ⟨?_, h.legs, h.params, h.silentRun, h.goodRun, h.position, h.errored, h.lastErrored⟩⟩
    exact (Nat.sub_le _ _).trans h.tokens
  · exact ⟨rfl, rfl, rfl, rfl, fun h =>
      ⟨h.tokens, h.legs, h.params, h.silentRun, h.goodRun, h.position, h.errored, h.lastErrored⟩⟩

theorem touched_legs {x : Source} {ls : List Leg} (h : ls.map Leg.place = x.legs.map Leg.place) :
    Touched x { x with legs := ls } := by
  have hl : ls.length = x.legs.length := by simpa using congrArg List.length h
  exact ⟨rfl, rfl, rfl, h, fun hf => ⟨hf.tokens, hl ▸ hf.legs, hf.params, hf.silentRun, hf.goodRun, hf.position, hf.errored,
    hf.lastErrored⟩⟩

/-- Offering a copy changes a port's feed queue alone, and no leg's place (R12, R45). -/
theorem offerCopy_frame (payload : List Byte) (r : PortRec) (l : Leg) :
    (∃ q, (offerCopy payload r l).1 = { r with feedQ := q } ∧ (r.state ≠ .enabled → q = r.feedQ)
      ∧ (r.feedQ.length ≤ 2048 → q.length ≤ 2048)) ∧ (offerCopy payload r l).2.place = l.place := by
  unfold offerCopy
  split
  · next h =>
    obtain ⟨he, hl⟩ := h
    refine ⟨⟨_, rfl, fun hn => absurd he hn, fun _ => ?_⟩, rfl⟩
    simp only [List.length_append, List.length_singleton]
    exact hl
  · exact ⟨⟨_, rfl, fun _ => rfl, id⟩, rfl⟩

/-- Replication changes feed queues of ENABLED ports alone, within their places, and no leg's place (R12, R45). -/
theorem replicate_frame (payload : List Byte) (ls : List Leg) (ports : Vector PortRec 16) :
    (∀ p : Port, ∃ q, (replicate payload ls ports).1[p] = { ports[p] with feedQ := q }
      ∧ (ports[p].state ≠ .enabled → q = ports[p].feedQ) ∧ (ports[p].feedQ.length ≤ 2048 → q.length ≤ 2048))
      ∧ (replicate payload ls ports).2.map Leg.place = ls.map Leg.place := by
  induction ls generalizing ports with
  | nil => exact ⟨fun p => ⟨_, rfl, fun _ => rfl, id⟩, rfl⟩
  | cons l rest ih =>
    obtain ⟨⟨q, hq, hs, hb⟩, hl⟩ := offerCopy_frame payload ports[l.pair.port] l
    obtain ⟨hp, hr⟩ := ih (ports.set l.pair.port (offerCopy payload ports[l.pair.port] l).1)
    refine ⟨fun p => ?_, by simp only [replicate, List.map_cons, hl, hr]⟩
    obtain ⟨q', hq', hs', hb'⟩ := hp p
    simp only [replicate]
    by_cases e : l.pair.port = p
    · subst e
      simp only [Fin.getElem_fin] at hq hs hb
      simp only [Fin.getElem_fin, Vector.getElem_set_self, hq] at hq' hs' hb' ⊢
      exact ⟨q', hq', fun h => (hs' h).trans (hs h), fun h => hb' (hb h)⟩
    · have e' : l.pair.port.val ≠ p.val := fun h => e (Fin.ext h)
      simp only [Fin.getElem_fin, Vector.getElem_set_ne _ _ e'] at hq' hs' hb' ⊢
      exact ⟨q', hq', hs', hb'⟩

/-! ## The closure -/

/-- A port's record keeps its capacity, and its queues stay within their places (R11 to R13). -/
structure PortStep (r r' : PortRec) : Prop where
  capacity : r'.capacity = r.capacity
  mgmtQ : r.mgmtQ.length ≤ 64 → r'.mgmtQ.length ≤ 64
  feedQ : r.feedQ.length ≤ 2048 → r'.feedQ.length ≤ 2048

theorem PortStep.refl (r : PortRec) : PortStep r r := ⟨rfl, id, id⟩

/-- The queues of the Order Engine within their places, its count and its threshold in their ranges (R161, R163, R165). -/
structure MgmtBound (m : OrderEngine) : Prop where
  orders : m.orders.length ≤ 16
  notices : m.notices.length ≤ 32
  discarded : m.discarded ≤ 65535
  threshold : 1 ≤ m.holdThreshold ∧ m.holdThreshold ≤ 16

/-- The Order Engine keeps its mode and its bounds, and no admission computation starts in it. -/
structure MgmtStep (m m' : OrderEngine) : Prop where
  engine : ∀ j, m'.engine = .working j → m.engine = .working j
  mode : m'.mode = m.mode
  bound : MgmtBound m → MgmtBound m'

/-- A management queue takes a cell while its port is not DARK and it holds fewer than 64 (R10, R13). -/
theorem PortRec.mgmtRoom_iff {r : PortRec} : r.mgmtRoom = true ↔ r.isDark = false ∧ r.mgmtQ.length < 64 := by
  simp [PortRec.mgmtRoom]

/-- A property that no event of lines, cells, answers, notices and source ticks can break. -/
structure Quiet (P : State → Prop) : Prop where
  ports : ∀ s (v : Vector PortRec 16), (∀ p : Port, PortStep (s.port p) v[p]) → P s → P { s with ports := v }
  mgmt : ∀ s m, MgmtStep s.mgmt m → P s → P { s with mgmt := m }
  freeRead : ∀ s n, P s → P { s with freeRead := n }
  ticks : ∀ s r b, P s → P { s with refillTicks := r, bookingTicks := b }
  source : ∀ s i x y, s.source i = some x → Touched x y → P s → P (s.setSource y)
  sources : ∀ s (f : Source → Source), (∀ x, Touched x (f x)) → P s → P { s with sources := s.sources.map fun e => (e.1, f e.2) }

namespace Quiet

variable {P : State → Prop} (h : Quiet P) {s : State}
include h

/-! ### Ports, answers and notices -/

theorem setPort {p : Port} {r : PortRec} (hr : PortStep (s.port p) r) (hs : P s) : P (s.setPort p r) := by
  refine h.ports s _ (fun q => ?_) hs
  by_cases e : q = p
  · subst e
    simpa using hr
  · have : (s.setPort p r).port q = s.port q := s.setPort_port_ne r e
    exact this ▸ PortStep.refl _

theorem raise (c : NoticeContent) (hs : P s) : P (s.raise c) := by
  unfold State.raise
  split
  · next hn =>
    refine h.mgmt s { s.mgmt with notices := s.mgmt.notices ++ [⟨s.time.nt, c⟩] } ⟨fun _ hj => hj, rfl, fun hb => ?_⟩ hs
    exact ⟨hb.orders, by simpa using hn, hb.discarded, hb.threshold⟩
  · refine h.mgmt s { s.mgmt with discarded := min (s.mgmt.discarded + 1) 65535 } ⟨fun _ hj => hj, rfl, fun hb => ?_⟩ hs
    exact ⟨hb.orders, hb.notices, Nat.min_le_right _ _, hb.threshold⟩

theorem setEngine {e : Engine} (he : ∀ j, e ≠ .working j) (hs : P s) : P (s.setEngine e) :=
  h.mgmt s { s.mgmt with engine := e }
    ⟨fun j hj => absurd hj (he j), rfl, fun hb => ⟨hb.orders, hb.notices, hb.discarded, hb.threshold⟩⟩ hs

theorem appendOwn {p : Port} (c : Seq → MgmtCell) (hr : (s.port p).mgmtRoom = true) (hs : P s) : P (s.appendOwn p c) :=
  h.setPort ⟨rfl, fun _ => by simpa using (PortRec.mgmtRoom_iff.mp hr).2, id⟩ hs

theorem finish (o : Order) (r : Result) (d : AnswerData) (hs : P s) : P (s.finish o r d) := by
  unfold State.finish
  split
  · exact h.setEngine (by simp) hs
  · split
    · exact h.setEngine (by simp) hs
    · split
      · next hr => exact h.setEngine (by simp) (h.appendOwn _ hr hs)
      · exact h.setEngine (by simp) hs

theorem taken {o : Order} {rest : List Order} (ho : s.mgmt.orders = o :: rest) (hs : P s) : P (s.taken o rest) := by
  refine h.mgmt s { s.mgmt with
    orders := rest
    controller := if o.broadcast then s.mgmt.controller else some ⟨o.arrival, ctrlOf o.cell, originOf o.cell⟩ }
    ⟨fun _ hj => hj, rfl, fun hb => ⟨?_, hb.notices, hb.discarded, hb.threshold⟩⟩ hs
  have := hb.orders
  simp only [ho, List.length_cons] at this ⊢
  omega

theorem discardWaiting (p : Port) (hs : P s) : P (s.discardWaiting p) := by
  unfold State.discardWaiting
  split
  · split
    · exact h.setEngine (by simp) hs
    · exact hs
  · exact hs

theorem appendWaiting (p : Port) (hs : P s) : P (s.appendWaiting p) := by
  unfold State.appendWaiting
  split
  · split
    · next hr => exact h.setEngine (by simp) (h.appendOwn _ (hr.1 ▸ hr.2) hs)
    · exact hs
  · exact hs

theorem deliverNotice (hs : P s) : P s.deliverNotice := by
  unfold State.deliverNotice
  split
  · next c n rest _ hn =>
    split
    · next hr =>
      refine h.mgmt (s.appendOwn c.port fun q => .notice q (s.noticeCell c n)) { s.mgmt with notices := rest, discarded := 0 }
        ⟨fun _ hj => hj, rfl, fun hb => ⟨hb.orders, ?_, Nat.zero_le _, hb.threshold⟩⟩ (h.appendOwn _ hr.2 hs)
      have := hb.notices
      simp only [State.appendOwn_mgmt, hn, List.length_cons] at this ⊢
      omega
    · exact hs
  · exact hs

/-! ### Management cells -/

theorem offerForward (p : Port) (c : Cell) (hs : P s) : P (s.offerForward p c) := by
  unfold State.offerForward
  dsimp only
  split
  · next hr => exact h.setPort ⟨rfl, fun _ => by simpa using (PortRec.mgmtRoom_iff.mp hr).2, id⟩ hs
  · exact hs

theorem offerOrder (o : Order) (hs : P s) : P (s.offerOrder o) := by
  unfold State.offerOrder
  split
  · next hl =>
    exact h.mgmt s { s.mgmt with orders := s.mgmt.orders ++ [o] }
      ⟨fun _ hj => hj, rfl, fun hb => ⟨by simpa [State.occupancy] using hl, hb.notices, hb.discarded, hb.threshold⟩⟩ hs
  · split
    · exact hs
    · split
      · next hr => exact h.appendOwn _ hr hs
      · exact hs

theorem managementCell (p : Port) (c : Cell) (hs : P s) : P (s.managementCell p c) := by
  unfold State.managementCell
  split
  · exact hs
  · split
    · unfold State.forward
      split
      · exact hs
      · split
        · exact hs
        · exact h.offerForward _ _ hs
    · split
      · have h1 : P (if typeOf c = .order ∧ inBroadcastSet (codeOf c) then s.offerOrder ⟨p, c⟩ else s) := by
          split
          · exact h.offerOrder _ hs
          · exact hs
        unfold State.broadcast
        dsimp only
        split
        · exact h1
        · exact foldl_keeps P _ (fun _ q => h.offerForward q _) _ _ h1
      · split
        · exact h.offerOrder _ hs
        · exact hs

/-! ### Port states -/

theorem changePort (p : Port) (new : PortState) (cause : PortCause) (hs : P s) : P (s.changePort p new cause) :=
  h.raise _ (h.setPort ⟨rfl, id, id⟩ hs)

theorem drainIfEmpty (p : Port) (hs : P s) : P (s.drainIfEmpty p) := by
  unfold State.drainIfEmpty
  dsimp only
  split
  · exact h.changePort _ _ _ hs
  · exact hs

theorem darkOne (i : SrcId) (hs : P s) : P (s.darkOne i) := by
  unfold State.darkOne
  split
  · exact hs
  · next x hx =>
    split
    · exact hs
    · dsimp only
      have h1 := h.source s i x _ hx (touched_dark s.time.nt x) hs
      split
      · exact h1
      · exact h.raise _ h1

theorem darkEvent (p : Port) (hs : P s) : P (s.darkEvent p) := foldl_keeps P _ (fun _ i => h.darkOne i) _ _ hs

theorem enterDark (p : Port) (ret : ReturnState) (cause : PortCause) (hs : P s) : P (s.enterDark p ret cause) := by
  have h1 := h.discardWaiting p
    (h.setPort (r := { s.port p with state := .dark ret, mgmtQ := [], feedQ := [] }) (p := p)
      ⟨rfl, fun _ => Nat.zero_le _, fun _ => Nat.zero_le _⟩ hs)
  unfold State.enterDark
  dsimp only
  split
  · split
    · exact h.darkEvent _ (h.raise _ (h.freeRead _ _ h1))
    · exact h.raise _ (h.darkEvent _ (h.freeRead _ _ h1))
  · exact h.darkEvent _ (h.raise _ h1)

theorem loseLine (p : Port) (line : LineCond) (cause : PortCause) (hs : P s) : P (s.loseLine p line cause) := by
  have h1 := h.setPort (r := { s.port p with line := line, failRun := 0 }) (p := p) ⟨rfl, id, id⟩ hs
  unfold State.loseLine
  dsimp only
  split
  · exact h.enterDark _ _ _ h1
  · exact h.enterDark _ _ _ h1
  · exact h1

theorem restoreLine (p : Port) (hs : P s) : P (s.restoreLine p) := by
  have h1 := h.setPort (r := { s.port p with line := .delineated, failRun := 0 }) (p := p) ⟨rfl, id, id⟩ hs
  unfold State.restoreLine
  dsimp only
  split
  · exact h.changePort _ _ _ h1
  · exact h1

theorem enablePort (p : Port) (hs : P s) : P (s.enablePort p) := by
  unfold State.enablePort
  dsimp only
  split
  · exact hs
  · exact h.changePort _ _ _ hs
  · split
    · exact h.changePort _ _ _ hs
    · exact h.enterDark _ _ _ hs
  · exact h.setPort ⟨rfl, id, id⟩ hs

theorem disablePort (p : Port) (hs : P s) : P (s.disablePort p) := by
  unfold State.disablePort
  dsimp only
  split
  · split <;> exact h.changePort _ _ _ hs
  · exact hs
  · exact hs
  · exact h.setPort ⟨rfl, id, id⟩ hs

/-! ### Feed cells and source ticks -/

theorem countUnbooked (p : Port) (hs : P s) : P (s.countUnbooked p) := h.setPort ⟨rfl, id, id⟩ hs

theorem watchedCell (i : SrcId) (x : Source) (c : Cell) (hx : s.source i = some x) (hs : P s) : P (s.watchedCell x c) := by
  have h2 := (touched_continuity c.seq x).trans (touched_counting _)
  have h3 := h2.trans (touched_policing _)
  unfold State.watchedCell
  dsimp only
  split
  · exact h.source s i x _ hx h2 hs
  · split
    · obtain ⟨hp, hl⟩ := replicate_frame c.payload (policing (counting (continuity c.seq x).1)).1.legs s.ports
      refine h.source _ i x _ hx (h3.trans (touched_legs hl)) (h.ports s _ (fun p => ?_) hs)
      obtain ⟨q, hq, -, hb⟩ := hp p
      rw [hq]
      exact ⟨rfl, id, hb⟩
    · exact h.source s i x _ hx h3 hs

theorem feedCell (p : Port) (c : Cell) (hs : P s) : P (s.feedCell p c) := by
  unfold State.feedCell
  split
  · exact h.countUnbooked _ hs
  · next x hx =>
    split
    · exact h.countUnbooked _ hs
    · exact h.watchedCell _ x c hx hs

theorem sourceTickIf (i : SrcId) (want : WatchStep → Bool) (hs : P s) : P (s.sourceTickIf i want) := by
  have hn : ∀ x t, s.nextTick i = some (x, t) → ∃ y, s.source i = some y ∧ Touched y x := by
    intro x t hx
    unfold State.nextTick at hx
    split at hx
    · next y hy =>
      split at hx
      · cases hx; exact ⟨y, hy, touched_ticks y _⟩
      · cases hx
    · cases hx
  unfold State.sourceTickIf
  split
  · exact hs
  · next x t hx =>
    obtain ⟨y, hy, hxy⟩ := hn x t hx
    have h1 := h.source s i y _ hy (hxy.trans (touched_watchTick (s.demanded i) t x)) hs
    dsimp only
    split
    · split
      · exact h.raise _ h1
      · exact h1
    · exact hs

/-! ### Cells in and out -/

/-- An arriving cell that passes the header check and is no time cell changes nothing that the property looks at; of a time cell its
own reading decides (R4, R5). -/
theorem takeCell (p : Port) (bytes : List Byte) (ht : ∀ u v, P u → P (State.timeCell u p v)) (hs : P s) : P (s.takeCell p bytes) := by
  unfold State.takeCell
  split
  · have h1 : P (s.endFailRun p) := h.setPort ⟨rfl, id, id⟩ hs
    unfold State.sortCell
    split
    · exact h1
    · split
      · exact h.managementCell _ _ h1
      · split
        · exact ht _ _ h1
        · exact h.countUnbooked _ h1
    · split
      · exact h.managementCell _ _ h1
      · split
        · exact ht _ _ h1
        · exact h.feedCell _ _ h1
  · unfold State.failCell
    dsimp only
    have h1 := h.setPort
      (r := { s.port p with headerErrors := (s.port p).headerErrors + 1, failRun := (s.port p).failRun + 1 }) (p := p) ⟨rfl, id, id⟩ hs
    split
    · exact h.loseLine _ _ _ h1
    · exact h1

theorem fillPlace (p : Port) (hs : P s) : P (s.fillPlace p) := by
  unfold State.fillPlace
  split
  · exact h.appendWaiting _ hs
  · split
    · split
      · exact h.deliverNotice hs
      · exact hs
    · exact hs

theorem lineSend (p : Port) (hs : P s) : P (s.lineSend p) := by
  unfold State.lineSend
  split
  · next hq => exact h.fillPlace _ (h.setPort ⟨rfl, fun hb => by simp [hq] at hb ⊢; omega, id⟩ hs)
  · next hq =>
    split
    · exact h.drainIfEmpty _ (h.setPort ⟨rfl, id, fun hb => by simp [hq] at hb ⊢; omega⟩ hs)
    · exact h.setPort ⟨rfl, id, id⟩ hs
  · exact h.setPort ⟨rfl, id, id⟩ hs

theorem actRestart (hs : P s) : P s.actRestart := by
  refine h.mgmt s _ ?_ hs
  exact ⟨fun _ hj => (nomatch hj), rfl, fun _ => ⟨Nat.zero_le _, Nat.zero_le _, Nat.zero_le _, (⟨by decide, by decide⟩ : 1 ≤ 12 ∧ 12 ≤ 16)⟩⟩

theorem handTick (t : Tick) (hs : P s) : P (s.handTick t) :=
  h.sources _ _ (fun x => touched_ticks x (x.ticks ++ [t])) (h.ticks s (s.refillTicks ++ [t]) (s.bookingTicks ++ [t]) hs)

end Quiet

/-! ## The clock and the Time Unit -/

/-- A property that nothing of the Time Unit can break. -/
structure TimeClosed (P : State → Prop) : Prop where
  time : ∀ s u n, P s → P { s with now := n, time := u }
  hand : ∀ s t, P s → P (s.handTick t)
  notice : ∀ s c, P s → P (s.raise c)

namespace TimeClosed

variable {P : State → Prop} (h : TimeClosed P) {s : State}
include h

theorem makeTick (v : Word) (stepped : Bool) (hs : P s) : P (s.makeTick v stepped) :=
  h.hand _ _ (h.time s _ s.now hs)

theorem noteTimeState (old : TimeState) (cause : TimeCause) (hs : P s) : P (s.noteTimeState old cause) := by
  unfold State.noteTimeState
  split
  · exact hs
  · exact h.notice _ _ hs

theorem lock (hs : P s) : P s.lock := h.time s _ s.now hs

theorem timeCell (p : Port) (v : Word) (hs : P s) : P (s.timeCell p v) := by
  have ht : P (s.tickCell v) := h.noteTimeState _ _ (h.lock (h.makeTick _ _ hs))
  unfold State.timeCell
  split
  · exact hs
  · split
    · exact ht
    · split
      · exact ht
      · split
        · exact h.noteTimeState _ _ (h.notice _ _ (h.lock (h.makeTick _ _ hs)))
        · unfold State.refuseStep
          dsimp only
          refine h.noteTimeState _ _ ?_
          split
          · exact h.time s _ s.now hs
          · exact h.notice _ _ (h.time s _ s.now hs)

theorem localTick (a : Nat) (hs : P s) : P (s.localTick a) := h.makeTick _ _ (h.time s _ _ hs)

theorem missDeadline (a : Nat) (hs : P s) : P (s.missDeadline a) :=
  h.noteTimeState _ _ (h.makeTick _ _ (h.time s _ _ hs))

theorem selectSource (sel : Option Port) (hs : P s) : P (s.selectSource sel) := by
  unfold State.selectSource
  split
  · exact hs
  · exact h.noteTimeState _ _ (h.time s _ s.now hs)

theorem setTime (t : Word) (hs : P s) : P (s.setTime t) := by
  unfold State.setTime
  dsimp only
  split
  · exact h.noteTimeState _ _ (h.notice _ _ (h.time s _ s.now hs))
  · split
    · exact h.time s _ s.now hs
    · exact h.notice _ _ (h.time s _ s.now hs)

end TimeClosed

end Sys2Proof.Machine
end

