-- ==== Sys2Proof/Proofs/QueueBounds.lean ====
section
/-! Every step keeps every queue within its places (R11 to R13, R146, R161, R163, R165). -/

namespace Sys2Proof.Machine

theorem QueueBounds.mgmtBound {s : State} (h : QueueBounds s) : MgmtBound s.mgmt :=
  ⟨h.orders, h.notices, h.discarded, h.threshold⟩

/-- The bounds are those of each port, of the Order Engine, and of the Bill Queue. -/
theorem QueueBounds.of_parts {s : State}
    (hp : ∀ p, (s.port p).mgmtQ.length ≤ 64 ∧ (s.port p).feedQ.length ≤ 2048 ∧ (s.port p).capacity ≤ 48000)
    (hm : MgmtBound s.mgmt) (hb : s.bills.records.length ≤ 64) : QueueBounds s :=
  ⟨fun p => (hp p).1, fun p => (hp p).2.1, fun p => (hp p).2.2, hm.orders, hm.notices, hm.discarded, hm.threshold, hb⟩

theorem QueueBounds.ports {s : State} (h : QueueBounds s) (p : Port) :
    (s.port p).mgmtQ.length ≤ 64 ∧ (s.port p).feedQ.length ≤ 2048 ∧ (s.port p).capacity ≤ 48000 :=
  ⟨h.mgmtQ p, h.feedQ p, h.capacity p⟩

theorem QueueBounds.of_same {s t : State} (h : QueueBounds s) (hp : t.ports = s.ports) (hm : t.mgmt = s.mgmt)
    (hb : t.bills = s.bills) : QueueBounds t :=
  .of_parts (fun p => by simpa only [State.port, hp] using h.ports p) (hm ▸ h.mgmtBound) (hb ▸ h.bills)

theorem quiet_queueBounds : Quiet QueueBounds where
  ports _ _ hv h := .of_parts
    (fun p => ⟨(hv p).mgmtQ (h.mgmtQ p), (hv p).feedQ (h.feedQ p), (hv p).capacity.trans_le (h.capacity p)⟩) h.mgmtBound h.bills
  mgmt _ _ hm h := .of_parts h.ports (hm.bound h.mgmtBound) h.bills
  freeRead _ _ h := h.of_same rfl rfl rfl
  ticks _ _ _ h := h.of_same rfl rfl rfl
  source _ _ _ _ _ _ h := h.of_same rfl rfl rfl
  sources _ _ _ h := h.of_same rfl rfl rfl

theorem timeClosed_queueBounds : TimeClosed QueueBounds where
  time _ _ _ h := h.of_same rfl rfl rfl
  hand _ _ h := h.of_same rfl rfl rfl
  notice _ c h := quiet_queueBounds.raise c h

theorem bookingClosed_queueBounds : BookingClosed QueueBounds where
  source _ _ _ _ _ _ h := h.of_same rfl rfl rfl
  move _ _ _ _ _ _ _ _ _ _ _ h := h.of_same rfl rfl rfl
  create _ _ _ _ h := h.of_same rfl rfl rfl
  drop _ _ h := h.of_same rfl rfl rfl
  booking _ _ _ h := h.of_same rfl rfl rfl
  free _ _ h := h.of_same rfl rfl rfl
  group _ _ _ h := h.of_same (by simp) (by simp) (by simp)
  notice _ c h := quiet_queueBounds.raise c h
  bill _ _ _ hl h := .of_parts h.ports h.mgmtBound (by simpa using hl)

theorem QueueBounds.mapPorts {s : State} (h : QueueBounds s) {f : PortRec → PortRec} (hf : ∀ r, PortStep r (f r)) :
    QueueBounds (s.mapPorts f) :=
  quiet_queueBounds.ports s _ (fun p => by simpa [State.port] using hf (s.port p)) h

theorem QueueBounds.clearTraffic {s : State} (h : QueueBounds s) : QueueBounds s.clearTraffic := by
  have h2 := bookingClosed_queueBounds.freeEarlySlots (s.bookings.map Prod.fst)
    (bookingClosed_queueBounds.abortSlots (s.bookings.map Prod.fst) h)
  have h3 : QueueBounds { (s.bookings.map Prod.fst).foldl freeEarly ((s.bookings.map Prod.fst).foldl abortSlot s) with
      groups := Vector.replicate 32 ⟨.opened, 0⟩, sources := [] } := h2.of_same rfl rfl rfl
  exact foldl_keeps QueueBounds _ (fun _ p => quiet_queueBounds.drainIfEmpty p) _ _
    (h3.mapPorts fun r => ⟨rfl, id, fun _ => Nat.zero_le _⟩)

/-- The oldest record goes, and one waiter's bill is written in its place (R150, R152). -/
theorem QueueBounds.releaseOldest {s : State} (h : QueueBounds s) {seq : Word} (hs : s.oldestBill = some seq) :
    QueueBounds (s.releaseOldest seq).state := by
  obtain ⟨r, rest, hr⟩ : ∃ r rest, s.bills.records = r :: rest := by
    cases hr : s.bills.records with
    | nil => simp [State.oldestBill, hr] at hs
    | cons r rest => exact ⟨r, rest, rfl⟩
  have hb : rest.length < 64 := by simpa [hr] using h.bills
  have h1 : QueueBounds { s with bills.records := s.bills.records.tail } :=
    .of_parts h.ports h.mgmtBound (by simpa [hr] using hb.le)
  unfold State.releaseOldest
  dsimp only
  split
  · exact bookingClosed_queueBounds.writeBill _ _ (by simpa [hr] using hb) h1
  · exact h1

theorem QueueBounds.orderWork {s t : State} (h : QueueBounds s) (hw : OrderWork s t) : QueueBounds t := by
  have hq := quiet_queueBounds
  have ht := timeClosed_queueBounds
  have hb := bookingClosed_queueBounds
  have mgmt {m : OrderEngine} (hm : MgmtBound m) : QueueBounds { s with mgmt := m } := .of_parts h.ports hm h.bills
  obtain ⟨ho, hn, hd, hth⟩ := h.mgmtBound
  cases hw with
  | nothing => exact h
  | mode m _ => exact mgmt ⟨ho, hn, hd, hth⟩
  | restart => exact mgmt ⟨ho, hn, hd, hth⟩
  | threshold n hn' => exact mgmt ⟨ho, hn, hd, hn'⟩
  | routes r => exact mgmt ⟨ho, hn, hd, hth⟩
  | clearTraffic _ => exact h.clearTraffic
  | enablePort p => exact hq.enablePort p h
  | disablePort p => exact hq.disablePort p h
  | capacity p v hv _ =>
    refine .of_parts (fun q => ?_) h.mgmtBound h.bills
    by_cases e : q = p
    · subst e
      rw [s.setPort_port_self]
      exact ⟨h.mgmtQ q, h.feedQ q, hv⟩
    · rw [s.setPort_port_ne _ e]
      exact h.ports q
  | timeSource sel => exact ht.selectSource sel h
  | timeSet t _ => exact ht.setTime t h
  | timePolicy p => exact ht.time s _ s.now h
  | defaults w _ => exact h.of_same rfl rfl rfl
  | watch i x w hx hw => exact hq.source s i x _ hx (touched_params x hw) h
  | cancelEarly ref k b _ _ => exact hb.cancelEarly k b h
  | cancelLate ref k b _ _ _ => exact hb.cancelLate k b h
  | endPending ref k b _ _ => exact hb.booking _ _ _ h
  | select ref k b r _ _ => exact hb.booking _ _ _ h
  | group g x st _ _ => exact hb.group _ _ _ h
  | tariffs u => exact h.of_same rfl rfl rfl
  | release seq hs => exact h.releaseOldest hs

/-- An admission computation starts or reads on: the engine changes and no queue (R64). -/
theorem QueueBounds.setEngine {s : State} (h : QueueBounds s) (e : Engine) : QueueBounds (s.setEngine e) :=
  .of_parts h.ports ⟨h.orders, h.notices, h.discarded, h.threshold⟩ h.bills

theorem QueueBounds.event {s t : State} (h : QueueBounds s) (he : Event s t) : QueueBounds t := by
  have hq := quiet_queueBounds
  have ht := timeClosed_queueBounds
  have hb := bookingClosed_queueBounds
  cases he with
  | nothing => exact h
  | lossOfLight p _ => exact hq.loseLine _ _ _ h
  | lightReturns p _ => exact hq.setPort ⟨rfl, id, id⟩ h
  | restore p _ => exact hq.restoreLine p h
  | lossOfDelineation p _ n =>
    exact hq.loseLine _ _ _ (hq.setPort (r := { s.port p with headerErrors := n }) ⟨rfl, id, id⟩ h)
  | cell p bytes _ => exact hq.takeCell p bytes (fun _ v => ht.timeCell p v) h
  | send p => exact hq.lineSend p h
  | drained p => exact hq.drainIfEmpty p h
  | answer p => exact hq.appendWaiting p h
  | notice => exact hq.deliverNotice h
  | localTick a _ => exact ht.localTick a h
  | deadline a _ _ => exact ht.missDeadline a h
  | refill t rest _ => exact h.of_same rfl rfl rfl
  | sourceTick i want => exact hq.sourceTickIf i want h
  | bookingTick t rest _ => exact hb.wholeTick t (hq.ticks s s.refillTicks rest h)
  | restartActs => exact hq.actRestart h
  | order o rest v r d ho _ hw => exact hq.finish o r d ((hq.taken ho h).orderWork hw)
  | bookStarts o rest f ho _ _ => exact (hq.taken ho h).setEngine _
  | modifyStarts o rest nt ref c k b m ho _ _ _ => exact (hq.taken ho h).setEngine _
  | modifyTaken o rest nt ref c k b m r d ho _ _ _ => exact hq.finish o r d (hb.acceptModify k b m (hq.taken ho h))
  | jobRefused j r d _ => exact hq.finish _ r d h
  | bookAccepted j ref f r d _ _ => exact hq.finish _ r d (hb.acceptBook ref f h)
  | modifyAccepted j k c m built b r d _ _ _ _ => exact hq.finish _ r d (hb.acceptModify k b m h)
  | modifyRebuilt j nt ref c k b m r d _ _ => exact hq.finish _ r d (hb.acceptModify k b m h)
  | reads j e _ _ _ => exact h.setEngine _
  | clock n _ _ => exact h.of_same rfl rfl rfl

/-- After the release of RESET every queue is empty and every value in its range (R17). -/
theorem queueBounds_hardReset (straps : BitVec 10) (light : BitVec 16) : QueueBounds (State.hardReset straps light) :=
  .of_parts (fun p => by simp [State.port, State.hardReset, resetPort])
    ⟨Nat.zero_le _, Nat.zero_le _, Nat.zero_le _, (⟨by decide, by decide⟩ : 1 ≤ 12 ∧ 12 ≤ 16)⟩ (Nat.zero_le _)

/-- Settles O56: by the cases of a step, each of which keeps the bound of every queue that it touches. -/
theorem stepKeepsQueueBounds : Obligations.StepKeepsQueueBounds := by
  intro s t hs h
  refine step_keeps (P := QueueBounds) (fun s q h => h.of_same rfl rfl rfl) ?_ ?_ (fun s t _ hs he => hs.event he) hs h
  · rintro s t hs ⟨⟩
    exact .of_parts (fun p => by
      simpa [State.port, State.mapPorts, PortRec.loseCells] using hs.capacity p)
      ⟨Nat.zero_le _, Nat.zero_le _, hs.discarded, hs.threshold⟩ hs.bills
  · rintro straps light s t hs ⟨⟩
    exact (queueBounds_hardReset straps light).of_same rfl rfl rfl

end Sys2Proof.Machine
end

