-- ==== Sys2Proof/Proofs/PortsTimeMode.lean ====
section
/-! Every step keeps the forms of ports, time and mode (R4, R6 to R10, R21 to R28, R168). -/

namespace Sys2Proof.Machine

/-! ## Ports -/

/-- Every port's queues and line are as its state says. -/
structure PortsForm (s : State) : Prop where
  port : ∀ p, PortForm (s.port p)

theorem PortForm.of_enabled {r : PortRec} (h : r.state = .enabled) : PortForm r := by
  simp [PortForm, h]

theorem PortForm.of_draining {r : PortRec} (h : r.state = .draining) (hq : r.feedQ ≠ []) : PortForm r := by
  simpa [PortForm, h] using hq

theorem PortForm.of_disabled {r : PortRec} (h : r.state = .disabled) (hq : r.feedQ = []) : PortForm r := by
  simpa [PortForm, h] using hq

theorem PortForm.of_dark {r : PortRec} {ret : ReturnState} (h : r.state = .dark ret) (hm : r.mgmtQ = []) (hq : r.feedQ = [])
    (hl : r.line ≠ .delineated) : PortForm r := by
  simpa [PortForm, h, hm, hq] using hl

theorem PortForm.draining {r : PortRec} (hf : PortForm r) (h : r.state = .draining) : r.feedQ ≠ [] := by
  simpa [PortForm, h] using hf

theorem PortForm.disabled {r : PortRec} (hf : PortForm r) (h : r.state = .disabled) : r.feedQ = [] := by
  simpa [PortForm, h] using hf

theorem PortForm.dark {r : PortRec} (hf : PortForm r) {ret : ReturnState} (h : r.state = .dark ret) :
    r.mgmtQ = [] ∧ r.feedQ = [] ∧ r.line ≠ .delineated := by
  simpa [PortForm, h] using hf

/-- A change of anything but the state, the queues and the line keeps a port's form. -/
theorem PortForm.same {r r' : PortRec} (h : PortForm r) (hs : r'.state = r.state) (hm : r'.mgmtQ = r.mgmtQ)
    (hq : r'.feedQ = r.feedQ) (hl : r'.line = r.line) : PortForm r' := by
  simpa [PortForm, hs, hm, hq, hl] using h

/-- On a port that is not DARK the management queue and the line are free. -/
theorem PortForm.same_notDark {r r' : PortRec} (h : PortForm r) (hd : r.isDark = false) (hs : r'.state = r.state)
    (hq : r'.feedQ = r.feedQ) : PortForm r' := by
  unfold PortForm at h ⊢
  unfold PortRec.isDark at hd
  rw [hs, hq]
  cases hr : r.state <;> simp_all

/-- A line that is not delineated fits a port in any state. -/
theorem PortForm.same_line {r r' : PortRec} (h : PortForm r) (hs : r'.state = r.state) (hm : r'.mgmtQ = r.mgmtQ)
    (hq : r'.feedQ = r.feedQ) (hl : r'.line ≠ .delineated) : PortForm r' := by
  unfold PortForm at h ⊢
  rw [hs, hm, hq]
  cases hr : r.state <;> simp_all

namespace PortsForm

variable {s t : State} (h : PortsForm s)
include h

theorem of_ports (hp : t.ports = s.ports) : PortsForm t :=
  ⟨fun p => by simpa only [State.port, hp] using h.port p⟩

theorem setPort {p : Port} {r : PortRec} (hr : PortForm r) : PortsForm (s.setPort p r) := by
  refine ⟨fun q => ?_⟩
  by_cases e : q = p
  · subst e; simpa using hr
  · rw [s.setPort_port_ne r e]; exact h.port q

theorem setEngine (e : Engine) : PortsForm (s.setEngine e) := h.of_ports rfl

theorem appendOwn {p : Port} (c : Seq → MgmtCell) (hr : (s.port p).mgmtRoom = true) : PortsForm (s.appendOwn p c) :=
  h.setPort ((h.port p).same_notDark (PortRec.mgmtRoom_iff.mp hr).1 rfl rfl)

theorem finish (o : Order) (r : Result) (d : AnswerData) : PortsForm (s.finish o r d) := by
  unfold State.finish
  split
  · exact h.of_ports rfl
  · split
    · exact h.of_ports rfl
    · split
      · next hr => exact (h.appendOwn _ hr).setEngine _
      · exact h.of_ports rfl

theorem appendWaiting (p : Port) : PortsForm (s.appendWaiting p) := by
  unfold State.appendWaiting
  split
  · split
    · next hr => exact (h.appendOwn _ (hr.1 ▸ hr.2)).setEngine _
    · exact h
  · exact h

theorem deliverNotice : PortsForm s.deliverNotice := by
  unfold State.deliverNotice
  split
  · next c n rest _ _ =>
    split
    · next hr => exact (h.appendOwn (fun q => .notice q (s.noticeCell c n)) hr.2).of_ports rfl
    · exact h
  · exact h

theorem offerForward (p : Port) (c : Cell) : PortsForm (s.offerForward p c) := by
  unfold State.offerForward
  dsimp only
  split
  · next hr => exact h.setPort ((h.port p).same_notDark (PortRec.mgmtRoom_iff.mp hr).1 rfl rfl)
  · exact h

theorem offerOrder (o : Order) : PortsForm (s.offerOrder o) := by
  unfold State.offerOrder
  split
  · exact h.of_ports rfl
  · split
    · exact h
    · split
      · next hr => exact h.appendOwn _ hr
      · exact h

theorem managementCell (p : Port) (c : Cell) : PortsForm (s.managementCell p c) := by
  unfold State.managementCell
  split
  · exact h
  · split
    · unfold State.forward
      split
      · exact h
      · split
        · exact h
        · exact h.offerForward _ _
    · split
      · have h1 : PortsForm (if typeOf c = .order ∧ inBroadcastSet (codeOf c) then s.offerOrder ⟨p, c⟩ else s) := by
          split
          · exact h.offerOrder _
          · exact h
        unfold State.broadcast
        dsimp only
        split
        · exact h1
        · exact foldl_keeps PortsForm _ (fun _ q hu => offerForward hu q _) _ _ h1
      · split
        · exact h.offerOrder _
        · exact h

theorem changePort {p : Port} {new : PortState} (cause : PortCause) (hr : PortForm { s.port p with state := new }) :
    PortsForm (s.changePort p new cause) :=
  (h.setPort hr).of_ports (State.raise_ports _ _)

theorem drainIfEmpty (p : Port) : PortsForm (s.drainIfEmpty p) := by
  unfold State.drainIfEmpty
  dsimp only
  split
  · next hd => exact h.changePort _ (.of_disabled rfl hd.2)
  · exact h

end PortsForm

@[simp] theorem State.darkOne_ports (s : State) (i : SrcId) : (s.darkOne i).ports = s.ports := by
  unfold State.darkOne
  split
  · rfl
  · split
    · rfl
    · dsimp only
      split <;> simp

@[simp] theorem State.darkEvent_ports (s : State) (p : Port) : (s.darkEvent p).ports = s.ports :=
  foldl_same State.ports _ (fun t i => t.darkOne_ports i) _ s

@[simp] theorem State.discardWaiting_ports (s : State) (p : Port) : (s.discardWaiting p).ports = s.ports := by
  unfold State.discardWaiting
  split
  · split <;> rfl
  · rfl

/-- A port that enters DARK has both queues empty, and no other port changes (R8 to R10). -/
@[simp] theorem State.enterDark_ports (s : State) (p : Port) (ret : ReturnState) (cause : PortCause) :
    (s.enterDark p ret cause).ports = (s.setPort p { s.port p with state := .dark ret, mgmtQ := [], feedQ := [] }).ports := by
  unfold State.enterDark
  dsimp only
  split
  · split <;> simp
  · simp

namespace PortsForm

variable {s t : State} (h : PortsForm s)
include h

theorem enterDark {p : Port} (ret : ReturnState) (cause : PortCause) (hl : (s.port p).line ≠ .delineated) :
    PortsForm (s.enterDark p ret cause) :=
  (h.setPort (p := p) (r := { s.port p with state := .dark ret, mgmtQ := [], feedQ := [] })
    (.of_dark rfl rfl rfl hl)).of_ports (by simp)

theorem loseLine {p : Port} {line : LineCond} (cause : PortCause) (hl : line ≠ .delineated) :
    PortsForm (s.loseLine p line cause) := by
  have h1 : PortsForm (s.setPort p { s.port p with line := line, failRun := 0 }) := h.setPort ((h.port p).same_line rfl rfl rfl hl)
  unfold State.loseLine
  dsimp only
  split
  · exact h1.enterDark _ _ (by simpa using hl)
  · exact h1.enterDark _ _ (by simpa using hl)
  · exact h1

/-- The record of a port is replaced twice over: the last one counts. -/
theorem setPort_twice {p : Port} {r r' : PortRec} (hr : PortForm r') : PortsForm ((s.setPort p r).setPort p r') := by
  refine ⟨fun q => ?_⟩
  by_cases e : q = p
  · subst e; simpa using hr
  · rw [State.setPort_port_ne _ _ e, State.setPort_port_ne _ _ e]; exact h.port q

theorem restoreLine (p : Port) : PortsForm (s.restoreLine p) := by
  unfold State.restoreLine
  dsimp only
  split
  · next ret hr =>
    refine (h.setPort_twice (p := p) (r := { s.port p with line := .delineated, failRun := 0 })
      (r' := { s.port p with line := .delineated, failRun := 0, state := returned ret }) ?_).of_ports ?_
    · cases ret with
      | enabled => exact .of_enabled rfl
      | disabled => exact .of_disabled rfl ((h.port p).dark hr).2.1
    · simp [State.changePort]
  · next hr =>
    refine h.setPort ((h.port p).same_notDark ?_ rfl rfl)
    unfold PortRec.isDark
    split
    · next ret hd => exact absurd hd (hr ret)
    · rfl

theorem enablePort (p : Port) : PortsForm (s.enablePort p) := by
  unfold State.enablePort
  dsimp only
  split
  · exact h
  · exact h.changePort _ (.of_enabled rfl)
  · split
    · exact h.changePort _ (.of_enabled rfl)
    · next hl => exact h.enterDark _ _ hl
  · next ret hd =>
    obtain ⟨hm, hq, hl⟩ := (h.port p).dark hd
    exact h.setPort (.of_dark rfl hm hq hl)

theorem disablePort (p : Port) : PortsForm (s.disablePort p) := by
  unfold State.disablePort
  dsimp only
  split
  · split
    · next hq => exact h.changePort _ (.of_disabled rfl hq)
    · next hq => exact h.changePort _ (.of_draining rfl hq)
  · exact h
  · exact h
  · next ret hd =>
    obtain ⟨hm, hq, hl⟩ := (h.port p).dark hd
    exact h.setPort (.of_dark rfl hm hq hl)

/-- Copies go to ENABLED ports alone (R12, R45). -/
theorem replicate (payload : List Byte) (ls : List Leg) : PortsForm { s with ports := (Machine.replicate payload ls s.ports).1 } := by
  refine ⟨fun p => ?_⟩
  obtain ⟨q, hq, hs, -⟩ := (replicate_frame payload ls s.ports).1 p
  have hq : State.port { s with ports := (Machine.replicate payload ls s.ports).1 } p = { s.port p with feedQ := q } := hq
  rw [hq]
  by_cases he : (s.port p).state = .enabled
  · exact .of_enabled he
  · exact (h.port p).same rfl rfl (hs he) rfl

theorem watchedCell (x : Source) (c : Cell) : PortsForm (s.watchedCell x c) := by
  unfold State.watchedCell
  dsimp only
  split
  · exact h.of_ports rfl
  · split
    · exact (h.replicate c.payload _).of_ports rfl
    · exact h.of_ports rfl

theorem countUnbooked (p : Port) : PortsForm (s.countUnbooked p) := h.setPort ((h.port p).same rfl rfl rfl rfl)

theorem feedCell (p : Port) (c : Cell) : PortsForm (s.feedCell p c) := by
  unfold State.feedCell
  split
  · exact h.countUnbooked _
  · split
    · exact h.countUnbooked _
    · exact h.watchedCell _ _

end PortsForm

theorem timeClosed_portsForm : TimeClosed PortsForm where
  time _ _ _ h := h.of_ports rfl
  hand _ _ h := h.of_ports rfl
  notice _ c h := h.of_ports (State.raise_ports _ c)

theorem bookingClosed_portsForm : BookingClosed PortsForm where
  source _ _ _ _ _ _ h := h.of_ports rfl
  move _ _ _ _ _ _ _ _ _ _ _ h := h.of_ports rfl
  create _ _ _ _ h := h.of_ports rfl
  drop _ _ h := h.of_ports rfl
  booking _ _ _ h := h.of_ports rfl
  free _ _ h := h.of_ports rfl
  group _ g x h := h.of_ports (State.setGroup_ports _ g x)
  notice _ c h := h.of_ports (State.raise_ports _ c)
  bill _ _ _ _ h := h.of_ports rfl

namespace PortsForm

variable {s t : State} (h : PortsForm s)
include h

theorem sortCell (p : Port) (c : Cell) : PortsForm (s.sortCell p c) := by
  unfold State.sortCell
  split
  · exact h
  · split
    · exact h.managementCell _ _
    · split
      · exact timeClosed_portsForm.timeCell _ _ h
      · exact h.countUnbooked _
  · split
    · exact h.managementCell _ _
    · split
      · exact timeClosed_portsForm.timeCell _ _ h
      · exact h.feedCell _ _

theorem takeCell (p : Port) (bytes : List Byte) : PortsForm (s.takeCell p bytes) := by
  unfold State.takeCell
  split
  · have h1 : PortsForm (s.endFailRun p) := h.setPort ((h.port p).same rfl rfl rfl rfl)
    exact h1.sortCell _ _
  · have h1 : PortsForm (s.setPort p
        { s.port p with headerErrors := (s.port p).headerErrors + 1, failRun := (s.port p).failRun + 1 }) :=
      h.setPort ((h.port p).same rfl rfl rfl rfl)
    unfold State.failCell
    dsimp only
    split
    · exact h1.loseLine _ (by simp)
    · exact h1

theorem fillPlace (p : Port) : PortsForm (s.fillPlace p) := by
  unfold State.fillPlace
  split
  · exact h.appendWaiting _
  · split
    · split
      · exact h.deliverNotice
      · exact h
    · exact h

/-- The feed cell sent may be the last of a DRAINING port, which is then DISABLED (R7, R14). -/
theorem sendFeed {p : Port} {c : Cell} {rest : List Cell} (ho : (s.port p).feedOpen = true) : PortsForm (s.sendFeed p c rest) := by
  have ho : (s.port p).state = .enabled ∨ (s.port p).state = .draining := by simpa [PortRec.feedOpen] using ho
  unfold State.sendFeed State.drainIfEmpty
  dsimp only
  split
  · next hd =>
    simp only [State.setPort_port_self] at hd
    refine (h.setPort_twice (p := p) (r := { s.port p with feedQ := rest, lineOut := some (.feed c) })
      (r' := { s.port p with feedQ := rest, lineOut := some (.feed c), state := .disabled }) ?_).of_ports ?_
    · exact .of_disabled rfl hd.2
    · simp [State.changePort]
  · next hd =>
    simp only [State.setPort_port_self, not_and] at hd
    refine h.setPort ?_
    rcases ho with ho | ho
    · exact .of_enabled ho
    · exact .of_draining ho (hd ho)

theorem lineSend (p : Port) : PortsForm (s.lineSend p) := by
  unfold State.lineSend
  split
  · next _ c rest hm =>
    have hd : (s.port p).isDark = false := by
      unfold PortRec.isDark
      split
      · next ret hd => simp [((h.port p).dark hd).1] at hm
      · rfl
    have h1 : PortsForm (s.setPort p { s.port p with mgmtQ := rest, lineOut := some (.mgmt c) }) :=
      h.setPort ((h.port p).same_notDark hd rfl rfl)
    exact h1.fillPlace p
  · split
    · next ho => exact h.sendFeed ho
    · exact h.setPort ((h.port p).same rfl rfl rfl rfl)
  · exact h.setPort ((h.port p).same rfl rfl rfl rfl)

theorem sourceTickIf (i : SrcId) (want : WatchStep → Bool) : PortsForm (s.sourceTickIf i want) := by
  unfold State.sourceTickIf
  split
  · exact h
  · dsimp only
    split
    · split
      · exact h.of_ports (by simp)
      · exact h.of_ports rfl
    · exact h

end PortsForm

/-- A DRAINING port whose feed queue is empty is DISABLED, and no other port changes (R7). -/
theorem State.drainIfEmpty_port (s : State) (p q : Port) :
    (s.drainIfEmpty p).port q =
      if q = p ∧ (s.port q).state = .draining ∧ (s.port q).feedQ = [] then { s.port q with state := .disabled } else s.port q := by
  unfold State.drainIfEmpty State.changePort
  dsimp only
  by_cases e : q = p
  · subst e
    split <;> simp [*]
  · split
    · simp [State.setPort_port_ne _ _ e, e]
    · simp [e]

/-- Every port of a list that drains is DISABLED (R7, R18). -/
theorem State.drainAll_port (ps : List Port) (s : State) (q : Port) :
    (ps.foldl State.drainIfEmpty s).port q =
      if q ∈ ps ∧ (s.port q).state = .draining ∧ (s.port q).feedQ = [] then { s.port q with state := .disabled } else s.port q := by
  induction ps generalizing s with
  | nil => simp
  | cons p ps ih =>
    rw [List.foldl_cons, ih]
    by_cases hd : (s.port q).state = .draining ∧ (s.port q).feedQ = []
    · by_cases e : q = p
      · rw [(s.drainIfEmpty_port p q).trans (if_pos ⟨e, hd⟩), if_neg (by simp), if_pos ⟨by simp [e], hd⟩]
      · rw [(s.drainIfEmpty_port p q).trans (if_neg fun h => e h.1)]
        simp [e, hd]
    · rw [(s.drainIfEmpty_port p q).trans (if_neg fun h => hd h.2), if_neg fun h => hd h.2, if_neg fun h => hd h.2]

/-- The ports after CLEAR TRAFFIC: the feed queues are empty, and a DRAINING port is DISABLED (R18, R170). -/
theorem State.clearTraffic_port (s : State) (p : Port) :
    s.clearTraffic.port p =
      { s.port p with feedQ := [], state := if (s.port p).state = .draining then .disabled else (s.port p).state } := by
  have hsame (u : State) : BookingClosed fun v : State => v.ports = u.ports :=
    ⟨fun _ _ _ _ _ _ h => h, fun _ _ _ _ _ _ _ _ _ _ _ h => h, fun _ _ _ _ h => h, fun _ _ h => h, fun _ _ _ h => h, fun _ _ h => h,
      fun _ g x h => (State.setGroup_ports _ g x).trans h,
      fun _ c h => (State.raise_ports _ c).trans h, fun _ _ _ _ h => h⟩
  have hp := (hsame s).freeEarlySlots (s.bookings.map Prod.fst) ((hsame s).abortSlots (s.bookings.map Prod.fst) rfl)
  unfold State.clearTraffic
  dsimp only
  rw [State.drainAll_port]
  simp only [List.mem_finRange, true_and, State.mapPorts_port, PortRec.flushFeed]
  have hp : ∀ q : Port, State.port
      { (s.bookings.map Prod.fst).foldl freeEarly ((s.bookings.map Prod.fst).foldl abortSlot s) with
        groups := Vector.replicate 32 ⟨.opened, 0⟩, sources := [] } q = s.port q :=
    fun q => congrArg (fun v : Vector PortRec 16 => v[q]) hp
  rw [hp]
  by_cases hd : (s.port p).state = .draining <;> simp [hd]

namespace PortsForm

variable {s t : State} (h : PortsForm s)
include h

theorem clearTraffic : PortsForm s.clearTraffic := by
  refine ⟨fun p => ?_⟩
  rw [s.clearTraffic_port]
  cases hs : (s.port p).state with
  | enabled => exact .of_enabled (by simp)
  | draining => exact .of_disabled (by simp) rfl
  | disabled => exact .of_disabled (by simp) rfl
  | dark ret =>
    obtain ⟨hm, -, hl⟩ := (h.port p).dark hs
    exact .of_dark (ret := ret) (by simp) hm rfl hl

theorem orderWork (hw : OrderWork s t) : PortsForm t := by
  have ht := timeClosed_portsForm
  have hb := bookingClosed_portsForm
  cases hw with
  | clearTraffic _ => exact h.clearTraffic
  | enablePort p => exact h.enablePort p
  | disablePort p => exact h.disablePort p
  | capacity p v _ _ => exact h.setPort ((h.port p).same rfl rfl rfl rfl)
  | timeSource sel => exact ht.selectSource sel h
  | timeSet t _ => exact ht.setTime t h
  | cancelEarly ref k b _ _ => exact hb.cancelEarly k b h
  | cancelLate ref k b _ _ _ => exact hb.cancelLate k b h
  | group g x st _ _ => exact hb.group _ _ _ h
  | release seq _ =>
    refine h.of_ports ?_
    unfold State.releaseOldest
    dsimp only
    split <;> simp
  | nothing | mode | restart | threshold | routes | timePolicy | defaults | watch | endPending | select | tariffs =>
    exact h.of_ports rfl

theorem event (he : Event s t) : PortsForm t := by
  have ht := timeClosed_portsForm
  have hb := bookingClosed_portsForm
  cases he with
  | nothing => exact h
  | lossOfLight p _ => exact h.loseLine _ (by simp)
  | lightReturns p _ => exact h.setPort ((h.port p).same_line rfl rfl rfl (by simp))
  | restore p _ => exact h.restoreLine p
  | lossOfDelineation p _ n =>
    have h1 : PortsForm (s.setPort p { s.port p with headerErrors := n }) := h.setPort ((h.port p).same rfl rfl rfl rfl)
    exact h1.loseLine _ (by simp)
  | cell p bytes _ => exact h.takeCell p bytes
  | send p => exact h.lineSend p
  | drained p => exact h.drainIfEmpty p
  | answer p => exact h.appendWaiting p
  | notice => exact h.deliverNotice
  | localTick a _ => exact ht.localTick a h
  | deadline a _ _ => exact ht.missDeadline a h
  | sourceTick i want => exact h.sourceTickIf i want
  | bookingTick t rest _ => exact hb.wholeTick t (h.of_ports rfl)
  | order o rest v r d _ _ hw =>
    have h1 : PortsForm (s.taken o rest) := h.of_ports rfl
    exact (h1.orderWork hw).finish o r d
  | modifyTaken o rest nt ref c k b m r d _ _ _ _ =>
    have h1 : PortsForm (s.taken o rest) := h.of_ports rfl
    exact finish (hb.acceptModify k b m h1) o r d
  | jobRefused j r d _ => exact h.finish _ r d
  | bookAccepted j ref f r d _ _ => exact finish (hb.acceptBook ref f h) _ r d
  | modifyAccepted j k c m built b r d _ _ _ _ => exact finish (hb.acceptModify k b m h) _ r d
  | modifyRebuilt j nt ref c k b m r d _ _ => exact finish (hb.acceptModify k b m h) _ r d
  | refill | restartActs | bookStarts | modifyStarts | reads | clock => exact h.of_ports rfl

end PortsForm

/-- After the release of RESET a port with light is ENABLED and one without is DARK with no cell (R17). -/
theorem portsForm_hardReset (straps : BitVec 10) (light : BitVec 16) : PortsForm (State.hardReset straps light) := by
  refine ⟨fun p => ?_⟩
  simp only [State.port, State.hardReset, Fin.getElem_fin, Vector.getElem_ofFn, resetPort]
  split
  · exact .of_enabled rfl
  · exact .of_dark (ret := .enabled) rfl rfl rfl (by simp)

/-- While RESET is asserted nothing is asked of the ports, and otherwise an event keeps their form. -/
theorem PortsInForm.step {s t : State} (hs : PortsInForm s) (h : step s = .next t) : PortsInForm t := by
  refine step_keeps (P := PortsInForm) (fun s q h => h) ?_ ?_ ?_ hs h
  · rintro s t - ⟨⟩
    exact .inl rfl
  · rintro straps light s t - ⟨⟩
    exact .inr (PortsForm.of_ports (portsForm_hardReset straps light) rfl).port
  · intro s t hr hs he
    have hs : PortsForm s := ⟨hs.resolve_left (by simp [hr])⟩
    exact .inr (hs.event he).port

end Sys2Proof.Machine
end

