-- ==== Sys2Proof/Proofs/TimeAndMode.lean ====
section
/-! Every step keeps the forms of the Time Unit and of the node mode (R21 to R28, R168), and with PortsInForm that is O59. -/

namespace Sys2Proof.Machine

/-! ## Time -/

theorem TimeForm.of_same {s t : State} (h : TimeForm s) (ht : t.time = s.time) (hn : t.now = s.now) : TimeForm t :=
  ⟨by rw [ht]; exact h.schedule, by rw [ht]; exact h.deadline, by rw [ht]; exact h.selected, by rw [ht]; exact h.free,
    by rw [ht, hn]; exact h.nextAhead, by rw [ht, hn]; exact h.deadlineAhead⟩

theorem quiet_timeForm : Quiet TimeForm where
  ports _ _ _ h := h.of_same rfl rfl
  mgmt _ _ _ h := h.of_same rfl rfl
  freeRead _ _ h := h.of_same rfl rfl
  ticks _ _ _ h := h.of_same rfl rfl
  source _ _ _ _ _ _ h := h.of_same rfl rfl
  sources _ _ _ h := h.of_same rfl rfl

theorem bookingClosed_timeForm : BookingClosed TimeForm where
  source _ _ _ _ _ _ h := h.of_same rfl rfl
  move _ _ _ _ _ _ _ _ _ _ _ h := h.of_same rfl rfl
  create _ _ _ _ h := h.of_same rfl rfl
  drop _ _ h := h.of_same rfl rfl
  booking _ _ _ h := h.of_same rfl rfl
  free _ _ h := h.of_same rfl rfl
  group _ _ _ h := h.of_same (by simp) (by simp)
  notice _ _ h := h.of_same (by simp) (by simp)
  bill _ _ _ _ h := h.of_same rfl rfl

/-- The record of the Time Unit in each of its states, at a clock value (R21 to R23, R26 to R28). -/
inductive TimeUnit.Form (now : Nat) (u : TimeUnit) : Prop
  | free (a : Nat) (hs : u.state = .free) (hn : u.nextLocal = some a) (ha : now ≤ a) (hd : u.deadline = none)
      (hm : u.stepMark = false) (hr : u.lastRefused = none)
  | localRef (a : Nat) (hs : u.state = .localRef) (hn : u.nextLocal = some a) (ha : now ≤ a) (hd : u.deadline = none)
  | locked (a : Nat) (hs : u.state = .locked) (hn : u.nextLocal = none) (hd : u.deadline = some a) (ha : now ≤ a)
      (hp : u.selection.isSome = true)
  | holdover (a : Nat) (hs : u.state = .holdover) (hn : u.nextLocal = some a) (ha : now ≤ a) (hd : u.deadline = none)
      (hp : u.selection.isSome = true)

theorem timeForm_iff {s : State} : TimeForm s ↔ s.time.Form s.now := by
  constructor
  · intro h
    have hnext : s.time.state ≠ .locked → ∃ a, s.time.nextLocal = some a ∧ s.now ≤ a ∧ s.time.deadline = none := by
      intro hl
      obtain ⟨a, ha⟩ := Option.ne_none_iff_exists'.mp fun hn => hl (h.schedule.mp hn)
      refine ⟨a, ha, h.nextAhead a ha, ?_⟩
      by_contra hd
      exact hl (h.deadline.mp (Option.isSome_iff_ne_none.mpr hd))
    cases hs : s.time.state with
    | free =>
      obtain ⟨a, hn, ha, hd⟩ := hnext (by simp [hs])
      exact .free a hs hn ha hd (h.free hs).1 (h.free hs).2
    | localRef =>
      obtain ⟨a, hn, ha, hd⟩ := hnext (by simp [hs])
      exact .localRef a hs hn ha hd
    | locked =>
      obtain ⟨a, hd⟩ := Option.isSome_iff_exists.mp (h.deadline.mpr hs)
      exact .locked a hs (h.schedule.mpr hs) hd (h.deadlineAhead a hd) (h.selected (.inl hs))
    | holdover =>
      obtain ⟨a, hn, ha, hd⟩ := hnext (by simp [hs])
      exact .holdover a hs hn ha hd (h.selected (.inr hs))
  · intro h
    cases h <;> constructor <;> simp_all

section
variable {s : State}

@[simp] theorem State.handTick_same (t : Tick) : (s.handTick t).time = s.time ∧ (s.handTick t).now = s.now := ⟨rfl, rfl⟩

@[simp] theorem State.noteTimeState_time (old : TimeState) (c : TimeCause) : (s.noteTimeState old c).time = s.time := by
  unfold State.noteTimeState
  split <;> simp

@[simp] theorem State.noteTimeState_now (old : TimeState) (c : TimeCause) : (s.noteTimeState old c).now = s.now := by
  unfold State.noteTimeState
  split <;> simp

/-- A cell taken as a tick, and an accepted step, leave the unit LOCKED on the port selected (R22 to R25). -/
theorem TimeUnit.Form.lock {p : Port} (hp : s.time.selection = some p) {v : Word} {stepped : Bool} :
    (s.makeTick v stepped).lock.time.Form (s.makeTick v stepped).lock.now :=
  .locked (s.now + 15) rfl rfl rfl (Nat.le_add_right _ _) (by simp [State.lock, State.makeTick, hp])

theorem TimeForm.timeCell (h : TimeForm s) (p : Port) (v : Word) : TimeForm (s.timeCell p v) := by
  unfold State.timeCell
  split
  · exact h
  · next hp =>
    have hp : s.time.selection = some p := by simpa using hp
    have htick : TimeForm (s.tickCell v) :=
      TimeForm.of_same (timeForm_iff.mpr (.lock hp)) (State.noteTimeState_time ..) (State.noteTimeState_now ..)
    split
    · exact htick
    · next hf =>
      split
      · exact htick
      · split
        · exact TimeForm.of_same (timeForm_iff.mpr (.lock hp (v := v) (stepped := true))) (by simp [State.acceptStep])
            (by simp [State.acceptStep])
        · rw [timeForm_iff] at h ⊢
          unfold State.refuseStep
          dsimp only
          rw [State.noteTimeState_time, State.noteTimeState_now]
          have hr {u w : State} (hu : u.time.Form u.now) (c : Prop) [Decidable c] (n : NoticeContent) (hw : w = u) :
              (if c then u else w.raise n).time.Form (if c then u else w.raise n).now := by
            subst hw
            split <;> simpa using hu
          refine hr ?_ _ _ rfl
          cases h with
          | free a hs => exact absurd hs hf
          | localRef a hs hn ha hd => exact .localRef a (by simp [hs]) (by simp [hs, hn]) ha (by simp [hs, hd])
          | locked a hs hn hd ha hp =>
            exact .holdover a (by simp [hs, TimeUnit.unlock]) (by simp [hs, TimeUnit.unlock, hd]) ha
              (by simp [hs, TimeUnit.unlock]) (by simpa [hs, TimeUnit.unlock] using hp)
          | holdover a hs hn ha hd hp =>
            exact .holdover a (by simp [hs]) (by simp [hs, hn]) ha (by simp [hs, hd]) (by simpa [hs] using hp)

theorem TimeForm.localTick (h : TimeForm s) {a : Nat} (ha : s.time.nextLocal = some a) : TimeForm (s.localTick a) := by
  have hm := max_eq_right (h.nextAhead a ha)
  rw [timeForm_iff] at h ⊢
  simp only [State.localTick, State.makeTick, State.handTick_same, hm]
  have hle : a ≤ a + 10 := Nat.le_add_right _ _
  cases h with
  | free b hs hn hb hd hmk hr => exact .free (a + 10) hs rfl hle hd rfl hr
  | localRef b hs hn hb hd => exact .localRef (a + 10) hs rfl hle hd
  | locked b hs hn => simp [hn] at ha
  | holdover b hs hn hb hd hp => exact .holdover (a + 10) hs rfl hle hd hp

theorem TimeForm.missDeadline (h : TimeForm s) {a : Nat} (hl : s.time.state = .locked) (ha : s.time.deadline = some a) :
    TimeForm (s.missDeadline a) := by
  have hm := max_eq_right (h.deadlineAhead a ha)
  rw [timeForm_iff]
  simp only [State.missDeadline, State.noteTimeState_time, State.noteTimeState_now, State.makeTick, State.handTick_same, hm]
  exact .holdover (a + 10) rfl rfl (Nat.le_add_right _ _) rfl (h.selected (.inl hl))

theorem TimeForm.selectSource (h : TimeForm s) (sel : Option Port) : TimeForm (s.selectSource sel) := by
  unfold State.selectSource
  split
  · exact h
  · rw [timeForm_iff] at h ⊢
    dsimp only
    rw [State.noteTimeState_time, State.noteTimeState_now]
    have hsel : sel ≠ none → sel.isSome = true := Option.isSome_iff_ne_none.mpr
    cases h with
    | free a hs hn ha hd hm hr => simp only [hs]; exact .free a rfl hn ha hd hm rfl
    | localRef a hs hn ha hd => simp only [hs]; exact .localRef a rfl hn ha hd
    | locked a hs hn hd ha hp =>
      simp only [hs, TimeUnit.unlock]
      split
      · exact .localRef a rfl hd ha rfl
      · next he => exact .holdover a rfl hd ha rfl (hsel he)
    | holdover a hs hn ha hd hp =>
      simp only [hs]
      split
      · exact .localRef a rfl hn ha hd
      · next he => exact .holdover a rfl hn ha hd (hsel he)

theorem TimeForm.setTime (h : TimeForm s) (v : Word) (hs : ¬ (s.time.state = .locked ∨ s.time.state = .holdover)) :
    TimeForm (s.setTime v) := by
  rw [timeForm_iff] at h ⊢
  unfold State.setTime
  dsimp only
  cases h with
  | free a hf hn ha hd hm hr =>
    rw [if_pos hf, State.noteTimeState_time, State.noteTimeState_now, State.raise_time, State.raise_now]
    exact .localRef a rfl hn ha hd
  | localRef a hl hn ha hd =>
    rw [if_neg (by simp [hl])]
    split
    · exact .localRef a hl hn ha hd
    · rw [State.raise_time, State.raise_now]
      exact .localRef a hl hn ha hd
  | locked a hl => exact absurd (.inl hl) hs
  | holdover a hl => exact absurd (.inr hl) hs

/-- TIME POLICY makes the last refused difference absent, and the clock passes no due instant (R29). -/
theorem TimeForm.policy (h : TimeForm s) (p : StepPolicy) :
    TimeForm { s with time := { s.time with policy := p, lastRefused := none } } :=
  ⟨h.schedule, h.deadline, h.selected, fun hf => ⟨(h.free hf).1, rfl⟩, h.nextAhead, h.deadlineAhead⟩

theorem TimeForm.clearTraffic (h : TimeForm s) : TimeForm s.clearTraffic := by
  have h2 := bookingClosed_timeForm.freeEarlySlots (s.bookings.map Prod.fst)
    (bookingClosed_timeForm.abortSlots (s.bookings.map Prod.fst) h)
  have h3 : TimeForm (State.mapPorts { (s.bookings.map Prod.fst).foldl freeEarly ((s.bookings.map Prod.fst).foldl abortSlot s) with
      groups := Vector.replicate 32 ⟨.opened, 0⟩, sources := [] } PortRec.flushFeed) := h2.of_same rfl rfl
  exact foldl_keeps TimeForm _ (fun _ p => quiet_timeForm.drainIfEmpty p) _ _ h3

theorem TimeForm.orderWork {t : State} (h : TimeForm s) (hw : OrderWork s t) : TimeForm t := by
  have hb := bookingClosed_timeForm
  cases hw with
  | clearTraffic _ => exact h.clearTraffic
  | enablePort p => exact quiet_timeForm.enablePort p h
  | disablePort p => exact quiet_timeForm.disablePort p h
  | timeSource sel => exact h.selectSource sel
  | timeSet t hs => exact h.setTime t hs
  | timePolicy p => exact h.policy p
  | cancelEarly ref k b _ _ => exact hb.cancelEarly k b h
  | cancelLate ref k b _ _ _ => exact hb.cancelLate k b h
  | group g x st _ _ => exact hb.group _ _ _ h
  | release seq _ =>
    unfold State.releaseOldest
    dsimp only
    split <;> exact h.of_same (by simp) (by simp)
  | nothing | mode | restart | threshold | routes | capacity | defaults | watch | endPending | select | tariffs =>
    exact h.of_same rfl rfl

theorem TimeForm.event {t : State} (h : TimeForm s) (he : Event s t) : TimeForm t := by
  have hq := quiet_timeForm
  have hb := bookingClosed_timeForm
  cases he with
  | nothing => exact h
  | lossOfLight p _ => exact hq.loseLine _ _ _ h
  | restore p _ => exact hq.restoreLine p h
  | lossOfDelineation p _ n =>
    exact hq.loseLine _ _ _ (hq.setPort (r := { s.port p with headerErrors := n }) ⟨rfl, id, id⟩ h)
  | cell p bytes _ => exact hq.takeCell p bytes (fun _ v hu => hu.timeCell p v) h
  | send p => exact hq.lineSend p h
  | drained p => exact hq.drainIfEmpty p h
  | answer p => exact hq.appendWaiting p h
  | notice => exact hq.deliverNotice h
  | localTick a ha => exact h.localTick ha
  | deadline a hl ha => exact h.missDeadline hl ha
  | sourceTick i want => exact hq.sourceTickIf i want h
  | bookingTick t rest _ => exact hb.wholeTick t (hq.ticks s s.refillTicks rest h)
  | order o rest v r d ho _ hw => exact hq.finish o r d ((hq.taken ho h).orderWork hw)
  | modifyTaken o rest nt ref c k b m r d ho _ _ _ => exact hq.finish o r d (hb.acceptModify k b m (hq.taken ho h))
  | jobRefused j r d _ => exact hq.finish _ r d h
  | bookAccepted j ref f r d _ _ => exact hq.finish _ r d (hb.acceptBook ref f h)
  | modifyAccepted j k c m built b r d _ _ _ _ => exact hq.finish _ r d (hb.acceptModify k b m h)
  | modifyRebuilt j nt ref c k b m r d _ _ => exact hq.finish _ r d (hb.acceptModify k b m h)
  | clock n hn hd =>
    exact ⟨h.schedule, h.deadline, h.selected, h.free, fun a ha => hn a ha (h.nextAhead a ha),
      fun a ha => hd a ha (h.deadlineAhead a ha)⟩
  | lightReturns | refill | restartActs | bookStarts | modifyStarts | reads => exact h.of_same rfl rfl

end

/-- After the release of RESET the unit is FREE and its schedule runs (R17, R21). -/
theorem timeForm_hardReset (straps : BitVec 10) (light : BitVec 16) : TimeForm (State.hardReset straps light) :=
  timeForm_iff.mpr (.free 10 rfl rfl (Nat.zero_le _) rfl rfl rfl)

theorem TimeForm.step {s t : State} (hs : TimeForm s) (h : step s = .next t) : TimeForm t := by
  refine step_keeps (P := TimeForm) (fun s q h => h.of_same rfl rfl) ?_ ?_ (fun s t _ hs he => hs.event he) hs h
  · rintro s t hs ⟨⟩
    exact hs.of_same rfl rfl
  · rintro straps light s t - ⟨⟩
    exact (timeForm_hardReset straps light).of_same rfl rfl

/-! ## Mode -/

theorem ModeForm.of_same {s t : State} (h : ModeForm s) (hm : t.mgmt.mode = s.mgmt.mode)
    (he : ∀ j, t.mgmt.engine = .working j → s.mgmt.engine = .working j) (hb : s.bookings = [] → t.bookings = [])
    (ht : t.time.state = .free → s.time.state = .free) : ModeForm t := by
  refine ⟨fun hc => hb (h.free (hm ▸ hc)), fun hc hf => h.valid (hm ▸ hc) (ht hf), fun hw => ?_⟩
  cases hj : t.mgmt.engine with
  | working j => rw [hm]; exact h.working (by simp [he j hj, Engine.isWorking])
  | ready => simp [hj, Engine.isWorking] at hw
  | answerWait p a => simp [hj, Engine.isWorking] at hw

theorem quiet_modeForm : Quiet ModeForm where
  ports _ _ _ h := h.of_same rfl (fun _ => id) id id
  mgmt _ _ hm h := h.of_same hm.mode hm.engine id id
  freeRead _ _ h := h.of_same rfl (fun _ => id) id id
  ticks _ _ _ h := h.of_same rfl (fun _ => id) id id
  source _ _ _ _ _ _ h := h.of_same rfl (fun _ => id) id id
  sources _ _ _ h := h.of_same rfl (fun _ => id) id id

/-- What the Booking Engine and the booking orders leave of the state for the mode to look at. -/
def SameMode (s t : State) : Prop := t.mgmt.mode = s.mgmt.mode ∧ t.mgmt.engine = s.mgmt.engine ∧ t.time = s.time

theorem bookingClosed_sameMode (s : State) : BookingClosed (SameMode s) where
  source _ _ _ _ _ _ h := h
  move _ _ _ _ _ _ _ _ _ _ _ h := h
  create _ _ _ _ h := h
  drop _ _ h := h
  booking _ _ _ h := h
  free _ _ h := h
  group _ g x h := ⟨(congrArg OrderEngine.mode (State.setGroup_mgmt _ g x)).trans h.1,
    (congrArg OrderEngine.engine (State.setGroup_mgmt _ g x)).trans h.2.1, (State.setGroup_time _ g x).trans h.2.2⟩
  notice _ c h := ⟨(State.raise_mode _ c).trans h.1, (State.raise_engine _ c).trans h.2.1, (State.raise_time _ c).trans h.2.2⟩
  bill _ _ _ _ h := h

theorem SameMode.refl (s : State) : SameMode s s := ⟨rfl, rfl, rfl⟩

/-- An operation on bookings keeps the form where the mode is not COMMISSIONING, whatever it does to the tables. -/
theorem ModeForm.of_sameMode {s t : State} (h : ModeForm s) (hc : s.mgmt.mode ≠ .commissioning ∨ (s.bookings = [] → t.bookings = []))
    (hs : SameMode s t) : ModeForm t := by
  obtain ⟨hm, he, ht⟩ := hs
  refine ⟨fun hc' => ?_, fun hc' => ?_, fun hw => ?_⟩
  · rw [hm] at hc'
    exact (hc.resolve_left (not_not.mpr hc')) (h.free hc')
  · rw [ht]
    exact h.valid (hm ▸ hc')
  · rw [hm]
    exact h.working (he ▸ hw)

/-- NT does not become invalid at an event of the Time Unit, and the mode, the engine and the bookings stand. -/
structure TimeOnly (s t : State) : Prop where
  mode : t.mgmt.mode = s.mgmt.mode
  engine : t.mgmt.engine = s.mgmt.engine
  bookings : t.bookings = s.bookings

theorem timeClosed_timeOnly (s : State) : TimeClosed (TimeOnly s) where
  time _ _ _ h := ⟨h.mode, h.engine, h.bookings⟩
  hand _ _ h := ⟨h.mode, h.engine, h.bookings⟩
  notice _ c h := ⟨(State.raise_mode _ c).trans h.mode, (State.raise_engine _ c).trans h.engine,
    (State.raise_bookings _ c).trans h.bookings⟩

theorem TimeOnly.refl (s : State) : TimeOnly s s := ⟨rfl, rfl, rfl⟩

theorem ModeForm.of_timeOnly {s t : State} (h : ModeForm s) (ho : TimeOnly s t) (ht : t.time.state = .free → s.time.state = .free) :
    ModeForm t :=
  h.of_same ho.mode (fun _ hj => ho.engine ▸ hj) (fun hb => ho.bookings.trans hb) ht

section
variable {s : State}

theorem timeCell_free {p : Port} {v : Word} (h : (s.timeCell p v).time.state = .free) : s.time.state = .free := by
  by_contra hf
  unfold State.timeCell at h
  split at h
  · exact hf h
  · split at h
    · simp [State.tickCell, State.lock] at h
    · split at h
      · simp [State.acceptStep, State.lock] at h
      · unfold State.refuseStep at h
        dsimp only at h
        rw [State.noteTimeState_time] at h
        by_cases hl : s.time.state = .locked
        · split at h <;> simp [TimeUnit.unlock] at h
        · split at h <;> simp [hf] at h

theorem selectSource_free {sel : Option Port} (h : (s.selectSource sel).time.state = .free) : s.time.state = .free := by
  unfold State.selectSource at h
  split at h
  · exact h
  · dsimp only at h
    rw [State.noteTimeState_time] at h
    cases hs : s.time.state with
    | free => rfl
    | localRef => simp [hs] at h
    | locked =>
      simp only [hs, TimeUnit.unlock] at h
      split at h <;> cases h
    | holdover =>
      simp only [hs] at h
      split at h <;> cases h

theorem setTime_free {v : Word} (h : (s.setTime v).time.state = .free) : s.time.state = .free := by
  by_contra hf
  unfold State.setTime at h
  dsimp only at h
  rw [if_neg hf] at h
  split at h
  · exact hf h
  · exact hf (by simpa using h)

/-- With no booking in the table a booking tick does nothing (R79). -/
theorem wholeTick_of_empty (t : Tick) (h : s.bookings = []) : wholeTick t s = s := by
  simp [wholeTick, stage5, stage4, stages123, stage3, stage2, stage1, State.slots, h]

theorem byRef_ne_nil {ref : Word} {e : Nat × Booking} (h : s.byRef ref = some e) : s.bookings ≠ [] := by
  intro hb
  simp [State.byRef, hb] at h

theorem ModeForm.notCommissioning_of_byRef (h : ModeForm s) {ref : Word} {e : Nat × Booking} (hb : s.byRef ref = some e) :
    s.mgmt.mode ≠ .commissioning :=
  fun hc => byRef_ne_nil hb (h.free hc)

theorem releaseOldest_bookings_nil (seq : Word) (h : s.bookings = []) : (s.releaseOldest seq).state.bookings = [] := by
  unfold State.releaseOldest
  dsimp only
  split
  · simp [h, tabDel]
  · exact h

theorem noteLevel_mode (q : Word) : (s.noteLevel q).mgmt.mode = s.mgmt.mode ∧ (s.noteLevel q).mgmt.engine = s.mgmt.engine := by
  unfold State.noteLevel
  dsimp only
  split
  · simp
  · split <;> simp

theorem ModeForm.clearTraffic (h : ModeForm s) (hc : s.mgmt.mode ≠ .commissioning) : ModeForm s.clearTraffic := by
  have h2 := (bookingClosed_sameMode s).freeEarlySlots (s.bookings.map Prod.fst)
    ((bookingClosed_sameMode s).abortSlots (s.bookings.map Prod.fst) (SameMode.refl s))
  have h3 : ModeForm (State.mapPorts { (s.bookings.map Prod.fst).foldl freeEarly ((s.bookings.map Prod.fst).foldl abortSlot s) with
      groups := Vector.replicate 32 ⟨.opened, 0⟩, sources := [] } PortRec.flushFeed) :=
    h.of_sameMode (.inl hc) h2
  exact foldl_keeps ModeForm _ (fun _ p => quiet_modeForm.drainIfEmpty p) _ _ h3

/-- The table of R168: COMMISSIONING is entered with every slot FREE, and left with NT valid. -/
theorem ModeForm.setMode (h : ModeForm s) (hr : s.mgmt.engine = .ready) {m : NodeMode} (hm : s.modeAllowed m = true) :
    ModeForm { s with mgmt.mode := m } := by
  unfold State.modeAllowed at hm
  refine ⟨fun hc => ?_, fun hc hf => ?_, fun hw => by simp [hr, Engine.isWorking] at hw⟩
  · have hc : m = .commissioning := hc
    subst hc
    cases hs : s.mgmt.mode <;> simp_all [h.free]
  · have hc : m ≠ .commissioning := hc
    have hf : s.time.state = .free := hf
    have hv := h.valid
    cases hs : s.mgmt.mode <;> cases m <;> simp_all [State.ntValid]

theorem ModeForm.orderWork {t : State} (h : ModeForm s) (hr : s.mgmt.engine = .ready) (hw : OrderWork s t) : ModeForm t := by
  have hb := bookingClosed_sameMode s
  have hrefl := SameMode.refl s
  have ht := timeClosed_timeOnly s
  have htr := TimeOnly.refl s
  cases hw with
  | clearTraffic hc => exact h.clearTraffic hc
  | mode m hm => exact h.setMode hr hm
  | enablePort p => exact quiet_modeForm.enablePort p h
  | disablePort p => exact quiet_modeForm.disablePort p h
  | timeSource sel => exact h.of_timeOnly (ht.selectSource sel htr) selectSource_free
  | timeSet t hs => exact h.of_timeOnly (ht.setTime t htr) setTime_free
  | cancelEarly ref k b hk _ => exact h.of_sameMode (.inl (h.notCommissioning_of_byRef hk)) (hb.cancelEarly k b hrefl)
  | cancelLate ref k b hk _ _ => exact h.of_sameMode (.inl (h.notCommissioning_of_byRef hk)) (hb.cancelLate k b hrefl)
  | endPending ref k b hk _ => exact h.of_sameMode (.inl (h.notCommissioning_of_byRef hk)) hrefl
  | select ref k b r hk _ => exact h.of_sameMode (.inl (h.notCommissioning_of_byRef hk)) hrefl
  | group g x st _ _ => exact h.of_sameMode (.inr (by simp)) (hb.group _ _ _ hrefl)
  | release seq _ =>
    refine h.of_sameMode (.inr (releaseOldest_bookings_nil seq)) ?_
    unfold State.releaseOldest
    dsimp only
    split
    · exact ⟨(noteLevel_mode _).1, (noteLevel_mode _).2, by simp⟩
    · exact hrefl
  | nothing | restart | threshold | routes | timePolicy | capacity | defaults | watch | tariffs =>
    exact h.of_same rfl (fun _ => id) id id

/-- A BOOK whose checks pass is taken in SERVICE (R57). -/
theorem bookCheck_service {o : Order} {f : Fields} (h : bookCheck o s = .ok f) : s.mgmt.mode = .service := by
  unfold bookCheck at h
  dsimp only at h
  split at h
  · cases h
  · split at h
    · cases h
    · next hm => simpa using hm

/-- An admission computation starts in SERVICE (R57, R66). -/
theorem ModeForm.starts (h : ModeForm s) (hm : s.mgmt.mode = .service) (e : Engine) : ModeForm (s.setEngine e) :=
  ⟨h.free, h.valid, fun _ => hm⟩

theorem canTake_ready (h : s.canTake = true) : s.mgmt.engine = .ready := by
  unfold State.canTake Engine.isReady at h
  cases he : s.mgmt.engine <;> simp_all

theorem ModeForm.service_of_working (h : ModeForm s) {j : Job} (hj : s.mgmt.engine = .working j) :
    s.mgmt.mode = .service := h.working (by simp [hj, Engine.isWorking])

theorem ModeForm.event {t : State} (h : ModeForm s) (he : Event s t) : ModeForm t := by
  have hq := quiet_modeForm
  have hb (u : State) := bookingClosed_sameMode u
  have ht := timeClosed_timeOnly s
  have htr := TimeOnly.refl s
  have busy {j : Job} (hj : s.mgmt.engine = .working j) : s.mgmt.mode ≠ .commissioning := by
    simp [h.service_of_working hj]
  cases he with
  | nothing => exact h
  | lossOfLight p _ => exact hq.loseLine _ _ _ h
  | restore p _ => exact hq.restoreLine p h
  | lossOfDelineation p _ n =>
    exact hq.loseLine _ _ _ (hq.setPort (r := { s.port p with headerErrors := n }) ⟨rfl, id, id⟩ h)
  | cell p bytes _ =>
    exact hq.takeCell p bytes
      (fun u v hu => hu.of_timeOnly ((timeClosed_timeOnly u).timeCell p v (TimeOnly.refl u)) timeCell_free) h
  | send p => exact hq.lineSend p h
  | drained p => exact hq.drainIfEmpty p h
  | answer p => exact hq.appendWaiting p h
  | notice => exact hq.deliverNotice h
  | restartActs => exact hq.actRestart h
  | localTick a _ => exact h.of_timeOnly (ht.localTick a htr) id
  | deadline a _ _ =>
    exact h.of_timeOnly (ht.missDeadline a htr) fun hf => by
      simp [State.missDeadline, State.makeTick] at hf
  | sourceTick i want => exact hq.sourceTickIf i want h
  | bookingTick t rest _ =>
    have h1 : ModeForm { s with bookingTicks := rest } := hq.ticks s s.refillTicks rest h
    exact h1.of_sameMode (.inr fun he => by rw [wholeTick_of_empty t he, he]) ((hb _).wholeTick t (SameMode.refl _))
  | order o rest v r d ho hc hw => exact hq.finish o r d ((hq.taken ho h).orderWork (canTake_ready hc) hw)
  | bookStarts o rest f ho _ hf => exact (hq.taken ho h).starts (bookCheck_service hf) _
  | modifyStarts o rest nt ref c k b m ho _ hs _ => exact (hq.taken ho h).starts hs _
  | modifyTaken o rest nt ref c k b m r d ho _ hs _ =>
    exact hq.finish o r d ((hq.taken ho h).of_sameMode (.inl (by simp [hs])) ((hb _).acceptModify k b m (SameMode.refl _)))
  | jobRefused j r d _ => exact hq.finish _ r d h
  | bookAccepted j ref f r d hj _ =>
    exact hq.finish _ r d (h.of_sameMode (.inl (busy hj)) ((hb _).acceptBook ref f (SameMode.refl _)))
  | modifyAccepted j k c m built b r d hj _ _ _ =>
    exact hq.finish _ r d (h.of_sameMode (.inl (busy hj)) ((hb _).acceptModify k b m (SameMode.refl _)))
  | modifyRebuilt j nt ref c k b m r d hj _ =>
    exact hq.finish _ r d (h.of_sameMode (.inl (busy hj)) ((hb _).acceptModify k b m (SameMode.refl _)))
  | reads j e hj _ _ => exact h.starts (h.service_of_working hj) _
  | lightReturns | refill | clock => exact h.of_same rfl (fun _ => id) id id

end

/-- After the release of RESET the node is COMMISSIONING and every slot is FREE (R17, R168). -/
theorem modeForm_hardReset (straps : BitVec 10) (light : BitVec 16) : ModeForm (State.hardReset straps light) :=
  ⟨fun _ => rfl, fun h => absurd rfl h, fun h => nomatch h⟩

theorem ModeForm.step {s t : State} (hs : ModeForm s) (h : step s = .next t) : ModeForm t := by
  refine step_keeps (P := ModeForm) (fun s q h => h.of_same rfl (fun _ => id) id id) ?_ ?_ (fun s t _ hs he => hs.event he) hs h
  · rintro s t hs ⟨⟩
    exact hs.of_same rfl (fun _ hj => nomatch hj) id id
  · rintro straps light s t - ⟨⟩
    exact (modeForm_hardReset straps light).of_same rfl (fun _ => id) id id

/-- Settles O59: each of the three forms by the cases of a step. -/
theorem stepKeepsPortsTimeAndMode : Obligations.StepKeepsPortsTimeAndMode :=
  fun _ _ h => ⟨fun hs => hs.step h, fun hs => hs.step h, fun hs => hs.step h⟩

end Sys2Proof.Machine
end

