-- ==== Sys2Proof/Proofs/Reset.lean ====
section
/-! RESET: what its release sets, what its assertion stops, and that the state after it has every form that a step keeps (R17). -/

namespace Sys2Proof.Machine

/-- A port after the release of RESET, by its light (R17). -/
theorem hardReset_port (straps : BitVec 10) (light : BitVec 16) (p : Port) :
    (State.hardReset straps light).port p = resetPort (light.getLsbD p.val) := by
  simp [State.port, State.hardReset]

/-- The address is the strap value where that is 1 to 1,000, and 1,000 with a strap fault otherwise (R157). -/
theorem hardReset_address (straps : BitVec 10) (light : BitVec 16) :
    if 1 ≤ straps.toNat ∧ straps.toNat ≤ 1000 then
      (State.hardReset straps light).mgmt.address = straps.toNat ∧ (State.hardReset straps light).mgmt.strapFault = false
    else (State.hardReset straps light).mgmt.address = 1000 ∧ (State.hardReset straps light).mgmt.strapFault = true := by
  have hv : strapValid straps = true ↔ 1 ≤ straps.toNat ∧ straps.toNat ≤ 1000 := by simp [strapValid]
  split
  · next h => simp [State.hardReset, hv.mpr h]
  · next h => simp [State.hardReset, Bool.not_eq_true _ |>.mp fun h' => h (hv.mp h')]

/-- Settles O2, block by block from the state that the release sets. -/
theorem resetReleaseSetsEveryBlock : Obligations.ResetReleaseSetsEveryBlock := by
  intro straps light s
  refine ⟨_, rfl, rfl, rfl, fun p => ?_, ⟨rfl, rfl, rfl, rfl, rfl, rfl, rfl, rfl⟩, rfl, rfl, rfl, rfl, rfl, rfl,
    ⟨rfl, rfl, rfl, rfl, rfl, rfl, rfl, rfl⟩, hardReset_address straps light⟩
  have hp : State.port { State.hardReset straps light with pending := s.pending, freeRead := s.freeRead } p
      = resetPort (light.getLsbD p.val) := hardReset_port straps light p
  rw [hp]
  exact ⟨rfl, rfl, rfl, rfl, rfl, rfl, rfl, rfl⟩

/-- Every command answers a next state. -/
theorem exec_next (c : Instr) (s : State) : ∃ t, exec c s = .next t := by
  cases c <;> exact ⟨_, rfl⟩

/-- While RESET is asserted no command but the two of RESET changes anything: no event happens then (R17). -/
theorem exec_inReset {c : Instr} {s : State} (hr : s.inReset = true) (ha : c ≠ .hardResetAssert)
    (hl : ∀ straps light, c ≠ .hardResetRelease straps light) : exec c s = .next s := by
  obtain ⟨t, h⟩ := exec_next c s
  rcases exec_event ha hl h with rfl | ⟨hi, -⟩
  · exact h
  · simp [hr] at hi

/-- Settles O3: the cells are lost at the assertion, and nothing else acts until the release. -/
theorem resetAssertStopsThePart : Obligations.ResetAssertStopsThePart := by
  refine ⟨fun s => ⟨_, rfl, ?_⟩, fun c s hr ha hl => exec_inReset hr ha hl⟩
  simp [State.port, State.mapPorts, PortRec.loseCells]

/-! ## The forms of the state after hard reset -/

section
variable (straps : BitVec 10) (light : BitVec 16)

theorem tablesInForm_hardReset : TablesInForm (State.hardReset straps light) :=
  ⟨.nil, .nil, fun _ he => nomatch he⟩

theorem sourcesInForm_hardReset : SourcesInForm (State.hardReset straps light) :=
  ⟨(⟨by decide, by decide, by decide⟩ : WatchParams.ok Config.watchDefaults), fun e he => nomatch he⟩

theorem billForm_hardReset : BillForm (State.hardReset straps light) :=
  ⟨trivial, ⟨by simp [State.hardReset], fun r hr => nomatch hr⟩, Nat.zero_le _, fun h => nomatch h⟩

/-- Every start group is OPEN and has no member (R74). -/
theorem hardReset_groupOf {g : Nat} {x : Group} (h : (State.hardReset straps light).groupOf g = some x) : x = ⟨.opened, 0⟩ := by
  unfold State.groupOf at h
  split at h
  · cases h
  · obtain ⟨hi, h⟩ := Vector.getElem?_eq_some_iff.mp h
    simpa [State.hardReset] using h.symm

theorem linksInForm_hardReset : LinksInForm (State.hardReset straps light) where
  refs _ _ h := nomatch h
  named _ he := nomatch he
  owners _ he := nomatch he
  pairs := List.nodup_nil
  unique := List.nodup_nil
  held _ _ h := by
    obtain rfl := hardReset_groupOf straps light h
    exact ⟨rfl, fun _ => rfl⟩
  heldGroup _ he := nomatch he
  records _ he := nomatch he
  job _ h := nomatch h

theorem capacityForm_hardReset : CapacityForm (State.hardReset straps light) :=
  ⟨fun _ => Nat.zero_le _, fun _ he => (nomatch he), fun _ h => nomatch h⟩

theorem boundsForm_hardReset : BoundsForm (State.hardReset straps light) :=
  ⟨fun _ he => (nomatch he), Nat.zero_le _, fun _ h => nomatch h⟩

end

/-- Settles O60: every table and queue is empty, and every value its reset value. -/
theorem resetHasEveryForm : Obligations.ResetHasEveryForm := by
  intro s hs
  obtain ⟨straps, light, rfl⟩ : ∃ straps light, s = State.hardReset straps light := by
    rcases hs with rfl | h
    · exact ⟨_, _, rfl⟩
    · exact h
  exact ⟨queueBounds_hardReset straps light, tablesInForm_hardReset straps light, sourcesInForm_hardReset straps light,
    billForm_hardReset straps light, fun _ he => (nomatch he), .inr (portsForm_hardReset straps light).port,
    timeForm_hardReset straps light, modeForm_hardReset straps light, linksInForm_hardReset straps light,
    capacityForm_hardReset straps light, boundsForm_hardReset straps light⟩

end Sys2Proof.Machine
end

