-- ==== Sys2Proof/Proofs/Ports.lean ====
section
/-! Chapter 1: what the line events, arriving cells, port orders and the sending do (R3 to R16). -/

namespace Sys2Proof.Machine

section
variable (s : State) (p : Port)

/-! ## Writing a port twice -/

@[simp] theorem State.setPort_setPort (r r' : PortRec) : (s.setPort p r).setPort p r' = s.setPort p r' := by
  simp [State.setPort]

@[simp] theorem State.setPort_port : s.setPort p (s.port p) = s := by
  simp [State.setPort, State.port]

/-! ## Line events -/

/-- A loss event by the port's state (R3, R8). -/
theorem State.loseLine_eq (line : LineCond) (cause : PortCause) :
    s.loseLine p line cause = match (s.port p).state with
      | .enabled => (s.setPort p { s.port p with line := line, failRun := 0 }).enterDark p .enabled cause
      | .draining => (s.setPort p { s.port p with line := line, failRun := 0 }).enterDark p .disabled cause
      | _ => s.setPort p { s.port p with line := line, failRun := 0 } := rfl

/-- A loss event on a port whose record has just been written. -/
theorem State.setPort_loseLine (r : PortRec) (line : LineCond) (cause : PortCause) :
    (s.setPort p r).loseLine p line cause = match r.state with
      | .enabled => (s.setPort p { r with line := line, failRun := 0 }).enterDark p .enabled cause
      | .draining => (s.setPort p { r with line := line, failRun := 0 }).enterDark p .disabled cause
      | _ => s.setPort p { r with line := line, failRun := 0 } := by
  rw [State.loseLine_eq, State.setPort_port_self, State.setPort_setPort]

end

section
variable {s : State} (h : s.inReset = false) (p : Port)
include h

theorem exec_lossOfLight : exec (.lossOfLight p) s
    = .next (if (s.port p).line = .noLight then s else s.loseLine p .noLight .lossOfLight) := by
  unfold exec execLossOfLight
  exact State.awake_of_out h _

theorem exec_lightReturns : exec (.lightReturns p) s
    = .next (if (s.port p).line = .noLight then s.setPort p { s.port p with line := .searching } else s) := by
  unfold exec execLightReturns
  exact State.awake_of_out h _

theorem exec_delineationFound : exec (.delineationFound p) s
    = .next (if (s.port p).line = .searching then s.restoreLine p else s) := by
  unfold exec execDelineationFound
  exact State.awake_of_out h _

theorem exec_lossOfDelineation : exec (.lossOfDelineation p) s
    = .next (if (s.port p).line = .delineated then
        (s.setPort p { s.port p with
          headerErrors := (s.port p).headerErrors + BitVec.ofNat 32 (16 - (s.port p).failRun) }).loseLine
            p .searching .lossOfDelineation
      else s) := by
  unfold exec execLossOfDelineation
  exact State.awake_of_out h _

theorem exec_cellArrival (bytes : List Byte) : exec (.cellArrival p bytes) s
    = .next (if (s.port p).line = .delineated then s.takeCell p bytes else s) := by
  unfold exec execCellArrival
  exact State.awake_of_out h _

theorem exec_lineSend : exec (.lineSend p) s = .next (s.lineSend p) := by
  unfold exec execLineSend
  exact State.awake_of_out h _

end

/-- Settles O5: the failing cells not yet counted are counted, and the loss is the one that darkens the port. -/
theorem lossOfDelineationDarkensAPort : Obligations.LossOfDelineationDarkensAPort := by
  intro s p hr hl
  exact (exec_lossOfDelineation hr p).trans (congrArg _ ((if_pos hl).trans (State.setPort_loseLine ..)))

/-! ## Arriving cells -/

theorem State.takeCell_fails {s : State} {p : Port} {bytes : List Byte} (hc : checkPasses bytes = false) :
    s.takeCell p bytes = s.failCell p := by
  simp [State.takeCell, hc]

/-- A cell that passes the check and is neither management nor time, on an ENABLED port (R4, R5). -/
theorem State.takeCell_feed (s : State) (p : Port) {bytes : List Byte} (hc : checkPasses bytes = true)
    (h0 : (cellOf bytes).label ≠ 0#8) (h255 : (cellOf bytes).label ≠ 255#8) (hs : (s.port p).state = .enabled) :
    s.takeCell p bytes = (s.endFailRun p).feedCell p (cellOf bytes) := by
  simp [State.takeCell, hc, State.sortCell, State.endFailRun, hs, PortState.sorts, h0, h255]

/-- The same on a port that sorts no feed cell. -/
theorem State.takeCell_noFeed (s : State) (p : Port) {bytes : List Byte} (hc : checkPasses bytes = true)
    (h0 : (cellOf bytes).label ≠ 0#8) (h255 : (cellOf bytes).label ≠ 255#8) (hs : (s.port p).state.sorts = .noFeed) :
    s.takeCell p bytes = (s.endFailRun p).countUnbooked p := by
  simp [State.takeCell, hc, State.sortCell, State.endFailRun, hs, h0, h255]

theorem State.endFailRun_countUnbooked (s : State) (p : Port) :
    (s.endFailRun p).countUnbooked p
      = s.setPort p { s.port p with failRun := 0, unbooked := (s.port p).unbooked + 1 } := by
  simp [State.countUnbooked, State.endFailRun]

/-- A feed cell with no source to carry it, or an UNWATCHED one (R38). -/
theorem State.feedCell_unbooked {s : State} {p : Port} {c : Cell}
    (h : ∀ x, s.source ⟨p, c.label⟩ = some x → x.watch.state = .unwatched) : s.feedCell p c = s.countUnbooked p := by
  unfold State.feedCell
  split
  · rfl
  · next x hx => rw [if_pos (h x hx)]

/-- Settles O7: each clause is one branch of the arrival, the checks before it decided by its premises. -/
theorem arrivingFeedCellIsSorted : Obligations.ArrivingFeedCellIsSorted := by
  intro s p bytes hr
  refine ⟨fun hl => ?_, fun hl hc hf => ?_, fun hl hc hf => ?_, fun hl hc h0 h255 => ⟨fun h => ?_, fun x hs hx hw => ?_⟩⟩
  · rw [exec_cellArrival hr, if_neg hl]
  · rw [exec_cellArrival hr, if_pos hl, State.takeCell_fails hc]
    unfold State.failCell
    exact congrArg _ (if_neg (by show ¬ 16 ≤ (s.port p).failRun + 1; omega))
  · rw [exec_cellArrival hr, if_pos hl, State.takeCell_fails hc]
    unfold State.failCell
    exact congrArg _ ((if_pos (show 16 ≤ (s.port p).failRun + 1 by omega)).trans (State.setPort_loseLine ..))
  · rw [exec_cellArrival hr, if_pos hl]
    have hcount : s.takeCell p bytes = (s.endFailRun p).countUnbooked p := by
      obtain hs | hs | ⟨hs, hx⟩ := h
      · exact s.takeCell_noFeed p hc h0 h255 (by rw [hs]; rfl)
      · exact s.takeCell_noFeed p hc h0 h255 (by rw [hs]; rfl)
      · rw [s.takeCell_feed p hc h0 h255 hs]
        exact State.feedCell_unbooked hx
    rw [hcount, State.endFailRun_countUnbooked]
  · rw [exec_cellArrival hr, if_pos hl, s.takeCell_feed p hc h0 h255 hs]
    have hx' : (s.endFailRun p).source ⟨p, (cellOf bytes).label⟩ = some x := hx
    unfold State.feedCell
    rw [hx']
    exact congrArg _ (if_neg hw)

/-- Settles O6, by the line condition and the state of the port. -/
theorem lineComesBack : Obligations.LineComesBack := by
  intro s p hr
  refine ⟨fun hl => ?_, fun hl ret hs => ?_, fun hl hd => ?_⟩
  · rw [exec_lightReturns hr, if_pos hl]
  · rw [exec_delineationFound hr, if_pos hl]
    unfold State.restoreLine State.changePort
    simp only [hs, State.setPort_port_self, State.setPort_setPort]
    cases ret <;> rfl
  · rw [exec_delineationFound hr, if_pos hl]
    unfold State.restoreLine
    dsimp only
    split
    · next ret hs => simp [PortRec.isDark, hs] at hd
    · rfl

/-! ## The status orders -/

/-- A port carried in a parameter byte (R172). -/
theorem portOf_of_toNat {b : Byte} {p : Port} (h : b.toNat = p.val) : portOf b = some p := by
  unfold portOf
  rw [dif_pos (h ▸ p.isLt)]
  exact congrArg some (Fin.ext h)

theorem portOf_of_large {b : Byte} (h : 15 < b.toNat) : portOf b = none := by
  unfold portOf
  rw [dif_neg (by omega)]

section
variable {s : State} {k : OrderKind} {n : Nat} {o : Order} {rest : List Order}

/-- An order on one port, its length right: on a port of the part it acts, and on any other it is refused (R172). -/
theorem Offers.onPort (h : Offers s k n o rest) {p : Port} (hp : (o.param 0).toNat = p.val) (u : State) (act : Port → Reply) :
    onPort o n u act = act p := by
  unfold Machine.onPort
  rw [h.badLength, if_neg (by simp), show byteAt (paramsOf o.cell) 0 = o.param 0 from rfl, portOf_of_toNat hp]

theorem Offers.onPort_range (h : Offers s k n o rest) (hp : 15 < (o.param 0).toNat) (u : State) (act : Port → Reply) :
    Machine.onPort o n u act = ⟨u, .range, .empty⟩ := by
  unfold Machine.onPort
  rw [h.badLength, if_neg (by simp), show byteAt (paramsOf o.cell) 0 = o.param 0 from rfl, portOf_of_large hp]

end

/-- An order on one port that acts with `act`, as PORT ENABLE and PORT DISABLE do: what it leaves and reports is the port's state. -/
theorem Offers.port_answers {s t : State} {k : OrderKind} {o : Order} {rest : List Order} {c : Instr} {act : State → Port → State}
    {p : Port} {st : PortState} (h : Offers s k 1 o rest)
    (hc : exec c s = s.awake fun s => s.takeOrder k fun o s =>
      Machine.onPort o 1 s fun p => ⟨act s p, .done, .portState p ((act s p).port p).state⟩)
    (hp : (o.param 0).toNat = p.val) (ht : act (s.taken o rest) p = t) (hst : (t.port p).state = st) :
    Answers c s o t .done (.portState p st) := by
  refine h.answers hc ?_
  rw [h.onPort hp, ht, hst]

theorem exec_portDisable (s : State) : exec .portDisable s = s.awake fun s => s.takeOrder .portDisable fun o s =>
    Machine.onPort o 1 s fun p => ⟨s.disablePort p, .done, .portState p ((s.disablePort p).port p).state⟩ := rfl

theorem exec_portEnable (s : State) : exec .portEnable s = s.awake fun s => s.takeOrder .portEnable fun o s =>
    Machine.onPort o 1 s fun p => ⟨s.enablePort p, .done, .portState p ((s.enablePort p).port p).state⟩ := rfl

@[simp] theorem State.changePort_state (s : State) (p : Port) (st : PortState) (cause : PortCause) :
    ((s.changePort p st cause).port p).state = st := by
  simp [State.changePort]

section
variable {s : State} {p : Port}

theorem State.disablePort_feeding (hs : (s.port p).state = .enabled) (hq : (s.port p).feedQ ≠ []) :
    s.disablePort p = s.changePort p .draining .order := by
  unfold State.disablePort
  simp only [hs, if_neg hq]

theorem State.disablePort_empty (hs : (s.port p).state = .enabled) (hq : (s.port p).feedQ = []) :
    s.disablePort p = s.changePort p .disabled .order := by
  unfold State.disablePort
  simp only [hs, if_pos hq]

theorem State.disablePort_settled (h : (s.port p).state = .draining ∨ (s.port p).state = .disabled) : s.disablePort p = s := by
  unfold State.disablePort
  obtain hs | hs := h <;> simp only [hs]

theorem State.disablePort_dark {ret : ReturnState} (hs : (s.port p).state = .dark ret) :
    s.disablePort p = s.setPort p { s.port p with state := .dark .disabled } := by
  unfold State.disablePort
  simp only [hs]

theorem State.enablePort_enabled (hs : (s.port p).state = .enabled) : s.enablePort p = s := by
  unfold State.enablePort
  simp only [hs]

theorem State.enablePort_returns
    (h : (s.port p).state = .draining ∨ (s.port p).state = .disabled ∧ (s.port p).line = .delineated) :
    s.enablePort p = s.changePort p .enabled .order := by
  unfold State.enablePort
  obtain hs | ⟨hs, hl⟩ := h
  · simp only [hs]
  · simp only [hs, if_pos hl]

theorem State.enablePort_lineDown (hs : (s.port p).state = .disabled) (hl : (s.port p).line ≠ .delineated) :
    s.enablePort p = s.enterDark p .enabled .order := by
  unfold State.enablePort
  simp only [hs, if_neg hl]

theorem State.enablePort_dark {ret : ReturnState} (hs : (s.port p).state = .dark ret) :
    s.enablePort p = s.setPort p { s.port p with state := .dark .enabled } := by
  unfold State.enablePort
  simp only [hs]

theorem State.enterDark_state (ret : ReturnState) (cause : PortCause) : ((s.enterDark p ret cause).port p).state = .dark ret := by
  unfold State.port
  rw [State.enterDark_ports]
  exact congrArg PortRec.state (State.setPort_port_self ..)

/-- The change of a port's state, from the state it is known to be in. -/
theorem State.changePort_from {st : PortState} (hs : (s.port p).state = st) (new : PortState) (cause : PortCause) :
    s.changePort p new cause
      = (s.setPort p { s.port p with state := new }).raise (.portState p st new (s.port p).line cause) := by
  subst hs
  rfl

end

/-- Settles O11, by the port's state. -/
theorem portOrdersByState : Obligations.PortOrdersByState := by
  intro s o rest u
  refine ⟨fun p hp => ⟨fun h => ⟨fun hs hq => ?_, fun hs hq => ?_, fun hs => ?_, fun ret hs => ?_⟩,
      fun h => ⟨fun hs => ?_, fun hs => ?_, fun hs hl => ?_, fun ret hs => ?_⟩⟩, fun hp => ⟨fun h => ?_, fun h => ?_⟩⟩
  · refine h.port_answers (exec_portDisable s) hp ?_ (by simp)
    exact (State.disablePort_feeding (s := s.taken o rest) hs hq).trans (State.changePort_from (s := s.taken o rest) hs ..)
  · refine h.port_answers (exec_portDisable s) hp ?_ (by simp)
    exact (State.disablePort_empty (s := s.taken o rest) hs hq).trans (State.changePort_from (s := s.taken o rest) hs ..)
  · exact h.port_answers (exec_portDisable s) hp (State.disablePort_settled hs) rfl
  · exact h.port_answers (exec_portDisable s) hp (State.disablePort_dark hs) (by simp)
  · exact h.port_answers (exec_portEnable s) hp (State.enablePort_enabled hs) hs
  · exact h.port_answers (exec_portEnable s) hp (State.enablePort_returns hs) (State.changePort_state ..)
  · exact h.port_answers (exec_portEnable s) hp (State.enablePort_lineDown hs hl) (State.enterDark_state ..)
  · exact h.port_answers (exec_portEnable s) hp (State.enablePort_dark hs) (by simp)
  · exact h.answers (exec_portDisable s) (h.onPort_range hp _ _)
  · exact h.answers (exec_portEnable s) (h.onPort_range hp _ _)

/-- Settles O13: neither order changes the state it is taken in. -/
theorem statusOrdersReadTheRecord : Obligations.StatusOrdersReadTheRecord := by
  intro s o rest
  refine ⟨fun p h hp => ?_, fun h hp => ?_, fun h => ?_⟩
  · refine h.answers (by unfold exec execPortStatus; rfl) ?_
    rw [h.onPort hp]
    rfl
  · refine h.answers (by unfold exec execPortStatus; rfl) ?_
    exact h.onPort_range hp _ _
  · refine h.answers (by unfold exec execTimeStatus; rfl) ?_
    rw [h.badLength, if_neg (by simp)]
    simp only [State.timeStatus, State.ntValid]
    cases hs : s.time.state <;> simp [hs]

end Sys2Proof.Machine
end

