-- ==== Sys2Proof/Proofs/Sending.lean ====
section
/-! Chapters 1 and 10: what a line takes, and what fills the place a management cell frees (R7, R13, R14, R162, R165). -/

namespace Sys2Proof.Machine

section
variable {s : State} {p : Port}

/-! ## The waiting answer -/

theorem State.appendWaiting_appends {a : Answer} (he : s.mgmt.engine = .answerWait p a) (hr : (s.port p).mgmtRoom = true) :
    s.appendWaiting p = (s.appendOwn p fun n => .answer n a).setEngine .ready := by
  simp [State.appendWaiting, he, hr]

theorem State.appendWaiting_stands (h : (s.port p).mgmtRoom = false ∨ ∀ a, s.mgmt.engine ≠ .answerWait p a) :
    s.appendWaiting p = s := by
  unfold State.appendWaiting
  split
  · next q a he =>
    refine if_neg fun ⟨hq, hr⟩ => ?_
    subst hq
    obtain h | h := h
    · simp [h] at hr
    · exact h a he
  · rfl

/-! ## The head notice -/

theorem State.deliverNotice_delivers {c : Controller} {n : Notice} {rest : List Notice} (hw : s.mgmt.engine.isWaiting = false)
    (hc : s.mgmt.controller = some c) (hn : s.mgmt.notices = n :: rest) (hr : (s.port c.port).mgmtRoom = true) :
    s.deliverNotice = { s.appendOwn c.port (fun q => .notice q (s.noticeCell c n)) with
      mgmt := { s.mgmt with notices := rest, discarded := 0 } } := by
  unfold State.deliverNotice
  simp only [hc, hn]
  exact if_pos ⟨by simp [hw], hr⟩

theorem State.deliverNotice_stands
    (h : ∀ c n rest, s.mgmt.engine.isWaiting = false → s.mgmt.controller = some c → s.mgmt.notices = n :: rest →
      (s.port c.port).mgmtRoom = false) : s.deliverNotice = s := by
  unfold State.deliverNotice
  split
  · next c n rest hc hn =>
    refine if_neg fun ⟨hw, hr⟩ => ?_
    rw [h c n rest (by simpa using hw) hc hn] at hr
    exact absurd hr (by simp)
  · rfl

/-! ## The freed place -/

theorem State.fillPlace_answer {a : Answer} (he : s.mgmt.engine = .answerWait p a) (hr : (s.port p).mgmtRoom = true) :
    s.fillPlace p = (s.appendOwn p fun n => .answer n a).setEngine .ready := by
  unfold State.fillPlace
  rw [if_pos (by simp [he, Engine.isWaiting]), State.appendWaiting_appends he hr]

theorem State.fillPlace_notice {c : Controller} {n : Notice} {rest : List Notice} (hw : s.mgmt.engine.isWaiting = false)
    (hc : s.mgmt.controller = some c) (hp : c.port = p) (hn : s.mgmt.notices = n :: rest) (hr : (s.port p).mgmtRoom = true) :
    s.fillPlace p = { s.appendOwn p (fun q => .notice q (s.noticeCell c n)) with
      mgmt := { s.mgmt with notices := rest, discarded := 0 } } := by
  subst hp
  refine Eq.trans (b := s.deliverNotice) ?_ (State.deliverNotice_delivers hw hc hn hr)
  unfold State.fillPlace
  rw [if_neg (by simp [hw])]
  simp only [hc, if_true]

theorem State.fillPlace_stands
    (h : (s.port p).mgmtRoom = false ∨ (∀ a, s.mgmt.engine ≠ .answerWait p a)
      ∧ ∀ c n rest, ¬ (s.mgmt.engine.isWaiting = false ∧ s.mgmt.controller = some c ∧ c.port = p ∧ s.mgmt.notices = n :: rest)) :
    s.fillPlace p = s := by
  unfold State.fillPlace
  split
  · exact State.appendWaiting_stands (h.imp_right And.left)
  · split
    · next c hc =>
      split
      · next hp =>
        refine State.deliverNotice_stands fun c' n rest hw hc' hn => ?_
        obtain rfl : c = c' := Option.some.inj (hc.symm.trans hc')
        obtain h | ⟨-, h⟩ := h
        · exact hp ▸ h
        · exact absurd ⟨hw, hc, hp, hn⟩ (h c n rest)
      · rfl
    · rfl

/-! ## What the line takes -/

theorem State.lineSend_mgmt {c : MgmtCell} {rest : List MgmtCell} (hq : (s.port p).mgmtQ = c :: rest) :
    s.lineSend p = (s.setPort p { s.port p with mgmtQ := rest, lineOut := some (.mgmt c) }).fillPlace p := by
  refine Eq.trans (b := s.sendMgmt p c rest) ?_ rfl
  unfold State.lineSend
  simp only [hq]

theorem State.lineSend_feed {c : Cell} {rest : List Cell} (hm : (s.port p).mgmtQ = []) (hq : (s.port p).feedQ = c :: rest)
    (hs : (s.port p).feedOpen = true) :
    s.lineSend p = (s.setPort p { s.port p with feedQ := rest, lineOut := some (.feed c) }).drainIfEmpty p := by
  refine Eq.trans (b := s.sendFeed p c rest) ?_ rfl
  unfold State.lineSend
  simp only [hm, hq, hs, if_true]

theorem State.lineSend_idle (hm : (s.port p).mgmtQ = []) (hq : (s.port p).feedQ = []) :
    s.lineSend p = s.setPort p { s.port p with lineOut := some .idle } := by
  refine Eq.trans (b := s.sendIdle p) ?_ rfl
  unfold State.lineSend
  simp only [hm, hq]

theorem State.drainIfEmpty_stands (h : (s.port p).state ≠ .draining ∨ (s.port p).feedQ ≠ []) : s.drainIfEmpty p = s :=
  if_neg fun ⟨hs, hq⟩ => h.elim (· hs) (· hq)

theorem State.drainIfEmpty_drains (hs : (s.port p).state = .draining) (hq : (s.port p).feedQ = []) :
    s.drainIfEmpty p = (s.setPort p { s.port p with state := .disabled }).raise
      (.portState p .draining .disabled (s.port p).line .drained) := by
  unfold State.drainIfEmpty
  rw [if_pos ⟨hs, hq⟩]
  exact State.changePort_from hs ..

/-- The last feed cell of a DRAINING port is taken. -/
theorem State.lineSend_last {c : Cell} (hm : (s.port p).mgmtQ = []) (hq : (s.port p).feedQ = [c])
    (hs : (s.port p).state = .draining) :
    s.lineSend p = (s.setPort p { s.port p with feedQ := [], lineOut := some (.feed c), state := .disabled }).raise
      (.portState p .draining .disabled (s.port p).line .drained) := by
  rw [State.lineSend_feed hm hq (by simp [PortRec.feedOpen, hs]),
    State.drainIfEmpty_drains (by simpa using hs) (by simp)]
  simp

end

theorem exec_drained {s : State} (h : s.inReset = false) (p : Port) : exec (.drained p) s
    = .next (if (s.port p).state = .draining then
        if (s.port p).feedQ = [] then s.drainIfEmpty p
        else if (s.port p).mgmtQ = [] ∧ (s.port p).feedQ.length = 1 then s.lineSend p
        else s
      else s) := by
  unfold exec execDrained
  exact State.awake_of_out h _

/-- Settles O8: the place a sent management cell frees is `fillPlace`, and a feed cell's is `drainIfEmpty`. -/
theorem lineTakesTheRightCell : Obligations.LineTakesTheRightCell := by
  intro s p hr
  refine ⟨fun c rest hq => ?_, fun c rest hm hq => ⟨fun hs => ?_, fun hs hl => ?_⟩, fun hm hq => ?_, ?_⟩
  · intro r sent room? answer? note?
    have hroom : ((s.setPort p { r with mgmtQ := rest, lineOut := some (.mgmt c) }).port p).mgmtRoom = true
        ↔ r.isDark = false ∧ rest.length < 64 := by
      rw [State.setPort_port_self]
      exact PortRec.mgmtRoom_iff
    rw [exec_lineSend hr, State.lineSend_mgmt hq]
    refine ⟨fun a h ha => ?_, fun k n ns h ⟨hw, hc, hp, hn⟩ => ?_, fun h => ?_⟩
    · rw [State.fillPlace_answer (s := s.setPort p _) (a := a) ha (hroom.2 h)]
      simp [State.appendOwn, sent, r]
    · rw [State.fillPlace_notice (s := s.setPort p _) (c := k) hw hc hp hn (hroom.2 h)]
      simp [State.appendOwn, State.noticeCell, sent, r]
    · rw [State.fillPlace_stands ?_]
      · simp [sent]; rfl
      · refine h.imp (fun h => ?_) fun ⟨ha, hn⟩ => ⟨ha, hn⟩
        exact Bool.eq_false_iff.2 fun hm => h (hroom.1 hm)
  · obtain hs | ⟨hs, hne⟩ := hs
    · rw [exec_lineSend hr, State.lineSend_feed hm hq (by simp [PortRec.feedOpen, hs]),
        State.drainIfEmpty_stands (.inl (by simp [hs]))]
    · rw [exec_lineSend hr, State.lineSend_feed hm hq (by simp [PortRec.feedOpen, hs]),
        State.drainIfEmpty_stands (.inr (by simpa using hne))]
  · subst hl
    rw [exec_lineSend hr, State.lineSend_last hm hq hs]
  · rw [exec_lineSend hr, State.lineSend_idle hm hq]
  · intro r drained
    refine ⟨fun hs hq => ?_, fun c hs hm hq => ?_, fun h => ?_⟩
    · rw [exec_drained hr, if_pos hs, if_pos hq, State.drainIfEmpty_drains hs hq]
    · rw [exec_drained hr, if_pos hs, if_neg (by rw [show (s.port p).feedQ = _ from hq]; simp),
        if_pos ⟨hm, congrArg List.length hq⟩, State.lineSend_last hm hq hs]
    · rw [exec_drained hr]
      refine congrArg _ (ite_eq_right_iff.2 fun hd => ?_)
      obtain hs | hl | ⟨hq, hm⟩ := h
      · exact absurd hd hs
      · have hl : 2 ≤ (s.port p).feedQ.length := hl
        rw [if_neg (List.ne_nil_of_length_pos (by omega)), if_neg fun e => by omega]
      · rw [if_neg hq, if_neg fun e => hm e.1]

theorem exec_answerAppended {s : State} {p : Port} {a : Answer} (h : s.inReset = false) (he : s.mgmt.engine = .answerWait p a) :
    exec .answerAppended s = .next (if (s.port p).mgmtRoom then s.appendWaiting p else s.lineSend p) := by
  have hx : exec .answerAppended s = execAnswerAppended s := rfl
  rw [hx, execAnswerAppended, State.awake_of_out h, he]

theorem exec_noticeDelivery {s : State} (h : s.inReset = false) : exec .noticeDelivery s = .next s.deliverNotice := by
  unfold exec execNoticeDelivery
  exact State.awake_of_out h _

/-- Settles O9: with no room the line sends first, and the answer takes the place that frees. -/
theorem waitingAnswerAndHeadNoticeAreAppended : Obligations.WaitingAnswerAndHeadNoticeAreAppended := by
  refine ⟨?_, ?_⟩
  · intro s p a c rest hr he hd hq hl t
    have hsend : s.lineSend p = t := by
      have hroom : PortRec.mgmtRoom { s.port p with mgmtQ := rest, lineOut := some (.mgmt c) } = true :=
        PortRec.mgmtRoom_iff.2 ⟨hd, by simp [hl]⟩
      rw [State.lineSend_mgmt hq, State.fillPlace_answer (s := s.setPort p _) (a := a) he (by simpa using hroom)]
      simp [State.appendOwn, t]
    have hfull : (s.port p).mgmtRoom ≠ true := fun h => by
      have := (PortRec.mgmtRoom_iff.1 h).2
      rw [hq, List.length_cons] at this
      omega
    rw [exec_answerAppended hr he, if_neg hfull, exec_lineSend hr, hsend]
    exact ⟨rfl, rfl⟩
  · intro s c n rest hr hc hn r cell
    refine ⟨fun hw hd hl => ?_, fun h => ?_⟩
    · rw [exec_noticeDelivery hr, State.deliverNotice_delivers hw hc hn (PortRec.mgmtRoom_iff.2 ⟨hd, hl⟩)]
      rfl
    · rw [exec_noticeDelivery hr, State.deliverNotice_stands fun c' n' rest' hw hc' _ => ?_]
      obtain rfl : c = c' := Option.some.inj (hc.symm.trans hc')
      refine Bool.eq_false_iff.2 fun hm => ?_
      obtain ⟨hd, hl⟩ := PortRec.mgmtRoom_iff.1 hm
      obtain h | h | h := h
      · simp [hw] at h
      · exact absurd h (by simp [r, hd])
      · exact absurd h (by simp only [r]; omega)

end Sys2Proof.Machine
end

