-- ==== Sys2Proof/Proofs/Orders.lean ====
section
/-! Chapter 10: what every order and every notice goes through (R162 to R165, R172). -/

namespace Sys2Proof.Machine

theorem Order.broadcast_iff {o : Order} : o.broadcast = true ↔ destOf o.cell = 0 := by
  simp [Order.broadcast]

theorem Order.addressed_iff {o : Order} : o.broadcast = false ↔ destOf o.cell ≠ 0 := by
  simp [Order.broadcast]

section
variable {s : State} {o : Order} (r : Result) (d : AnswerData)

/-! ## Finishing an order (R10, R13, R162) -/

theorem State.finish_dropped (h : destOf o.cell = 0 ∨ (s.port o.arrival).isDark = true) : s.finish o r d = s.setEngine .ready := by
  unfold State.finish
  obtain h | h := h
  · rw [if_pos (Order.broadcast_iff.2 h)]
  · rw [if_pos h, ite_self]

theorem State.finish_appends (hb : destOf o.cell ≠ 0) (hd : (s.port o.arrival).isDark = false)
    (hl : (s.port o.arrival).mgmtQ.length < 64) :
    s.finish o r d = (s.appendOwn o.arrival fun q => .answer q (s.answerTo o r d)).setEngine .ready := by
  unfold State.finish
  rw [Order.addressed_iff.2 hb, hd, PortRec.mgmtRoom_iff.2 ⟨hd, hl⟩]
  rfl

theorem State.finish_waits (hb : destOf o.cell ≠ 0) (hd : (s.port o.arrival).isDark = false)
    (hl : 64 ≤ (s.port o.arrival).mgmtQ.length) :
    s.finish o r d = s.setEngine (.answerWait o.arrival (s.answerTo o r d)) := by
  have hfull : (s.port o.arrival).mgmtRoom ≠ true := fun h => absurd (PortRec.mgmtRoom_iff.1 h).2 (by omega)
  unfold State.finish
  rw [Order.addressed_iff.2 hb, hd, if_neg hfull]
  rfl

end

/-! ## Notices (R165) -/

section
variable {s : State} (c : NoticeContent)

theorem State.raise_appends (h : s.mgmt.notices.length < 32) :
    s.raise c = { s with mgmt := { s.mgmt with notices := s.mgmt.notices ++ [⟨s.time.nt, c⟩] } } := if_pos h

theorem State.raise_counts (h : 32 ≤ s.mgmt.notices.length) :
    s.raise c = { s with
      mgmt := { s.mgmt with discarded := if s.mgmt.discarded < 65535 then s.mgmt.discarded + 1 else 65535 } } := by
  have hmin : min (s.mgmt.discarded + 1) 65535 = if s.mgmt.discarded < 65535 then s.mgmt.discarded + 1 else 65535 := by
    split <;> omega
  rw [← hmin]
  exact if_neg (Nat.not_lt.2 h)

end

/-! ## Orders of fixed length (R172) -/

/-- An order of another parameter length than `n` is refused with FORMAT, its answer reporting `d`. -/
def RefusesLength (c : Instr) (k : OrderKind) (n : Nat) (d : State → AnswerData) : Prop :=
  ∀ (s : State) (o : Order) (rest : List Order) (m : Nat), Offers s k m o rest → m ≠ n →
    Answers c s o (s.taken o rest) .format (d s)

/-- An order whose work opens with the check of its length. -/
theorem refusesLength {c : Instr} {k : OrderKind} {n : Nat} {d : State → AnswerData} (work : Order → State → Reply)
    (hc : ∀ s, exec c s = s.awake fun s => s.takeOrder k work)
    (hw : ∀ (s : State) (o : Order) (rest : List Order), o.badLength n = true →
      work o (s.taken o rest) = ⟨s.taken o rest, .format, d s⟩) : RefusesLength c k n d :=
  fun s o rest _ h hm => h.answers (hc s) (hw s o rest (by simp [h.badLength, hm]))

/-- A work that opens with the check of its length, in one of the ways the orders write it. -/
theorem refusesLength_if {c : Instr} {k : OrderKind} {n : Nat} {act : Order → State → Reply}
    (hc : ∀ s, exec c s = s.awake fun s => s.takeOrder k fun o s => if o.badLength n then ⟨s, .format, .empty⟩ else act o s) :
    RefusesLength c k n fun _ => .empty :=
  refusesLength _ hc fun _ _ _ hb => if_pos hb

theorem refusesLength_or {c : Instr} {k : OrderKind} {n : Nat} {bad : Order → Bool} {act : Order → State → Reply}
    (hc : ∀ s, exec c s = s.awake fun s => s.takeOrder k fun o s =>
      if o.badLength n || bad o then ⟨s, .format, .empty⟩ else act o s) :
    RefusesLength c k n fun _ => .empty :=
  refusesLength _ hc fun _ _ _ hb => if_pos (by rw [hb]; rfl)

theorem refusesLength_checked {c : Instr} {k : OrderKind} {n : Nat} {steps : Order → State → List (Bool × Refused)}
    {act : Order → State → Reply}
    (hc : ∀ s, exec c s = s.awake fun s => s.takeOrder k fun o s =>
      s.checked (checkStep (o.badLength n) .format :: steps o s) (act o s)) :
    RefusesLength c k n fun _ => .empty :=
  refusesLength _ hc fun _ _ _ hb => by rw [hb]; rfl

theorem refusesLength_billRelease :
    RefusesLength .billRelease .billRelease 4 fun s =>
      .oldest (s.bills.records.head?.map BillRec.seq) s.bills.records.length s.waiters :=
  refusesLength _ (fun _ => rfl) fun _ _ _ hb => by rw [hb]; rfl

/-- A row of the table of orders, of fixed length. -/
theorem RefusesLength.row {c : Instr} {k : OrderKind} {n : Nat} {code : BitVec 16} (h : RefusesLength c k n fun _ => .empty)
    (hk : k ≠ .billRelease) (hcode : k.code = code) :
    k.code = code ∧ ∀ (s : State) (o : Order) (rest : List Order) (n' m : Nat), some n = some n' → Offers s k m o rest → m ≠ n' →
      Answers c s o (s.taken o rest) .format
        (if k = .billRelease then
          .oldest (s.bills.records.head?.map BillRec.seq) s.bills.records.length s.waiters
         else .empty) := by
  refine ⟨hcode, fun s o rest n' m hn ho hm => ?_⟩
  obtain rfl := Option.some.inj hn
  rw [if_neg hk]
  exact h s o rest m ho hm

theorem clearTrafficOrder_badLength {o : Order} {s : State} (hb : o.badLength 0 = true) :
    clearTrafficOrder o s = ⟨s, .format, .empty⟩ := by
  unfold clearTrafficOrder
  generalize s.clearTraffic = t
  simp [State.checked, firstFail, checkStep, hb]

theorem refusesLength_clearTraffic : RefusesLength .clearTraffic .clearTraffic 0 fun _ => .empty :=
  refusesLength clearTrafficOrder (fun _ => rfl) fun _ _ _ hb => clearTrafficOrder_badLength hb

theorem refusesLength_tariffCheck : RefusesLength .tariffCheck .tariffCheck 193 fun _ => .empty := by
  intro s o rest m h hm
  have hb : o.badLength 193 = true := by simp [h.badLength, hm]
  have hx : exec .tariffCheck s = execTariffCheck s := rfl
  rw [Answers, hx, execTariffCheck, State.awake_of_out h.awake, h.takeOrder]
  simp [hb]

theorem refusesLength_identify : RefusesLength .identify .identify 0 fun _ => .empty := refusesLength_if fun _ => rfl

theorem refusesLength_setMode : RefusesLength .setMode .setMode 1 fun _ => .empty := by
  intro s o rest m h hm
  have hb : o.badLength 1 = true := by simp [h.badLength, hm]
  have hx : exec .setMode s = execSetMode s := rfl
  rw [Answers, hx, execSetMode, State.awake_of_out h.awake, h.takeOrder]
  simp [hb]

theorem refusesLength_timePolicy : RefusesLength .timePolicy .timePolicy 1 fun _ => .empty := by
  intro s o rest m h hm
  have hb : o.badLength 1 = true := by simp [h.badLength, hm]
  have hx : exec .timePolicy s = execTimePolicy s := rfl
  rw [Answers, hx, execTimePolicy, State.awake_of_out h.awake, h.takeOrder]
  simp [hb]

theorem refusesLength_managementRestart : RefusesLength .managementRestart .managementRestart 0 fun _ => .empty :=
  refusesLength_if fun _ => rfl

theorem refusesLength_setHoldThreshold : RefusesLength .setHoldThreshold .setHoldThreshold 1 fun _ => .empty :=
  refusesLength_checked fun _ => rfl

theorem refusesLength_setRoute : RefusesLength .setRoute .setRoute 7 fun _ => .empty := refusesLength_or fun _ => rfl

theorem refusesLength_portEnable : RefusesLength .portEnable .portEnable 1 fun _ => .empty := refusesLength_if fun _ => rfl

theorem refusesLength_portDisable : RefusesLength .portDisable .portDisable 1 fun _ => .empty := refusesLength_if fun _ => rfl

theorem refusesLength_portStatus : RefusesLength .portStatus .portStatus 1 fun _ => .empty := refusesLength_if fun _ => rfl

theorem refusesLength_portCapacity : RefusesLength .portCapacity .portCapacity 3 fun _ => .empty := refusesLength_if fun _ => rfl

theorem refusesLength_timeSource : RefusesLength .timeSource .timeSource 1 fun _ => .empty := refusesLength_if fun _ => rfl

theorem refusesLength_timeSet : RefusesLength .timeSet .timeSet 4 fun _ => .empty := refusesLength_if fun _ => rfl

theorem refusesLength_timeStatus : RefusesLength .timeStatus .timeStatus 0 fun _ => .empty := refusesLength_if fun _ => rfl

theorem refusesLength_sourceStatus : RefusesLength .sourceStatus .sourceStatus 2 fun _ => .empty := refusesLength_if fun _ => rfl

theorem refusesLength_sourceWatch : RefusesLength .sourceWatch .sourceWatch 8 fun _ => .empty := refusesLength_if fun _ => rfl

theorem refusesLength_cancel : RefusesLength .cancel .cancel 4 fun _ => .empty := refusesLength_if fun _ => rfl

theorem refusesLength_endBooking : RefusesLength .endBooking .endBooking 4 fun _ => .empty := refusesLength_if fun _ => rfl

theorem refusesLength_select : RefusesLength .select .select 5 fun _ => .empty := by
  intro s o rest m h hm
  have hb : o.badLength 5 = true := by simp [h.badLength, hm]
  have hx : exec .select s = execSelect s := rfl
  rw [Answers, hx, execSelect, State.awake_of_out h.awake, h.takeOrder, selectOrder]
  simp [hb]

theorem refusesLength_bookingRead : RefusesLength .bookingRead .bookingRead 5 fun _ => .empty := refusesLength_or fun _ => rfl

theorem refusesLength_groupHold : RefusesLength .groupHold .groupHold 1 fun _ => .empty := refusesLength_if fun _ => rfl

theorem refusesLength_groupRelease : RefusesLength .groupRelease .groupRelease 1 fun _ => .empty := refusesLength_if fun _ => rfl

theorem refusesLength_tariffWrite : RefusesLength .tariffWrite .tariffWrite 24 fun _ => .empty := refusesLength_or fun _ => rfl

theorem refusesLength_tariffLock : RefusesLength .tariffLock .tariffLock 0 fun _ => .empty := refusesLength_checked fun _ => rfl

theorem refusesLength_tariffClearAll : RefusesLength .tariffClearAll .tariffClearAll 0 fun _ => .empty :=
  refusesLength_checked fun _ => rfl

theorem refusesLength_tariffRead : RefusesLength .tariffRead .tariffRead 1 fun _ => .empty := refusesLength_if fun _ => rfl

theorem refusesLength_billRead : RefusesLength .billRead .billRead 1 fun _ => .empty := refusesLength_if fun _ => rfl

/-- Settles O10: the finish by the place of the answer, the table of orders row by row, and the notice queue by its places. -/
theorem answerIsOfferedToItsPort : Obligations.AnswerIsOfferedToItsPort := by
  refine ⟨fun s o r d => ⟨s.finish_dropped r d (o := o), fun hb hd hl => ?_, fun hb hd hl => ?_⟩,
    fun s o rest => ⟨fun h => ?_, fun h => ?_⟩, fun k => ?_, ?_,
    fun s c => ⟨s.raise_appends c, s.raise_counts c, rfl, fun cs => rfl⟩⟩
  · exact s.finish_appends r d hb hd hl
  · exact s.finish_waits r d hb hd hl
  · unfold State.taken
    rw [Order.broadcast_iff.2 h]
    rfl
  · unfold State.taken
    rw [Order.addressed_iff.2 h]
    rfl
  · cases k <;> simp
  · simp only [List.forall_mem_cons]
    exact ⟨refusesLength_identify.row (by decide) rfl,
      refusesLength_setMode.row (by decide) rfl,
      refusesLength_managementRestart.row (by decide) rfl,
      refusesLength_setHoldThreshold.row (by decide) rfl,
      refusesLength_setRoute.row (by decide) rfl,
      refusesLength_clearTraffic.row (by decide) rfl,
      refusesLength_portEnable.row (by decide) rfl,
      refusesLength_portDisable.row (by decide) rfl,
      refusesLength_portStatus.row (by decide) rfl,
      refusesLength_portCapacity.row (by decide) rfl,
      refusesLength_timeSource.row (by decide) rfl,
      refusesLength_timeSet.row (by decide) rfl,
      refusesLength_timePolicy.row (by decide) rfl,
      refusesLength_timeStatus.row (by decide) rfl,
      refusesLength_sourceStatus.row (by decide) rfl,
      refusesLength_sourceWatch.row (by decide) rfl,
      ⟨rfl, fun _ _ _ _ _ hn => nomatch hn⟩,
      ⟨rfl, fun _ _ _ _ _ hn => nomatch hn⟩,
      refusesLength_cancel.row (by decide) rfl,
      refusesLength_endBooking.row (by decide) rfl,
      refusesLength_select.row (by decide) rfl,
      refusesLength_bookingRead.row (by decide) rfl,
      refusesLength_groupHold.row (by decide) rfl,
      refusesLength_groupRelease.row (by decide) rfl,
      refusesLength_tariffWrite.row (by decide) rfl,
      refusesLength_tariffLock.row (by decide) rfl,
      refusesLength_tariffClearAll.row (by decide) rfl,
      refusesLength_tariffRead.row (by decide) rfl,
      refusesLength_tariffCheck.row (by decide) rfl,
      refusesLength_billRead.row (by decide) rfl,
      ⟨rfl, fun s o rest n m hn h hm => refusesLength_billRelease s o rest m h (Option.some.inj hn ▸ hm)⟩,
      fun _ hx => nomatch hx⟩

end Sys2Proof.Machine
end

