-- ==== Sys2Proof/Proofs/Replication.lean ====
section
/-! Chapter 3: the replication stage, by induction over the legs (R12, R45). -/

namespace Sys2Proof.Machine

section
variable (payload : List Byte) (l : Leg) (ports : Vector PortRec 16)

/-- The ports after the first leg's copy has been offered. -/
def offered : Vector PortRec 16 := ports.set l.pair.port (offerCopy payload ports[l.pair.port] l).1

theorem replicate_cons (rest : List Leg) :
    replicate payload (l :: rest) ports
      = ((replicate payload rest (offered payload l ports)).1,
          (offerCopy payload ports[l.pair.port] l).2 :: (replicate payload rest (offered payload l ports)).2) := rfl

variable {payload l ports}

theorem offerCopy_sends {r : PortRec} (hs : r.state = .enabled) (hq : r.feedQ.length < 2048) :
    offerCopy payload r l
      = ({ r with feedQ := r.feedQ ++ [⟨l.pair.label, l.seq, payload⟩] }, { l with seq := l.seq + 1, sent := l.sent + 1 }) :=
  if_pos ⟨hs, hq⟩

theorem offerCopy_drops {r : PortRec} (h : ¬ (r.state = .enabled ∧ r.feedQ.length < 2048)) :
    offerCopy payload r l = (r, { l with dropped := l.dropped + 1 }) := if_neg h

theorem offered_other {p : Port} (h : l.pair.port ≠ p) : (offered payload l ports)[p] = ports[p] := by
  have h' : l.pair.port.val ≠ p.val := fun e => h (Fin.ext e)
  simp [offered, Vector.getElem_set_ne _ _ h']

theorem offered_same : (offered payload l ports)[l.pair.port] = (offerCopy payload ports[l.pair.port] l).1 := by
  simp [offered]

theorem offered_state (p : Port) : (offered payload l ports)[p].state = ports[p].state := by
  by_cases h : l.pair.port = p
  · subst h
    rw [offered_same]
    by_cases hq : ports[l.pair.port].state = .enabled ∧ ports[l.pair.port].feedQ.length < 2048
    · rw [offerCopy_sends hq.1 hq.2]
    · rw [offerCopy_drops hq]
  · rw [offered_other h]

/-- The copy offered counts against its port's places, whether it was queued or found none. -/
theorem offered_room_iff (p : Port) (n : Nat) :
    ((offered payload l ports)[p].state = .enabled ∧ (offered payload l ports)[p].feedQ.length + n < 2048)
      ↔ ports[p].state = .enabled ∧ ports[p].feedQ.length + (n + if l.pair.port = p then 1 else 0) < 2048 := by
  by_cases h : l.pair.port = p
  · subst h
    rw [offered_state, offered_same, if_pos rfl]
    refine and_congr_right fun hs => ?_
    by_cases hq : ports[l.pair.port].feedQ.length < 2048
    · rw [offerCopy_sends hs hq, List.length_append, List.length_singleton]
      omega
    · rw [offerCopy_drops fun e => hq e.2]
      show ports[l.pair.port].feedQ.length + n < 2048 ↔ _
      omega
  · rw [offered_other h, if_neg h, Nat.add_zero]

end

theorem replicate_length (payload : List Byte) (legs : List Leg) (ports : Vector PortRec 16) :
    (replicate payload legs ports).2.length = legs.length := by
  induction legs generalizing ports with
  | nil => rfl
  | cons l rest ih => rw [replicate_cons, List.length_cons, ih, List.length_cons]

/-- What becomes of each leg. -/
theorem replicate_leg (payload : List Byte) (legs : List Leg) (ports : Vector PortRec 16) (i : Nat) (l : Leg)
    (h : legs[i]? = some l) :
    (replicate payload legs ports).2[i]? = some
      (if ports[l.pair.port].state = .enabled
          ∧ ports[l.pair.port].feedQ.length + ((legs.take i).countP fun m => m.pair.port == l.pair.port) < 2048 then
        { l with seq := l.seq + 1, sent := l.sent + 1 }
       else { l with dropped := l.dropped + 1 }) := by
  induction legs generalizing ports i with
  | nil => simp at h
  | cons l₀ rest ih =>
    rw [replicate_cons]
    cases i with
    | zero =>
      obtain rfl : l₀ = l := by simpa using h
      rw [List.getElem?_cons_zero]
      congr 1
      split
      · next hq => rw [offerCopy_sends hq.1 hq.2]
      · next hq => rw [offerCopy_drops hq]
    | succ i =>
      have hcount : ((l₀ :: rest).take (i + 1)).countP (fun m => m.pair.port == l.pair.port)
          = (rest.take i).countP (fun m => m.pair.port == l.pair.port) + if l₀.pair.port = l.pair.port then 1 else 0 := by
        simp [List.countP_cons]
      rw [List.getElem?_cons_succ, ih _ i (by simpa using h), hcount]
      exact congrArg some (if_congr (offered_room_iff ..) rfl rfl)

/-- What becomes of each port. -/
theorem replicate_port (payload : List Byte) (legs : List Leg) (ports : Vector PortRec 16) (p : Port) :
    (replicate payload legs ports).1[p] =
      if ports[p].state = .enabled then
        { ports[p] with
          feedQ := ports[p].feedQ
            ++ ((legs.filter fun l => l.pair.port == p).take (2048 - ports[p].feedQ.length)).map fun l =>
                ⟨l.pair.label, l.seq, payload⟩ }
      else ports[p] := by
  induction legs generalizing ports with
  | nil => simp [replicate]
  | cons l rest ih =>
    rw [replicate_cons, ih, offered_state]
    refine if_ctx_congr Iff.rfl (fun hs => ?_) fun hs => ?_
    · by_cases h : l.pair.port = p
      · subst h
        rw [offered_same, List.filter_cons_of_pos (by simp)]
        by_cases hq : ports[l.pair.port].feedQ.length < 2048
        · obtain ⟨n, hn⟩ : ∃ n, 2048 - ports[l.pair.port].feedQ.length = n + 1 :=
            ⟨2047 - ports[l.pair.port].feedQ.length, by omega⟩
          have hn' : 2048 - (ports[l.pair.port].feedQ.length + 1) = n := by omega
          rw [offerCopy_sends hs hq, hn]
          simp only [List.length_append, List.length_singleton, hn', List.take_succ_cons, List.map_cons, List.append_assoc,
            List.singleton_append]
        · have hfull : 2048 - ports[l.pair.port].feedQ.length = 0 := by omega
          rw [offerCopy_drops fun e => hq e.2, hfull]
          rfl
      · rw [offered_other h, List.filter_cons_of_neg (by simpa using h)]
    · by_cases h : l.pair.port = p
      · subst h
        rw [offered_same, offerCopy_drops fun e => hs e.1]
      · rw [offered_other h]

/-- Settles O23. -/
theorem replicationAccountsForEveryCopy : Obligations.ReplicationAccountsForEveryCopy := fun payload legs ports =>
  ⟨replicate_length payload legs ports, replicate_leg payload legs ports, replicate_port payload legs ports⟩

end Sys2Proof.Machine
end

