-- ==== Sys2Proof/Proofs/Darkness.lean ====
section
/-! The entry to DARK and its event on the Fault Watch, source by source in table order (R8, R10, R112). -/

namespace Sys2Proof.Machine

/-! ## Sparse tables at a place in the list -/

section
variable {α : Type} {pre rest : List (Nat × α)} {k : Nat} {x : α}

theorem tabFind_middle (h : ∀ e ∈ pre, e.1 < k) : tabFind (pre ++ (k, x) :: rest) k = some x := by
  induction pre with
  | nil => simp [tabFind]
  | cons e pre ih =>
    have he : e.1 ≠ k := Nat.ne_of_lt (h e (List.mem_cons_self ..))
    rw [List.cons_append, tabFind, if_neg he]
    exact ih fun e' h' => h e' (List.mem_cons_of_mem _ h')

theorem tabPut_middle (h : ∀ e ∈ pre, e.1 < k) (y : α) : tabPut (pre ++ (k, x) :: rest) k y = pre ++ (k, y) :: rest := by
  induction pre with
  | nil => simp [tabPut]
  | cons e pre ih =>
    have he : e.1 < k := h e (List.mem_cons_self ..)
    rw [List.cons_append, tabPut, if_neg (by omega), if_neg (by omega), ih fun e' h' => h e' (List.mem_cons_of_mem _ h')]
    rfl

theorem Rising.lt_middle (h : Rising (pre ++ (k, x) :: rest)) : ∀ e ∈ pre, e.1 < k := by
  intro e he
  unfold Rising at h
  rw [List.map_append, List.pairwise_append] at h
  exact h.2.2 e.1 (List.mem_map_of_mem he) k (by simp)

end

/-! ## The event for one source -/

/-- The watched source of a port that goes dark, every field named (R112). -/
def failedDark (nt : Word) (x : Source) : Source :=
  { x with
    arrivals := 0, errored := false, resync := true
    watch :=
      { x.watch with
        state := .failed, silentRun := x.watch.params.failCount, goodRun := 0
        failures := if x.watch.state = .failed then x.watch.failures else x.watch.failures + 1
        lastChange := if x.watch.state = .failed then x.watch.lastChange else some nt } }

theorem darkSource_eq (nt : Word) (x : Source) : darkSource nt x = failedDark nt x := by
  unfold darkSource failedDark
  by_cases h : x.watch.state = .failed
  · simp [h, Source.clearAccount]
  · simp [h, Source.clearAccount]

/-- The notice of a source that the event takes to FAILED (R112). -/
def darkNotice (nt : Word) (x : Source) : NoticeContent :=
  .sourceState x.id x.watch.state .failed .portDark nt x.watch.params.failCount 0 x.watch.lastErrored (x.watch.failures + 1)
    x.watch.degradations

theorem sourceNotice_failedDark {nt : Word} {x : Source} (h : x.watch.state ≠ .failed) :
    sourceNotice x.watch.state (failedDark nt x) .portDark nt = darkNotice nt x := by
  simp [sourceNotice, failedDark, darkNotice, h]

/-- One entry of the source table after the event, and the notices it raises. -/
def darkEntry (p : Port) (nt : Word) (e : Nat × Source) : Nat × Source :=
  (e.1, if e.2.id.port = p ∧ e.2.watch.state ≠ .unwatched then failedDark nt e.2 else e.2)

def darkNotices (p : Port) (nt : Word) (t : List (Nat × Source)) : List NoticeContent :=
  ((t.map Prod.snd).filter fun x => x.id.port = p ∧ x.watch.state ≠ .unwatched ∧ x.watch.state ≠ .failed).map (darkNotice nt)

theorem darkEntry_id (p : Port) (nt : Word) (e : Nat × Source) : (darkEntry p nt e).2.id = e.2.id := by
  unfold darkEntry
  split <;> rfl

theorem darkNotices_cons (p : Port) (nt : Word) (e : Nat × Source) (t : List (Nat × Source)) :
    darkNotices p nt (e :: t) = darkNotices p nt [e] ++ darkNotices p nt t := by
  simp only [darkNotices, List.map_cons, List.map_nil, ← List.map_append, ← List.filter_append, List.singleton_append]

/-! ## Notices and the source table -/

/-- The state with this source table. -/
def State.withSources (s : State) (t : List (Nat × Source)) : State := { s with sources := t }

section
variable (s : State) (t t' : List (Nat × Source)) (c : NoticeContent) (cs : List NoticeContent)

@[simp] theorem State.withSources_sources : (s.withSources t).sources = t := rfl
@[simp] theorem State.withSources_time : (s.withSources t).time = s.time := rfl
@[simp] theorem State.withSources_twice : (s.withSources t).withSources t' = s.withSources t' := rfl

theorem State.raise_withSources : (s.withSources t).raise c = (s.raise c).withSources t := by
  unfold State.raise
  change ite (s.mgmt.notices.length < Config.noticePlaces) _ _ = _
  split <;> rfl

theorem State.raiseAll_withSources : (s.withSources t).raiseAll cs = (s.raiseAll cs).withSources t := by
  induction cs generalizing s with
  | nil => rfl
  | cons c cs ih => rw [State.raiseAll_cons, State.raise_withSources, ih, State.raiseAll_cons]

theorem State.raiseAll_time : (s.raiseAll cs).time = s.time := State.raiseAll_same State.time (fun u c => u.raise_time c) s cs

end

/-! ## The event over the table -/

section
variable {t : State} {p : Port} {pre rest : List (Nat × Source)} {e : Nat × Source}

/-- The event for the entry at a place of the table, if its source is on the port. -/
theorem State.darkOne_middle (ht : t.sources = pre ++ e :: rest) (hr : Rising t.sources) (hk : e.1 = srcKey e.2.id) :
    (if e.2.id.port = p then t.darkOne e.2.id else t)
      = (t.withSources (pre ++ darkEntry p t.time.nt e :: rest)).raiseAll (darkNotices p t.time.nt [e]) := by
  obtain ⟨k, x⟩ := e
  simp only at hk
  subst hk
  have hlt := (ht ▸ hr).lt_middle
  have hsame : t.withSources (pre ++ (srcKey x.id, x) :: rest) = t := by rw [← ht]; rfl
  have hfind : t.source x.id = some x := by rw [State.source, ht, tabFind_middle hlt]
  have hput : t.setSource (failedDark t.time.nt x) = t.withSources (pre ++ (srcKey x.id, failedDark t.time.nt x) :: rest) := by
    rw [State.setSource, ht, show (failedDark t.time.nt x).id = x.id from rfl, tabPut_middle hlt]
    rfl
  by_cases hp : x.id.port = p
  · rw [if_pos hp, State.darkOne, hfind]
    by_cases hu : x.watch.state = .unwatched
    · simp [hu, darkEntry, darkNotices, hsame, State.raiseAll]
    · by_cases hf : x.watch.state = .failed
      · simp [hp, hf, darkEntry, darkNotices, darkSource_eq, hput, State.raiseAll]
      · simp [hp, hu, hf, darkEntry, darkNotices, darkSource_eq, hput, State.raiseAll, sourceNotice_failedDark]
  · simp [hp, darkEntry, darkNotices, hsame, State.raiseAll]

/-- The event over the entries from a place of the table on. -/
theorem State.darkOne_foldl (p : Port) (rest pre : List (Nat × Source)) (t : State) (ht : t.sources = pre ++ rest)
    (hr : Rising t.sources) (hk : ∀ e ∈ t.sources, e.1 = srcKey e.2.id) :
    ((rest.filter fun e => e.2.id.port == p).map fun e => e.2.id).foldl State.darkOne t
      = (t.withSources (pre ++ rest.map (darkEntry p t.time.nt))).raiseAll (darkNotices p t.time.nt rest) := by
  induction rest generalizing pre t with
  | nil =>
    rw [List.append_nil] at ht
    rw [List.map_nil, List.append_nil, ← ht]
    rfl
  | cons e rest ih =>
    have hstep := State.darkOne_middle (p := p) ht hr (hk e (by rw [ht]; simp))
    have hsplit : (((e :: rest).filter fun e => e.2.id.port == p).map fun e => e.2.id).foldl State.darkOne t
        = ((rest.filter fun e => e.2.id.port == p).map fun e => e.2.id).foldl State.darkOne
            (if e.2.id.port = p then t.darkOne e.2.id else t) := by
      by_cases h : e.2.id.port = p <;> simp [h]
    have hkeys : ((pre ++ darkEntry p t.time.nt e :: rest).map Prod.fst) = t.sources.map Prod.fst := by
      rw [ht]
      simp [darkEntry]
    rw [hsplit, hstep, State.raiseAll_withSources, ih (pre ++ [darkEntry p t.time.nt e])]
    · rw [State.withSources_twice, State.withSources_time, State.raiseAll_time, ← State.raiseAll_withSources,
        darkNotices_cons p t.time.nt e rest, State.raiseAll_append, List.map_cons, List.append_assoc, List.singleton_append]
    · simp
    · unfold Rising at hr ⊢
      rw [State.withSources_sources, hkeys]
      exact hr
    · intro e' he'
      rw [State.withSources_sources, List.mem_append, List.mem_cons] at he'
      obtain he' | rfl | he' := he'
      · exact hk e' (by rw [ht]; simp [he'])
      · rw [darkEntry_id]
        exact hk e (by rw [ht]; simp)
      · exact hk e' (by rw [ht]; simp [he'])

end

/-! ## The entry to DARK -/

/-- The event on a state with the source table and the NT of `s`. -/
theorem State.darkEvent_eq {s u : State} (h : TablesInForm s) (p : Port) (hs : u.sources = s.sources) (ht : u.time = s.time) :
    u.darkEvent p = (u.withSources (s.sources.map (darkEntry p s.time.nt))).raiseAll (darkNotices p s.time.nt s.sources) := by
  rw [← hs, ← ht]
  exact State.darkOne_foldl p u.sources [] u rfl (hs ▸ h.sources) (hs ▸ h.keys)

theorem State.darkRaises_iff {s : State} {p : Port} : s.darkRaises p = true ↔ darkNotices p s.time.nt s.sources ≠ [] := by
  simp only [State.darkRaises, darkNotices, ne_eq, List.map_eq_nil_iff, List.filter_eq_nil_iff, List.any_eq_true]
  simp [and_assoc]
  grind

/-- The waiting answer a port discards as it goes DARK (R10). -/
def Engine.discardOn (p : Port) : Engine → Engine
  | .answerWait q a => if q = p then .ready else .answerWait q a
  | e => e

theorem State.discardWaiting_eq (s : State) (p : Port) : s.discardWaiting p = s.setEngine (s.mgmt.engine.discardOn p) := by
  have hself {e : Engine} (he : s.mgmt.engine = e) : s.setEngine e = s := by subst he; rfl
  unfold State.discardWaiting Engine.discardOn
  cases he : s.mgmt.engine with
  | ready => exact (hself he).symm
  | working j => exact (hself he).symm
  | answerWait q a =>
    show (if q = p then s.setEngine .ready else s) = s.setEngine (if q = p then .ready else .answerWait q a)
    split
    · rfl
    · exact (hself he).symm

/-- A port in DARK with its queues flushed and the answer waiting on it discarded (R8, R10). -/
def State.flushed (s : State) (p : Port) (ret : ReturnState) : State :=
  (s.setPort p { s.port p with state := .dark ret, mgmtQ := [], feedQ := [] }).setEngine (s.mgmt.engine.discardOn p)

section
variable {s : State} (h : TablesInForm s) (p : Port) (ret : ReturnState) (cause : PortCause)

/-- A free value has been read (assumption log 2). -/
def State.freeValueRead (s : State) : State := { s with freeRead := s.freeRead + 1 }

theorem State.enterDark_def : s.enterDark p ret cause =
    let note := NoticeContent.portState p (s.port p).state (.dark ret) (s.port p).line cause
    let u := s.flushed p ret
    if u.darkRaises p then
      if Config.portStateFirst s.freeRead then (u.freeValueRead.raise note).darkEvent p
      else (u.freeValueRead.darkEvent p).raise note
    else (u.raise note).darkEvent p := by
  unfold State.enterDark
  dsimp only
  rw [State.discardWaiting_eq]
  rfl

include h in
/-- The event with the port's own notice before it, or after it. -/
theorem State.darkEvent_around {u : State} (c : NoticeContent) (hs : u.sources = s.sources) (ht : u.time = s.time) :
    (u.raise c).darkEvent p
        = (u.withSources (s.sources.map (darkEntry p s.time.nt))).raiseAll (c :: darkNotices p s.time.nt s.sources)
      ∧ (u.darkEvent p).raise c
        = (u.withSources (s.sources.map (darkEntry p s.time.nt))).raiseAll (darkNotices p s.time.nt s.sources ++ [c]) := by
  constructor
  · rw [State.darkEvent_eq h p ((State.raise_sources ..).trans hs) ((State.raise_time ..).trans ht), ← State.raise_withSources,
      State.raiseAll_cons]
  · rw [State.darkEvent_eq h p hs ht, State.raiseAll_append]
    rfl

/-- The state a port that enters DARK leaves behind, before its notices (R8, R10, R112). -/
def State.darkened (s : State) (p : Port) (ret : ReturnState) : State :=
  { (s.flushed p ret).withSources (s.sources.map (darkEntry p s.time.nt)) with
    freeRead := s.freeRead + (if darkNotices p s.time.nt s.sources = [] then 0 else 1) }

theorem State.darkened_silent (hn : darkNotices p s.time.nt s.sources = []) :
    s.darkened p ret = (s.flushed p ret).withSources (s.sources.map (darkEntry p s.time.nt)) := by
  unfold State.darkened
  rw [hn, if_pos rfl]
  rfl

theorem State.darkened_raising (hn : darkNotices p s.time.nt s.sources ≠ []) :
    s.darkened p ret = (s.flushed p ret).freeValueRead.withSources (s.sources.map (darkEntry p s.time.nt)) := by
  unfold State.darkened
  rw [if_neg hn]
  rfl

include h in
theorem State.enterDark_eq :
    s.enterDark p ret cause = (s.darkened p ret).raiseAll
      (if Config.portStateFirst s.freeRead then
        .portState p (s.port p).state (.dark ret) (s.port p).line cause :: darkNotices p s.time.nt s.sources
       else darkNotices p s.time.nt s.sources ++ [.portState p (s.port p).state (.dark ret) (s.port p).line cause]) := by
  have hraises : (s.flushed p ret).darkRaises p = true ↔ darkNotices p s.time.nt s.sources ≠ [] :=
    State.darkRaises_iff (s := s.flushed p ret)
  rw [State.enterDark_def]
  dsimp only
  generalize NoticeContent.portState p (s.port p).state (.dark ret) (s.port p).line cause = note
  obtain ⟨hfirst, hlast⟩ := State.darkEvent_around h p (u := (s.flushed p ret).freeValueRead) note rfl rfl
  by_cases hn : darkNotices p s.time.nt s.sources = []
  · rw [if_neg fun hr => hraises.1 hr hn, (State.darkEvent_around h p (u := s.flushed p ret) note rfl rfl).1,
      State.darkened_silent p ret hn, hn, List.nil_append, ite_self]
  · rw [if_pos (hraises.2 hn), State.darkened_raising p ret hn, hfirst, hlast]
    split <;> rfl

end

theorem TablesInForm.setPort {s : State} (h : TablesInForm s) (p : Port) (r : PortRec) : TablesInForm (s.setPort p r) :=
  ⟨h.bookings, h.sources, h.keys⟩

/-- A loss event, by the state of the port (R8). -/
theorem State.loseLine_enabled {s : State} {p : Port} {line : LineCond} {cause : PortCause} (hs : (s.port p).state = .enabled) :
    s.loseLine p line cause = (s.setPort p { s.port p with line := line, failRun := 0 }).enterDark p .enabled cause := by
  unfold State.loseLine
  simp only [hs]

theorem State.loseLine_draining {s : State} {p : Port} {line : LineCond} {cause : PortCause} (hs : (s.port p).state = .draining) :
    s.loseLine p line cause = (s.setPort p { s.port p with line := line, failRun := 0 }).enterDark p .disabled cause := by
  unfold State.loseLine
  simp only [hs]

theorem State.loseLine_down {s : State} {p : Port} {line : LineCond} {cause : PortCause}
    (hs : (s.port p).state = .disabled ∨ (s.port p).isDark = true) :
    s.loseLine p line cause = s.setPort p { s.port p with line := line, failRun := 0 } := by
  rw [State.loseLine_eq]
  unfold PortRec.isDark at hs
  split
  · next h => simp [h] at hs
  · next h => simp [h] at hs
  · rfl

/-- Settles O4: the entry to DARK as one update and its notices, at a loss of light and for every other cause. -/
theorem lossOfLightDarkensAPort : Obligations.LossOfLightDarkensAPort := by
  refine ⟨fun s p hr hl => ⟨fun ht hs => ?_, fun ht hs => ?_, fun hs => ?_⟩, fun s p ret cause ht => ?_⟩
  · rw [exec_lossOfLight hr, if_neg hl, State.loseLine_enabled hs]
    exact congrArg _ (State.enterDark_eq (ht.setPort ..) p .enabled .lossOfLight)
  · rw [exec_lossOfLight hr, if_neg hl, State.loseLine_draining hs]
    exact congrArg _ (State.enterDark_eq (ht.setPort ..) p .disabled .lossOfLight)
  · rw [exec_lossOfLight hr, if_neg hl, State.loseLine_down hs]
  · exact State.enterDark_eq ht p ret cause

end Sys2Proof.Machine
end

