-- ==== Sys2Proof/Proofs/HeaderCheck.lean ====
section
/-! The header check (R2) is linear, so that it makes header and check a multiple of the generator is a fact about the 24 headers
with one bit set. -/

namespace Sys2Proof.Machine

/-! ## Linearity -/

theorem crcBit_eq (c : Byte) : crcBit c = (c <<< 1) ^^^ (if c.msb then 0xD5#8 else 0#8) := by
  unfold crcBit
  split <;> simp

theorem crcBit_xor (a b : Byte) : crcBit (a ^^^ b) = crcBit a ^^^ crcBit b := by
  have hmask : (if a.msb ^^ b.msb then 0xD5#8 else 0#8) = (if a.msb then 0xD5#8 else 0#8) ^^^ (if b.msb then 0xD5#8 else 0#8) := by
    cases a.msb <;> cases b.msb <;> rfl
  rw [crcBit_eq, crcBit_eq a, crcBit_eq b, BitVec.msb_xor, BitVec.shiftLeft_xor_distrib, hmask]
  ac_rfl

theorem crcByte_xor (c c' b b' : Byte) : crcByte (c ^^^ c') (b ^^^ b') = crcByte c b ^^^ crcByte c' b' := by
  have h : c ^^^ c' ^^^ (b ^^^ b') = (c ^^^ b) ^^^ (c' ^^^ b') := by ac_rfl
  simp only [crcByte, h, crcBit_xor]

/-- The check of a header given as one 24-bit word. -/
def checkOf (m : BitVec 24) : Byte := headerCheck (m.extractLsb' 16 8) (m.extractLsb' 8 8) (m.extractLsb' 0 8)

theorem checkOf_xor (m n : BitVec 24) : checkOf (m ^^^ n) = checkOf m ^^^ checkOf n := by
  simp only [checkOf, headerCheck, BitVec.extractLsb'_xor]
  rw [← crcByte_xor, ← crcByte_xor, ← crcByte_xor, BitVec.xor_zero]

/-- The sum of the shifts of a word that the bits of `q` select: the product of the two as polynomials over two elements. -/
def shiftSum {w v : Nat} (g : BitVec w) (q : BitVec v) (l : List Nat) (sum : BitVec w) : BitVec w :=
  l.foldl (fun sum i => if q.getLsbD i then sum ^^^ (g <<< i) else sum) sum

theorem shiftSum_xor {w v : Nat} (g : BitVec w) (q q' : BitVec v) (l : List Nat) (a a' : BitVec w) :
    shiftSum g (q ^^^ q') l (a ^^^ a') = shiftSum g q l a ^^^ shiftSum g q' l a' := by
  induction l generalizing a a' with
  | nil => rfl
  | cons i l ih =>
    have hstep : (if (q ^^^ q').getLsbD i then a ^^^ a' ^^^ (g <<< i) else a ^^^ a')
        = (if q.getLsbD i then a ^^^ (g <<< i) else a) ^^^ (if q'.getLsbD i then a' ^^^ (g <<< i) else a') := by
      have hself : g <<< i ^^^ g <<< i = 0#w := BitVec.xor_self
      rw [BitVec.getLsbD_xor]
      cases q.getLsbD i <;> cases q'.getLsbD i
      · rfl
      · show a ^^^ a' ^^^ g <<< i = a ^^^ (a' ^^^ g <<< i)
        ac_rfl
      · show a ^^^ a' ^^^ g <<< i = a ^^^ g <<< i ^^^ a'
        ac_rfl
      · show a ^^^ a' = a ^^^ g <<< i ^^^ (a' ^^^ g <<< i)
        rw [show a ^^^ g <<< i ^^^ (a' ^^^ g <<< i) = a ^^^ a' ^^^ (g <<< i ^^^ g <<< i) by ac_rfl, hself, BitVec.xor_zero]
    unfold shiftSum at ih ⊢
    rw [List.foldl_cons, hstep, ih]
    rfl

/-- A word is the sum of its own bits. -/
theorem shiftSum_one {w : Nat} (q : BitVec w) (n j : Nat) :
    (shiftSum (1#w) q (List.range n) 0).getLsbD j = (decide (j < n) && q.getLsbD j) := by
  induction n with
  | zero => simp [shiftSum]
  | succ n ih =>
    have hstep : shiftSum (1#w) q (List.range (n + 1)) 0
        = if q.getLsbD n then shiftSum (1#w) q (List.range n) 0 ^^^ (1#w <<< n) else shiftSum (1#w) q (List.range n) 0 := by
      unfold shiftSum
      rw [List.range_succ, List.foldl_append, List.foldl_cons, List.foldl_nil]
    have hbit : (1#w <<< n).getLsbD j = (decide (n < w) && decide (j = n)) := by
      rw [BitVec.getLsbD_shiftLeft, BitVec.getLsbD_one]
      grind
    rw [hstep, apply_ite (BitVec.getLsbD · j), BitVec.getLsbD_xor, hbit, ih]
    by_cases hj : j = n
    · subst hj
      have hw := q.getLsbD_of_ge j
      grind
    · grind

/-! ## Multiples of the generator -/

/-- A header with its check is a multiple of the generator. -/
def Divides (m : BitVec 24) : Prop :=
  ∃ q : BitVec 24, shiftSum 0x1D5#32 q (List.range 24) 0 = (m ++ checkOf m : BitVec 32)

theorem Divides.xor {m n : BitVec 24} (hm : Divides m) (hn : Divides n) : Divides (m ^^^ n) := by
  obtain ⟨q, hq⟩ := hm
  obtain ⟨r, hr⟩ := hn
  refine ⟨q ^^^ r, ?_⟩
  rw [show (0 : BitVec 32) = 0 ^^^ 0 from rfl, shiftSum_xor, hq, hr, checkOf_xor, BitVec.xor_append]

theorem divides_zero : Divides 0 := ⟨0, by decide +kernel⟩

/-- The quotient of a header whose only set bit is `i` is the top of the quotient of the one whose only set bit is the first sent. -/
def quotient (i : Nat) : BitVec 24 := 0xD387E8#24 >>> (23 - i)

theorem quotient_divides : ∀ i < 24, shiftSum 0x1D5#32 (quotient i) (List.range 24) 0
    = ((1#24 <<< i) ++ checkOf (1#24 <<< i) : BitVec 32) := by decide +kernel

theorem divides_bit (i : Nat) : Divides (1#24 <<< i) := by
  by_cases hi : i < 24
  · exact ⟨quotient i, quotient_divides i hi⟩
  · rw [BitVec.shiftLeft_eq_zero (by omega)]
    exact divides_zero

theorem divides (m : BitVec 24) : Divides m := by
  have hm : shiftSum (1#24) m (List.range 24) 0 = m := by
    refine BitVec.eq_of_getLsbD_eq fun j hj => ?_
    rw [shiftSum_one, decide_eq_true hj, Bool.true_and]
  rw [← hm]
  refine foldl_keeps Divides _ (fun a i ha => ?_) _ 0 divides_zero
  split
  · exact ha.xor (divides_bit i)
  · exact ha

/-- Any three header bytes with their check. -/
theorem headerCheck_divides (b0 b1 b2 : Byte) :
    ∃ q : BitVec 24, shiftSum 0x1D5#32 q (List.range 24) 0 = (b0 ++ b1 ++ b2 ++ headerCheck b0 b1 b2 : BitVec 32) := by
  obtain ⟨q, hq⟩ := divides (b0 ++ b1 ++ b2 : BitVec 24)
  refine ⟨q, hq.trans ?_⟩
  have h0 : (b0 ++ b1 ++ b2 : BitVec 24).extractLsb' 16 8 = b0 := by
    rw [BitVec.extractLsb'_append_eq_of_le (by omega)]
    exact BitVec.extractLsb'_append_eq_left
  have h1 : (b0 ++ b1 ++ b2 : BitVec 24).extractLsb' 8 8 = b1 := by
    rw [BitVec.extractLsb'_append_eq_of_le (by omega)]
    exact BitVec.extractLsb'_append_eq_right
  have h2 : (b0 ++ b1 ++ b2 : BitVec 24).extractLsb' 0 8 = b2 := BitVec.extractLsb'_append_eq_right
  rw [checkOf, h0, h1, h2]

end Sys2Proof.Machine
end

