-- ==== Sys2Proof/Proofs/Layouts.lean ====
section
/-! The byte layouts of R172, read back. -/

namespace Sys2Proof.Machine

/-! ## Bytes of a list -/

section
variable {bs cs : List Byte} {i j n : Nat}

theorem byteAt_past (h : bs.length ≤ i) : byteAt bs i = 0 := List.getD_eq_default _ _ h

theorem byteAt_append_right (h : bs.length = n) : byteAt (bs ++ cs) (n + i) = byteAt cs i := by
  subst h
  rw [byteAt, List.getD_append_right _ _ _ _ (by omega), Nat.add_sub_cancel_left]
  rfl

theorem padTo_length (n : Nat) (bs : List Byte) : (padTo n bs).length = n := by simp [padTo]

theorem padTo_self (h : bs.length = n) : padTo n bs = bs := by simp [padTo, h]

theorem byteAt_padTo (h : bs.length ≤ n) (i : Nat) : byteAt (padTo n bs) i = byteAt bs i := by
  unfold byteAt padTo
  by_cases hi : i < n
  · rw [List.getD_eq_getElem?_getD, List.getElem?_take_of_lt hi]
    by_cases hb : i < bs.length
    · rw [List.getElem?_append_left hb, List.getD_eq_getElem?_getD]
    · rw [List.getElem?_append_right (by omega), List.getElem?_replicate, List.getD_eq_default _ _ (by omega)]
      split <;> rfl
  · rw [List.getD_eq_default _ _ (by simp; omega), List.getD_eq_default _ _ (by omega)]

theorem word16_congr (h : ∀ k, byteAt bs (i + k) = byteAt cs (j + k)) : word16 bs i = word16 cs j := by
  rw [word16, word16, h 1, show byteAt bs i = byteAt cs j from h 0]

theorem word32_congr (h : ∀ k, byteAt bs (i + k) = byteAt cs (j + k)) : word32 bs i = word32 cs j := by
  have h2 : word16 bs (i + 2) = word16 cs (j + 2) := word16_congr fun k => by rw [Nat.add_assoc, h, Nat.add_assoc]
  rw [word32, word32, word16_congr h, h2]

theorem word16_eq {x : BitVec 16} (h : (bs.drop i).take 2 = bytes16 x) : word16 bs i = x := by
  have hb (k : Nat) (hk : k < 2) : byteAt bs (i + k) = byteAt (bytes16 x) k := by
    rw [← h]
    simp [byteAt, hk]
  rw [word16, hb 1 (by omega), show byteAt bs i = _ from hb 0 (by omega)]
  exact BitVec.extractLsb'_append_extractLsb'

theorem word32_eq {x : Word} (h : (bs.drop i).take 4 = bytes32 x) : word32 bs i = x := by
  have hb (k : Nat) (hk : k < 4) : byteAt bs (i + k) = byteAt (bytes32 x) k := by
    rw [← h]
    simp [byteAt, hk]
  have h0 : word16 bs i = x.extractLsb' 16 16 := by
    rw [word16, hb 1 (by omega), show byteAt bs i = _ from hb 0 (by omega)]
    exact BitVec.extractLsb'_append_extractLsb'
  have h1 : word16 bs (i + 2) = x.extractLsb' 0 16 := by
    rw [word16, hb 3 (by omega), hb 2 (by omega)]
    exact BitVec.extractLsb'_append_extractLsb'
  rw [word32, h0, h1]
  exact BitVec.extractLsb'_append_extractLsb'

end

/-! ## The cell a port sends (R1, R172) -/

theorem sentSeq (q : Seq) :
    (q.extractLsb' 4 8 : Byte) ++ ((q.extractLsb' 0 4 : BitVec 4) ++ 0#4 : BitVec 8).extractLsb' 4 4 = q := by
  rw [BitVec.extractLsb'_append_eq_left]
  exact BitVec.extractLsb'_append_extractLsb'

theorem cellOf_cellBytes {c : Cell} (h : c.payload.length = 252) : cellOf (cellBytes c) = c := by
  have hp : ((cellBytes c).drop 4).take 252 = c.payload := by
    show (padTo 252 c.payload).take 252 = _
    rw [padTo_self h, List.take_of_length_le (by omega)]
  have hs : byteAt (cellBytes c) 1 ++ (byteAt (cellBytes c) 2).extractLsb' 4 4 = c.seq := sentSeq c.seq
  rw [cellOf, hp, hs]
  rfl

theorem readSeq_toNat (b1 b2 : Byte) : (b1 ++ b2.extractLsb' 4 4 : BitVec 12).toNat = b1.toNat * 16 + b2.toNat / 16 := by
  have h2 := b2.isLt
  have hlow : (b2.extractLsb' 4 4).toNat = b2.toNat / 16 := by
    simp [BitVec.extractLsb'_toNat, Nat.shiftRight_eq_div_pow]
    omega
  rw [BitVec.toNat_append, hlow, ← Nat.shiftLeft_add_eq_or_of_lt (by omega), Nat.shiftLeft_eq]

/-! ## The cells the part originates (R163, R165, R172) -/

theorem bytes32_length (x : Word) : (bytes32 x).length = 4 := rfl
theorem nat8_length (n : Nat) : (nat8 n).length = 1 := rfl
theorem nat16_length (n : Nat) : (nat16 n).length = 2 := rfl

theorem billBytes_length (r : BillRec) : (billBytes r).length = 80 := by
  unfold billBytes
  simp only [List.length_append]
  rfl

theorem answerDataBytes_length (d : AnswerData) : (answerDataBytes d).length ≤ 236 := by
  cases d with
  | empty => exact Nat.zero_le _
  | bill count waiters next r =>
    simp only [answerDataBytes, List.length_append, billBytes_length, nat16_length, bytes32_length]
    omega
  | noBill count waiters =>
    simp only [answerDataBytes, List.length_append, nat16_length]
    omega
  | _ => exact List.length_take_le ..

/-- The bytes of an answer before the zeros that fill its cell. -/
def answerBytes (a : Answer) : List Byte :=
  mgmtHeader a.dest a.origin a.ctrl 1#2 a.tag a.code (answerParams a).length ++ answerParams a

theorem answerBytes_length (a : Answer) : (answerBytes a).length = 16 + (answerDataBytes a.data).length := by
  simp [answerBytes, answerParams, mgmtHeader, bytes16, nat16, nat8]
  omega

theorem answer_byteAt (q : Seq) (a : Answer) (i : Nat) :
    byteAt (MgmtCell.answer q a).toCell.payload i = byteAt (answerBytes a) i := by
  have hd := answerDataBytes_length a.data
  exact byteAt_padTo (bs := answerBytes a) (by rw [answerBytes_length]; omega) i

/-- The result data of an answer lie from byte 16 on. -/
theorem answer_dataByte (q : Seq) (a : Answer) (j : Nat) :
    byteAt (MgmtCell.answer q a).toCell.payload (16 + j) = byteAt (answerDataBytes a.data) j := by
  rw [answer_byteAt]
  exact byteAt_append_right (bs := (answerBytes a).take 16) (n := 16) rfl

/-- The bytes of a notice before the zeros that fill its cell. -/
def noticeCellBytes (x : NoticeCell) : List Byte :=
  mgmtHeader x.dest x.origin x.ctrl 2#2 0#16 (noticeCode x.notice.content) (noticeParams x).length ++ noticeParams x

theorem noticeParams_length (x : NoticeCell) : 6 ≤ (noticeParams x).length ∧ (noticeParams x).length ≤ 240 := by
  have hc := List.length_take_le 234 (Config.noticeBytes x.notice.content)
  simp only [noticeParams, bytes32, bytes16, nat16, List.length_append, List.length_cons, List.length_nil]
  omega

theorem noticeCellBytes_length (x : NoticeCell) : (noticeCellBytes x).length = 12 + (noticeParams x).length := by
  simp [noticeCellBytes, mgmtHeader, bytes16, nat8]
  omega

theorem notice_byteAt (q : Seq) (x : NoticeCell) (i : Nat) :
    byteAt (MgmtCell.notice q x).toCell.payload i = byteAt (noticeCellBytes x) i := by
  have hp := noticeParams_length x
  exact byteAt_padTo (bs := noticeCellBytes x) (by rw [noticeCellBytes_length]; omega) i

/-! ## The fields of the header -/

theorem destination_bytes (d : BitVec 10) : (~~~d).setWidth 16 = BitVec.ofNat 16 (1023 - d.toNat) := by
  have hd := d.isLt
  apply BitVec.eq_of_toNat_eq
  simp

theorem length_byte {n : Nat} (h : n ≤ 255) : (BitVec.ofNat 8 n).toNat = n := by
  simp
  omega

/-! ## The fields of an answer -/

section
variable (q : Seq) (a : Answer)

theorem answer_word16 {i : Nat} {x : BitVec 16} (h : ((answerBytes a).drop i).take 2 = bytes16 x) :
    word16 (MgmtCell.answer q a).toCell.payload i = x :=
  (word16_congr fun k => answer_byteAt q a (i + k)).trans (word16_eq h)

theorem answer_data16 {i j : Nat} {x : BitVec 16} (hi : i = 16 + j) (h : ((answerDataBytes a.data).drop j).take 2 = bytes16 x) :
    word16 (MgmtCell.answer q a).toCell.payload i = x := by
  subst hi
  exact (word16_congr fun k => by rw [Nat.add_assoc, answer_dataByte]).trans (word16_eq h)

theorem answer_data32 {i j : Nat} {x : Word} (hi : i = 16 + j) (h : ((answerDataBytes a.data).drop j).take 4 = bytes32 x) :
    word32 (MgmtCell.answer q a).toCell.payload i = x := by
  subst hi
  exact (word32_congr fun k => by rw [Nat.add_assoc, answer_dataByte]).trans (word32_eq h)

end

theorem flagBits_bit (b : Bill) : ∀ x ∈ [(0, b.noTariff), (1, b.saturated), (2, b.timeStepped), (3, b.minimumApplied),
    (4, b.early), (5, b.firstLive.isSome), (6, false), (7, false)], (BitVec.ofNat 8 (flagBits b)).getLsbD x.1 = x.2 := by
  unfold flagBits
  generalize b.noTariff = f0, b.saturated = f1, b.timeStepped = f2, b.minimumApplied = f3, b.early = f4, b.firstLive.isSome = f5
  revert f0 f1 f2 f3 f4 f5
  decide

/-- The bytes of BILL READ's result data, each field after the one before (R151, R172). -/
def billFields (count waiters : Nat) (next : Word) (r : BillRec) : List Byte :=
  nat16 count ++ (nat16 waiters ++ (bytes32 next
    ++ (bytes32 r.seq ++ (bytes32 r.bill.ref ++ (bytes16 r.bill.account ++ (nat8 r.bill.cls ++ (nat8 (outcomeCode r.bill.outcome)
    ++ (nat8 (flagBits r.bill) ++ (nat8 r.bill.round ++ ([0#8, 0#8]
    ++ (bytes32 (r.bill.firstLive.getD 0) ++ (bytes32 r.bill.endNt ++ (nat32 r.bill.held ++ (nat32 r.bill.scheduled
    ++ (nat32 r.bill.overrun ++ (nat32 r.bill.extended ++ (nat32 r.bill.outage ++ (nat32 r.bill.credited
    ++ (nat32 r.bill.degraded ++ (nat32 r.bill.uBase ++ (nat32 r.bill.uOver ++ (nat32 r.bill.total ++ (nat32 r.bill.switches
    ++ (nat32 r.bill.forced ++ (bytes32 r.bill.delivered ++ bytes32 r.bill.dropped)))))))))))))))))))))))))

theorem answerDataBytes_bill (count waiters : Nat) (next : Word) (r : BillRec) :
    answerDataBytes (.bill count waiters next r) = billFields count waiters next r := by
  have hread : answerDataBytes (.bill count waiters next r) = nat16 count ++ nat16 waiters ++ bytes32 next ++ billBytes r := rfl
  rw [hread]
  unfold billBytes billFields
  simp only [List.append_assoc]

/-- The result data of BILL READ (R147, R151, R172). -/
theorem answer_bill (q : Seq) {a : Answer} {count waiters : Nat} {next : Word} {r : BillRec}
    (hd : a.data = .bill count waiters next r) :
    let c := (MgmtCell.answer q a).toCell
    let at_ (i : Nat) : Byte := byteAt c.payload i
    let b := r.bill
    ((answerDataBytes a.data).length = 88 ∧ word16 c.payload 16 = BitVec.ofNat 16 count
        ∧ word16 c.payload 18 = BitVec.ofNat 16 waiters ∧ word32 c.payload 20 = next)
      ∧ (∀ x ∈ [(0, r.seq), (4, b.ref), (16, b.firstLive.getD 0), (20, b.endNt), (72, b.delivered), (76, b.dropped)],
          word32 c.payload (24 + x.1) = x.2)
      ∧ (∀ x ∈ [(24, b.held), (28, b.scheduled), (32, b.overrun), (36, b.extended), (40, b.outage), (44, b.credited),
            (48, b.degraded), (52, b.uBase), (56, b.uOver), (60, b.total), (64, b.switches), (68, b.forced)],
          word32 c.payload (24 + x.1) = BitVec.ofNat 32 x.2)
      ∧ word16 c.payload 32 = b.account ∧ at_ 34 = BitVec.ofNat 8 b.cls
      ∧ at_ 35 = (match b.outcome with
          | .endedByOrder => 1 | .endedAtLimit => 2 | .cut => 3 | .cancelledLate => 4 | .aborted => 5)
      ∧ (∀ x ∈ [(0, b.noTariff), (1, b.saturated), (2, b.timeStepped), (3, b.minimumApplied), (4, b.early),
            (5, b.firstLive.isSome), (6, false), (7, false)], (at_ 36).getLsbD x.1 = x.2)
      ∧ at_ 37 = BitVec.ofNat 8 b.round ∧ at_ 38 = 0 ∧ at_ 39 = 0 := by
  intro c at_ b
  have h8 (j : Nat) : at_ (16 + j) = byteAt (billFields count waiters next r) j := by
    rw [← answerDataBytes_bill, ← hd]
    exact answer_dataByte q a j
  have h16 (j : Nat) {x : BitVec 16} (h : ((billFields count waiters next r).drop j).take 2 = bytes16 x) :
      word16 c.payload (16 + j) = x := answer_data16 q a rfl (by rw [hd, answerDataBytes_bill, h])
  have h32 (j : Nat) {x : Word} (h : ((billFields count waiters next r).drop j).take 4 = bytes32 x) :
      word32 c.payload (16 + j) = x := answer_data32 q a rfl (by rw [hd, answerDataBytes_bill, h])
  simp only [List.forall_mem_cons]
  refine ⟨⟨?_, h16 0 rfl, h16 2 rfl, h32 4 rfl⟩,
    ⟨h32 8 rfl, h32 12 rfl, h32 24 rfl, h32 28 rfl, h32 80 rfl, h32 84 rfl, fun _ h => nomatch h⟩,
    ⟨h32 32 rfl, h32 36 rfl, h32 40 rfl, h32 44 rfl, h32 48 rfl, h32 52 rfl, h32 56 rfl, h32 60 rfl, h32 64 rfl, h32 68 rfl,
      h32 72 rfl, h32 76 rfl, fun _ h => nomatch h⟩, h16 16 rfl, h8 18, ?_, ?_, h8 21, h8 22, h8 23⟩
  · rw [hd, answerDataBytes_bill]
    rfl
  · refine (h8 19).trans ?_
    show BitVec.ofNat 8 (outcomeCode b.outcome) = _
    cases b.outcome <;> rfl
  · rw [show at_ 36 = BitVec.ofNat 8 (flagBits b) from h8 20]
    simpa only [List.forall_mem_cons] using flagBits_bit b

/-- Settles O52: the fields of a cell, of an answer and of a notice, each at its place. -/
theorem sentCellReadsBack : Obligations.SentCellReadsBack := by
  refine ⟨fun c h => ⟨?_, cellOf_cellBytes h, ?_⟩, fun bytes => ⟨?_, rfl, readSeq_toNat .., rfl⟩, headerCheck_divides, ?_, ?_⟩
  · show (padTo 252 c.payload).length + 4 = 256
    rw [padTo_length]
  · exact beq_self_eq_true _
  · exact beq_iff_eq
  · intro q a c at_ n
    have hn := answerDataBytes_length a.data
    refine ⟨⟨rfl, rfl, padTo_length ..⟩, ⟨?_, ?_, ?_, ?_, ?_, ?_, ?_, ?_⟩, ?_, ?_, ?_, ?_, ?_, ?_, ?_⟩
    · rw [← destination_bytes]
      exact answer_word16 q a rfl
    · exact answer_word16 q a rfl
    · exact answer_byteAt q a 4
    · exact answer_byteAt q a 5
    · exact answer_word16 q a rfl
    · exact answer_word16 q a rfl
    · have hlen : (answerParams a).length = 4 + n := by
        simp [answerParams, nat16_length, nat8_length, n]
        omega
      rw [show at_ 10 = BitVec.ofNat 8 (answerParams a).length from answer_byteAt q a 10, hlen, length_byte (by omega)]
    · exact answer_byteAt q a 11
    · refine answer_word16 q a (x := BitVec.ofNat 16 (resultCode a.result)) rfl |>.trans ?_
      cases a.result <;> rfl
    · exact answer_byteAt q a 14
    · refine (answer_byteAt q a 15).trans ?_
      show BitVec.ofNat 8 a.hold.toNat = _
      cases a.hold <;> rfl
    · intro i hi
      exact (answer_byteAt q a i).trans (byteAt_past (by rw [answerBytes_length]; exact hi))
    · intro hd
      show (answerDataBytes a.data).length = 0
      rw [hd]
      rfl
    · intro count waiters hd
      refine ⟨?_, answer_data16 q a (j := 0) rfl ?_, answer_data16 q a (j := 2) rfl ?_⟩
      · show (answerDataBytes a.data).length = 4
        rw [hd]
        rfl
      · rw [hd]
        rfl
      · rw [hd]
        rfl
    · intro count waiters next r hd
      exact answer_bill q hd
  · intro q x c at_
    obtain ⟨hlow, hhigh⟩ := noticeParams_length x
    have hten : (at_ 10).toNat = (noticeParams x).length := by
      rw [show at_ 10 = BitVec.ofNat 8 (noticeParams x).length from notice_byteAt q x 10, length_byte (by omega)]
    have hw16 {i : Nat} {v : BitVec 16} (h : ((noticeCellBytes x).drop i).take 2 = bytes16 v) : word16 c.payload i = v :=
      (word16_congr fun k => notice_byteAt q x (i + k)).trans (word16_eq h)
    refine ⟨⟨rfl, rfl, padTo_length ..⟩, ⟨?_, hw16 rfl, notice_byteAt q x 4, notice_byteAt q x 5, hw16 rfl, hten ▸ hlow,
      notice_byteAt q x 11⟩, ?_, hw16 rfl, ?_, fun i hi => ?_⟩
    · rw [← destination_bytes]
      exact hw16 rfl
    · refine (hw16 (v := noticeCode x.notice.content) rfl).trans ?_
      cases x.notice.content <;> rfl
    · exact (word32_congr fun k => notice_byteAt q x (14 + k)).trans (word32_eq rfl)
    · exact (notice_byteAt q x i).trans (byteAt_past (by rw [noticeCellBytes_length, ← hten]; exact hi))

end Sys2Proof.Machine
end

