-- ==== Sys2Proof/Proofs/Capacity.lean ====
section
/-! PORT CAPACITY (R11): the model's evaluation points find the first instant at which a load exceeds the value. -/

namespace Sys2Proof.Machine

/-! ## The model's parts are the statements' reserved fields (R55, R56) -/

theorem partsOf_eq {nt : Word} {b : Booking} (h : b.state.reserves = true) :
    partsOf nt b = b.reserved.map (partOf nt b.state.isRunning) := by
  unfold partsOf Booking.reserved
  cases hs : b.state <;> simp [hs, BookingState.reserves] at h <;> cases b.pending <;>
    simp [BookingState.reserves, BookingState.isEnded]

theorem countsAt_partsOf {nt : Word} {b : Booking} (h : b.state.reserves = true) (q : Port) (x : Int) :
    countsAt (Part.onPort q) x (partsOf nt b) = b.shareAt nt (Fields.onPort q) x := by
  have hholds : (fun p : Part => p.holds x) ∘ partOf nt b.state.isRunning
      = fun g => decide (g.opens nt b.state.isRunning ≤ x) && decide (x < g.shuts nt) := rfl
  have hshare : Part.onPort q ∘ partOf nt b.state.isRunning = Fields.onPort q := rfl
  rw [partsOf_eq h, countsAt, List.filter_map, List.map_map, hshare, hholds, Booking.shareAt]
  exact List.foldl_eq_foldr ..

theorem shareAt_of_ended {nt : Word} {b : Booking} (h : b.reserved = []) (f : Fields → Nat) (x : Int) :
    b.shareAt nt f x = 0 := by
  rw [Booking.shareAt, h]
  rfl

/-- The compared bookings, as the model reads them for PORT CAPACITY. -/
def comparedOf (s : State) : List (List Part) := (s.bookings.filter fun e => e.2.state.reserves).map fun e => partsOf s.time.nt e.2

theorem sumAt_comparedOf (s : State) (q : Port) (x : Int) :
    sumAt (Part.onPort q) x (comparedOf s)
      = totalAt s.time.nt (Fields.onPort q) x (s.bookings.filter fun e => e.2.state != .extended) := by
  unfold sumAt comparedOf totalAt
  rw [List.map_map]
  induction s.bookings with
  | nil => rfl
  | cons e t ih =>
    by_cases hr : e.2.state.reserves = true
    · have hx : (e.2.state != .extended) = true := by cases hs : e.2.state <;> simp [hs, BookingState.reserves] at hr ⊢
      rw [List.filter_cons, if_pos hr, List.filter_cons, if_pos hx, List.map_cons, List.map_cons, List.sum_cons, List.sum_cons, ih]
      exact congrArg (· + _) (countsAt_partsOf hr q x)
    · rw [List.filter_cons, if_neg hr, ih]
      by_cases hx : (e.2.state != .extended) = true
      · have hnone : e.2.reserved = [] := by
          unfold Booking.reserved
          cases hs : e.2.state <;> simp [hs, BookingState.reserves] at hr hx ⊢
        rw [List.filter_cons, if_pos hx, List.map_cons, List.sum_cons, shareAt_of_ended hnone, Nat.zero_add]
      · rw [List.filter_cons, if_neg hx]

/-! ## The evaluation points (R60) -/

theorem earliest_mem {l : List Int} {x : Int} (h : earliest l = some x) : x ∈ l := by
  induction l generalizing x with
  | nil => simp [earliest] at h
  | cons y l ih =>
    unfold earliest at h
    split at h
    · next z hz =>
      obtain rfl : min y z = x := by simpa using h
      obtain hm | hm : min y z = y ∨ min y z = z := by omega
      · rw [hm]
        exact List.mem_cons_self ..
      · rw [hm]
        exact List.mem_cons_of_mem _ (ih hz)
    · obtain rfl : y = x := by simpa using h
      exact List.mem_cons_self ..

theorem earliest_eq {l : List Int} {x : Int} (hx : x ∈ l) (hmin : ∀ y ∈ l, x ≤ y) : earliest l = some x := by
  induction l with
  | nil => simp at hx
  | cons y l ih =>
    have hy : x ≤ y := hmin y (List.mem_cons_self ..)
    unfold earliest
    cases he : earliest l with
    | none =>
      have hl : l = [] := by
        cases l with
        | nil => rfl
        | cons z l =>
          unfold earliest at he
          split at he <;> simp at he
      subst hl
      obtain rfl : x = y := by simpa using hx
      rfl
    | some z =>
      have hz : z ∈ l := earliest_mem he
      obtain rfl | hx := List.mem_cons.1 hx
      · exact congrArg some (Int.min_eq_left (hmin z (List.mem_cons_of_mem _ hz)))
      · obtain rfl : z = x := by simpa [he] using ih hx fun w hw => hmin w (List.mem_cons_of_mem _ hw)
        exact congrArg some (Int.min_eq_right hy)

theorem foldl_max_le {l : List Nat} {n m : Nat} (h : ∀ a ∈ l, a ≤ m) (hn : n ≤ m) : l.foldl max n ≤ m := by
  induction l generalizing n with
  | nil => exact hn
  | cons a l ih =>
    exact ih (fun b hb => h b (List.mem_cons_of_mem _ hb)) (Nat.max_le.2 ⟨hn, h a (List.mem_cons_self ..)⟩)

theorem le_foldl_max {l : List Nat} {n a : Nat} (h : a ∈ l ∨ a ≤ n) : a ≤ l.foldl max n := by
  induction l generalizing n with
  | nil => simpa using h
  | cons b l ih =>
    refine ih ?_
    obtain h | h := h
    · obtain rfl | h := List.mem_cons.1 h
      · exact .inr (Nat.le_max_right ..)
      · exact .inl h
    · exact .inr (Nat.le_trans h (Nat.le_max_left ..))

/-- A booking counts for no less at an instant that every part holding another one holds too. -/
theorem countsAt_mono {f : Part → Nat} {x a : Int} {ps : List Part} (h : ∀ p ∈ ps, p.holds x = true → p.holds a = true) :
    countsAt f x ps ≤ countsAt f a ps := by
  refine foldl_max_le (fun n hn => le_foldl_max (.inl ?_)) (Nat.zero_le _)
  obtain ⟨p, hp, rfl⟩ := List.mem_map.1 hn
  obtain ⟨hp, hx⟩ := List.mem_filter.1 hp
  exact List.mem_map_of_mem (List.mem_filter.2 ⟨hp, h p hp hx⟩)

theorem sumAt_mono {f : Part → Nat} {x a : Int} {c : List (List Part)}
    (h : ∀ ps ∈ c, ∀ p ∈ ps, p.holds x = true → p.holds a = true) : sumAt f x c ≤ sumAt f a c :=
  List.sum_le_sum fun ps hps => countsAt_mono (h ps hps)

/-- The last evaluation point up to an instant carries at least its load. -/
theorem exists_point {f : Part → Nat} {x : Int} (hx : 0 ≤ x) (c : List (List Part)) :
    ∃ a ∈ 0 :: (starts c).filter fun a => 0 < a, a ≤ x ∧ sumAt f x c ≤ sumAt f a c := by
  let points := 0 :: (starts c).filter fun a => 0 < a
  have hne : (points.toFinset.filter fun a => a ≤ x).Nonempty := ⟨0, by simp [points, hx]⟩
  obtain ⟨a, ha, hmax⟩ := Finset.exists_max_image _ id hne
  simp only [Finset.mem_filter, List.mem_toFinset, id] at ha hmax
  refine ⟨a, ha.1, ha.2, sumAt_mono fun ps hps p hp hold => ?_⟩
  simp only [Part.holds, Bool.and_eq_true, decide_eq_true_eq] at hold ⊢
  refine ⟨?_, Int.lt_of_le_of_lt ha.2 hold.2⟩
  by_cases h0 : 0 < p.from_
  · have hstart : p.from_ ∈ starts c := List.mem_flatMap.2 ⟨ps, hps, List.mem_map_of_mem hp⟩
    exact hmax p.from_ ⟨by simp [points, hstart, h0], hold.1⟩
  · exact Int.le_trans (Int.not_lt.1 h0) (hmax 0 ⟨by simp [points], hx⟩)

/-! ## What PORT CAPACITY finds -/

section
variable (s : State) (p : Port) (v : Nat)

/-- The load PORT CAPACITY compares at an offset. -/
def State.loadAt (x : Int) : Nat := totalAt s.time.nt (Fields.onPort p) x (s.bookings.filter fun e => e.2.state != .extended)

/-- The offsets PORT CAPACITY evaluates. -/
def State.loadPoints : List Int := 0 :: (starts (comparedOf s)).filter fun a => 0 < a

theorem peakOver_eq : peakOver s p v
    = (earliest (s.loadPoints.filter fun x => v < s.loadAt p x)).map fun x => (x, s.loadAt p x) := by
  unfold peakOver overAt State.loadAt
  simp only [Nat.add_zero, ← sumAt_comparedOf]
  rfl

variable {s p v}

theorem loadPoints_nonneg {x : Int} (hx : x ∈ s.loadPoints) : 0 ≤ x := by
  obtain rfl | hx := List.mem_cons.1 hx
  · exact Int.le_refl 0
  · exact Int.le_of_lt (by simpa using (List.mem_filter.1 hx).2)

theorem exists_loadPoint {x : Int} (hx : 0 ≤ x) (p : Port) : ∃ a ∈ s.loadPoints, a ≤ x ∧ s.loadAt p x ≤ s.loadAt p a := by
  obtain ⟨a, ha, hle, hload⟩ := exists_point (f := Part.onPort p) hx (comparedOf s)
  rw [sumAt_comparedOf, sumAt_comparedOf] at hload
  exact ⟨a, ha, hle, hload⟩

theorem peakOver_none (h : ∀ x : Int, 0 ≤ x → s.loadAt p x ≤ v) : peakOver s p v = none := by
  have hnone : (s.loadPoints.filter fun x => v < s.loadAt p x) = [] :=
    List.filter_eq_nil_iff.2 fun x hx => by simpa using h x (loadPoints_nonneg hx)
  rw [peakOver_eq, hnone]
  rfl

theorem peakOver_first {x : Int} (hx : 0 ≤ x) (hv : v < s.loadAt p x) (hfirst : ∀ y : Int, 0 ≤ y → y < x → s.loadAt p y ≤ v) :
    peakOver s p v = some (x, s.loadAt p x) := by
  have hleast (a : Int) (ha : a ∈ s.loadPoints) (hl : v < s.loadAt p a) : x ≤ a := by
    by_contra hlt
    exact absurd (hfirst a (loadPoints_nonneg ha) (Int.not_le.1 hlt)) (Nat.not_le.2 hl)
  obtain ⟨a, ha, hle, hload⟩ := exists_loadPoint (s := s) hx p
  obtain rfl : a = x := Int.le_antisymm hle (hleast a ha (Nat.lt_of_lt_of_le hv hload))
  rw [peakOver_eq, earliest_eq (x := a)]
  · rfl
  · exact List.mem_filter.2 ⟨ha, by simpa using hv⟩
  · intro y hy
    obtain ⟨hy, hl⟩ := List.mem_filter.1 hy
    exact hleast y hy (by simpa using hl)

theorem State.setCapacity_stores {n : Nat}
    (h : (s.port p).capacity < min n 48000 ∨ ¬ min n 48000 < s.installed p ∧ peakOver s p (min n 48000) = none) :
    s.setCapacity p n = ⟨s.setPort p { s.port p with capacity := min n 48000 }, .done,
      .portCapacity ⟨min n 48000, decide (48000 < n)⟩⟩ := by
  have hclamped : (n != min n 48000) = decide (48000 < n) := by
    rw [Bool.eq_iff_iff, bne_iff_ne, decide_eq_true_iff]
    omega
  unfold State.setCapacity
  dsimp only [Config.capacityMax]
  rw [hclamped]
  by_cases hc : (s.port p).capacity < min n 48000
  · rw [if_pos hc]
  · obtain ⟨hi, hn⟩ := h.resolve_left hc
    rw [if_neg hc, if_neg hi, hn]

end

/-- Settles O12: the installed bandwidth is compared first, then the load at the evaluation points. -/
theorem portCapacityIsBounded : Obligations.PortCapacityIsBounded := by
  intro s o rest h u n v
  have hlen : o.badLength 3 = false := by simp [h.badLength]
  have hwork {t : State} {r : Result} {d : AnswerData}
      (hw : (if u.mgmt.mode = .frozen then ⟨u, .mode, .empty⟩ else onPort o 3 u fun p => u.setCapacity p n) = (⟨t, r, d⟩ : Reply)) :
      Answers .portCapacity s o t r d :=
    h.answers (by unfold exec execPortCapacity; rfl) (by rw [hlen]; exact hw)
  refine ⟨fun hm => hwork (if_pos hm), fun hm hp => hwork ?_, fun p hm hp => ?_⟩
  · rw [if_neg (show u.mgmt.mode ≠ .frozen from hm), h.onPort_range hp]
  · intro load stored
    have hset {t : State} {r : Result} {d : AnswerData} (hw : u.setCapacity p n = ⟨t, r, d⟩) : Answers .portCapacity s o t r d :=
      hwork (by rw [if_neg (show u.mgmt.mode ≠ .frozen from hm), h.onPort hp, hw])
    refine ⟨fun hc => hset (State.setCapacity_stores (.inl hc)), fun hc => ⟨fun hi => hset ?_, fun hi => ⟨fun hl => ?_, ?_⟩⟩⟩
    · unfold State.setCapacity
      exact (if_neg (Nat.not_lt.2 hc)).trans (if_pos hi)
    · exact hset (State.setCapacity_stores (.inr ⟨Nat.not_lt.2 hi, peakOver_none hl⟩))
    · intro x hx hv hfirst
      refine hset ?_
      have hpeak : peakOver u p v = some (x, load x) := peakOver_first (s := u) hx hv hfirst
      unfold State.setCapacity
      refine (if_neg (Nat.not_lt.2 hc)).trans ((if_neg (Nat.not_lt.2 hi)).trans ?_)
      rw [show peakOver u p (min n Config.capacityMax) = _ from hpeak]
      rfl

end Sys2Proof.Machine
end

