-- ==== Sys2Proof/Proofs/Tallies.lean ====
section
/-! Sums and counts over the sparse tables, and what writing or deleting one record does to them. -/

namespace Sys2Proof.Machine

section
variable {α : Type}

/-! ## Lookups and membership -/

theorem Rising.mem_iff {t : List (Nat × α)} (h : Rising t) {k : Nat} {x : α} : (k, x) ∈ t ↔ tabFind t k = some x :=
  ⟨h.find_of_mem, tabFind_mem⟩

theorem tabFind_none_of_lt {t : List (Nat × α)} {k : Nat} (h : ∀ e ∈ t, k < e.1) : tabFind t k = none := by
  cases hf : tabFind t k with
  | none => rfl
  | some x => exact absurd (h _ (tabFind_mem hf)) (Nat.lt_irrefl k)

theorem tabFind_put (t : List (Nat × α)) (k j : Nat) (x : α) : tabFind (tabPut t k x) j = if j = k then some x else tabFind t j := by
  split
  · next h => rw [h, tabFind_put_self]
  · next h => rw [tabFind_put_ne t x h]

theorem tabFind_del (t : List (Nat × α)) (k j : Nat) : tabFind (tabDel t k) j = if j = k then none else tabFind t j := by
  split
  · next h => rw [h, tabFind_del_self]
  · next h => rw [tabFind_del_ne t h]

/-! ## Sums over a table -/

/-- The sum of a weight over the records of a table. -/
def tabSum (F : α → Nat) (t : List (Nat × α)) : Nat := (t.map fun e => F e.2).sum

/-- The weight of a record that may be absent. -/
def weigh (F : α → Nat) (o : Option α) : Nat := (o.map F).getD 0

@[simp] theorem weigh_none (F : α → Nat) : weigh F none = 0 := rfl
@[simp] theorem weigh_some (F : α → Nat) (x : α) : weigh F (some x) = F x := rfl

@[simp] theorem tabSum_nil (F : α → Nat) : tabSum F [] = 0 := rfl
@[simp] theorem tabSum_cons (F : α → Nat) (e : Nat × α) (t : List (Nat × α)) : tabSum F (e :: t) = F e.2 + tabSum F t := by
  simp [tabSum]

theorem tabSum_put (F : α → Nat) {t : List (Nat × α)} (h : Rising t) (k : Nat) (y : α) :
    tabSum F (tabPut t k y) + weigh F (tabFind t k) = tabSum F t + F y := by
  induction t with
  | nil => simp [tabPut, tabFind]
  | cons e t ih =>
    obtain ⟨j, x⟩ := e
    have hlt := h.head_lt
    rw [tabPut]
    split
    · next hk =>
      have hnone : tabFind ((j, x) :: t) k = none := tabFind_none_of_lt fun e he => by
        obtain rfl | he := List.mem_cons.1 he
        · exact hk
        · exact Nat.lt_trans hk (hlt e he)
      rw [hnone]
      simp only [tabSum_cons, weigh_none]
      omega
    · split
      · next hk =>
        subst hk
        simp only [tabFind, if_true, tabSum_cons, weigh_some]
        omega
      · next hk =>
        have hj : j ≠ k := fun e => hk e.symm
        have := ih h.tail
        simp only [tabFind, if_neg hj, tabSum_cons]
        omega

theorem tabSum_del (F : α → Nat) {t : List (Nat × α)} (h : Rising t) (k : Nat) :
    tabSum F (tabDel t k) + weigh F (tabFind t k) = tabSum F t := by
  induction t with
  | nil => simp [tabDel, tabFind]
  | cons e t ih =>
    obtain ⟨j, x⟩ := e
    have := ih h.tail
    by_cases hj : j = k
    · subst hj
      have hnone : tabFind t j = none := tabFind_none_of_lt h.head_lt
      have hdel : tabDel ((j, x) :: t) j = tabDel t j := List.filter_cons_of_neg (by simp)
      rw [hdel]
      rw [hnone] at this
      simp only [tabFind, if_true, tabSum_cons, weigh_some, weigh_none] at this ⊢
      omega
    · have hdel : tabDel ((j, x) :: t) k = (j, x) :: tabDel t k := List.filter_cons_of_pos (by simpa using hj)
      rw [hdel]
      simp only [tabFind, if_neg hj, tabSum_cons]
      omega

theorem countP_eq_tabSum (p : α → Bool) (t : List (Nat × α)) : (t.countP fun e => p e.2) = tabSum (fun x => (p x).toNat) t := by
  induction t with
  | nil => rfl
  | cons e t ih =>
    rw [List.countP_cons, ih, tabSum_cons]
    cases p e.2 <;> simp [Nat.add_comm]

theorem tabSum_congr_map {F : α → Nat} {f : α → α} (h : ∀ x, F (f x) = F x) (t : List (Nat × α)) :
    tabSum F (t.map fun e => (e.1, f e.2)) = tabSum F t := by
  induction t with
  | nil => rfl
  | cons e t ih => rw [List.map_cons, tabSum_cons, tabSum_cons, ih, h]

end

/-! ## The tallies that the links speak of -/

/-- How many bookings, not ENDED, name a source (R35). -/
def State.naming (s : State) (i : SrcId) : Nat := s.bookings.countP fun e => !e.2.state.isEnded && e.2.named.contains i

/-- How many HELD bookings name a start group (R74). -/
def State.heldIn (s : State) (g : Nat) : Nat := s.bookings.countP fun e => e.2.state == .held && e.2.fields.group == g

/-- How many legs hold a pair (R44). -/
def State.pairTally (s : State) (q : Pair) : Nat := tabSum (fun x => x.legs.countP fun l => l.pair == q) s.sources

theorem State.installed_eq (s : State) (p : Port) : s.installed p = tabSum (fun x => x.bandwidth * legsOn p x.legs) s.sources := rfl

theorem pairs_nodup_iff (s : State) : (s.sources.flatMap fun e => e.2.legs.map Leg.pair).Nodup ↔ ∀ q, s.pairTally q ≤ 1 := by
  rw [List.nodup_iff_count_le_one]
  refine forall_congr' fun q => ?_
  have hcount : (s.sources.flatMap fun e => e.2.legs.map Leg.pair).count q = s.pairTally q := by
    unfold State.pairTally tabSum
    rw [List.count_flatMap]
    congr 1
    refine List.map_congr_left fun e _ => ?_
    simp only [Function.comp_apply, List.count, List.countP_map]
    rfl
  rw [hcount]

theorem State.pairTally_of_free {s : State} {q : Pair} (h : s.pairHeld q = false) : s.pairTally q = 0 := by
  refine List.sum_eq_zero fun n hn => ?_
  obtain ⟨e, he, rfl⟩ := List.mem_map.1 hn
  refine List.countP_eq_zero.2 fun l hl hq => ?_
  have hheld : s.pairHeld q = true := List.any_eq_true.2 ⟨e, he, List.any_eq_true.2 ⟨l, hl, hq⟩⟩
  rw [h] at hheld
  exact absurd hheld (by simp)

end Sys2Proof.Machine
end

