-- ==== Sys2Proof/Proofs/References.lean ====
section
/-! What gaining, losing and moving references do to each source, and to sums over the leg lists (R34 to R36). -/

namespace Sys2Proof.Machine

/-! ## Reading the tables -/

section
variable {s : State}

theorem State.setSource_source (x : Source) (j : SrcId) : (s.setSource x).source j = if j = x.id then some x else s.source j := by
  split
  · next h => rw [h, State.setSource_source_self]
  · next h => rw [State.setSource_source_ne s x h]

theorem State.delSource_source (i j : SrcId) : (s.delSource i).source j = if j = i then none else s.source j := by
  split
  · next h => rw [h, State.delSource_source_self]
  · next h => rw [State.delSource_source_ne s h]

theorem State.freeSlot_booking (k j : Nat) : (s.freeSlot k).booking j = if j = k then none else s.booking j := tabFind_del ..

theorem TablesInForm.mem_bookings (h : TablesInForm s) {e : Nat × Booking} : e ∈ s.bookings ↔ s.booking e.1 = some e.2 :=
  h.bookings.mem_iff (k := e.1) (x := e.2)

theorem TablesInForm.mem_sources (h : TablesInForm s) {e : Nat × Source} :
    e ∈ s.sources ↔ e.1 = srcKey e.2.id ∧ s.source e.2.id = some e.2 := by
  constructor
  · intro he
    have hk := h.keys e he
    have hfind := h.sources.find_of_mem (k := e.1) (x := e.2) he
    rw [hk] at hfind
    exact ⟨hk, hfind⟩
  · rintro ⟨hk, hs⟩
    have := tabFind_mem hs
    rwa [← hk] at this

theorem State.mem_of_source {i : SrcId} {x : Source} (hx : s.source i = some x) :
    (srcKey i, x) ∈ s.sources := tabFind_mem hx

end

/-! ## One reference -/

/-- A source after the loss of a reference: gone with the last one (R35, R36). -/
def Source.lost (x : Source) : Option Source := if x.refs ≤ 1 then none else some { x with refs := x.refs - 1 }

/-- A source after the gain of a reference: created where it was not in the table (R34, R35). -/
def gained (n : Nat) (d : WatchParams) (i : SrcId) : Option Source → Source
  | some x => { x with refs := x.refs + 1 }
  | none => newSource i n d

section
variable {s : State} (h : TablesInForm s)
include h

theorem State.loseRef_source (i j : SrcId) :
    (s.loseRef i).source j = if j = i then (s.source i).bind Source.lost else s.source j := by
  unfold State.loseRef
  cases hx : s.source i with
  | none =>
    dsimp only [Option.bind_none]
    split
    · next e => rw [e, hx]
    · rfl
  | some x =>
    have hid : x.id = i := h.source_id hx
    dsimp only [Option.bind_some, Source.lost]
    split
    · rw [State.delSource_source]
    · rw [State.setSource_source, hid]

theorem State.gainRef_source (n : Nat) (i j : SrcId) :
    (s.gainRef n i).source j = if j = i then some (gained n s.defaults i (s.source i)) else s.source j := by
  unfold State.gainRef
  cases hx : s.source i with
  | none =>
    dsimp only [gained]
    rw [State.setSource_source]
    rfl
  | some x =>
    have hid : x.id = i := h.source_id hx
    dsimp only [gained]
    rw [State.setSource_source, hid]

end

/-! ## Several references -/

theorem TablesInForm.loseRefs {s : State} (h : TablesInForm s) (is : List SrcId) : TablesInForm (is.foldl State.loseRef s) :=
  foldl_keeps TablesInForm _ (fun _ i h => h.loseRef i) is s h

theorem TablesInForm.gainRefs {s : State} (h : TablesInForm s) (n : Nat) (is : List SrcId) :
    TablesInForm (is.foldl (State.gainRef · n ·) s) :=
  foldl_keeps TablesInForm _ (fun _ i h => h.gainRef n i) is s h

theorem TablesInForm.moveRefs {s : State} (h : TablesInForm s) (n : Nat) (before after : List SrcId) :
    TablesInForm (s.moveRefs n before after) := (h.gainRefs n _).loseRefs _

theorem State.loseRefs_source {s : State} (h : TablesInForm s) {is : List SrcId} (hn : is.Nodup) (j : SrcId) :
    (is.foldl State.loseRef s).source j = if j ∈ is then (s.source j).bind Source.lost else s.source j := by
  induction is generalizing s with
  | nil => simp
  | cons i is ih =>
    obtain ⟨hi, hn⟩ := List.nodup_cons.1 hn
    rw [List.foldl_cons, ih (h.loseRef i) hn, State.loseRef_source h]
    by_cases hj : j = i
    · subst hj
      simp [hi]
    · simp [hj]

theorem State.gainRefs_source {s : State} (h : TablesInForm s) (n : Nat) {is : List SrcId} (hn : is.Nodup) (j : SrcId) :
    (is.foldl (State.gainRef · n ·) s).source j = if j ∈ is then some (gained n s.defaults j (s.source j)) else s.source j := by
  induction is generalizing s with
  | nil => simp
  | cons i is ih =>
    obtain ⟨hi, hn⟩ := List.nodup_cons.1 hn
    rw [List.foldl_cons, ih (h.gainRef n i) hn, State.gainRef_source h, State.gainRef_defaults]
    by_cases hj : j = i
    · subst hj
      simp [hi]
    · simp [hj]

theorem State.moveRefs_source {s : State} (h : TablesInForm s) (n : Nat) {before after : List SrcId} (hb : before.Nodup)
    (ha : after.Nodup) (j : SrcId) :
    (s.moveRefs n before after).source j =
      if j ∈ after then (if j ∈ before then s.source j else some (gained n s.defaults j (s.source j)))
      else if j ∈ before then (s.source j).bind Source.lost else s.source j := by
  unfold State.moveRefs
  rw [State.loseRefs_source (h.gainRefs n _) (hb.filter _), State.gainRefs_source h n (ha.filter _)]
  by_cases h1 : j ∈ before <;> by_cases h2 : j ∈ after <;> simp [h1, h2]

/-! ## Weights of leg lists -/

/-- A weight of sources that looks at their legs alone, and is 0 where there is none. -/
structure LegWeight (F : Source → Nat) : Prop where
  refs : ∀ x n, F { x with refs := n } = F x
  fresh : ∀ i n d, F (newSource i n d) = 0

theorem legWeight_pair (q : Pair) : LegWeight fun x => x.legs.countP fun l => l.pair == q := ⟨fun _ _ => rfl, fun _ _ _ => rfl⟩

theorem legWeight_port (p : Port) : LegWeight fun x => x.bandwidth * legsOn p x.legs := ⟨fun _ _ => rfl, fun _ _ _ => rfl⟩

namespace LegWeight

variable {F : Source → Nat} (hF : LegWeight F) {s : State} (h : TablesInForm s)
include hF h

theorem loseRef (i : SrcId) : tabSum F (s.loseRef i).sources ≤ tabSum F s.sources := by
  unfold State.loseRef
  cases hx : s.source i with
  | none => exact Nat.le_refl _
  | some x =>
    dsimp only
    split
    · have := tabSum_del F h.sources (srcKey i)
      simp only [State.delSource]
      omega
    · have hput := tabSum_put F h.sources (srcKey x.id) { x with refs := x.refs - 1 }
      have hfind : tabFind s.sources (srcKey x.id) = some x := by rw [h.source_id hx]; exact hx
      have hrefs := hF.refs x (x.refs - 1)
      rw [hfind, weigh_some] at hput
      simp only [State.setSource]
      omega

theorem gainRef (n : Nat) (i : SrcId) : tabSum F (s.gainRef n i).sources = tabSum F s.sources := by
  unfold State.gainRef
  cases hx : s.source i with
  | none =>
    have hput := tabSum_put F h.sources (srcKey i) (newSource i n s.defaults)
    rw [show tabFind s.sources (srcKey i) = none from hx, weigh_none, hF.fresh] at hput
    exact hput
  | some x =>
    have hput := tabSum_put F h.sources (srcKey x.id) { x with refs := x.refs + 1 }
    have hfind : tabFind s.sources (srcKey x.id) = some x := by rw [h.source_id hx]; exact hx
    have hrefs := hF.refs x (x.refs + 1)
    rw [hfind, weigh_some] at hput
    simp only [State.setSource]
    omega

theorem moveRefs (n : Nat) (before after : List SrcId) : tabSum F (s.moveRefs n before after).sources ≤ tabSum F s.sources := by
  have hgain : TablesInForm ((after.filter fun i => !before.contains i).foldl (State.gainRef · n ·) s)
      ∧ tabSum F ((after.filter fun i => !before.contains i).foldl (State.gainRef · n ·) s).sources ≤ tabSum F s.sources :=
    foldl_keeps (fun u => TablesInForm u ∧ tabSum F u.sources ≤ tabSum F s.sources) _
      (fun u i hu => ⟨hu.1.gainRef n i, (hF.gainRef hu.1 n i).trans_le hu.2⟩) _ s ⟨h, Nat.le_refl _⟩
  exact (foldl_keeps (fun u => TablesInForm u ∧ tabSum F u.sources ≤ tabSum F s.sources) _
    (fun u i hu => ⟨hu.1.loseRef i, (hF.loseRef hu.1 i).trans hu.2⟩) _ _ hgain).2

end LegWeight

/-! ## The sources a booking names -/

theorem once_nodup {α : Type} [DecidableEq α] (xs : List α) : (once xs).Nodup := by
  refine foldl_keeps List.Nodup _ (fun acc x h => ?_) xs [] List.nodup_nil
  split
  · exact h
  · next hx => exact List.nodup_append.2 ⟨h, List.nodup_singleton x, fun a ha b hb => by
      obtain rfl := List.mem_singleton.1 hb
      exact fun e => hx (e ▸ ha)⟩

theorem mem_once {α : Type} [DecidableEq α] {xs : List α} {x : α} : x ∈ once xs ↔ x ∈ xs := by
  have key (xs acc : List α) : x ∈ xs.foldl (fun acc x => if x ∈ acc then acc else acc ++ [x]) acc ↔ x ∈ acc ∨ x ∈ xs := by
    induction xs generalizing acc with
    | nil => simp
    | cons y ys ih =>
      rw [List.foldl_cons, ih]
      split
      · next hy =>
        rw [List.mem_cons]
        constructor
        · rintro (h | h)
          · exact .inl h
          · exact .inr (.inr h)
        · rintro (h | rfl | h)
          · exact .inl h
          · exact .inl hy
          · exact .inr h
      · simp [or_assoc]
  simpa [once] using key xs []

/-- The sources that a slot's booking counts for: none while it is FREE or ENDED (R35). -/
def namesOf : Option Booking → List SrcId
  | some b => if b.state.isEnded then [] else b.named
  | none => []

theorem namesOf_nodup (o : Option Booking) : (namesOf o).Nodup := by
  unfold namesOf
  split
  · split
    · exact List.nodup_nil
    · exact once_nodup _
  · exact List.nodup_nil

theorem namesOf_active {b : Booking} (h : b.state.isEnded = false) : namesOf (some b) = b.named := by simp [namesOf, h]

theorem namesOf_ended {b : Booking} (h : b.state.isEnded = true) : namesOf (some b) = [] := by simp [namesOf, h]

theorem mem_named {b : Booking} {i : SrcId} : i ∈ b.named ↔ i ∈ b.fields.named ∨ ∃ m, b.pending = some m ∧ i ∈ m.named := by
  unfold Booking.named
  rw [mem_once, List.mem_append]
  cases b.pending <;> simp

theorem selected_mem_named (b : Booking) : b.selected ∈ b.named := by
  refine mem_named.2 (.inl ?_)
  unfold Booking.selected Fields.named
  cases b.position with
  | onMain => exact List.mem_cons_self ..
  | onSpare => cases b.fields.spare <;> simp

theorem State.naming_eq (s : State) (i : SrcId) : s.naming i = tabSum (fun b => (decide (i ∈ namesOf (some b))).toNat) s.bookings := by
  refine (countP_eq_tabSum (fun b : Booking => !b.state.isEnded && b.named.contains i) s.bookings).trans ?_
  refine congrArg (tabSum · s.bookings) (funext fun b => congrArg Bool.toNat ?_)
  cases hb : b.state.isEnded <;> simp [namesOf, hb]

end Sys2Proof.Machine
end

