-- ==== Sys2Proof/Proofs/SourceTables.lean ====
section
/-! Every step keeps the two tables canonical and every source in its ranges (R33, R37, R44, R52, R99, R100, R105, R106). -/

namespace Sys2Proof.Machine

/-- The tables are canonical and the sources in their ranges. -/
structure TablesSound (s : State) : Prop where
  tables : TablesInForm s
  sources : SourcesInForm s

theorem newSource_form (i : SrcId) (n : Nat) {d : WatchParams} (hd : d.ok) : SourceForm (newSource i n d) where
  tokens := Nat.zero_le _
  legs := Nat.zero_le _
  params := hd
  silentRun := Nat.zero_le _
  goodRun := Nat.zero_le _
  position := Nat.zero_le _
  errored := Nat.le_refl _
  lastErrored _ h := nomatch h

namespace TablesSound

variable {s t : State}

theorem of_same (h : TablesSound s) (hb : t.bookings = s.bookings) (hs : t.sources = s.sources) (hd : t.defaults = s.defaults) :
    TablesSound t :=
  ⟨h.tables.of_tables hb hs, by rw [hd]; exact h.sources.defaults, by rw [hs]; exact h.sources.sources⟩

theorem source (h : TablesSound s) {i : SrcId} {x : Source} (hx : s.source i = some x) : SourceForm x :=
  h.sources.sources _ (tabFind_mem hx)

theorem setSource (h : TablesSound s) {y : Source} (hy : SourceForm y) : TablesSound (s.setSource y) :=
  ⟨h.tables.setSource y, h.sources.defaults, fun e he => by
    obtain rfl | he := mem_tabPut he
    · exact hy
    · exact h.sources.sources e he⟩

theorem rebook (h : TablesSound s) {bs : List (Nat × Booking)} (hr : Rising bs) : TablesSound { s with bookings := bs } :=
  ⟨⟨hr, h.tables.sources, h.tables.keys⟩, h.sources.defaults, h.sources.sources⟩

end TablesSound

theorem quiet_tablesSound : Quiet TablesSound where
  ports _ _ _ h := h.of_same rfl rfl rfl
  mgmt _ _ _ h := h.of_same rfl rfl rfl
  freeRead _ _ h := h.of_same rfl rfl rfl
  ticks _ _ _ h := h.of_same rfl rfl rfl
  source _ _ _ _ hx hy h := h.setSource (hy.form (h.source hx))
  sources s f hf h := by
    refine ⟨⟨h.tables.bookings, h.tables.sources.map f, fun e he => ?_⟩, h.sources.defaults, fun e he => ?_⟩ <;>
      obtain ⟨d, hd, rfl⟩ := List.mem_map.1 he
    · exact (h.tables.keys d hd).trans (congrArg srcKey (hf d.2).id.symm)
    · exact (hf d.2).form (h.sources.sources d hd)

theorem timeClosed_tablesSound : TimeClosed TablesSound where
  time _ _ _ h := h.of_same rfl rfl rfl
  hand _ t h := quiet_tablesSound.handTick t h
  notice _ c h := quiet_tablesSound.raise c h

theorem bookingClosed_tablesSound : BookingClosed TablesSound where
  source _ _ _ _ hx hy h := h.setSource (hy (h.source hx))
  move s _ _ x y x' y' hx hy hx' hy' h := (h.setSource (hx' (h.source hx))).setSource (hy' (h.source hy))
  create _ i n _ h := h.setSource (newSource_form i n h.sources.defaults)
  drop _ i h := ⟨h.tables.delSource i, h.sources.defaults, fun e he => h.sources.sources e (List.mem_filter.1 he).1⟩
  booking _ k b h := h.rebook (h.tables.bookings.put k b)
  free _ k h := h.rebook (h.tables.bookings.del k)
  group _ _ _ h := h.of_same (by simp) (by simp) (by simp)
  notice _ c h := quiet_tablesSound.raise c h
  bill _ _ _ _ h := h.of_same rfl rfl rfl

namespace TablesSound

variable {s t : State}

theorem setEngine (h : TablesSound s) (e : Engine) : TablesSound (s.setEngine e) := h.of_same rfl rfl rfl

theorem clearTraffic (h : TablesSound s) : TablesSound s.clearTraffic := by
  have h2 := bookingClosed_tablesSound.freeEarlySlots (s.bookings.map Prod.fst)
    (bookingClosed_tablesSound.abortSlots (s.bookings.map Prod.fst) h)
  have h3 : TablesSound { (s.bookings.map Prod.fst).foldl freeEarly ((s.bookings.map Prod.fst).foldl abortSlot s) with
      groups := Vector.replicate 32 ⟨.opened, 0⟩, sources := [] } :=
    ⟨⟨h2.tables.bookings, List.Pairwise.nil, nofun⟩, h2.sources.defaults, nofun⟩
  exact foldl_keeps TablesSound _ (fun _ p => quiet_tablesSound.drainIfEmpty p) _ _
    (quiet_tablesSound.ports _ _ (fun p => by simpa [State.port] using ⟨rfl, id, fun _ => Nat.zero_le _⟩) h3)

theorem releaseOldest (h : TablesSound s) (seq : Word) : TablesSound (s.releaseOldest seq).state := by
  have h1 : TablesSound { s with bills.records := s.bills.records.tail } := h.of_same rfl rfl rfl
  unfold State.releaseOldest
  dsimp only
  split
  · exact (h1.rebook (h1.tables.bookings.del _)).of_same (State.writeBill_bookings ..) (State.writeBill_sources ..)
      (State.writeBill_defaults ..)
  · exact h1

theorem orderWork (h : TablesSound s) (hw : OrderWork s t) : TablesSound t := by
  have hq := quiet_tablesSound
  have ht := timeClosed_tablesSound
  have hb := bookingClosed_tablesSound
  cases hw with
  | clearTraffic _ => exact h.clearTraffic
  | enablePort p => exact hq.enablePort p h
  | disablePort p => exact hq.disablePort p h
  | timeSource sel => exact ht.selectSource sel h
  | timeSet t _ => exact ht.setTime t h
  | defaults w hw => exact ⟨h.tables.of_tables rfl rfl, hw, h.sources.sources⟩
  | watch i x w hx hw => exact hq.source s i x _ hx (touched_params x hw) h
  | cancelEarly ref k b _ _ => exact hb.cancelEarly k b h
  | cancelLate ref k b _ _ _ => exact hb.cancelLate k b h
  | endPending ref k b _ _ => exact hb.booking _ _ _ h
  | select ref k b r _ _ => exact hb.booking _ _ _ h
  | group g x st _ _ => exact hb.group _ _ _ h
  | release seq _ => exact h.releaseOldest seq
  | nothing | mode | restart | threshold | routes | capacity | timePolicy | tariffs => exact h.of_same rfl rfl rfl

theorem event (h : TablesSound s) (he : Event s t) : TablesSound t := by
  have hq := quiet_tablesSound
  have ht := timeClosed_tablesSound
  have hb := bookingClosed_tablesSound
  cases he with
  | nothing => exact h
  | lossOfLight p _ => exact hq.loseLine _ _ _ h
  | restore p _ => exact hq.restoreLine p h
  | lossOfDelineation p _ n =>
    exact hq.loseLine _ _ _ (hq.setPort (r := { s.port p with headerErrors := n }) ⟨rfl, id, id⟩ h)
  | cell p bytes _ => exact hq.takeCell p bytes (fun _ v => ht.timeCell p v) h
  | send p => exact hq.lineSend p h
  | drained p => exact hq.drainIfEmpty p h
  | answer p => exact hq.appendWaiting p h
  | notice => exact hq.deliverNotice h
  | localTick a _ => exact ht.localTick a h
  | deadline a _ _ => exact ht.missDeadline a h
  | refill t rest _ => exact hq.sources _ _ touched_refill (hq.ticks s rest s.bookingTicks h)
  | sourceTick i want => exact hq.sourceTickIf i want h
  | bookingTick t rest _ => exact hb.wholeTick t (hq.ticks s s.refillTicks rest h)
  | order o rest v r d ho _ hw => exact hq.finish o r d ((hq.taken ho h).orderWork hw)
  | bookStarts o rest f ho _ _ => exact (hq.taken ho h).setEngine _
  | modifyStarts o rest nt ref c k b m ho _ _ _ => exact (hq.taken ho h).setEngine _
  | modifyTaken o rest nt ref c k b m r d ho _ _ _ => exact hq.finish o r d (hb.acceptModify k b m (hq.taken ho h))
  | jobRefused j r d _ => exact hq.finish _ r d h
  | bookAccepted j ref f r d _ _ => exact hq.finish _ r d (hb.acceptBook ref f h)
  | modifyAccepted j k c m built b r d _ _ _ _ => exact hq.finish _ r d (hb.acceptModify k b m h)
  | modifyRebuilt j nt ref c k b m r d _ _ => exact hq.finish _ r d (hb.acceptModify k b m h)
  | reads j e _ _ _ => exact h.setEngine _
  | restartActs => exact hq.actRestart h
  | lightReturns | clock => exact h.of_same rfl rfl rfl

theorem step (hs : TablesSound s) (h : step s = .next t) : TablesSound t := by
  refine step_keeps (P := TablesSound) (fun s q h => h.of_same rfl rfl rfl) ?_ ?_ (fun s t _ hs he => hs.event he) hs h
  · rintro s t hs ⟨⟩
    exact hs.of_same rfl rfl rfl
  · rintro straps light s t - ⟨⟩
    exact of_same ⟨tablesInForm_hardReset straps light, sourcesInForm_hardReset straps light⟩ rfl rfl rfl

end TablesSound

end Sys2Proof.Machine
end

