-- ==== Sys2Proof/Proofs/Links.lean ====
section
/-! What binds the tables together, read slot by slot and source by source, and when it stands after the leg lists, the groups or the
engine have changed (R33, R35, R37, R44, R52, R74). -/

namespace Sys2Proof.Machine

/-! ## The order whose computation runs -/

/-- The sources that the order of a computation names (R35, R59). -/
def Job.wants (j : Job) : List SrcId :=
  match j.kind with
  | .book _ f => f.named
  | .modify _ _ m _ => m.named

/-- The bandwidth that the order of a computation asks of each (R37, R59). -/
def Job.rate (j : Job) : Nat :=
  match j.kind with
  | .book _ f => f.bandwidth
  | .modify _ _ _ built => built.fields.bandwidth

theorem FieldsForm.named_nodup {f : Fields} (h : FieldsForm f) : f.named.Nodup := by
  unfold Fields.named
  have := h.spare
  cases hs : f.spare with
  | none => simp
  | some i =>
    rw [hs] at this
    simpa [eq_comm] using this

theorem ModForm.named_nodup {b : Booking} {m : Mod} (h : ModForm b m) : m.named.Nodup := by
  have hne := h.fields.spare
  unfold Mod.named
  cases hm : m.main with
  | none =>
    rcases hs : m.spare with _ | _ | i <;> simp
  | some i =>
    rcases hs : m.spare with _ | _ | j
    · simp
    · simp
    · simpa [Mod.apply, hm, hs, eq_comm] using hne

section
variable {j : Job}

theorem Job.wants_book {ref : Word} {f : Fields} (h : j.kind = .book ref f) : j.wants = f.named := by
  obtain ⟨o, nt, kind, n, read⟩ := j
  cases h
  exact rfl

theorem Job.rate_book {ref : Word} {f : Fields} (h : j.kind = .book ref f) : j.rate = f.bandwidth := by
  obtain ⟨o, nt, kind, n, read⟩ := j
  cases h
  exact rfl

theorem Job.wants_modify {k : Nat} {c : Change} {m : Mod} {built : Booking} (h : j.kind = .modify k c m built) : j.wants = m.named := by
  obtain ⟨o, nt, kind, n, read⟩ := j
  cases h
  exact rfl

theorem Job.rate_modify {k : Nat} {c : Change} {m : Mod} {built : Booking} (h : j.kind = .modify k c m built) :
    j.rate = built.fields.bandwidth := by
  obtain ⟨o, nt, kind, n, read⟩ := j
  cases h
  exact rfl

theorem JobForm.wants_nodup {s : State} (h : JobForm s j) : j.wants.Nodup := by
  have hform := h.2
  cases hk : j.kind with
  | book ref f =>
    rw [hk] at hform
    rw [Job.wants_book hk]
    exact hform.1.named_nodup
  | modify k c m built =>
    rw [hk] at hform
    rw [Job.wants_modify hk]
    exact hform.2.named_nodup

end

/-! ## The links, by lookup -/

/-- How a slot's booking weighs in the count of HELD bookings of a group (R74). -/
def heldWeight (g : Nat) (o : Option Booking) : Nat := weigh (fun b => (b.state == .held && b.fields.group == g).toNat) o

/-- What binds bookings, sources, legs and groups together, by slot and source (R35, R44, R52, R74). -/
structure Linked (s : State) : Prop where
  tables : TablesInForm s
  refs : ∀ i, weigh Source.refs (s.source i) = s.naming i
  counted : ∀ i x, s.source i = some x → 1 ≤ x.refs
  owners : ∀ i x l, s.source i = some x → l ∈ x.legs → ∃ b, s.booking l.owner = some b ∧ b.state.isLive = true ∧ b.selected = i
  pairs : ∀ q, s.pairTally q ≤ 1
  unique : ∀ j k b c, s.booking j = some b → s.booking k = some c → b.ref = c.ref → j = k
  held : ∀ g x, s.groupOf g = some x → x.held = s.heldIn g ∧ (x.state = .opened → x.held = 0)
  heldGroup : ∀ k b, s.booking k = some b → b.state = .held → (s.groupOf b.fields.group).isSome
  records : ∀ k b, s.booking k = some b → RecordForm b
  job : ∀ j, s.mgmt.engine = .working j → JobForm s j

theorem State.naming_pos {s : State} {k : Nat} {b : Booking} {i : SrcId} (hb : s.booking k = some b)
    (hi : i ∈ namesOf (some b)) : 1 ≤ s.naming i := by
  refine List.countP_pos_iff.2 ⟨(k, b), tabFind_mem hb, ?_⟩
  cases he : b.state.isEnded
  · simpa [namesOf, he] using hi
  · simp [namesOf, he] at hi

theorem Linked.source_of_named {s : State} (h : Linked s) {k : Nat} {b : Booking} {i : SrcId} (hb : s.booking k = some b)
    (hi : i ∈ namesOf (some b)) : ∃ x, s.source i = some x := by
  have hpos := State.naming_pos hb hi
  rw [← h.refs i] at hpos
  cases hx : s.source i with
  | none => rw [hx] at hpos; exact absurd hpos (by simp)
  | some x => exact ⟨x, rfl⟩

theorem linked_iff {s : State} : Linked s ↔ TablesInForm s ∧ LinksInForm s := by
  constructor
  · intro h
    refine ⟨h.tables, ?_, ?_, ?_, (pairs_nodup_iff s).2 h.pairs, ?_, h.held, ?_, ?_, h.job⟩
    · intro i x hx
      have := h.refs i
      rw [hx] at this
      exact ⟨h.counted i x hx, this⟩
    · intro e he hended i hi
      obtain ⟨x, hx⟩ := h.source_of_named (h.tables.mem_bookings.1 he) (by simpa [namesOf, hended] using hi)
      simp [hx]
    · intro e he l hl
      exact h.owners e.2.id e.2 l (h.tables.mem_sources.1 he).2 hl
    · rw [List.nodup_iff_pairwise_ne]
      refine List.pairwise_map.2 (List.Pairwise.imp_of_mem ?_ (List.pairwise_map.1 h.tables.bookings))
      intro e d he hd hlt heq
      exact absurd (h.unique e.1 d.1 e.2 d.2 (h.tables.mem_bookings.1 he) (h.tables.mem_bookings.1 hd) heq) (Nat.ne_of_lt hlt)
    · intro e he
      exact h.heldGroup e.1 e.2 (h.tables.mem_bookings.1 he)
    · intro e he
      exact h.records e.1 e.2 (h.tables.mem_bookings.1 he)
  · rintro ⟨ht, h⟩
    refine ⟨ht, ?_, fun i x hx => (h.refs i x hx).1, ?_, (pairs_nodup_iff s).1 h.pairs, ?_, h.held, ?_, ?_, h.job⟩
    · intro i
      cases hx : s.source i with
      | some x => exact (h.refs i x hx).2
      | none =>
        refine (List.countP_eq_zero.2 fun e he hn => ?_).symm
        simp only [Bool.and_eq_true, Bool.not_eq_true', List.contains_iff_mem] at hn
        have := h.named e he hn.1 i hn.2
        simp [hx] at this
    · intro i x l hx hl
      have hid := ht.source_id hx
      subst hid
      exact h.owners _ (State.mem_of_source hx) l hl
    · intro j k b c hb hc href
      exact congrArg Prod.fst (List.inj_on_of_nodup_map h.unique (tabFind_mem hb) (tabFind_mem hc) href)
    · intro k b hb
      exact h.heldGroup _ (tabFind_mem hb)
    · intro k b hb
      exact h.records _ (tabFind_mem hb)

/-! ## Capacities and places, by lookup -/

/-- The bandwidth of what is installed and asked for, by port and source (R11, R37). -/
structure Rated (s : State) : Prop where
  installed : ∀ p, s.installed p ≤ (s.port p).capacity
  rates : ∀ k b i x, s.booking k = some b → i ∈ namesOf (some b) → s.source i = some x → x.bandwidth = b.fields.bandwidth
  job : ∀ j, s.mgmt.engine = .working j → ∀ i ∈ j.wants, ∀ x, s.source i = some x → x.bandwidth = j.rate

theorem rated_iff {s : State} (ht : TablesInForm s) : Rated s ↔ CapacityForm s := by
  constructor
  · intro h
    refine ⟨h.installed, fun e he hended i hi x hx => ?_, fun j hj => ?_⟩
    · exact h.rates e.1 e.2 i x (ht.mem_bookings.1 he) (by simpa [namesOf, hended] using hi) hx
    · have hjob := h.job j hj
      cases hk : j.kind with
      | book ref f =>
        rw [Job.wants_book hk, Job.rate_book hk] at hjob
        exact hjob
      | modify k c m built =>
        rw [Job.wants_modify hk, Job.rate_modify hk] at hjob
        exact hjob
  · intro h
    refine ⟨h.installed, fun k b i x hb hi hx => ?_, fun j hj => ?_⟩
    · cases hended : b.state.isEnded
      · exact h.rates _ (tabFind_mem hb) hended i (by simpa [namesOf, hended] using hi) x hx
      · simp [namesOf, hended] at hi
    · have hjob := h.job j hj
      cases hk : j.kind with
      | book ref f =>
        rw [hk] at hjob
        rw [Job.wants_book hk, Job.rate_book hk]
        exact hjob
      | modify k c m built =>
        rw [hk] at hjob
        rw [Job.wants_modify hk, Job.rate_modify hk]
        exact hjob

/-- The two tables and the computation within their places (R33, R52, R59). -/
structure Placed (s : State) : Prop where
  slots : ∀ k b, s.booking k = some b → k < 512
  sources : s.sources.length ≤ 512
  slot : ∀ j ref f, s.mgmt.engine = .working j → j.kind = .book ref f → s.bookings.length < 512
  job : ∀ j, s.mgmt.engine = .working j → s.sources.length + j.wants.countP (fun i => (s.source i).isNone) ≤ 512

theorem placed_iff {s : State} (ht : TablesInForm s) : Placed s ↔ BoundsForm s := by
  have hwants : ∀ j : Job, (match j.kind with
      | .book _ f => f.named
      | .modify _ _ m _ => m.named) = j.wants := fun j => rfl
  constructor
  · intro h
    exact ⟨fun e he => h.slots e.1 e.2 (ht.mem_bookings.1 he), h.sources, fun j hj => ⟨fun ref f hk => h.slot j ref f hj hk, h.job j hj⟩⟩
  · intro h
    exact ⟨fun k b hb => h.slots _ (tabFind_mem hb), h.sources, fun j ref f hj hk => (h.job j hj).1 ref f hk, fun j hj => (h.job j hj).2⟩

/-! ## All of them -/

/-- The links stand; the capacities are kept if `C`, the places if `B`, and no modification waits if `N`. -/
structure Sound (C B N : Prop) (s : State) : Prop extends Linked s where
  rated : C → Rated s
  placed : B → Placed s
  settled : N → ∀ k b, s.booking k = some b → b.state.isEnded = false → b.pending = none

/-- What a change of leg list leaves of a source. -/
def Source.core (x : Source) : Nat × Nat := (x.bandwidth, x.refs)

theorem State.booking_congr {s t : State} (h : t.bookings = s.bookings) (k : Nat) : t.booking k = s.booking k :=
  congrArg (tabFind · k) h

theorem State.source_congr {s t : State} (h : t.sources = s.sources) (i : SrcId) : t.source i = s.source i :=
  congrArg (tabFind · (srcKey i)) h

theorem State.groupOf_congr {s t : State} (h : t.groups = s.groups) (g : Nat) : t.groupOf g = s.groupOf g := by
  unfold State.groupOf
  rw [h]

section
variable {C B N : Prop} {s t : State}

/-- The bookings stand and the legs may have changed, and so may have what no link looks at. -/
structure SameBookings (s t : State) : Prop where
  tables : TablesInForm t
  bookings : t.bookings = s.bookings
  groups : t.groups = s.groups
  cores : ∀ i, (t.source i).map Source.core = (s.source i).map Source.core
  size : t.sources.length = s.sources.length
  capacity : ∀ p, (s.port p).capacity ≤ (t.port p).capacity
  engine : ∀ j, t.mgmt.engine = .working j → s.mgmt.engine = .working j

theorem SameBookings.source (h : SameBookings s t) {i : SrcId} {y : Source} (hy : t.source i = some y) :
    ∃ x, s.source i = some x ∧ y.bandwidth = x.bandwidth ∧ y.refs = x.refs := by
  have := h.cores i
  rw [hy] at this
  obtain ⟨x, hx, hc⟩ := Option.map_eq_some_iff.1 this.symm
  exact ⟨x, hx, (congrArg Prod.fst hc).symm, (congrArg Prod.snd hc).symm⟩

theorem SameBookings.isNone (h : SameBookings s t) (i : SrcId) : (t.source i).isNone = (s.source i).isNone := by
  have := congrArg Option.isNone (h.cores i)
  simpa using this

theorem JobForm.of_bookings {j : Job} (h : JobForm s j) (hb : ∀ e ∈ t.bookings, ∃ d ∈ s.bookings, d.2.ref = e.2.ref) : JobForm t j := by
  refine ⟨h.1, ?_⟩
  have hk := h.2
  split at hk
  · exact ⟨hk.1, fun e he => by
      obtain ⟨d, hd, hr⟩ := hb e he
      exact hr ▸ hk.2 d hd⟩
  · exact hk

/-- The links stand while the bookings stand, if the legs keep their owners, no pair is held twice, and no port is overloaded. -/
theorem Sound.sameBookings (h : Sound C B N s) (ht : SameBookings s t)
    (howners : ∀ i y l, t.source i = some y → l ∈ y.legs → ∃ b, s.booking l.owner = some b ∧ b.state.isLive = true ∧ b.selected = i)
    (hpairs : ∀ q, t.pairTally q ≤ 1) (hinstalled : C → ∀ p, t.installed p ≤ (s.port p).capacity) : Sound C B N t := by
  have hbooking := State.booking_congr ht.bookings
  have hgroup := State.groupOf_congr ht.groups
  have hnaming : ∀ i, t.naming i = s.naming i := fun i => by unfold State.naming; rw [ht.bookings]
  have hheld : ∀ g, t.heldIn g = s.heldIn g := fun g => by unfold State.heldIn; rw [ht.bookings]
  refine ⟨⟨ht.tables, ?_, ?_, ?_, hpairs, ?_, ?_, ?_, ?_, ?_⟩, ?_, ?_, ?_⟩
  · intro i
    have hrefs : weigh Source.refs (t.source i) = weigh Source.refs (s.source i) := by
      have := congrArg (fun o => (o.map Prod.snd).getD 0) (ht.cores i)
      simpa [weigh, Option.map_map, Function.comp_def, Source.core] using this
    rw [hrefs, h.refs, hnaming]
  · intro i y hy
    obtain ⟨x, hx, -, hr⟩ := ht.source hy
    exact hr ▸ h.counted i x hx
  · intro i y l hy hl
    rw [hbooking]
    exact howners i y l hy hl
  · intro j k
    rw [hbooking, hbooking]
    exact h.unique j k
  · intro g
    rw [hgroup, hheld]
    exact h.held g
  · intro k b
    rw [hbooking, hgroup]
    exact h.heldGroup k b
  · intro k b
    rw [hbooking]
    exact h.records k b
  · intro j hj
    exact (h.job j (ht.engine j hj)).of_bookings fun e he => ⟨e, ht.bookings ▸ he, rfl⟩
  · intro c
    refine ⟨fun p => (hinstalled c p).trans (ht.capacity p), fun k b i y hb hi hy => ?_, fun j hj i hi y hy => ?_⟩
    · obtain ⟨x, hx, hr, -⟩ := ht.source hy
      exact hr.trans ((h.rated c).rates k b i x (by rw [← hbooking]; exact hb) hi hx)
    · obtain ⟨x, hx, hr, -⟩ := ht.source hy
      exact hr.trans ((h.rated c).job j (ht.engine j hj) i hi x hx)
  · intro c
    have hp := h.placed c
    refine ⟨fun k b hb => hp.slots k b (by rw [← hbooking]; exact hb), ht.size ▸ hp.sources, fun j ref f hj hk => ?_, fun j hj => ?_⟩
    · rw [ht.bookings]
      exact hp.slot j ref f (ht.engine j hj) hk
    · simp only [ht.isNone, ht.size]
      exact hp.job j (ht.engine j hj)
  · intro c k b
    rw [hbooking]
    exact h.settled c k b

/-- What the links look at stands, no capacity falls, and no computation starts. -/
theorem Sound.of_same (h : Sound C B N s) (hb : t.bookings = s.bookings) (hs : t.sources = s.sources) (hg : t.groups = s.groups)
    (hp : ∀ p, (s.port p).capacity ≤ (t.port p).capacity) (he : ∀ j, t.mgmt.engine = .working j → s.mgmt.engine = .working j) :
    Sound C B N t := by
  have hsource := State.source_congr hs
  refine h.sameBookings ⟨h.tables.of_tables hb hs, hb, hg, fun i => by rw [hsource], by rw [hs], hp, he⟩ ?_ ?_ ?_
  · intro i y l
    rw [hsource]
    exact h.owners i y l
  · intro q
    unfold State.pairTally
    rw [hs]
    exact h.pairs q
  · intro c p
    rw [State.installed_eq, hs]
    exact (h.rated c).installed p

theorem Sound.of_same' (h : Sound C B N s) (hb : t.bookings = s.bookings) (hs : t.sources = s.sources) (hg : t.groups = s.groups)
    (hp : t.ports = s.ports) (he : t.mgmt.engine = s.mgmt.engine) : Sound C B N t :=
  h.of_same hb hs hg (fun p => by unfold State.port; rw [hp]) (fun _ hj => he ▸ hj)

/-! ## One source changes -/

theorem tabPut_length {α : Type} {t : List (Nat × α)} {k : Nat} {x : α} (h : Rising t) (hx : tabFind t k = some x) (y : α) :
    (tabPut t k y).length = t.length := by
  have hput := tabSum_put (fun _ => 1) h k y
  rw [hx] at hput
  simpa [tabSum] using hput

/-- A source is written again with its bandwidth and its references as they were. -/
theorem Sound.setSource_same (h : Sound C B N s) {i : SrcId} {x y : Source} (hx : s.source i = some x) (hid : y.id = x.id)
    (hcore : y.core = x.core) : SameBookings s (s.setSource y) := by
  have hi : y.id = i := hid.trans (h.tables.source_id hx)
  refine ⟨h.tables.setSource y, rfl, rfl, fun j => ?_, ?_, fun p => Nat.le_refl _, fun _ hj => hj⟩
  · rw [State.setSource_source, hi]
    split
    · next e => rw [e, hx]; exact congrArg some hcore
    · rfl
  · refine tabPut_length h.tables.sources (x := x) ?_ y
    rw [hi]
    exact hx

theorem tabSum_setSource (h : TablesInForm s) {i : SrcId} {x y : Source} (hx : s.source i = some x) (hid : y.id = x.id) (F : Source → Nat) :
    tabSum F (s.setSource y).sources + F x = tabSum F s.sources + F y := by
  have hput := tabSum_put F h.sources (srcKey y.id) y
  rwa [hid, h.source_id hx, show tabFind s.sources (srcKey i) = some x from hx, weigh_some, ← h.source_id hx, ← hid] at hput

theorem countP_place {ls : List Leg} (p : Pair → Bool) : (ls.countP fun l => p l.pair) = (ls.map Leg.place).countP fun e => p e.1 := by
  rw [List.countP_map]
  rfl

/-- A source's legs stay, or some of them go. -/
theorem Sound.setSource_fewer (h : Sound C B N s) {i : SrcId} {x y : Source} (hx : s.source i = some x) (hid : y.id = x.id)
    (hcore : y.core = x.core) (hlegs : (y.legs.map Leg.place).Sublist (x.legs.map Leg.place)) : Sound C B N (s.setSource y) := by
  have hi : y.id = i := hid.trans (h.tables.source_id hx)
  have hcount : ∀ p : Pair → Bool, (y.legs.countP fun l => p l.pair) ≤ x.legs.countP fun l => p l.pair := fun p => by
    rw [countP_place, countP_place]
    exact hlegs.countP_le
  refine h.sameBookings (h.setSource_same hx hid hcore) (fun j z l hz hl => ?_) (fun q => ?_) (fun c p => ?_)
  · rw [State.setSource_source, hi] at hz
    split at hz
    · next e =>
      cases hz
      obtain ⟨l', hl', hplace⟩ := List.mem_map.1 (hlegs.subset (List.mem_map_of_mem hl))
      have howner : l'.owner = l.owner := congrArg Prod.snd hplace
      rw [e, ← howner]
      exact h.owners i x l' hx hl'
    · exact h.owners j z l hz hl
  · have hsum := tabSum_setSource h.tables hx hid fun x => x.legs.countP fun l => l.pair == q
    have hle := hcount (· == q)
    have := h.pairs q
    unfold State.pairTally at this ⊢
    omega
  · have hsum := tabSum_setSource h.tables hx hid fun x => x.bandwidth * legsOn p x.legs
    have hle : y.bandwidth * legsOn p y.legs ≤ x.bandwidth * legsOn p x.legs := by
      rw [show y.bandwidth = x.bandwidth from congrArg Prod.fst hcore]
      exact Nat.mul_le_mul_left _ (hcount fun r => r.port == p)
    have := (h.rated c).installed p
    rw [State.installed_eq] at this ⊢
    omega

/-- Legs of a live booking are appended to the list of its selected source, where no pair of them is held and the ports have room. -/
theorem Sound.setSource_append (h : Sound C B N s) {i : SrcId} {x : Source} (hx : s.source i = some x) {k : Nat} {b : Booking}
    (hb : s.booking k = some b) (hlive : b.state.isLive = true) (hsel : b.selected = i) {ls : List Leg} (hls : ∀ l ∈ ls, l.owner = k)
    (hpairs : ∀ q, s.pairTally q + (ls.countP fun l => l.pair == q) ≤ 1)
    (hroom : C → ∀ p, s.installed p + x.bandwidth * legsOn p ls ≤ (s.port p).capacity) :
    Sound C B N (s.setSource { x with legs := x.legs ++ ls }) := by
  have hi : x.id = i := h.tables.source_id hx
  refine h.sameBookings (h.setSource_same hx rfl rfl) (fun j z l hz hl => ?_) (fun q => ?_) (fun c p => ?_)
  · rw [State.setSource_source] at hz
    split at hz
    · next e =>
      cases hz
      have e : j = i := e.trans hi
      obtain hl | hl := List.mem_append.1 hl
      · exact e ▸ h.owners i x l hx hl
      · rw [hls l hl]
        exact ⟨b, hb, hlive, e ▸ hsel⟩
    · exact h.owners j z l hz hl
  · have hsum := tabSum_setSource (y := { x with legs := x.legs ++ ls }) h.tables hx rfl fun x => x.legs.countP fun l => l.pair == q
    have := hpairs q
    simp only [List.countP_append] at hsum
    unfold State.pairTally at this ⊢
    omega
  · have hsum := tabSum_setSource (y := { x with legs := x.legs ++ ls }) h.tables hx rfl fun x => x.bandwidth * legsOn p x.legs
    have := hroom c p
    simp only [legsOn, List.countP_append, Nat.mul_add] at hsum this
    rw [State.installed_eq] at this ⊢
    simp only [legsOn] at this ⊢
    omega

/-- Every source changes in what no link looks at. -/
theorem Sound.mapSources (h : Sound C B N s) {f : Source → Source} (hf : ∀ x, Touched x (f x)) :
    Sound C B N { s with sources := s.sources.map fun e => (e.1, f e.2) } := by
  have hsource : ∀ i, State.source { s with sources := s.sources.map fun e => (e.1, f e.2) } i = (s.source i).map f :=
    fun i => tabFind_map f s.sources (srcKey i)
  have hcount : ∀ (p : Pair → Bool) x, ((f x).legs.countP fun l => p l.pair) = x.legs.countP fun l => p l.pair := fun p x => by
    rw [countP_place, countP_place, (hf x).legs]
  refine h.sameBookings ⟨⟨h.tables.bookings, h.tables.sources.map f, fun e he => ?_⟩, rfl, rfl, fun i => ?_, List.length_map _,
    fun p => Nat.le_refl _, fun _ hj => hj⟩ (fun i y l hy hl => ?_) (fun q => ?_) (fun c p => ?_)
  · obtain ⟨d, hd, rfl⟩ := List.mem_map.1 he
    exact (h.tables.keys d hd).trans (congrArg srcKey (hf d.2).id.symm)
  · rw [hsource, Option.map_map]
    refine congrArg (fun g => (s.source i).map g) (funext fun x => ?_)
    exact Prod.ext (hf x).bandwidth (hf x).refs
  · rw [hsource] at hy
    obtain ⟨x, hx, rfl⟩ := Option.map_eq_some_iff.1 hy
    obtain ⟨l', hl', hplace⟩ := List.mem_map.1 ((hf x).legs ▸ List.mem_map_of_mem hl : l.place ∈ x.legs.map Leg.place)
    have howner : l'.owner = l.owner := congrArg Prod.snd hplace
    rw [← howner]
    exact h.owners i x l' hx hl'
  · refine (tabSum_congr_map (f := f) (F := fun x => x.legs.countP fun l => l.pair == q) (hcount (· == q)) s.sources).trans_le (h.pairs q)
  · refine (tabSum_congr_map (f := f) (F := fun x => x.bandwidth * legsOn p x.legs) (fun x => ?_) s.sources).trans_le
      ((h.rated c).installed p)
    rw [(hf x).bandwidth]
    exact congrArg _ (hcount (fun r => r.port == p) x)

/-! ## A computation starts or reads on; a group changes -/

/-- A computation starts, or reads on, with what it needs of the tables (R59, R64). -/
theorem Sound.setWorking (h : Sound C B N s) {j : Job} (hj : JobForm s j)
    (hrate : C → ∀ i ∈ j.wants, ∀ x, s.source i = some x → x.bandwidth = j.rate)
    (hroom : B → (∀ ref f, j.kind = .book ref f → s.bookings.length < 512)
      ∧ s.sources.length + j.wants.countP (fun i => (s.source i).isNone) ≤ 512) :
    Sound C B N (s.setEngine (.working j)) := by
  have hone : ∀ j', (s.setEngine (.working j)).mgmt.engine = .working j' → j' = j := fun j' e => by
    injection e with e
    exact e.symm
  refine ⟨⟨h.tables.of_tables rfl rfl, h.refs, h.counted, h.owners, h.pairs, h.unique, h.held, h.heldGroup, h.records, ?_⟩, ?_, ?_,
    h.settled⟩
  · intro j' e
    obtain rfl := hone j' e
    exact hj
  · intro c
    refine ⟨(h.rated c).installed, (h.rated c).rates, fun j' e => ?_⟩
    obtain rfl := hone j' e
    exact hrate c
  · intro c
    refine ⟨(h.placed c).slots, (h.placed c).sources, fun j' ref f e => ?_, fun j' e => ?_⟩
    · obtain rfl := hone j' e
      exact (hroom c).1 ref f
    · obtain rfl := hone j' e
      exact (hroom c).2

theorem State.setGroup_groupOf (s : State) (g g' : Nat) (y : Group) :
    (s.setGroup g y).groupOf g' = if g' = g then (s.groupOf g).map fun _ => y else s.groupOf g' := by
  unfold State.setGroup State.groupOf groupPlace
  by_cases hg : g = 0
  · subst hg
    by_cases hg' : g' = 0 <;> simp [hg']
  · simp only [hg, if_false]
    by_cases hg' : g' = 0
    · subst hg'
      simp [Ne.symm hg]
    · simp only [hg', if_false]
      rw [Vector.getElem?_setIfInBounds]
      by_cases he : g' = g
      · subst he
        simp only [if_true]
        by_cases hin : g' - 1 < 32
        · simp [hin]
        · simp [hin]
      · have hne : g - 1 ≠ g' - 1 := by omega
        simp [he, hne]

theorem State.setGroup_groupOf_self {s : State} {g : Nat} {x : Group} (hx : s.groupOf g = some x) (y : Group) (g' : Nat) :
    (s.setGroup g y).groupOf g' = if g' = g then some y else s.groupOf g' := by
  rw [State.setGroup_groupOf, hx]
  rfl

/-- The groups change, their counts as they were. -/
theorem Sound.groups (h : Sound C B N s) {v : Vector Group 32}
    (hheld : ∀ g y, State.groupOf { s with groups := v } g = some y →
      ∃ x, s.groupOf g = some x ∧ y.held = x.held ∧ (y.state = .opened → y.held = 0))
    (hsome : ∀ g, (s.groupOf g).isSome → (State.groupOf { s with groups := v } g).isSome) :
    Sound C B N { s with groups := v } where
  tables := h.tables.of_tables rfl rfl
  refs := h.refs
  counted := h.counted
  owners := h.owners
  pairs := h.pairs
  unique := h.unique
  held g y hy := by
    obtain ⟨x, hx, hn, ho⟩ := hheld g y hy
    exact ⟨hn.trans (h.held g x hx).1, ho⟩
  heldGroup k b hb hs := hsome _ (h.heldGroup k b hb hs)
  records := h.records
  job := h.job
  rated c := ⟨(h.rated c).installed, (h.rated c).rates, (h.rated c).job⟩
  placed c := ⟨(h.placed c).slots, (h.placed c).sources, (h.placed c).slot, (h.placed c).job⟩
  settled := h.settled

/-- A group takes another state, OPEN only with no HELD booking (R75, R76). -/
theorem Sound.setGroup (h : Sound C B N s) {g : Nat} {x : Group} {st : GroupState} (hx : s.groupOf g = some x)
    (hst : st = .opened → x.held = 0) : Sound C B N (s.setGroup g { x with state := st }) := by
  have hlook := State.setGroup_groupOf_self hx { x with state := st }
  have hsame : s.setGroup g { x with state := st } = { s with groups := (s.setGroup g { x with state := st }).groups } := by
    unfold State.setGroup
    split <;> rfl
  rw [hsame] at hlook ⊢
  refine h.groups (fun g' y hy => ?_) (fun g' hg' => ?_)
  · rw [hlook] at hy
    split at hy
    · next e =>
      cases hy
      exact ⟨x, e ▸ hx, rfl, hst⟩
    · exact ⟨y, hy, rfl, (h.held g' y hy).2⟩
  · rw [hlook]
    split
    · rfl
    · exact hg'

end

end Sys2Proof.Machine
end

