-- ==== Sys2Proof/Proofs/Slots.lean ====
section
/-! One slot of the booking table is rewritten, the references of its sources move with it, and the links stand (R35, R52, R74). -/

namespace Sys2Proof.Machine

/-! ## A table with one entry set or cleared -/

section
variable {α : Type}

/-- The table with an entry put in or taken out. -/
def tabSet (t : List (Nat × α)) (k : Nat) : Option α → List (Nat × α)
  | some x => tabPut t k x
  | none => tabDel t k

theorem tabFind_set (t : List (Nat × α)) (k j : Nat) (o : Option α) : tabFind (tabSet t k o) j = if j = k then o else tabFind t j := by
  cases o with
  | some x => exact tabFind_put t k j x
  | none => exact tabFind_del t k j

theorem tabSum_set (F : α → Nat) {t : List (Nat × α)} (h : Rising t) (k : Nat) (o : Option α) :
    tabSum F (tabSet t k o) + weigh F (tabFind t k) = tabSum F t + weigh F o := by
  cases o with
  | some x => exact tabSum_put F h k x
  | none => exact tabSum_del F h k

theorem Rising.set {t : List (Nat × α)} (h : Rising t) (k : Nat) (o : Option α) : Rising (tabSet t k o) := by
  cases o with
  | some x => exact h.put k x
  | none => exact h.del k

theorem tabSet_length {t : List (Nat × α)} (h : Rising t) (k : Nat) (o : Option α) :
    (tabSet t k o).length + (tabFind t k).toList.length = t.length + o.toList.length := by
  have hsum := tabSum_set (fun _ => 1) h k o
  cases ho : o <;> cases hf : tabFind t k <;> simp [tabSum, ho, hf] at hsum ⊢ <;> omega

end

/-! ## The rewriting of a slot -/

section
variable {s t : State} {k : Nat} {o : Option Booking} {n : Nat}

/-- Slot `k` comes to hold `o`, and the references move from the sources named before to those named after, new ones with bandwidth
`n` (R35). -/
structure Rewrites (s t : State) (k : Nat) (o : Option Booking) (n : Nat) : Prop where
  bookings : t.bookings = tabSet s.bookings k o
  sources : t.sources = (s.moveRefs n (namesOf (s.booking k)) (namesOf o)).sources
  capacity : ∀ p, t.port p = s.port p
  engine : ∀ j, t.mgmt.engine = .working j → s.mgmt.engine = .working j

/-- The start groups follow a booking of a slot into HELD and out of it (R74). -/
structure GroupsFollow (s t : State) (o o' : Option Booking) : Prop where
  held : ∀ g y, t.groupOf g = some y →
    ∃ x, s.groupOf g = some x ∧ y.held + heldWeight g o = x.held + heldWeight g o' ∧ (y.state = .opened → y.held = 0)
  known : ∀ g, (s.groupOf g).isSome → (t.groupOf g).isSome
  joined : ∀ b, o' = some b → b.state = .held → (s.groupOf b.fields.group).isSome

/-- What may stand in a slot, given the legs that its owner holds (R44, R52). -/
structure MayStand (s t : State) (k : Nat) (o : Option Booking) : Prop where
  legs : ∀ i x l, s.source i = some x → l ∈ x.legs → l.owner = k → ∃ b, o = some b ∧ b.state.isLive = true ∧ b.selected = i
  record : ∀ b, o = some b → RecordForm b
  ref : ∀ b, o = some b → (∃ c, s.booking k = some c ∧ b.ref = c.ref)
    ∨ (∀ j c, s.booking j = some c → c.ref ≠ b.ref) ∧ ∀ j, t.mgmt.engine ≠ .working j

namespace Rewrites

theorem booking (hr : Rewrites s t k o n) (j : Nat) : t.booking j = if j = k then o else s.booking j := by
  unfold State.booking
  rw [hr.bookings, tabFind_set]

theorem source (hr : Rewrites s t k o n) (ht : TablesInForm s) (i : SrcId) :
    t.source i =
      if i ∈ namesOf o then (if i ∈ namesOf (s.booking k) then s.source i else some (gained n s.defaults i (s.source i)))
      else if i ∈ namesOf (s.booking k) then (s.source i).bind Source.lost else s.source i := by
  rw [State.source_congr hr.sources, State.moveRefs_source ht n (namesOf_nodup _) (namesOf_nodup _)]

theorem tables (hr : Rewrites s t k o n) (ht : TablesInForm s) : TablesInForm t := by
  have hm := ht.moveRefs n (namesOf (s.booking k)) (namesOf o)
  refine ⟨?_, ?_, ?_⟩
  · rw [hr.bookings]
    exact ht.bookings.set k o
  · rw [hr.sources]
    exact hm.sources
  · rw [hr.sources]
    exact hm.keys

/-- Where a source of the new table comes from. -/
theorem source_cases (hr : Rewrites s t k o n) (ht : TablesInForm s) {i : SrcId} {y : Source} (hy : t.source i = some y) :
    (∃ x, s.source i = some x ∧ y.bandwidth = x.bandwidth ∧ y.legs = x.legs)
      ∨ s.source i = none ∧ i ∈ namesOf o ∧ i ∉ namesOf (s.booking k) ∧ y.bandwidth = n ∧ y.legs = [] := by
  rw [hr.source ht] at hy
  split at hy
  · next ha =>
    split at hy
    · exact .inl ⟨y, hy, rfl, rfl⟩
    · next hb =>
      cases hx : s.source i with
      | some x =>
        rw [hx] at hy
        cases hy
        exact .inl ⟨x, rfl, rfl, rfl⟩
      | none =>
        rw [hx] at hy
        cases hy
        exact .inr ⟨rfl, ha, hb, rfl, rfl⟩
  · split at hy
    · obtain ⟨x, hx, hlost⟩ := Option.bind_eq_some_iff.1 hy
      unfold Source.lost at hlost
      split at hlost
      · cases hlost
      · cases hlost
        exact .inl ⟨x, hx, rfl, rfl⟩
    · exact .inl ⟨y, hy, rfl, rfl⟩

theorem naming (hr : Rewrites s t k o n) (ht : TablesInForm s) (i : SrcId) :
    t.naming i + (decide (i ∈ namesOf (s.booking k))).toNat = s.naming i + (decide (i ∈ namesOf o)).toNat := by
  have hweigh : ∀ o' : Option Booking, weigh (fun b => (decide (i ∈ namesOf (some b))).toNat) o' = (decide (i ∈ namesOf o')).toNat := by
    intro o'
    cases o' with
    | some b => rfl
    | none => simp [namesOf]
  have hsum := tabSum_set (fun b : Booking => (decide (i ∈ namesOf (some b))).toNat) ht.bookings k o
  rw [hweigh, hweigh] at hsum
  rw [State.naming_eq, State.naming_eq, hr.bookings]
  exact hsum

theorem heldIn (hr : Rewrites s t k o n) (ht : TablesInForm s) (g : Nat) :
    t.heldIn g + heldWeight g (s.booking k) = s.heldIn g + heldWeight g o := by
  have hsum := tabSum_set (fun b : Booking => (b.state == .held && b.fields.group == g).toNat) ht.bookings k o
  have heq : ∀ u : State, u.heldIn g = tabSum (fun b : Booking => (b.state == .held && b.fields.group == g).toNat) u.bookings :=
    fun u => countP_eq_tabSum (fun b : Booking => b.state == .held && b.fields.group == g) u.bookings
  rw [heq, heq, hr.bookings]
  exact hsum

/-- The reference counts follow the bookings that name them (R35). -/
theorem refs (hr : Rewrites s t k o n) (h : Linked s) (i : SrcId) :
    weigh Source.refs (t.source i) = t.naming i ∧ ∀ y, t.source i = some y → 1 ≤ y.refs := by
  have hn := hr.naming h.tables i
  have href := h.refs i
  have hcount := h.counted i
  rw [hr.source h.tables]
  split
  · next ha =>
    simp only [ha, decide_true, Bool.toNat_true] at hn
    split
    · next hb =>
      simp only [hb, decide_true, Bool.toNat_true] at hn
      exact ⟨by omega, hcount⟩
    · next hb =>
      simp only [hb, decide_false, Bool.toNat_false] at hn
      have hgain : (gained n s.defaults i (s.source i)).refs = weigh Source.refs (s.source i) + 1 := by cases s.source i <;> rfl
      refine ⟨by rw [weigh_some]; omega, fun y hy => ?_⟩
      cases hy
      omega
  · next ha =>
    simp only [ha, decide_false, Bool.toNat_false] at hn
    split
    · next hb =>
      simp only [hb, decide_true, Bool.toNat_true] at hn
      cases hx : s.source i with
      | none =>
        rw [hx, weigh_none] at href
        omega
      | some x =>
        rw [hx, weigh_some] at href
        rw [Option.bind_some, Source.lost]
        split
        · exact ⟨by rw [weigh_none]; omega, nofun⟩
        · refine ⟨by rw [weigh_some]; dsimp only; omega, fun y hy => ?_⟩
          cases hy
          dsimp only
          omega
    · next hb =>
      simp only [hb, decide_false, Bool.toNat_false] at hn
      exact ⟨by omega, hcount⟩

/-- The links stand after the rewriting of a slot. -/
theorem linked (hr : Rewrites s t k o n) (h : Linked s) (hk : MayStand s t k o) (hg : GroupsFollow s t (s.booking k) o) : Linked t := by
  refine ⟨hr.tables h.tables, fun i => (hr.refs h i).1, fun i => (hr.refs h i).2, ?_, ?_, ?_, ?_, ?_, ?_, ?_⟩
  · intro i y l hy hl
    rw [hr.booking]
    obtain ⟨x, hx, -, hlegs⟩ | ⟨-, -, -, -, hlegs⟩ := hr.source_cases h.tables hy
    · rw [hlegs] at hl
      split
      · next e => exact hk.legs i x l hx hl e
      · exact h.owners i x l hx hl
    · rw [hlegs] at hl
      cases hl
  · intro q
    have hle := (legWeight_pair q).moveRefs h.tables n (namesOf (s.booking k)) (namesOf o)
    unfold State.pairTally
    rw [hr.sources]
    exact hle.trans (h.pairs q)
  · intro i j b c
    have hfresh : ∀ i b c, i ≠ k → o = some b → s.booking i = some c → c.ref ≠ b.ref := by
      intro i b c hi ho hc
      obtain ⟨d, hd, hrd⟩ | ⟨hf, -⟩ := hk.ref b ho
      · exact fun e => hi (h.unique i k c d hc hd (e.trans hrd))
      · exact hf i c hc
    rw [hr.booking, hr.booking]
    split <;> split
    · next e e' => exact fun _ _ _ => e.trans e'.symm
    · next e e' => exact fun hb hc href => absurd href.symm (hfresh j b c e' hb hc)
    · next e e' => exact fun hb hc href => absurd href (hfresh i c b e hc hb)
    · exact h.unique i j b c
  · intro g y hy
    obtain ⟨x, hx, hn, ho⟩ := hg.held g y hy
    have := hr.heldIn h.tables g
    have := (h.held g x hx).1
    exact ⟨by omega, ho⟩
  · intro j b hb hheld
    rw [hr.booking] at hb
    split at hb
    · exact hg.known _ (hg.joined b hb hheld)
    · exact hg.known _ (h.heldGroup j b hb hheld)
  · intro j b hb
    rw [hr.booking] at hb
    split at hb
    · exact hk.record b hb
    · exact h.records j b hb
  · intro j hj
    have hjob := h.job j (hr.engine j hj)
    refine ⟨hjob.1, ?_⟩
    have hkind := hjob.2
    split at hkind
    · next ref f _ =>
      refine ⟨hkind.1, fun e he => ?_⟩
      have hfresh : ∀ i c, s.booking i = some c → c.ref ≠ ref := fun i c hc => hkind.2 _ (tabFind_mem hc)
      have he := ((hr.tables h.tables).mem_bookings (e := e)).1 he
      rw [hr.booking] at he
      split at he
      · obtain ⟨d, hd, hrd⟩ | ⟨-, hidle⟩ := hk.ref e.2 he
        · exact hrd ▸ hfresh k d hd
        · exact absurd hj (hidle j)
      · exact hfresh _ _ he
    · exact hkind

end Rewrites

end

/-! ## Places, when references are lost -/

theorem countP_isNone_le {is : List SrcId} (hn : is.Nodup) {f g : SrcId → Option Source} {i : SrcId} (hfg : ∀ j, j ≠ i → g j = f j) :
    is.countP (fun j => (g j).isNone) ≤ is.countP (fun j => (f j).isNone) + 1 := by
  have hone : is.countP (· == i) ≤ 1 := List.nodup_iff_count_le_one.1 hn i
  have hsplit : is.countP (fun j => (g j).isNone) ≤ is.countP (fun j => (f j).isNone) + is.countP (· == i) := by
    clear hn hone
    induction is with
    | nil => simp
    | cons j js ih =>
      simp only [List.countP_cons]
      by_cases hj : j = i
      · simp only [hj, beq_self_eq_true, if_true]
        split <;> split <;> omega
      · rw [hfg j hj]
        omega
  omega

/-- A lost reference frees at most the record that it takes from the table (R33, R35). -/
theorem loseRef_room {s : State} (h : TablesInForm s) {is : List SrcId} (hn : is.Nodup) (i : SrcId) :
    (s.loseRef i).sources.length + is.countP (fun j => ((s.loseRef i).source j).isNone)
      ≤ s.sources.length + is.countP (fun j => (s.source j).isNone) := by
  cases hx : s.source i with
  | none =>
    have : s.loseRef i = s := by unfold State.loseRef; rw [hx]
    rw [this]
  | some x =>
    have hlook := State.loseRef_source h i
    by_cases hr : x.refs ≤ 1
    · have hlose : s.loseRef i = s.delSource i := by unfold State.loseRef; rw [hx]; exact if_pos hr
      have hdel := tabSum_del (fun _ => 1) h.sources (srcKey i)
      rw [show tabFind s.sources (srcKey i) = some x from hx] at hdel
      have hlen : (s.delSource i).sources.length + 1 = s.sources.length := by simpa [tabSum, State.delSource] using hdel
      have hcount := countP_isNone_le (f := s.source) (g := (s.loseRef i).source) (i := i) hn fun j hj => by rw [hlook, if_neg hj]
      rw [hlose] at hcount ⊢
      omega
    · have hlose : s.loseRef i = s.setSource { x with refs := x.refs - 1 } := by unfold State.loseRef; rw [hx]; exact if_neg hr
      have hput : (s.setSource { x with refs := x.refs - 1 }).sources.length = s.sources.length :=
        tabPut_length h.sources (x := x) (by rw [h.source_id hx]; exact hx) _
      have hsame : ∀ j, ((s.loseRef i).source j).isNone = (s.source j).isNone := fun j => by
        rw [hlook]
        split
        · next e =>
          rw [e, hx, Option.bind_some, Source.lost, if_neg hr]
          exact rfl
        · rfl
      simp only [hsame]
      rw [hlose, hput]

theorem loseRefs_room {s : State} (h : TablesInForm s) {is : List SrcId} (hn : is.Nodup) (js : List SrcId) :
    (js.foldl State.loseRef s).sources.length + is.countP (fun j => ((js.foldl State.loseRef s).source j).isNone)
      ≤ s.sources.length + is.countP (fun j => (s.source j).isNone) :=
  (foldl_keeps (fun u => TablesInForm u ∧ u.sources.length + is.countP (fun j => (u.source j).isNone)
      ≤ s.sources.length + is.countP (fun j => (s.source j).isNone)) _
    (fun _ i hu => ⟨hu.1.loseRef i, (loseRef_room hu.1 hn i).trans hu.2⟩) js s ⟨h, Nat.le_refl _⟩).2

/-- A gained reference takes at most the record that it was counted for (R33, R34). -/
theorem gainRefs_length {s : State} (h : TablesInForm s) (n : Nat) {is : List SrcId} (hn : is.Nodup) :
    (is.foldl (State.gainRef · n ·) s).sources.length = s.sources.length + is.countP (fun i => (s.source i).isNone) := by
  induction is generalizing s with
  | nil => rfl
  | cons i is ih =>
    obtain ⟨hi, hn⟩ := List.nodup_cons.1 hn
    have hcount : is.countP (fun j => ((s.gainRef n i).source j).isNone) = is.countP (fun j => (s.source j).isNone) :=
      List.countP_congr fun j hj => by 
        have hne : j ≠ i := fun e => hi (e ▸ hj)
        rw [State.gainRef_source h, if_neg hne]
    have hlen : (s.gainRef n i).sources.length = s.sources.length + if (s.source i).isNone then 1 else 0 := by
      unfold State.gainRef
      cases hx : s.source i with
      | some x => exact tabPut_length h.sources (x := x) (by rw [h.source_id hx]; exact hx) _
      | none =>
        have hput := tabSum_put (fun _ => 1) h.sources (srcKey i) (newSource i n s.defaults)
        rw [show tabFind s.sources (srcKey i) = none from hx] at hput
        show (tabPut s.sources (srcKey i) (newSource i n s.defaults)).length = _
        simpa [tabSum] using hput
    rw [List.foldl_cons, ih (h.gainRef n i) hn, hcount, hlen, List.countP_cons]
    omega

/-! ## The rules -/

section
variable {C B N : Prop} {s t : State} {k : Nat} {o : Option Booking} {n : Nat}

/-- A slot comes to hold what it held, with no source named anew, or nothing. -/
theorem Sound.rewrite (h : Sound C B N s) (hr : Rewrites s t k o n) (hk : MayStand s t k o) (hg : GroupsFollow s t (s.booking k) o)
    (hnames : ∀ i ∈ namesOf o, i ∈ namesOf (s.booking k))
    (hkeeps : ∀ b, o = some b → ∃ c, s.booking k = some c ∧ b.fields.bandwidth = c.fields.bandwidth)
    (hsettled : N → ∀ b, o = some b → b.state.isEnded = false → b.pending = none) : Sound C B N t := by
  have hsource : ∀ i y, t.source i = some y → ∃ x, s.source i = some x ∧ y.bandwidth = x.bandwidth ∧ y.legs = x.legs := by
    intro i y hy
    obtain hx | ⟨-, ha, hb, -⟩ := hr.source_cases h.tables hy
    · exact hx
    · exact absurd (hnames i ha) hb
  have hlose : t.sources = (((namesOf (s.booking k)).filter fun i => !(namesOf o).contains i).foldl State.loseRef s).sources := by
    have hnone : ((namesOf o).filter fun i => !(namesOf (s.booking k)).contains i) = [] :=
      List.filter_eq_nil_iff.2 fun i hi => by simpa using hnames i hi
    rw [hr.sources, State.moveRefs, hnone]
    rfl
  refine ⟨hr.linked h.toLinked hk hg, fun c => ?_, fun c => ?_, fun c j b hb => ?_⟩
  · refine ⟨fun p => ?_, fun j b i y hb hi hy => ?_, fun j hj i hi y hy => ?_⟩
    · have hle := (legWeight_port p).moveRefs h.tables n (namesOf (s.booking k)) (namesOf o)
      rw [State.installed_eq, hr.sources, hr.capacity]
      exact hle.trans ((h.rated c).installed p)
    · obtain ⟨x, hx, hw, -⟩ := hsource i y hy
      rw [hr.booking] at hb
      split at hb
      · obtain ⟨d, hd, hwd⟩ := hkeeps b hb
        have hi := hnames i (hb ▸ hi)
        rw [hd] at hi
        rw [hw, hwd]
        exact (h.rated c).rates k d i x hd hi hx
      · exact hw.trans ((h.rated c).rates j b i x hb hi hx)
    · obtain ⟨x, hx, hw, -⟩ := hsource i y hy
      exact hw.trans ((h.rated c).job j (hr.engine j hj) i hi x hx)
  · have hp := h.placed c
    refine ⟨fun j b hb => ?_, ?_, fun j ref f hj hkind => ?_, fun j hj => ?_⟩
    · rw [hr.booking] at hb
      split at hb
      · next e =>
        obtain ⟨d, hd, -⟩ := hkeeps b hb
        exact e ▸ hp.slots k d hd
      · exact hp.slots j b hb
    · have hroom := loseRefs_room h.tables List.nodup_nil ((namesOf (s.booking k)).filter fun i => !(namesOf o).contains i)
      rw [hlose]
      exact (by simpa using hroom : _ ≤ s.sources.length).trans hp.sources
    · have hlen := tabSet_length h.tables.bookings k o
      have hfull := hp.slot j ref f (hr.engine j hj) hkind
      have ho : o.toList.length ≤ (tabFind s.bookings k).toList.length := by
        cases ho : o with
        | none => simp
        | some b =>
          obtain ⟨d, hd, -⟩ := hkeeps b ho
          rw [show tabFind s.bookings k = some d from hd]
          simp
      rw [hr.bookings]
      omega
    · have hroom := loseRefs_room h.tables (h.job j (hr.engine j hj)).wants_nodup
        ((namesOf (s.booking k)).filter fun i => !(namesOf o).contains i)
      simp only [State.source_congr hlose, hlose]
      exact hroom.trans (hp.job j (hr.engine j hj))
  · rw [hr.booking] at hb
    split at hb
    · exact hsettled c b hb
    · exact h.settled c j b hb

/-- A slot comes to hold a booking that names sources anew, while no computation runs, with what BOOK and MODIFY have made sure of
(R59, R65, R70). -/
theorem Sound.accept (h : Sound C B N s) {b : Booking} (hr : Rewrites s t k (some b) b.fields.bandwidth) (hk : MayStand s t k (some b))
    (hg : GroupsFollow s t (s.booking k) (some b)) (hidle : ∀ j, t.mgmt.engine ≠ .working j) (hN : ¬ N)
    (hrates : C → ∀ i ∈ namesOf (some b), ∀ x, s.source i = some x → x.bandwidth = b.fields.bandwidth)
    (hroom : B → k < 512 ∧ s.sources.length + (namesOf (some b)).countP (fun i => (s.source i).isNone) ≤ 512) : Sound C B N t := by
  refine ⟨hr.linked h.toLinked hk hg, fun c => ?_, fun c => ?_, fun c => absurd c hN⟩
  · refine ⟨fun p => ?_, fun j d i y hd hi hy => ?_, fun j hj => absurd hj (hidle j)⟩
    · have hle := (legWeight_port p).moveRefs h.tables b.fields.bandwidth (namesOf (s.booking k)) (namesOf (some b))
      rw [State.installed_eq, hr.sources, hr.capacity]
      exact hle.trans ((h.rated c).installed p)
    · rw [hr.booking] at hd
      obtain ⟨x, hx, hw, -⟩ | ⟨hx, -, -, hw, -⟩ := hr.source_cases h.tables hy
      · rw [hw]
        split at hd
        · cases hd
          exact hrates c i hi x hx
        · exact (h.rated c).rates j d i x hd hi hx
      · rw [hw]
        split at hd
        · cases hd
          rfl
        · obtain ⟨x, hx'⟩ := h.source_of_named hd hi
          rw [hx] at hx'
          cases hx'
  · have hp := h.placed c
    obtain ⟨hslot, hfree⟩ := hroom c
    refine ⟨fun j d hd => ?_, ?_, fun j _ _ hj => absurd hj (hidle j), fun j hj => absurd hj (hidle j)⟩
    · rw [hr.booking] at hd
      split at hd
      · next e => exact e ▸ hslot
      · exact hp.slots j d hd
    · have hnodup := (namesOf_nodup (some b)).filter fun i => !(namesOf (s.booking k)).contains i
      have hgain := gainRefs_length h.tables b.fields.bandwidth hnodup
      have hlose := loseRefs_room (h.tables.gainRefs b.fields.bandwidth _) List.nodup_nil
        ((namesOf (s.booking k)).filter fun i => !(namesOf (some b)).contains i)
        (s := ((namesOf (some b)).filter fun i => !(namesOf (s.booking k)).contains i).foldl (State.gainRef · b.fields.bandwidth ·) s)
      have hsub := List.Sublist.countP_le (p := fun i => (s.source i).isNone)
        (List.filter_sublist (l := namesOf (some b)) (p := fun i => !(namesOf (s.booking k)).contains i))
      simp only [List.countP_nil, Nat.add_zero] at hlose
      rw [hr.sources, State.moveRefs]
      omega

end

end Sys2Proof.Machine
end

