-- ==== Sys2Proof/Proofs/LinkRules.lean ====
section
/-! The links stand when a booking is written again, is applied a modification, enters HELD or LIVE, or ends (R74, R80, R83, R88). -/

namespace Sys2Proof.Machine

/-! ## What the Booking Engine leaves alone -/

/-- The ports and the Order Engine's work stand. -/
def SameFrame (s t : State) : Prop := t.ports = s.ports ∧ t.mgmt.engine = s.mgmt.engine

theorem SameFrame.refl (s : State) : SameFrame s s := ⟨rfl, rfl⟩

theorem bookingClosed_sameFrame (s : State) : BookingClosed (SameFrame s) where
  source _ _ _ _ _ _ h := h
  move _ _ _ _ _ _ _ _ _ _ _ h := h
  create _ _ _ _ h := h
  drop _ _ h := h
  booking _ _ _ h := h
  free _ _ h := h
  group _ g x h := ⟨(State.setGroup_ports _ g x).trans h.1, (congrArg OrderEngine.engine (State.setGroup_mgmt _ g x)).trans h.2⟩
  notice _ c h := ⟨(State.raise_ports _ c).trans h.1, (State.raise_engine _ c).trans h.2⟩
  bill _ _ _ _ h := h

theorem loseRefs_sources_congr {s u : State} (h : u.sources = s.sources) (is : List SrcId) :
    (is.foldl State.loseRef u).sources = (is.foldl State.loseRef s).sources := by
  induction is generalizing s u with
  | nil => exact h
  | cons i is ih =>
    refine ih ?_
    have hsource := State.source_congr h i
    unfold State.loseRef
    rw [hsource]
    cases s.source i with
    | none => exact h
    | some x =>
      dsimp only
      split
      · exact congrArg (tabDel · (srcKey i)) h
      · exact congrArg (tabPut · (srcKey x.id) { x with refs := x.refs - 1 }) h

theorem gainRefs_sources_congr {s u : State} (h : u.sources = s.sources) (hd : u.defaults = s.defaults) (n : Nat) (is : List SrcId) :
    (is.foldl (State.gainRef · n ·) u).sources = (is.foldl (State.gainRef · n ·) s).sources := by
  induction is generalizing s u with
  | nil => exact h
  | cons i is ih =>
    refine ih ?_ ?_
    · have hsource := State.source_congr h i
      show (u.gainRef n i).sources = (s.gainRef n i).sources
      unfold State.gainRef
      rw [hsource]
      cases s.source i with
      | none =>
        dsimp only
        rw [hd]
        exact congrArg (tabPut · (srcKey i) (newSource i n s.defaults)) h
      | some x => exact congrArg (tabPut · (srcKey x.id) { x with refs := x.refs + 1 }) h
    · rw [State.gainRef_defaults, State.gainRef_defaults, hd]

theorem moveRefs_sources_congr {s u : State} (h : u.sources = s.sources) (hd : u.defaults = s.defaults) (n : Nat)
    (before after : List SrcId) : (u.moveRefs n before after).sources = (s.moveRefs n before after).sources :=
  loseRefs_sources_congr (gainRefs_sources_congr h hd n _) _

@[simp] theorem State.moveRefs_bookings (s : State) (n : Nat) (before after : List SrcId) :
    (s.moveRefs n before after).bookings = s.bookings := s.moveRefs_same State.bookings (by simp) (by simp) n before after

@[simp] theorem State.moveRefs_groups (s : State) (n : Nat) (before after : List SrcId) :
    (s.moveRefs n before after).groups = s.groups := s.moveRefs_same State.groups (by simp) (by simp) n before after

@[simp] theorem State.moveRefs_ports (s : State) (n : Nat) (before after : List SrcId) :
    (s.moveRefs n before after).ports = s.ports := s.moveRefs_same State.ports (by simp) (by simp) n before after

@[simp] theorem State.moveRefs_mgmt (s : State) (n : Nat) (before after : List SrcId) :
    (s.moveRefs n before after).mgmt = s.mgmt := s.moveRefs_same State.mgmt (by simp) (by simp) n before after

theorem moveRefs_self (s : State) (n : Nat) (is : List SrcId) : s.moveRefs n is is = s := by
  have hnone : (is.filter fun i => !is.contains i) = [] := List.filter_eq_nil_iff.2 fun i hi => by simpa using hi
  unfold State.moveRefs
  rw [hnone]
  rfl

theorem moveRefs_nil (s : State) (n : Nat) (is : List SrcId) : s.moveRefs n is [] = is.foldl State.loseRef s := by
  have hall : (is.filter fun i => !([] : List SrcId).contains i) = is := List.filter_eq_self.2 fun i _ => by simp
  unfold State.moveRefs
  rw [hall]
  rfl

theorem moveRefs_of_nil (s : State) (n : Nat) (is : List SrcId) : s.moveRefs n [] is = is.foldl (State.gainRef · n ·) s := by
  have hall : (is.filter fun i => !([] : List SrcId).contains i) = is := List.filter_eq_self.2 fun i _ => by simp
  unfold State.moveRefs
  rw [hall]
  rfl

/-! ## Groups -/

/-- The start group in whose count a slot's booking stands: the group of a HELD booking (R74). -/
def heldOf (o : Option Booking) : Option Nat := o.bind fun b => if b.state = .held then some b.fields.group else none

theorem heldOf_held {b : Booking} (h : b.state = .held) : heldOf (some b) = some b.fields.group := by simp [heldOf, h]

theorem heldOf_notHeld {b : Booking} (h : b.state ≠ .held) : heldOf (some b) = none := by simp [heldOf, h]

theorem heldWeight_eq (g : Nat) (o : Option Booking) : heldWeight g o = if heldOf o = some g then 1 else 0 := by
  cases o with
  | none => simp [heldWeight, heldOf]
  | some b =>
    by_cases hs : b.state = .held
    · rw [heldOf_held hs]
      by_cases hg : b.fields.group = g <;> simp [heldWeight, hs, hg]
    · rw [heldOf_notHeld hs]
      simp [heldWeight, hs]

section
variable {s t : State} {k : Nat} {b : Booking} {o : Option Booking}

theorem Linked.group_of_held (h : Linked s) (hb : s.booking k = some b) (hs : b.state = .held) :
    ∃ x, s.groupOf b.fields.group = some x ∧ 1 ≤ x.held ∧ x.state ≠ .opened := by
  obtain ⟨x, hx⟩ := Option.isSome_iff_exists.1 (h.heldGroup k b hb hs)
  obtain ⟨hheld, hopen⟩ := h.held _ x hx
  have hpos : 1 ≤ x.held := by
    rw [hheld]
    exact List.countP_pos_iff.2 ⟨(k, b), tabFind_mem hb, by simp [hs]⟩
  exact ⟨x, hx, hpos, fun e => by have := hopen e; omega⟩

/-- The groups stand while a slot's booking stays in its count, or out of every count. -/
theorem Linked.groups_same (h : Linked s) (hg : t.groups = s.groups) (ho : heldOf o = heldOf (s.booking k)) :
    GroupsFollow s t (s.booking k) o := by
  have hlook := State.groupOf_congr hg
  refine ⟨fun g y hy => ?_, fun g hs => by rwa [hlook], fun c hc hs => ?_⟩
  · rw [hlook] at hy
    exact ⟨y, hy, by rw [heldWeight_eq, heldWeight_eq, ho], (h.held g y hy).2⟩
  · rw [hc, heldOf_held hs] at ho
    obtain ⟨d, hd, hgroup⟩ := Option.bind_eq_some_iff.1 ho.symm
    split at hgroup
    · next hds =>
      exact Option.some.inj hgroup ▸ h.heldGroup k d hd hds
    · cases hgroup

/-- The group of a HELD booking that leaves HELD counts one less, and opens where it was RELEASING and that was the last (R74). -/
theorem Linked.groups_leave (h : Linked s) (hb : s.booking k = some b) (hs : b.state = .held)
    (hg : t.groups = (s.leaveGroup b.fields.group).groups) (ho : heldOf o = none) : GroupsFollow s t (s.booking k) o := by
  obtain ⟨x, hx, hpos, hnotOpen⟩ := h.group_of_held hb hs
  have hlook : ∀ g, t.groupOf g = if g = b.fields.group
      then some ⟨if x.state = .releasing ∧ x.held - 1 = 0 then .opened else x.state, x.held - 1⟩ else s.groupOf g := fun g => by
    rw [State.groupOf_congr hg, State.leaveGroup, hx]
    exact State.setGroup_groupOf_self hx _ g
  have hnone : ∀ c, o = some c → c.state ≠ .held := fun c hc hcs => by
    rw [hc, heldOf_held hcs] at ho
    cases ho
  refine ⟨fun g y hy => ?_, fun g hsome => ?_, fun c hc hcs => absurd hcs (hnone c hc)⟩
  · rw [hlook] at hy
    simp only [heldWeight_eq, hb, heldOf_held hs, ho, Option.some.injEq, reduceCtorEq, if_false]
    split at hy
    · next e =>
      cases hy
      refine ⟨x, e ▸ hx, ?_, fun hopen => ?_⟩
      · rw [if_pos e.symm]
        dsimp only
        omega
      · dsimp only at hopen ⊢
        split at hopen
        · next hc => exact hc.2
        · exact absurd hopen hnotOpen
    · next e =>
      rw [if_neg (Ne.symm e)]
      exact ⟨y, hy, rfl, (h.held g y hy).2⟩
  · rw [hlook]
    split
    · rfl
    · exact hsome

/-- The group of a booking that enters HELD, which is HOLDING, counts one more (R74). -/
theorem Linked.groups_join (h : Linked s) {x : Group} (hx : s.groupOf b.fields.group = some x) (hst : x.state = .holding)
    (hs : b.state = .held) (hg : t.groups = (s.joinGroup b.fields.group).groups) (ho : heldOf (s.booking k) = none) :
    GroupsFollow s t (s.booking k) (some b) := by
  have hlook : ∀ g, t.groupOf g = if g = b.fields.group then some { x with held := x.held + 1 } else s.groupOf g := fun g => by
    rw [State.groupOf_congr hg, State.joinGroup, hx]
    exact State.setGroup_groupOf_self hx _ g
  refine ⟨fun g y hy => ?_, fun g hsome => ?_, fun c hc _ => ?_⟩
  · rw [hlook] at hy
    simp only [heldWeight_eq, heldOf_held hs, ho, Option.some.injEq, reduceCtorEq, if_false]
    split at hy
    · next e =>
      cases hy
      refine ⟨x, e ▸ hx, by rw [if_pos e.symm], fun hopen => ?_⟩
      rw [show x.state = .opened from hopen] at hst
      cases hst
    · next e =>
      rw [if_neg (Ne.symm e)]
      exact ⟨y, hy, rfl, (h.held g y hy).2⟩
  · rw [hlook]
    split
    · rfl
    · exact hsome
  · cases hc
    rw [hx]
    rfl

/-! ## Legs of a slot -/

/-- A slot whose booking is not live holds no leg. -/
def State.NoLegs (s : State) (k : Nat) : Prop := ∀ i x l, s.source i = some x → l ∈ x.legs → l.owner ≠ k

theorem Linked.legs_of (h : Linked s) (hb : s.booking k = some b) {i : SrcId} {x : Source} {l : Leg} (hx : s.source i = some x)
    (hl : l ∈ x.legs) (hk : l.owner = k) : b.state.isLive = true ∧ b.selected = i := by
  obtain ⟨c, hc, hlive, hsel⟩ := h.owners i x l hx hl
  rw [hk, hb] at hc
  cases hc
  exact ⟨hlive, hsel⟩

theorem Linked.noLegs (h : Linked s) (hb : s.booking k = some b) (hl : b.state.isLive = false) : s.NoLegs k := by
  intro i x l hx hm hk
  have := (h.legs_of hb hx hm hk).1
  rw [hl] at this
  cases this

theorem Linked.noLegs_free (h : Linked s) (hb : s.booking k = none) : s.NoLegs k := by
  intro i x l hx hm hk
  obtain ⟨c, hc, -⟩ := h.owners i x l hx hm
  rw [hk, hb] at hc
  cases hc

end

/-! ## A booking is written again -/

section
variable {C B N : Prop} {s t : State} {k : Nat} {b b' : Booking}

theorem namesOf_congr (hf : b'.fields = b.fields) (hp : b'.pending = b.pending) (he : b'.state.isEnded = b.state.isEnded) :
    namesOf (some b') = namesOf (some b) := by
  unfold namesOf Booking.named
  dsimp only
  rw [hf, hp, he]

/-- A booking is written again with its fields and its pending modification as they were. -/
theorem Sound.setBooking_fields (h : Sound C B N s) (hb : s.booking k = some b) (href : b'.ref = b.ref) (hf : b'.fields = b.fields)
    (hp : b'.pending = b.pending) (he : b'.state.isEnded = b.state.isEnded) (hheld : heldOf (some b') = heldOf (some b))
    (hlegs : s.NoLegs k ∨ b'.state.isLive = b.state.isLive ∧ b'.position = b.position) (hrec : RecordForm b') :
    Sound C B N (s.setBooking k b') := by
  have hnames : namesOf (some b') = namesOf (s.booking k) := by rw [hb]; exact namesOf_congr hf hp he
  refine h.rewrite (k := k) (o := some b') (n := 0) ⟨rfl, ?_, fun _ => rfl, fun _ hj => hj⟩ ⟨?_, ?_, ?_⟩ ?_ ?_ ?_ ?_
  · rw [hnames, moveRefs_self]
    rfl
  · intro i x l hx hl hk
    obtain hnone | ⟨hlive, hpos⟩ := hlegs
    · exact absurd hk (hnone i x l hx hl)
    · obtain ⟨hl, hs⟩ := h.legs_of hb hx hl hk
      refine ⟨b', rfl, hlive.trans hl, ?_⟩
      rw [← hs, Booking.selected, Booking.selected, hf, hpos]
  · rintro _ ⟨⟩
    exact hrec
  · rintro _ ⟨⟩
    exact .inl ⟨b, hb, href⟩
  · exact h.groups_same rfl (by rw [hheld, hb])
  · rw [hnames]
    exact fun i hi => hi
  · rintro _ ⟨⟩
    exact ⟨b, hb, by rw [hf]⟩
  · rintro c _ ⟨⟩ hended
    rw [hp]
    exact h.settled c k b hb (he ▸ hended)

/-- Two records of a booking that differ in nothing that a link looks at. -/
structure Alike (b b' : Booking) : Prop where
  ref : b'.ref = b.ref
  fields : b'.fields = b.fields
  state : b'.state = b.state
  position : b'.position = b.position
  pending : b'.pending = b.pending

theorem RecordForm.alike (h : RecordForm b) (hl : Alike b b') : RecordForm b' := by
  obtain ⟨-, hf, hs, hp, hm⟩ := hl
  refine ⟨hf ▸ h.fields, hs ▸ hp ▸ h.before, hf ▸ hp ▸ h.spare, fun he m hb => ?_⟩
  have := h.pending (hs ▸ he) m (hm ▸ hb)
  exact ⟨hf ▸ this.fields, hs ▸ this.early, hp ▸ this.onMain⟩

theorem Sound.retouch (h : Sound C B N s) (hb : s.booking k = some b) (hl : Alike b b') : Sound C B N (s.setBooking k b') := by
  refine h.setBooking_fields hb hl.ref hl.fields hl.pending (by rw [hl.state]) ?_ (.inr ⟨by rw [hl.state], hl.position⟩)
    ((h.records k b hb).alike hl)
  unfold heldOf
  simp only [Option.bind_some, hl.state, hl.fields]

/-! ## Endings -/

/-- A live booking's legs leave its selected source (R48, R83). -/
theorem Sound.removeLegs (h : Sound C B N s) (k : Nat) (i : SrcId) (named : Pair → Bool) : Sound C B N (s.removeLegs k i named).1 := by
  rcases s.removeLegs_cases k i named with ⟨-, e⟩ | ⟨x, hx, e⟩ <;> rw [e]
  · exact h
  · exact h.setSource_fewer hx rfl rfl (List.filter_sublist.map _)

@[simp] theorem State.removeLegs_bookings (s : State) (k : Nat) (i : SrcId) (named : Pair → Bool) :
    (s.removeLegs k i named).1.bookings = s.bookings := s.removeLegs_same State.bookings (fun _ _ => rfl) k i named

@[simp] theorem State.removeLegs_groups (s : State) (k : Nat) (i : SrcId) (named : Pair → Bool) :
    (s.removeLegs k i named).1.groups = s.groups := s.removeLegs_same State.groups (fun _ _ => rfl) k i named

/-- After the removal of all its legs from its selected source a live booking holds none. -/
theorem Linked.removeLegs_noLegs (h : Linked s) (hb : s.booking k = some b) : (s.removeLegs k b.selected fun _ => true).1.NoLegs k := by
  rcases s.removeLegs_cases k b.selected fun _ => true with ⟨hx, e⟩ | ⟨x, hx, e⟩ <;> rw [e]
  · intro i y l hy hl hk
    rw [(h.legs_of hb hy hl hk).2, hy] at hx
    cases hx
  · intro i y l hy hl hk
    rw [State.setSource_source] at hy
    split at hy
    · cases hy
      have := (List.mem_filter.1 hl).2
      simp [hk] at this
    · next hi =>
      have hsel := (h.legs_of hb hy hl hk).2
      exact hi (hsel.symm.trans (h.tables.source_id hx).symm)

theorem RecordForm.ended (h : RecordForm b) (hf : b'.fields = b.fields) (hpos : b'.position = b.position) (bill : Bill) :
    RecordForm { b' with state := .ended bill } where
  fields := hf ▸ h.fields
  before hs := by rcases hs with hs | hs | hs <;> cases hs
  spare hs := by
    have := h.spare (hpos ▸ hs)
    exact hf ▸ this
  pending he := absurd he (by simp [BookingState.isEnded])

/-- The slot of a booking that holds no leg becomes FREE, or waits in ENDED: its HELD booking leaves the group and its sources lose
their references (R35, R72, R74, R83). -/
theorem Sound.vacate (h : Sound C B N s) (hb : s.booking k = some b) (hnone : s.NoLegs k) {o : Option Booking}
    (hbookings : t.bookings = tabSet s.bookings k o) (hsources : t.sources = ((namesOf (some b)).foldl State.loseRef s).sources)
    (hgroups : t.groups = (if b.state = .held then s.leaveGroup b.fields.group else s).groups) (hframe : SameFrame s t)
    (ho : ∀ c, o = some c → RecordForm c ∧ c.ref = b.ref ∧ c.fields = b.fields ∧ c.state.isEnded = true) : Sound C B N t := by
  have hnames : namesOf o = [] := by
    cases o with
    | none => rfl
    | some c => exact namesOf_ended (ho c rfl).2.2.2
  have hheld : heldOf o = none := by
    cases o with
    | none => rfl
    | some c => exact heldOf_notHeld fun e => by simpa [e, BookingState.isEnded] using (ho c rfl).2.2.2
  have hfollow : GroupsFollow s t (s.booking k) o := by
    split at hgroups
    · next hs => exact h.groups_leave hb hs hgroups hheld
    · next hs => exact h.groups_same hgroups (by rw [hheld, hb, heldOf_notHeld hs])
  refine h.rewrite (k := k) (o := o) (n := 0) ⟨hbookings, ?_, fun p => ?_, fun j hj => ?_⟩ ⟨?_, ?_, ?_⟩ hfollow ?_ ?_ ?_
  · rw [hnames, hb, moveRefs_nil]
    exact hsources
  · unfold State.port
    rw [hframe.1]
  · rw [hframe.2] at hj
    exact hj
  · exact fun i x l hx hl hk => absurd hk (hnone i x l hx hl)
  · exact fun c hc => (ho c hc).1
  · exact fun c hc => .inl ⟨b, hb, (ho c hc).2.1⟩
  · rw [hnames]
    exact fun i hi => absurd hi (by simp)
  · exact fun c hc => ⟨b, hb, by rw [(ho c hc).2.2.1]⟩
  · intro _ c hc hend
    rw [(ho c hc).2.2.2] at hend
    cases hend

/-- What handing over a bill and its notice do to the tables: the slot becomes FREE, or waits in ENDED (R148). -/
theorem State.handAndNote_tables (v : State) (k : Nat) (b : Booking) (bill : Bill) :
    ∃ o, (v.handAndNote k b bill).bookings = tabSet v.bookings k o ∧ (o = none ∨ o = some { b with state := .ended bill }) := by
  unfold State.handAndNote
  rw [State.raise_bookings]
  rcases v.handBill_cases k b bill with ⟨-, e⟩ | ⟨-, e⟩ <;> rw [e]
  · exact ⟨none, State.writeBill_bookings .., .inl rfl⟩
  · exact ⟨some { b with state := .ended bill }, rfl, .inr rfl⟩

/-- The slot of a booking that holds no leg is given up with a bill: its HELD booking leaves the group, its sources lose their
references, and the bill is handed over (R72, R83). -/
theorem Sound.retire (h : Sound C B N s) (hb : s.booking k = some b) (he : b.state.isEnded = false) (hnone : s.NoLegs k)
    (hf : b'.fields = b.fields) (href : b'.ref = b.ref) (hpos : b'.position = b.position) (bill : Bill) :
    Sound C B N ((b.named.foldl State.loseRef (if b.state = .held then s.leaveGroup b.fields.group else s)).handAndNote k b' bill) := by
  have hleft : (if b.state = .held then s.leaveGroup b.fields.group else s).sources = s.sources := by split <;> simp
  have hbooks : (if b.state = .held then s.leaveGroup b.fields.group else s).bookings = s.bookings := by split <;> simp
  have hclosed := bookingClosed_sameFrame s
  have hframe0 : SameFrame s (if b.state = .held then s.leaveGroup b.fields.group else s) := by
    split
    · exact hclosed.leaveGroup _ (.refl s)
    · exact .refl s
  generalize hu : (if b.state = .held then s.leaveGroup b.fields.group else s) = u at *
  have hlost := loseRefs_sources_congr hleft b.named
  have hgroups : (b.named.foldl State.loseRef u).groups = u.groups := foldl_same State.groups _ (fun a i => by simp) _ _
  have hbookings : (b.named.foldl State.loseRef u).bookings = s.bookings :=
    (foldl_same State.bookings _ (fun a i => by simp) _ _).trans hbooks
  have hframe := hclosed.handAndNote k b' bill (hclosed.loseRefs b.named hframe0)
  generalize b.named.foldl State.loseRef u = v at *
  obtain ⟨o, hset, ho⟩ := v.handAndNote_tables k b' bill
  refine h.vacate hb hnone (o := o) (hset.trans (by rw [hbookings])) ?_ ?_ hframe ?_
  · rw [namesOf_active he]
    exact (State.handAndNote_sources ..).trans hlost
  · rw [hu]
    exact (State.handAndNote_groups ..).trans hgroups
  · rintro c rfl
    obtain ho | ho := ho
    · cases ho
    · cases ho
      exact ⟨(h.records k b hb).ended hf hpos bill, href, hf, rfl⟩

/-- An ending keeps the links (R83). -/
theorem Sound.endBooking (h : Sound C B N s) (hb : s.booking k = some b) (he : b.state.isEnded = false) (o : BillOutcome) (nt : Word) :
    Sound C B N (s.endBooking k b o nt) := by
  unfold State.endBooking
  by_cases hl : b.state.isLive = true
  · have h1 := h.removeLegs k b.selected fun _ => true
    have hb1 : (s.removeLegs k b.selected fun _ => true).1.booking k = some b :=
      (State.booking_congr (State.removeLegs_bookings ..) k).trans hb
    rw [if_pos hl]
    exact h1.retire (b' := (s.takeLegs k b fun _ => true).2.clear) hb1 he (h.removeLegs_noLegs hb) rfl rfl rfl _
  · rw [if_neg hl]
    exact h.retire (b' := b.clear) hb he (h.noLegs hb (by simpa using hl)) rfl rfl rfl _

theorem State.handAndNote_booking (s : State) {k j : Nat} (b : Booking) (bill : Bill) (hj : j ≠ k) :
    (s.handAndNote k b bill).booking j = s.booking j := by
  unfold State.handAndNote
  refine (State.booking_congr (State.raise_bookings ..) j).trans ?_
  rcases s.handBill_cases k b bill with ⟨-, e⟩ | ⟨-, e⟩ <;> rw [e]
  · exact (congrArg (tabFind · j) (State.writeBill_bookings s k bill)).trans (tabFind_del_ne _ hj)
  · exact State.setBooking_booking_ne s _ hj

theorem State.endBooking_booking (s : State) {k j : Nat} (b : Booking) (o : BillOutcome) (nt : Word) (hj : j ≠ k) :
    (s.endBooking k b o nt).booking j = s.booking j := by
  unfold State.endBooking
  refine (State.handAndNote_booking _ _ _ hj).trans (State.booking_congr ?_ j)
  refine (foldl_same State.bookings _ (fun a i => by simp) _ _).trans ?_
  have h1 : (if b.state.isLive then s.takeLegs k b fun _ => true else (s, b)).1.bookings = s.bookings := by
    split
    · exact State.removeLegs_bookings s k b.selected fun _ => true
    · rfl
  split
  · exact (State.leaveGroup_bookings ..).trans h1
  · exact h1

end

end Sys2Proof.Machine
end

