-- ==== Sys2Proof/Proofs/LiveLinks.lean ====
section
/-! The links stand through cuts, installs, LIVE entries and switches (R47, R49, R88, R89, R123). -/

namespace Sys2Proof.Machine

/-! ## Cuts end EXTENDED bookings and nothing else (R89) -/

theorem foldl_cutFirst_mem (es : List (Nat × Booking)) (e : Nat × Booking) : es.foldl cutFirst e ∈ e :: es := by
  induction es generalizing e with
  | nil => exact List.mem_singleton_self e
  | cons d es ih =>
    have hmem := ih (cutFirst e d)
    have hone : cutFirst e d = e ∨ cutFirst e d = d := by
      unfold cutFirst
      split
      · exact .inr rfl
      · exact .inl rfl
    rw [List.foldl_cons]
    obtain hm | hm := List.mem_cons.1 hmem
    · rw [hm]
      obtain h | h := hone <;> rw [h] <;> simp
    · exact List.mem_cons_of_mem _ (List.mem_cons_of_mem _ hm)

theorem State.toCut_extended {s : State} (ht : TablesInForm s) {at_ : SrcId → Leg → Bool} {k : Nat} (h : s.toCut at_ = some k) :
    ∃ b, s.booking k = some b ∧ b.state = .extended := by
  unfold State.toCut at h
  dsimp only at h
  split at h
  · cases h
  · next e es hes =>
    cases h
    have hmem := foldl_cutFirst_mem es e
    rw [← hes] at hmem
    obtain ⟨hin, hst⟩ := List.mem_filter.1 hmem
    simp only [Bool.and_eq_true, beq_iff_eq] at hst
    exact ⟨_, ht.mem_bookings.1 hin, hst.1⟩

theorem State.extendedHolding_extended {s : State} {q : Pair} {k : Nat} (h : s.extendedHolding q = some k) :
    ∃ b, s.booking k = some b ∧ b.state = .extended := by
  unfold State.extendedHolding at h
  obtain ⟨j, -, hj⟩ := Option.bind_eq_some_iff.1 h
  split at hj
  · next b hb =>
    split at hj
    · next hs =>
      cases hj
      exact ⟨b, hb, hs⟩
    · cases hj
  · cases hj

section
variable {P : State → Prop} {nt : Word} (ht : ∀ u, P u → TablesInForm u)
  (hP : ∀ u k b, P u → u.booking k = some b → b.state = .extended → P (u.endBooking k b .cut nt))
include hP

theorem cutSlot_extended {c : Cuts} {k : Nat} (hc : P c.1) (hk : ∃ b, c.1.booking k = some b ∧ b.state = .extended) :
    P (cutSlot nt c k).1 := by
  obtain ⟨b, hb, hs⟩ := hk
  have : (cutSlot nt c k).1 = c.1.endBooking k b .cut nt := by
    unfold cutSlot State.endSlot
    rw [hb]
  rw [this]
  exact hP _ k b hc hb hs

theorem cutPairs_extended (ps : List Pair) (c : Cuts) (hc : P c.1) : P (cutPairs nt ps c).1 := by
  refine foldl_keeps (fun c : Cuts => P c.1) _ (fun c q hc => ?_) ps c hc
  split
  · next k hk => exact cutSlot_extended hP hc (State.extendedHolding_extended hk)
  · exact hc

include ht

theorem cutWhile_extended (tooMuch : State → Bool) (at_ : SrcId → Leg → Bool) (n : Nat) (c : Cuts) (hc : P c.1) :
    P (cutWhile nt tooMuch at_ n c).1 := by
  induction n generalizing c with
  | zero => exact hc
  | succ n ih =>
    unfold cutWhile
    split
    · split
      · next k hk => exact ih _ (cutSlot_extended hP hc (State.toCut_extended (ht _ hc) hk))
      · exact hc
    · exact hc

theorem cutPlaces_extended (i : SrcId) (n : Nat) (c : Cuts) (hc : P c.1) : P (cutPlaces nt i n c).1 :=
  cutWhile_extended ht hP _ _ _ c hc

theorem clearGround_extended {s : State} (i : SrcId) (n : Nat) (ps : List Pair) (hs : P s) : P (s.clearGround nt i n ps).1 :=
  cutPlaces_extended ht hP _ _ _ <|
    foldl_keeps (fun c : Cuts => P c.1) _ (fun c _ hc => cutWhile_extended ht hP _ _ _ c hc) _ _ (cutPairs_extended hP ps (s, 0) hs)

end

/-- The links stand, and the slot holds this booking. -/
structure Standing (C B N : Prop) (k : Nat) (b : Booking) (s : State) : Prop where
  sound : Sound C B N s
  booking : s.booking k = some b

section
variable {C B N : Prop} {s : State} {k : Nat} {b : Booking}

theorem Standing.cut (hne : b.state ≠ .extended) (nt : Word) {u : State} {j : Nat} {c : Booking} (hu : Standing C B N k b u)
    (hc : u.booking j = some c) (hs : c.state = .extended) : Standing C B N k b (u.endBooking j c .cut nt) := by
  refine ⟨hu.sound.endBooking hc (by rw [hs]; rfl) .cut nt, ?_⟩
  rw [State.endBooking_booking]
  · exact hu.booking
  · rintro rfl
    rw [hu.booking] at hc
    cases hc
    exact hne hs

theorem Standing.clearGround (h : Standing C B N k b s) (hne : b.state ≠ .extended) (nt : Word) (i : SrcId) (n : Nat) (ps : List Pair) :
    Standing C B N k b (s.clearGround nt i n ps).1 :=
  clearGround_extended (fun _ hu => hu.sound.tables) (fun _ _ _ hu hc hs => hu.cut hne nt hc hs) i n ps h

theorem Standing.cutPlaces (h : Standing C B N k b s) (hne : b.state ≠ .extended) (nt : Word) (i : SrcId) (n : Nat) :
    Standing C B N k b (cutPlaces nt i n (s, 0)).1 :=
  cutPlaces_extended (fun _ hu => hu.sound.tables) (fun _ _ _ hu hc hs => hu.cut hne nt hc hs) i n (s, 0) h

/-! ## Installs (R47) -/

theorem legsOn_newLegs (p : Port) (k : Nat) (ps : List Pair) : legsOn p (ps.map (newLeg k)) = pairsOn p ps := by
  unfold legsOn pairsOn
  rw [List.countP_map]
  rfl

/-- What a TAKEN install has made sure of: no pair of the list is held, and every port has room for its legs (R47). -/
theorem State.installCheck_taken {i : SrcId} {ps : List Pair} {x : Source} (hx : s.source i = some x)
    (h : s.installCheck i ps = .taken) :
    (∀ q ∈ ps, s.pairHeld q = false) ∧ ∀ q ∈ ps, s.installed q.port + x.bandwidth * pairsOn q.port ps ≤ (s.port q.port).capacity := by
  simp only [State.installCheck, hx] at h
  split at h
  · cases h
  · next hheld =>
    split at h
    · cases h
    · next hroom =>
      simp only [List.any_eq_true, not_exists, not_and, Bool.not_eq_true, decide_eq_true_eq, not_lt] at hheld hroom
      exact ⟨hheld, hroom⟩

/-- An install on the selected source of a live booking keeps the links (R47). -/
theorem Sound.install (h : Sound C B N s) (hb : s.booking k = some b) (hlive : b.state.isLive = true) {ps : List Pair} (hn : ps.Nodup) :
    Sound C B N (s.install k b.selected ps) := by
  rcases s.install_cases k b.selected ps with e | ⟨x, hx, htaken, -, e⟩ <;> rw [e]
  · exact h
  · obtain ⟨hfree, hroom⟩ := State.installCheck_taken hx htaken
    refine h.setSource_append hx hb hlive rfl (fun l hl => ?_) (fun q => ?_) (fun c p => ?_)
    · obtain ⟨q, -, rfl⟩ := List.mem_map.1 hl
      rfl
    · have hcount : ((ps.map (newLeg k)).countP fun l => l.pair == q) = ps.count q := by
        rw [List.countP_map]
        rfl
      rw [hcount]
      by_cases hq : q ∈ ps
      · have := List.nodup_iff_count_le_one.1 hn q
        rw [State.pairTally_of_free (hfree q hq)]
        omega
      · rw [List.count_eq_zero.2 hq]
        exact h.pairs q
    · rw [legsOn_newLegs]
      by_cases hp : ∃ q ∈ ps, q.port = p
      · obtain ⟨q, hq, rfl⟩ := hp
        exact hroom q hq
      · have hnone : pairsOn p ps = 0 := List.countP_eq_zero.2 fun q hq he => hp ⟨q, hq, by simpa using he⟩
        rw [hnone]
        exact (h.rated c).installed p

theorem State.install_setBooking (s : State) (k j : Nat) (i : SrcId) (ps : List Pair) (b : Booking) :
    (s.install k i ps).setBooking j b = (s.setBooking j b).install k i ps := by
  have hcheck : (s.setBooking j b).installCheck i ps = s.installCheck i ps := rfl
  have hsource : (s.setBooking j b).source i = s.source i := rfl
  unfold State.install
  rw [hcheck, hsource]
  split <;> rfl

theorem State.install_setGroup (s : State) (k : Nat) (i : SrcId) (ps : List Pair) (g : Nat) (y : Group) :
    (s.install k i ps).setGroup g y = (s.setGroup g y).install k i ps := by
  unfold State.setGroup
  split
  · rfl
  · have hcheck : State.installCheck { s with groups := s.groups.setIfInBounds (groupPlace g) y } i ps = s.installCheck i ps := rfl
    have hsource : State.source { s with groups := s.groups.setIfInBounds (groupPlace g) y } i = s.source i := rfl
    unfold State.install
    rw [hcheck, hsource]
    split <;> rfl

theorem State.install_leaveGroup (s : State) (k : Nat) (i : SrcId) (ps : List Pair) (g : Nat) :
    (s.install k i ps).leaveGroup g = (s.leaveGroup g).install k i ps := by
  have hgroup : (s.install k i ps).groupOf g = s.groupOf g := State.groupOf_congr (State.install_groups ..) g
  unfold State.leaveGroup
  rw [hgroup]
  cases s.groupOf g with
  | none => rfl
  | some x => exact State.install_setGroup ..

end

/-! ## States of a booking on a tick, no modification waiting -/

section
variable {C B : Prop} {s : State} {k : Nat} {b b' : Booking}

/-- A record with no modification waiting is in its form where its position is. -/
theorem RecordForm.moved (h : RecordForm b) (hf : b'.fields = b.fields) (hp : b'.pending = none)
    (hb : b'.state = .booked ∨ b'.state = .preroll ∨ b'.state = .held → b'.position = .onMain)
    (hs : b'.position = .onSpare → b.fields.spare.isSome) : RecordForm b' :=
  ⟨hf ▸ h.fields, hb, fun he => hf ▸ hs he, fun _ m hm => by rw [hp] at hm; cases hm⟩

theorem BookingState.isLive_iff {st : BookingState} : st.isLive = true ↔ st = .live ∨ st = .overrun ∨ st = .extended := by
  cases st <;> simp [BookingState.isLive]

theorem BookingState.not_ended_of_live {st : BookingState} (h : st.isLive = true) : st.isEnded = false := by
  obtain rfl | rfl | rfl := BookingState.isLive_iff.1 h <;> rfl

theorem BookingState.not_held_of_live {st : BookingState} (h : st.isLive = true) : st ≠ .held := by
  obtain rfl | rfl | rfl := BookingState.isLive_iff.1 h <;> simp

/-- A live booking goes on in another live state (R84, R91). -/
theorem Sound.liveState (h : Sound C B True s) (hb : s.booking k = some b) (hl : b.state.isLive = true) {st : BookingState}
    (hst : st.isLive = true) : Sound C B True (s.setBooking k { b with state := st }) := by
  have hp := h.settled trivial k b hb (BookingState.not_ended_of_live hl)
  have hr := h.records k b hb
  refine h.setBooking_fields hb rfl rfl rfl ?_ ?_ (.inr ⟨hst.trans hl.symm, rfl⟩) (hr.moved rfl hp (fun hs => ?_) hr.spare)
  · exact (BookingState.not_ended_of_live hst).trans (BookingState.not_ended_of_live hl).symm
  · rw [heldOf_notHeld (BookingState.not_held_of_live hl), heldOf_notHeld (BookingState.not_held_of_live hst)]
  · obtain rfl | rfl | rfl := BookingState.isLive_iff.1 hst <;> simp at hs

theorem State.choice_spare {s : State} {b : Booking} (h : s.choice b = .onSpare) : b.fields.spare.isSome := by
  unfold State.choice at h
  split at h
  · cases h
  · next hs => exact Option.isSome_iff_ne_none.2 hs

/-- A PREROLL or HELD booking enters LIVE, out of its group's count, before its legs are installed (R74, R88). -/
theorem Sound.enter (h : Sound C B True s) (hb : s.booking k = some b) (hst : b.state = .preroll ∨ b.state = .held)
    (hlive : b'.state = .live) (href : b'.ref = b.ref) (hf : b'.fields = b.fields) (hp : b'.pending = b.pending)
    (hpos : b'.position = .onSpare → b.fields.spare.isSome) :
    Sound C B True (if b.state = .held then (s.setBooking k b').leaveGroup b.fields.group else s.setBooking k b') := by
  have hnot : b.state.isLive = false ∧ b.state.isEnded = false := by obtain hs | hs := hst <;> rw [hs] <;> exact ⟨rfl, rfl⟩
  have hnone := h.noLegs hb hnot.1
  have hpend : b'.pending = none := hp.trans (h.settled trivial k b hb hnot.2)
  have hrec : RecordForm b' := (h.records k b hb).moved hf hpend (fun hs => by simp [hlive] at hs) hpos
  have hended : b'.state.isEnded = b.state.isEnded := by rw [hlive, hnot.2]; rfl
  have hheld' : heldOf (some b') = none := heldOf_notHeld (by simp [hlive])
  split
  · next hheld =>
    have hnames : namesOf (some b') = namesOf (s.booking k) := by rw [hb]; exact namesOf_congr hf hp hended
    refine h.rewrite (k := k) (o := some b') (n := 0) ⟨by simp [State.setBooking, tabSet], ?_, fun p => ?_, fun j hj => ?_⟩ ⟨?_, ?_, ?_⟩
      (h.groups_leave hb hheld (t := (s.setBooking k b').leaveGroup b.fields.group) ?_ hheld') ?_ ?_ ?_
    · rw [hnames, moveRefs_self]
      simp
    · unfold State.port
      simp
    · simpa using hj
    · exact fun i x l hx hl hk => absurd hk (hnone i x l hx hl)
    · rintro _ ⟨⟩
      exact hrec
    · rintro _ ⟨⟩
      exact .inl ⟨b, hb, href⟩
    · unfold State.leaveGroup
      rw [show (s.setBooking k b').groupOf b.fields.group = s.groupOf b.fields.group from rfl]
      cases s.groupOf b.fields.group with
      | none => rfl
      | some x =>
        dsimp only
        unfold State.setGroup
        split <;> rfl
    · rw [hnames]
      exact fun i hi => hi
    · rintro _ ⟨⟩
      exact ⟨b, hb, by rw [hf]⟩
    · rintro - _ ⟨⟩ -
      exact hpend
  · next hheld =>
    exact h.setBooking_fields hb href hf hp hended (by rw [hheld', heldOf_notHeld hheld]) (.inl hnone) hrec

/-- The record that LIVE entry writes (R88). -/
def State.entered (s : State) (b : Booking) (nt : Word) : Booking :=
  { b.stopCountdowns with
    meter := { b.meter.snap (snapshotOf b.fields.tariffClass (s.tariff b.fields.tariffClass)) with firstLive := some nt }
    position := s.choice b
    state := .live }

/-- The state in which LIVE entry finds the ground cleared for its legs (R88, R89). -/
def State.ground (s : State) (b : Booking) (nt : Word) : State :=
  (s.clearGround nt (s.entered b nt).selected b.fields.bandwidth b.fields.legs).1

theorem State.enterLive_eq (s : State) (k : Nat) (b : Booking) (nt : Word) (overrun : Bool) :
    ∃ c, s.enterLive k b nt overrun
      = State.raise ((if b.state = .held then ((s.ground b nt).setBooking k (s.entered b nt)).leaveGroup b.fields.group
          else (s.ground b nt).setBooking k (s.entered b nt)).install k (s.entered b nt).selected b.fields.legs) c := by
  have hcomm : (if b.state = .held then ((s.ground b nt).setBooking k (s.entered b nt)).leaveGroup b.fields.group
      else (s.ground b nt).setBooking k (s.entered b nt)).install k (s.entered b nt).selected b.fields.legs
      = if b.state = .held then
          (((s.ground b nt).install k (s.entered b nt).selected b.fields.legs).setBooking k (s.entered b nt)).leaveGroup b.fields.group
        else ((s.ground b nt).install k (s.entered b nt).selected b.fields.legs).setBooking k (s.entered b nt) := by
    split
    · rw [← State.install_leaveGroup, ← State.install_setBooking]
    · rw [← State.install_setBooking]
  rw [hcomm]
  exact ⟨_, rfl⟩

/-- LIVE entry keeps the links (R88). -/
theorem Sound.enterLive (h : Sound C B True s) (hb : s.booking k = some b) (hst : b.state = .preroll ∨ b.state = .held) (nt : Word)
    (overrun : Bool) : Sound C B True (s.enterLive k b nt overrun) := by
  obtain ⟨c, e⟩ := s.enterLive_eq k b nt overrun
  have hne : b.state ≠ .extended := by obtain hs | hs := hst <;> rw [hs] <;> simp
  obtain ⟨hsound, hb1⟩ := Standing.clearGround ⟨h, hb⟩ hne nt (s.entered b nt).selected b.fields.bandwidth b.fields.legs
  have henter := hsound.enter (b' := s.entered b nt) hb1 hst rfl rfl rfl rfl State.choice_spare
  rw [e]
  refine Sound.of_same' ?_ (State.raise_bookings ..) (State.raise_sources ..) (State.raise_groups ..) (State.raise_ports ..)
    (State.raise_engine ..)
  refine henter.install (b := s.entered b nt) ?_ rfl (h.records k b hb).fields.legs
  split
  · exact (State.booking_congr (State.leaveGroup_bookings ..) k).trans (State.setBooking_booking_self ..)
  · exact State.setBooking_booking_self ..

/-! ## Switches (R123) -/

theorem Booking.selected_eq (b : Booking) : b.selected = b.fields.at b.position := by
  unfold Booking.selected Fields.at
  cases b.position <;> rfl

/-- The main and the spare of a booking are two sources. -/
theorem FieldsForm.at_ne {f : Fields} (h : FieldsForm f) (hs : f.spare.isSome) {p q : Position} (hpq : p ≠ q) : f.at p ≠ f.at q := by
  obtain ⟨i, hi⟩ := Option.isSome_iff_exists.1 hs
  have hne := h.spare
  rw [hi] at hne
  have hne : i ≠ f.main := fun e => hne (e ▸ rfl)
  cases p <;> cases q <;> simp [Fields.at, hi, hne, hne.symm] at hpq ⊢

theorem countP_split (ls : List Leg) (p : Leg → Bool) (k : Nat) :
    (ls.filter fun l => l.owner != k).countP p + (ls.filter fun l => l.owner == k).countP p = ls.countP p := by
  have := List.countP_eq_countP_filter_add ls p fun l => l.owner == k
  rw [this, Nat.add_comm]
  rfl

/-- A switch whose move is TAKEN keeps the links (R49, R123). -/
theorem Sound.switch (h : Sound C B True s) (hb : s.booking k = some b) (hl : b.state.isLive = true) (hs : b.fields.spare.isSome)
    {to_ : Position} (hto : to_ ≠ b.position) {v : State} (hv : s.moveLegs k b.selected (b.fields.at to_) = (.taken, v))
    (href : b'.ref = b.ref) (hf : b'.fields = b.fields) (hp : b'.pending = b.pending) (hst : b'.state = b.state)
    (hpos : b'.position = to_) : Sound C B True (v.setBooking k b') := by
  have hended := BookingState.not_ended_of_live hl
  have hr := h.records k b hb
  rcases s.moveLegs_cases k b.selected (b.fields.at to_) with e | ⟨x, y, hx, hy, -, e⟩
  · rw [e] at hv
    cases hv
  rw [e] at hv
  cases hv
  have hxid : x.id = b.selected := h.tables.source_id hx
  have hne : b.fields.at to_ ≠ x.id := by
    rw [hxid, Booking.selected_eq]
    exact hr.fields.at_ne hs hto
  have h1 : Sound C B True (s.setSource { x with legs := x.legs.filter fun l => l.owner != k }) :=
    h.setSource_fewer hx rfl rfl (List.filter_sublist.map _)
  have hnone : (s.setSource { x with legs := x.legs.filter fun l => l.owner != k }).NoLegs k := by
    intro i z l hz hl' hk
    rw [State.setSource_source] at hz
    split at hz
    · cases hz
      have := (List.mem_filter.1 hl').2
      simp [hk] at this
    · next hi => exact hi ((h.legs_of hb hz hl' hk).2.symm.trans hxid.symm)
  have hrec : RecordForm b' := hr.moved hf (hp.trans (h.settled trivial k b hb hended)) (fun he => by
    rw [hst] at he
    obtain hs | hs | hs := BookingState.isLive_iff.1 hl <;> rw [hs] at he <;> simp at he) fun _ => hs
  have h2 := h1.setBooking_fields (b' := b') hb href hf hp (by rw [hst]) (by unfold heldOf; simp only [Option.bind_some, hst, hf])
    (.inl hnone) hrec
  have hy2 : ((s.setSource { x with legs := x.legs.filter fun l => l.owner != k }).setBooking k b').source (b.fields.at to_)
      = some y := (State.setSource_source_ne s { x with legs := x.legs.filter fun l => l.owner != k } hne).trans hy
  refine h2.setSource_append hy2 (State.setBooking_booking_self ..) (by rw [hst]; exact hl) (by rw [Booking.selected_eq, hf, hpos])
    (fun l hl => by simpa using (List.mem_filter.1 hl).2) (fun q => ?_) (fun c p => ?_)
  · have hsum := tabSum_setSource (y := { x with legs := x.legs.filter fun l => l.owner != k }) h.tables hx rfl
      fun x => x.legs.countP fun l => l.pair == q
    have hsplit := countP_split x.legs (fun l => l.pair == q) k
    have := h.pairs q
    dsimp only at hsum
    unfold State.pairTally at this ⊢
    rw [show ((s.setSource { x with legs := x.legs.filter fun l => l.owner != k }).setBooking k b').sources
      = (s.setSource { x with legs := x.legs.filter fun l => l.owner != k }).sources from rfl]
    omega
  · have hsum := tabSum_setSource (y := { x with legs := x.legs.filter fun l => l.owner != k }) h.tables hx rfl
      fun x => x.bandwidth * legsOn p x.legs
    have hsplit := congrArg (x.bandwidth * ·) (countP_split x.legs (fun l => l.pair.port == p) k)
    have hxb : x.bandwidth = b.fields.bandwidth := (h.rated c).rates k b b.selected x hb
      (by rw [namesOf_active hended]; exact selected_mem_named b) hx
    have hyb : y.bandwidth = b.fields.bandwidth := (h.rated c).rates k b (b.fields.at to_) y hb (by
      rw [namesOf_active hended]
      refine mem_named.2 (.inl ?_)
      obtain ⟨j, hj⟩ := Option.isSome_iff_exists.1 hs
      cases to_ <;> simp [Fields.at, Fields.named, hj]) hy
    have := (h.rated c).installed p
    rw [State.installed_eq] at this ⊢
    rw [show ((s.setSource { x with legs := x.legs.filter fun l => l.owner != k }).setBooking k b').sources
      = (s.setSource { x with legs := x.legs.filter fun l => l.owner != k }).sources from rfl]
    rw [show ((s.setSource { x with legs := x.legs.filter fun l => l.owner != k }).setBooking k b').port p = s.port p from rfl]
    simp only [legsOn, Nat.mul_add] at hsum hsplit this ⊢
    rw [hyb, ← hxb]
    omega

end

end Sys2Proof.Machine
end

