-- ==== Sys2Proof/Proofs/TickLinks.lean ====
section
/-! The links stand through the stages of a booking tick (chapter 5, section 7.4). -/

namespace Sys2Proof.Machine

section
variable {C B : Prop} {s : State} {k : Nat} {b : Booking}

/-! ## The selector (R119 to R124) -/

/-- The record after a switch that may or may not have been made, at the slot itself (R123). -/
theorem Standing.trySwitch (h : Standing C B True k b s) (hl : b.state.isLive = true) (hs : b.fields.spare.isSome) {to_ : Position}
    (hto : to_ ≠ b.position) (cause : SwitchCause) (nt : Word) :
    Sound C B True (s.trySwitch k b to_ cause nt)
      ∧ ((s.trySwitch k b to_ cause nt).booking k = some b
        ∨ ∃ b', (s.trySwitch k b to_ cause nt).booking k = some b' ∧ b'.position = to_) := by
  have hcuts : Standing C B True k b
      (if b.state = .extended then ((s, 0) : Cuts) else Machine.cutPlaces nt (b.fields.at to_) (s.ownedOn k b.selected) (s, 0)).1 := by
    split
    · exact h
    · next hne => exact h.cutPlaces hne nt _ _
  unfold State.trySwitch
  dsimp only
  generalize (if b.state = .extended then ((s, 0) : Cuts) else Machine.cutPlaces nt (b.fields.at to_) (s.ownedOn k b.selected) (s, 0)) = c at hcuts ⊢
  split
  · next v hv =>
    have hswitch := hcuts.sound.switch (b' := { b with
      position := to_
      holdOffLeft := none
      wtrLeft := none
      meter := b.meter.countSwitch cause.isForced }) hcuts.booking hl hs hto hv rfl rfl rfl rfl rfl
    refine ⟨hswitch.of_same' (State.raise_bookings ..) (State.raise_sources ..) (State.raise_groups ..) (State.raise_ports ..)
      (State.raise_engine ..), .inr ⟨_, (State.booking_congr (State.raise_bookings ..) k).trans (State.setBooking_booking_self ..), rfl⟩⟩
  · exact ⟨hcuts.sound, .inl hcuts.booking⟩

theorem Standing.retouch (h : Standing C B True k b s) {b' : Booking} (ha : Alike b b') : Standing C B True k b' (s.setBooking k b') :=
  ⟨h.sound.retouch h.booking ha, State.setBooking_booking_self ..⟩

theorem State.spare_of_failure {f : Fields} (h : s.failureCondition f = true) : f.spare.isSome := by
  unfold State.failureCondition State.spareWatch at h
  cases hs : f.spare with
  | some i => rfl
  | none => rw [hs] at h; simp at h

theorem Standing.forceSwitch (h : Standing C B True k b s) (hl : b.state.isLive = true) {to_ : Position} (hto : to_ ≠ b.position)
    (cause : SwitchCause) (nt : Word) : Sound C B True (s.forceSwitch k b to_ cause nt) := by
  have h1 := h.retouch (b' := { b with holdOffLeft := none, wtrLeft := none }) ⟨rfl, rfl, rfl, rfl, rfl⟩
  unfold State.forceSwitch
  dsimp only
  split
  · exact h1.sound
  · next hs => exact (h1.trySwitch hl (Option.isSome_iff_ne_none.2 hs) hto cause nt).1

theorem Standing.holdOffRule (h : Standing C B True k b s) (hl : b.state.isLive = true) (hpos : b.position = .onMain) (nt : Word) :
    Sound C B True (s.holdOffRule k b nt) := by
  unfold State.holdOffRule
  split
  · next hf =>
    have h1 := h.retouch (b' := { b with holdOffLeft := some (countDown b.fields.holdOff b.holdOffLeft) }) ⟨rfl, rfl, rfl, rfl, rfl⟩
    dsimp only
    split
    · exact (h1.trySwitch hl (State.spare_of_failure hf) (by simp [hpos]) .failure nt).1
    · exact h1.sound
  · exact (h.retouch (b' := { b with holdOffLeft := none }) ⟨rfl, rfl, rfl, rfl, rfl⟩).sound

theorem Standing.wtrRule (h : Standing C B True k b s) (hl : b.state.isLive = true) (hpos : b.position = .onSpare) (nt : Word) :
    Sound C B True (s.wtrRule k b nt) := by
  have hs := (h.sound.records k b h.booking).spare hpos
  unfold State.wtrRule
  split
  · have h1 := h.retouch (b' := { b with wtrLeft := some (countDown b.fields.wtr b.wtrLeft) }) ⟨rfl, rfl, rfl, rfl, rfl⟩
    dsimp only
    split
    · exact (h1.trySwitch hl hs (by simp [hpos]) .restore nt).1
    · exact h1.sound
  · exact (h.retouch (b' := { b with wtrLeft := none }) ⟨rfl, rfl, rfl, rfl, rfl⟩).sound

theorem Standing.onSpareRule (h : Standing C B True k b s) (hl : b.state.isLive = true) (hpos : b.position = .onSpare) (nt : Word) :
    Sound C B True (s.onSpareRule k b nt) := by
  have hs := (h.sound.records k b h.booking).spare hpos
  obtain ⟨h1, hb1⟩ := h.trySwitch hl hs (to_ := .onMain) (by simp [hpos]) .spareFailed nt
  unfold State.onSpareRule
  split
  · dsimp only
    split
    · next b1 hb =>
      split
      · exact h1
      · next hp =>
        obtain hb1 | ⟨b', hb', hp'⟩ := hb1
        · rw [hb1] at hb
          cases hb
          exact Standing.wtrRule ⟨h1, hb1⟩ hl hpos nt
        · rw [hb'] at hb
          cases hb
          exact absurd hp' hp
    · exact h1
  · exact h.wtrRule hl hpos nt

theorem Standing.runSelector (h : Standing C B True k b s) (hl : b.state.isLive = true) (nt : Word) :
    Sound C B True (s.runSelector k b nt) := by
  unfold State.runSelector
  split
  · next hp => exact h.forceSwitch hl (by simp [hp]) _ _
  · next hp => exact h.forceSwitch hl (by simp [hp]) _ _
  · next hp => exact h.forceSwitch hl (by simp [hp]) _ _
  · next hp => exact h.holdOffRule hl hp _
  · next hp => exact h.onSpareRule hl hp _
  · exact (h.retouch (b' := { b with holdOffLeft := none, wtrLeft := none }) ⟨rfl, rfl, rfl, rfl, rfl⟩).sound

theorem Sound.selectorSlot (h : Sound C B True s) (nt : Word) (k : Nat) : Sound C B True (selectorSlot nt s k) := by
  unfold Machine.selectorSlot
  split
  · next b hb =>
    split
    · exact h
    · next hl =>
      have hl : b.state.isLive = true := by simpa using hl
      split
      · exact (Standing.retouch ⟨h, hb⟩ (b' := b.stopCountdowns) ⟨rfl, rfl, rfl, rfl, rfl⟩).runSelector hl nt
      · exact Standing.runSelector ⟨h, hb⟩ hl nt
  · exact h

theorem Sound.meterSlot (h : Sound C B True s) (t : Tick) (k : Nat) : Sound C B True (meterSlot t s k) := by
  unfold Machine.meterSlot
  split
  · exact h
  · next b hb =>
    split
    · exact h.retouch hb ⟨rfl, rfl, rfl, rfl, rfl⟩
    · split
      · exact h.retouch hb ⟨rfl, rfl, rfl, rfl, rfl⟩
      · exact h

/-! ## Stage 3 (R86 to R91) -/

theorem Sound.passPlan (h : Sound C B True s) (nt : Word) (n : TickNote) (k : Nat) : Sound C B True (passPlan nt n k s) := by
  unfold Machine.passPlan
  split
  · next b hb =>
    split
    · next hs => exact h.liveState hb (by rw [hs.1]; rfl) rfl
    · exact h
  · exact h

theorem Standing.goLive (h : Standing C B True k b s) (hst : b.state = .preroll ∨ b.state = .held) (nt : Word) (n : TickNote) :
    Sound C B True (goLive nt n k b s) :=
  (h.sound.enterLive h.booking hst nt _).passPlan nt n k

theorem State.isHolding_iff (h : s.isHolding b = true) : ∃ x, s.groupOf b.fields.group = some x ∧ x.state = .holding := by
  unfold State.isHolding at h
  split at h
  · next x hx => exact ⟨x, hx, by simpa using h⟩
  · cases h

/-- A PREROLL booking whose group is HOLDING enters HELD (R74, R86). -/
theorem Standing.hold (h : Standing C B True k b s) (hst : b.state = .preroll) (hg : s.isHolding b = true) :
    Sound C B True ((s.setBooking k { b with state := .held }).joinGroup b.fields.group) := by
  obtain ⟨x, hx, hstate⟩ := State.isHolding_iff hg
  have hb := h.booking
  have hsound := h.sound
  have hr := hsound.records k b hb
  have hnone := hsound.noLegs hb (by rw [hst]; rfl)
  have hpend := hsound.settled trivial k b hb (by rw [hst]; rfl)
  have hnames : namesOf (some { b with state := .held }) = namesOf (s.booking k) := by
    rw [hb]
    exact namesOf_congr rfl rfl (by rw [hst]; rfl)
  refine hsound.rewrite (k := k) (o := some { b with state := .held }) (n := 0)
    ⟨by simp [State.setBooking, tabSet], ?_, fun p => by simp [State.port], fun j hj => by simpa using hj⟩ ⟨?_, ?_, ?_⟩
    (hsound.groups_join (b := { b with state := .held }) hx hstate rfl ?_ ?_) ?_ ?_ ?_
  · rw [hnames, moveRefs_self]
    simp
  · exact fun i x l hx hl hk => absurd hk (hnone i x l hx hl)
  · rintro _ ⟨⟩
    exact hr.moved rfl hpend (fun _ => hr.before (.inr (.inl hst))) hr.spare
  · rintro _ ⟨⟩
    exact .inl ⟨b, hb, rfl⟩
  · unfold State.joinGroup
    rw [show (s.setBooking k { b with state := .held }).groupOf b.fields.group = s.groupOf b.fields.group from rfl, hx]
    dsimp only
    unfold State.setGroup
    split <;> rfl
  · rw [hb, heldOf_notHeld (by simp [hst])]
  · rw [hnames]
    exact fun i hi => hi
  · rintro _ ⟨⟩
    exact ⟨b, hb, rfl⟩
  · rintro - _ ⟨⟩ -
    exact hpend

theorem Standing.passStart (h : Standing C B True k b s) (hst : b.state = .preroll) (nt : Word) (n : TickNote) :
    Sound C B True (passStart nt n k b s) := by
  unfold Machine.passStart
  split
  · split
    · next hg => exact h.hold hst hg
    · exact h.goLive (.inl hst) nt n
  · exact h.sound

/-- A BOOKED booking enters PREROLL (R86). -/
theorem Standing.preroll (h : Standing C B True k b s) (hst : b.state = .booked) :
    Standing C B True k { b with state := .preroll } (s.setBooking k { b with state := .preroll }) := by
  have hr := h.sound.records k b h.booking
  refine ⟨h.sound.setBooking_fields h.booking rfl rfl rfl (by rw [hst]; rfl) ?_ (.inl (h.sound.noLegs h.booking (by rw [hst]; rfl)))
    (hr.moved rfl (h.sound.settled trivial k b h.booking (by rw [hst]; rfl)) (fun _ => hr.before (.inl hst)) hr.spare),
    State.setBooking_booking_self ..⟩
  rw [heldOf_notHeld (by simp), heldOf_notHeld (by simp [hst])]

theorem Standing.passEarly (h : Standing C B True k b s) (hst : b.state = .booked ∨ b.state = .preroll) (t : Tick) (n : TickNote) :
    Sound C B True (passEarly t n k b s) := by
  unfold Machine.passEarly
  split
  · exact h.sound.endBooking h.booking (by obtain hs | hs := hst <;> rw [hs] <;> rfl) _ _
  · split
    · next hbooked =>
      split
      · exact (h.preroll hbooked).passStart rfl t.nt n
      · exact h.sound
    · next hbooked => exact h.passStart (hst.resolve_left hbooked) t.nt n

theorem Standing.passHeld (h : Standing C B True k b s) (hst : b.state = .held) (nt : Word) (n : TickNote) :
    Sound C B True (passHeld nt n k b s) := by
  unfold Machine.passHeld
  split
  · exact h.sound
  · exact h.goLive (.inr hst) nt n

theorem Sound.installAdded (h : Sound C B True s) (nt : Word) {added : List Pair} (hn : added.Nodup) (k : Nat) :
    Sound C B True (installAdded nt added k s) := by
  unfold Machine.installAdded
  split
  · next b hb =>
    split
    · next hs =>
      have hne : b.state ≠ .extended := by obtain hs | hs := hs.1 <;> rw [hs] <;> simp
      obtain ⟨h1, hb1⟩ := Standing.clearGround ⟨h, hb⟩ hne nt b.selected b.fields.bandwidth added
      exact h1.install hb1 (by obtain hs | hs := hs.1 <;> rw [hs] <;> rfl) hn
    · exact h
  · exact h

/-- The legs that each modification of the tick added are named once. -/
def Notes.OnceEach (notes : Notes) : Prop := ∀ e ∈ notes, e.2.added.Nodup

theorem Notes.OnceEach.noteOf {notes : Notes} (h : notes.OnceEach) (k : Nat) : (noteOf notes k).added.Nodup := by
  unfold Machine.noteOf
  cases hn : tabFind notes k with
  | none => exact List.nodup_nil
  | some n => exact h _ (tabFind_mem hn)

theorem Sound.stage3Slot (h : Sound C B True s) (t : Tick) {notes : Notes} (hn : notes.OnceEach) (k : Nat) :
    Sound C B True (stage3Slot t notes s k) := by
  unfold Machine.stage3Slot
  split
  · exact h
  · next b hb =>
    dsimp only
    split
    · next hs => exact Standing.passEarly ⟨h, hb⟩ (.inl hs) t _
    · next hs => exact Standing.passEarly ⟨h, hb⟩ (.inr hs) t _
    · next hs => exact Standing.passHeld ⟨h, hb⟩ hs t.nt _
    · exact (h.passPlan t.nt _ k).installAdded t.nt (hn.noteOf k) k
    · exact h.installAdded t.nt (hn.noteOf k) k
    · exact h

/-! ## Stage 2 (R84, R85) -/

theorem Standing.atWindowEnd (h : Standing C B True k b s) (t : Tick) : Sound C B True (atWindowEnd t k b s) := by
  unfold Machine.atWindowEnd
  split
  · next hs => exact h.sound.endBooking h.booking (by rw [hs]; rfl) _ _
  · next hs =>
    split
    · exact h.sound.liveState h.booking (by rw [hs]; rfl) rfl
    · exact h.sound.endBooking h.booking (by rw [hs]; rfl) _ _
  · next hs =>
    split
    · exact h.sound.liveState h.booking (by rw [hs]; rfl) rfl
    · exact h.sound.endBooking h.booking (by rw [hs]; rfl) _ _
  · next hs =>
    split
    · exact h.sound
    · exact h.sound.endBooking h.booking (by rw [hs]; rfl) _ _
  · exact h.sound

theorem Sound.dropLegs (h : Sound C B True s) (k : Nat) (dropped : List Pair) : Sound C B True (dropLegs k dropped s) := by
  unfold Machine.dropLegs
  split
  · next b hb =>
    split
    · have h1 := h.removeLegs k b.selected fun x => dropped.contains x
      have hb1 := (State.booking_congr (s.removeLegs_bookings k b.selected fun x => dropped.contains x) k).trans hb
      exact h1.retouch (b' := (s.takeLegs k b fun x => dropped.contains x).2) hb1 ⟨rfl, rfl, rfl, rfl, rfl⟩
    · exact h
  · exact h

theorem Sound.stage2Slot (h : Sound C B True s) (t : Tick) (notes : Notes) (k : Nat) : Sound C B True (stage2Slot t notes s k) := by
  unfold Machine.stage2Slot
  split
  · exact h
  · next b hb =>
    refine Sound.dropLegs ?_ _ _
    split
    · exact Standing.atWindowEnd ⟨h, hb⟩ t
    · exact h

end

/-! ## Stage 1 (R80 to R82) -/

section
variable {C B : Prop} {s : State} {k : Nat} {b : Booking}

theorem stateBack_same (nt : Word) (f : Fields) (n : TickNote) (st : BookingState) :
    (stateBack nt f n st).isLive = st.isLive ∧ (stateBack nt f n st).isEnded = st.isEnded
      ∧ (stateBack nt f n st = .held ↔ st = .held) ∧ (stateBack nt f n st = .booked ∨ stateBack nt f n st = .preroll →
        st = .booked ∨ st = .preroll) := by
  unfold stateBack
  split
  · split <;> simp [BookingState.isLive, BookingState.isEnded]
  · split <;> simp [BookingState.isLive, BookingState.isEnded]
  · split
    · split <;> simp [BookingState.isLive, BookingState.isEnded]
    · simp [BookingState.isLive, BookingState.isEnded]
  · simp

theorem selectorAfter_position (b : Booking) (f : Fields) : (selectorAfter b f).position = b.position := by
  unfold selectorAfter
  split <;> rfl

theorem selectorAfter_ref (b : Booking) (f : Fields) : (selectorAfter b f).ref = b.ref := by
  unfold selectorAfter
  split <;> rfl

/-- The sources of a record that a modification was applied to were named before (R35, R80). -/
theorem applied_named {nt : Word} {m : Mod} (hm : b.pending = some m) : ∀ i ∈ (applied nt b m).1.named, i ∈ b.named := by
  intro i hi
  rw [mem_named] at hi ⊢
  obtain hi | ⟨m', hm', -⟩ := hi
  · have hi : i ∈ (m.apply b.fields).named := hi
    obtain rfl | hi := List.mem_cons.1 hi
    · cases hmain : m.main with
      | none => exact .inl (by simp [Mod.apply, hmain, Fields.named])
      | some j => exact .inr ⟨m, hm, by simp [Mod.apply, hmain, Mod.named]⟩
    · cases hspare : m.spare with
      | none =>
        rw [Mod.apply, hspare] at hi
        exact .inl (List.mem_cons_of_mem _ hi)
      | some o =>
        rw [Mod.apply, hspare] at hi
        exact .inr ⟨m, hm, List.mem_append_right _ (by rw [hspare]; exact hi)⟩
  · cases hm'

/-- A modification that is applied leaves a live booking's selected source as it was (R67, R80). -/
theorem ModForm.applied_selected {m : Mod} (h : ModForm b m) (hl : b.state.isLive = true) (nt : Word) :
    (applied nt b m).1.selected = b.selected := by
  have hmain : m.main = none := by
    cases hm : m.main with
    | none => rfl
    | some i =>
      have := h.early (.inl (by simp [hm]))
      obtain hs | hs := this <;> rw [hs] at hl <;> cases hl
  rw [Booking.selected_eq, Booking.selected_eq]
  rw [show (applied nt b m).1.position = b.position from selectorAfter_position b _]
  rw [show (applied nt b m).1.fields = m.apply b.fields from rfl]
  cases hp : b.position with
  | onMain => simp [Fields.at, Mod.apply, hmain]
  | onSpare =>
    have hspare : m.spare = none := by
      cases hs : m.spare with
      | none => rfl
      | some o =>
        have := h.onMain (by simp [hs])
        rw [hp] at this
        cases this
    simp [Fields.at, Mod.apply, hmain, hspare]

/-- The record that a modification was applied to is in its form (R80, R116). -/
theorem RecordForm.applied (h : RecordForm b) {m : Mod} (hm : ModForm b m) (nt : Word) : RecordForm (applied nt b m).1 := by
  have hback := stateBack_same nt (m.apply b.fields) (thresholdNote b.fields (m.apply b.fields)) b.state
  obtain ⟨-, -, hheld, hearly⟩ := hback
  have hpos : (Machine.applied nt b m).1.position = b.position := selectorAfter_position b _
  refine ⟨hm.fields, fun hs => ?_, fun hs => ?_, fun _ m' hm' => nomatch hm'⟩
  · rw [hpos]
    obtain hs | hs | hs := hs
    · exact h.before ((hearly (.inl hs)).imp id .inl)
    · exact h.before ((hearly (.inr hs)).imp id .inl)
    · exact h.before (.inr (.inr (hheld.1 hs)))
  · rw [hpos] at hs
    have hspare : m.spare = none := by
      cases hsp : m.spare with
      | none => rfl
      | some o =>
        have := hm.onMain (by simp [hsp])
        rw [hs] at this
        cases this
    have := h.spare hs
    show (m.apply b.fields).spare.isSome
    simpa [Mod.apply, hspare] using this

/-- A pending modification is applied, and the references of sources that are no longer named fall (R35, R80). -/
theorem Sound.apply (h : Sound C B False s) (hb : s.booking k = some b) (he : b.state.isEnded = false) {m : Mod}
    (hm : b.pending = some m) (nt : Word) :
    Standing C B False k (applied nt b m).1
      ((s.setBooking k (applied nt b m).1).moveRefs b.fields.bandwidth b.named (applied nt b m).1.named) := by
  have hr := h.records k b hb
  have hform := hr.pending he m hm
  obtain ⟨hlive, hended, hheld, -⟩ := stateBack_same nt (m.apply b.fields) (thresholdNote b.fields (m.apply b.fields)) b.state
  have hended' : (applied nt b m).1.state.isEnded = false := hended.trans he
  have hbook : ((s.setBooking k (applied nt b m).1).moveRefs b.fields.bandwidth b.named (applied nt b m).1.named).bookings
      = tabSet s.bookings k (some (applied nt b m).1) := by simp [State.setBooking, tabSet]
  refine ⟨h.rewrite (k := k) (o := some (applied nt b m).1) (n := b.fields.bandwidth)
    ⟨hbook, ?_, fun p => by simp [State.port], fun j hj => by simpa using hj⟩ ⟨?_, ?_, ?_⟩ (h.groups_same (by simp) ?_) ?_ ?_ nofun, ?_⟩
  · rw [hb, namesOf_active he, namesOf_active hended']
    exact moveRefs_sources_congr (s := s) (u := s.setBooking k (Machine.applied nt b m).1) rfl rfl _ _ _
  · intro i x l hx hl hk
    obtain ⟨hl, hs⟩ := h.legs_of hb hx hl hk
    exact ⟨_, rfl, hlive.trans hl, (hform.applied_selected hl nt).trans hs⟩
  · rintro _ ⟨⟩
    exact hr.applied hform nt
  · rintro _ ⟨⟩
    exact .inl ⟨b, hb, selectorAfter_ref b _⟩
  · rw [hb]
    by_cases hs : b.state = .held
    · have hgroup : m.group = none := by
        cases hg : m.group with
        | none => rfl
        | some g =>
          have := hform.early (.inr (by simp [hg]))
          simp [hs] at this
      rw [heldOf_held (hheld.2 hs), heldOf_held hs]
      show some (m.apply b.fields).group = _
      simp [Mod.apply, hgroup]
    · rw [heldOf_notHeld hs, heldOf_notHeld fun e => hs (hheld.1 e)]
  · rw [hb, namesOf_active he, namesOf_active hended']
    exact applied_named hm
  · rintro _ ⟨⟩
    exact ⟨b, hb, rfl⟩
  · unfold State.booking
    rw [hbook, tabFind_set, if_pos rfl]

theorem Standing.endIfPending (h : Standing C B False k b s) (he : b.state.isEnded = false) (t : Tick) :
    Sound C B False (endIfPending t k s) := by
  unfold Machine.endIfPending
  rw [h.booking]
  dsimp only
  split
  · exact h.sound.endBooking h.booking he _ _
  · exact h.sound

/-- No modification waits in this slot. -/
def State.SettledAt (s : State) (k : Nat) : Prop := ∀ b, s.booking k = some b → b.state.isEnded = false → b.pending = none

theorem State.handAndNote_booking_self (s : State) (k : Nat) (b : Booking) (bill : Bill) :
    ∀ c, (s.handAndNote k b bill).booking k = some c → c = { b with state := .ended bill } := by
  intro c hc
  obtain ⟨o, hset, ho⟩ := s.handAndNote_tables k b bill
  unfold State.booking at hc
  rw [hset, tabFind_set, if_pos rfl] at hc
  obtain rfl | rfl := ho
  · cases hc
  · cases hc
    rfl

theorem Standing.endIfPending_settled (h : Standing C B False k b s) (hp : b.pending = none) (t : Tick) :
    (Machine.endIfPending t k s).SettledAt k := by
  unfold Machine.endIfPending
  rw [h.booking]
  dsimp only
  split
  · intro c hc hended
    have := State.handAndNote_booking_self _ _ _ _ c hc
    rw [this] at hended
    cases hended
  · intro c hc _
    rw [h.booking] at hc
    cases hc
    exact hp

theorem endIfPending_booking (t : Tick) {j : Nat} (hj : j ≠ k) : (Machine.endIfPending t k s).booking j = s.booking j := by
  unfold Machine.endIfPending
  split
  · split
    · exact State.endBooking_booking _ _ _ _ hj
    · rfl
  · rfl

/-- What stage 1 keeps from slot to slot. -/
structure Stage1 (C B : Prop) (c : State × Notes) : Prop where
  sound : Sound C B False c.1
  notes : c.2.OnceEach

theorem Stage1.slot {c : State × Notes} (h : Stage1 C B c) (t : Tick) (k : Nat) :
    Stage1 C B (stage1Slot t c k) ∧ (stage1Slot t c k).1.SettledAt k ∧ ∀ j, j ≠ k → (stage1Slot t c k).1.booking j = c.1.booking j := by
  unfold Machine.stage1Slot
  split
  · next hb =>
    refine ⟨h, ?_, fun _ _ => rfl⟩
    intro b hb'
    rw [hb] at hb'
    cases hb'
  · next b hb =>
    split
    · next he =>
      refine ⟨h, ?_, fun _ _ => rfl⟩
      intro d hd hn
      rw [hb] at hd
      cases hd
      rw [he] at hn
      cases hn
    · next he =>
      have he : b.state.isEnded = false := by simpa using he
      split
      · next hp =>
        exact ⟨⟨Standing.endIfPending ⟨h.sound, hb⟩ he t, h.notes⟩, Standing.endIfPending_settled ⟨h.sound, hb⟩ hp t,
          fun _ hj => endIfPending_booking t hj⟩
      · next m hm =>
        have h1 := h.sound.apply hb he hm t.nt
        have hended : (applied t.nt b m).1.state.isEnded = false := (stateBack_same t.nt _ _ b.state).2.1.trans he
        have hlegs := ((h.sound.records k b hb).pending he m hm).fields.legs
        refine ⟨⟨h1.endIfPending hended t, ?_⟩, h1.endIfPending_settled rfl t, fun j hj => ?_⟩
        · intro e hmem
          obtain hmem | hmem := List.mem_append.1 hmem
          · exact h.notes e hmem
          · obtain rfl := List.mem_singleton.1 hmem
            show (if _ then (m.apply b.fields).legs.filter _ else []).Nodup
            split
            · exact hlegs.filter _
            · exact List.nodup_nil
        · refine (endIfPending_booking t hj).trans ((State.booking_congr ?_ j).trans (State.setBooking_booking_ne c.1 (applied t.nt b m).1 hj))
          simp

theorem Stage1.slots (t : Tick) (ks : List Nat) {c : State × Notes} (h : Stage1 C B c) (hks : ∀ j, j ∉ ks → c.1.SettledAt j) :
    Stage1 C B (ks.foldl (stage1Slot t) c) ∧ ∀ j, (ks.foldl (stage1Slot t) c).1.SettledAt j := by
  induction ks generalizing c with
  | nil => exact ⟨h, fun j => hks j (List.not_mem_nil)⟩
  | cons k ks ih =>
    obtain ⟨h1, hset, hother⟩ := h.slot t k
    refine ih h1 fun j hj => ?_
    by_cases hjk : j = k
    · exact hjk ▸ hset
    · intro b hb
      rw [hother j hjk] at hb
      exact hks j (by simp [hjk, hj]) b hb

theorem Sound.stage1 (h : Sound C B False s) (t : Tick) : Sound C B True (stage1 t s).1 ∧ (stage1 t s).2.OnceEach := by
  have hfree : ∀ j, j ∉ s.slots → s.SettledAt j := fun j hj b hb =>
    absurd (List.mem_map.2 ⟨(j, b), tabFind_mem hb, rfl⟩) hj
  obtain ⟨h1, hset⟩ := Stage1.slots t s.slots (c := (s, [])) ⟨h, fun e he => nomatch he⟩ hfree
  exact ⟨⟨h1.sound.toLinked, h1.sound.rated, h1.sound.placed, fun _ k b => hset k b⟩, h1.notes⟩

/-- The booking tick keeps the links (R79). -/
theorem Sound.wholeTick (h : Sound C B False s) (t : Tick) : Sound C B False (wholeTick t s) := by
  obtain ⟨h1, hn⟩ := h.stage1 t
  have h2 := foldl_keeps (Sound C B True) _ (fun _ k hu => hu.stage2Slot t (Machine.stage1 t s).2 k) (Machine.stage1 t s).1.slots _ h1
  have h3 := foldl_keeps (Sound C B True) _ (fun _ k hu => hu.stage3Slot t hn k) (stage2 t (Machine.stage1 t s).2 (Machine.stage1 t s).1).slots _ h2
  have h4 := foldl_keeps (Sound C B True) _ (fun _ k hu => hu.selectorSlot t.nt k) (stages123 t s).slots (stages123 t s) h3
  have h5 := foldl_keeps (Sound C B True) _ (fun _ k hu => hu.meterSlot t k) (stage4 t (stages123 t s)).slots _ h4
  exact ⟨h5.toLinked, h5.rated, h5.placed, nofun⟩

end

end Sys2Proof.Machine
end

