-- ==== Sys2Proof/Proofs/OrderLinks.lean ====
section
/-! The links stand through the orders: what BOOK and MODIFY have made sure of, acceptances, cancels, releases and CLEAR TRAFFIC
(chapter 4, R71, R72, R95, R150, R170). -/

namespace Sys2Proof.Machine

/-! ## The checks of BOOK (R57 to R59) -/

theorem takeLegList_nodup {seen ls : List Pair} {xs : List (Byte × Byte)} (hs : seen.Nodup) (h : takeLegList seen xs = .ok ls) : ls.Nodup := by
  induction xs generalizing seen with
  | nil =>
    cases h
    exact hs
  | cons x xs ih =>
    unfold takeLegList at h
    split at h
    · next q _ =>
      split at h
      · cases h
      · next hq =>
        refine ih (List.nodup_append.2 ⟨hs, List.nodup_singleton q, fun a ha b hb => ?_⟩) h
        obtain rfl := List.mem_singleton.1 hb
        exact fun e => hq (.inr (e ▸ ha))
    · cases h

theorem legListOf_nodup {xs : List (Byte × Byte)} {ls : List Pair} (h : legListOf xs = .ok ls) : ls.Nodup := by
  unfold legListOf at h
  split at h
  · cases h
  · exact takeLegList_nodup List.nodup_nil h

theorem spareOf_ne {main : SrcId} {x : Option (Byte × Byte)} {o : Option SrcId} (h : spareOf main x = some o) : o ≠ some main := by
  unfold spareOf at h
  split at h
  · cases h
    exact nofun
  · split at h
    · split at h
      · cases h
      · next hne =>
        cases h
        exact fun e => hne (Option.some.inj e)
    · cases h

theorem BookBlock.fieldsAt_form {nt : Word} {b : BookBlock} {f : Fields} (h : b.fieldsAt nt = .ok f) : FieldsForm f := by
  unfold BookBlock.fieldsAt at h
  split at h
  · cases h
  · split at h
    · cases h
    · split at h
      · cases h
      · next hspare =>
        split at h
        · cases h
        · split at h
          · cases h
          · next hlegs =>
            split at h
            · cases h
            · split at h
              · cases h
              · split at h
                · cases h
                · split at h
                  · cases h
                  · cases h
                    exact ⟨legListOf_nodup hlegs, spareOf_ne hspare⟩

theorem firstRefusal_none {rs : List (Option Refused)} (h : firstRefusal rs = none) : ∀ r ∈ rs, r = none :=
  fun r hr => List.findSome?_eq_none_iff.1 h r hr

section
variable {s : State}

theorem bandwidthMismatch_none {n : Nat} {is : List SrcId} (h : s.bandwidthMismatch n is = none) :
    ∀ i ∈ is, ∀ x, s.source i = some x → x.bandwidth = n := by
  intro i hi x hx
  have := List.findSome?_eq_none_iff.1 h i hi
  rw [hx] at this
  by_contra hne
  simp [hne] at this

theorem noSourceSlot_none {is : List SrcId} (h : s.noSourceSlot is = none) (hs : s.sources.length ≤ 512) :
    s.sources.length + is.countP (fun i => (s.source i).isNone) ≤ 512 := by
  unfold State.noSourceSlot at h
  dsimp only at h
  split at h
  · cases h
  · next hf =>
    have hf : ¬ 512 - s.sources.length < is.countP (fun i => (s.source i).isNone) := hf
    omega

theorem noSlot_none (h : s.noSlot = none) : s.bookings.length < 512 := by
  unfold State.noSlot at h
  split at h
  · cases h
  · next hn => exact Nat.lt_of_not_le hn

/-- What a BOOK whose computation starts has made sure of (R57 to R59). -/
structure Bookable (s : State) (ref : Word) (f : Fields) : Prop where
  fields : FieldsForm f
  fresh : ∀ e ∈ s.bookings, e.2.ref ≠ ref
  rates : ∀ i ∈ f.named, ∀ x, s.source i = some x → x.bandwidth = f.bandwidth
  slot : s.bookings.length < 512
  room : s.sources.length ≤ 512 → s.sources.length + f.named.countP (fun i => (s.source i).isNone) ≤ 512

theorem bookCheck_ok {o : Order} {f : Fields} (h : bookCheck o s = .ok f) : Bookable s (bookBlock (paramsOf o.cell)).ref f := by
  unfold bookCheck at h
  dsimp only at h
  split at h
  · cases h
  · split at h
    · cases h
    · split at h
      · cases h
      · next g hg =>
        split at h
        · cases h
        · next hr =>
          cases h
          have hr := firstRefusal_none hr
          simp only [List.mem_cons, List.not_mem_nil, or_false, forall_eq_or_imp, forall_eq] at hr
          obtain ⟨hdup, hmis, hslot, hroom⟩ := hr
          refine ⟨BookBlock.fieldsAt_form hg, fun e he href => ?_, bandwidthMismatch_none hmis, noSlot_none hslot,
            fun hs => noSourceSlot_none hroom hs⟩
          have hby : s.byRef (bookBlock (paramsOf o.cell)).ref = none := by simpa [State.duplicateRef] using hdup
          have := List.find?_eq_none.1 hby e he
          simp [href] at this

/-! ## The checks of MODIFY (R66 to R68) -/

theorem State.byRef_booking (ht : TablesInForm s) {ref : Word} {k : Nat} {b : Booking} (h : s.byRef ref = some (k, b)) :
    s.booking k = some b :=
  ht.mem_bookings.1 (List.mem_of_find?_eq_some h)

theorem changedLegs_nodup {legs adds drops new : List Pair} (hl : legs.Nodup) (h : changedLegs legs adds drops = some new) : new.Nodup := by
  unfold changedLegs at h
  dsimp only at h
  split at h
  · next hc =>
    obtain ⟨-, hadds, hn, -⟩ := hc
    cases h
    refine List.nodup_append.2 ⟨hl.filter _, hn, fun a ha b hb e => ?_⟩
    have := List.all_eq_true.1 hadds b hb
    simp [← e, (List.mem_filter.1 ha).1] at this
  · cases h

theorem Change.legs_nodup {c : Change} {now : List Pair} (hn : now.Nodup) {o : Option (List Pair)} (h : c.legs now = some o) :
    (o.getD now).Nodup := by
  unfold Change.legs at h
  split at h
  · cases h
    exact hn
  · split at h
    · obtain ⟨new, hnew, rfl⟩ := Option.map_eq_some_iff.1 h
      exact changedLegs_nodup hn hnew
    · cases h

theorem namedSource_isSome {x : Option (Byte × Byte)} {o : Option SrcId} (h : namedSource x = some o) : o.isSome = x.isSome := by
  unfold namedSource at h
  split at h
  · cases h
    rfl
  · obtain ⟨i, -, rfl⟩ := Option.map_eq_some_iff.1 h
    rfl

theorem namedSpare_isSome {x : Option (Option (Byte × Byte))} {o : Option (Option SrcId)} (h : namedSpare x = some o) :
    o.isSome = x.isSome := by
  unfold namedSpare at h
  split at h
  · cases h
    rfl
  · obtain ⟨i, -, rfl⟩ := Option.map_eq_some_iff.1 h
    rfl

theorem BookingState.isEarly_iff {st : BookingState} : st.isEarly = true ↔ st = .booked ∨ st = .preroll := by
  cases st <;> simp [BookingState.isEarly]

/-- What MODIFY's fourth step has made sure of (R67). -/
theorem Change.stateRefusal_none {c : Change} {b : Booking} (h : c.stateRefusal b = none) :
    b.state.isEnded = false ∧ (c.main.isSome ∨ c.group.isSome → b.state.isEarly = true) ∧ (c.spare.isSome → b.spareOpen = true) := by
  unfold Change.stateRefusal at h
  split at h
  · cases h
  · next he =>
    have hall : ∀ x ∈ c.availability b, x.1 = true → x.2.1 = true := fun x hx h1 => by
      have := List.findSome?_eq_none_iff.1 h x hx
      by_contra h2
      simp [h1, h2] at this
    refine ⟨by simpa using he, ?_, ?_⟩
    · rintro (hm | hg)
      · exact hall (c.main.isSome, b.state.isEarly, .mainSource) (by simp [Change.availability]) hm
      · exact hall (c.group.isSome, b.state.isEarly, .startGroup) (by simp [Change.availability]) hg
    · exact hall (c.spare.isSome, b.spareOpen, .spareSource) (by simp [Change.availability])

theorem Booking.spareOpen_onMain {b : Booking} (hr : RecordForm b) (h : b.spareOpen = true) : b.position = .onMain := by
  unfold Booking.spareOpen at h
  split at h
  · next hs => exact hr.before (.inl hs)
  · next hs => exact hr.before (.inr (.inl hs))
  all_goals simp_all

/-- The modification that MODIFY builds is one that may wait on its booking (R67, R68). -/
theorem Change.modAt_form {nt : Word} {c : Change} {b : Booking} {m : Mod} (hr : RecordForm b) (hs : c.stateRefusal b = none)
    (h : c.modAt nt b = some m) : ModForm b m := by
  obtain ⟨-, hearly, hopen⟩ := Change.stateRefusal_none hs
  unfold Change.modAt at h
  split at h
  · next main spare legs hmain hspare hlegs =>
    dsimp only at h
    split at h
    · next hok =>
      cases h
      refine ⟨⟨Change.legs_nodup hr.fields.legs hlegs, ?_⟩, fun hm => ?_, fun hsp => ?_⟩
      · have hok := hok.2
        unfold Change.candidateOk at hok
        simp only [Bool.and_eq_true, bne_iff_ne] at hok
        exact hok.1.1
      · refine BookingState.isEarly_iff.1 (hearly (hm.imp (fun hm => ?_) id))
        rw [← namedSource_isSome hmain]
        exact hm
      · refine Booking.spareOpen_onMain hr (hopen ?_)
        rw [← namedSpare_isSome hspare]
        exact hsp
    · cases h
  · cases h

/-- What a MODIFY that passes its checks has made sure of (R66 to R68). -/
structure Modifiable (s : State) (k : Nat) (b : Booking) (m : Mod) : Prop where
  booking : s.booking k = some b
  active : b.state.isEnded = false
  form : ModForm b m
  rates : ∀ i ∈ m.named, ∀ x, s.source i = some x → x.bandwidth = b.fields.bandwidth
  room : s.sources.length ≤ 512 → s.sources.length + m.named.countP (fun i => (s.source i).isNone) ≤ 512

theorem State.modifyCheck_ok (hl : Linked s) {nt ref : Word} {c : Change} {k : Nat} {b : Booking} {m : Mod}
    (h : s.modifyCheck nt ref c = .ok (k, b, m)) : Modifiable s k b m := by
  unfold State.modifyCheck at h
  split at h
  · cases h
  · next k' b' hby =>
    split at h
    · cases h
    · next hstate =>
      split at h
      · cases h
      · next m' hm =>
        split at h
        · cases h
        · next hr =>
          cases h
          have hb := State.byRef_booking hl.tables hby
          have hr := firstRefusal_none hr
          simp only [List.mem_cons, List.not_mem_nil, or_false, forall_eq_or_imp, forall_eq] at hr
          obtain ⟨hmis, hroom⟩ := hr
          exact ⟨hb, (Change.stateRefusal_none hstate).1, Change.modAt_form (hl.records k b hb) hstate hm,
            bandwidthMismatch_none hmis, fun hs => noSourceSlot_none hroom hs⟩

end

/-! ## Acceptances (R65, R70) -/

section
variable {C B : Prop} {s : State}

theorem lowestFree_spec (ks : List Nat) (n : Nat) (hks : ks.Pairwise (· < ·)) (hn : ∀ j ∈ ks, n ≤ j) :
    lowestFree ks n ∉ ks ∧ n ≤ lowestFree ks n ∧ lowestFree ks n ≤ n + ks.length := by
  induction ks generalizing n with
  | nil => exact ⟨List.not_mem_nil, Nat.le_refl _, Nat.le_refl _⟩
  | cons k ks ih =>
    obtain ⟨hlt, hks⟩ := List.pairwise_cons.1 hks
    unfold lowestFree
    split
    · next he =>
      obtain ⟨h1, h2, h3⟩ := ih (n + 1) hks fun j hj => by
        have := hlt j hj
        omega
      refine ⟨fun hm => ?_, by omega, by simp only [List.length_cons]; omega⟩
      obtain hm | hm := List.mem_cons.1 hm
      · omega
      · exact h1 hm
    · next hne =>
      have hk := hn k (List.mem_cons_self ..)
      refine ⟨fun hm => ?_, Nat.le_refl _, by simp⟩
      obtain hm | hm := List.mem_cons.1 hm
      · exact hne hm.symm
      · have := hlt n hm
        omega

theorem newBooking_named {ref : Word} {f : Fields} : ∀ i, i ∈ (newBooking ref f).named ↔ i ∈ f.named := by
  intro i
  rw [mem_named]
  simp [newBooking]

/-- What two lists of distinct sources count of one kind, where one holds the other. -/
theorem countP_le_of_subset {is js : List SrcId} (hn : is.Nodup) (p : SrcId → Bool) (h : ∀ i ∈ is, p i = true → i ∈ js) :
    is.countP p ≤ js.countP p := by
  rw [List.countP_eq_length_filter, List.countP_eq_length_filter]
  refine (List.subperm_of_subset (hn.filter p) fun i hi => ?_).length_le
  obtain ⟨hi, hp⟩ := List.mem_filter.1 hi
  exact List.mem_filter.2 ⟨h i hi hp, hp⟩

/-- An accepted BOOK, with the computation over (R65). -/
theorem Sound.acceptBook (h : Sound C B False s) {ref : Word} {f : Fields} (hf : FieldsForm f) (href : ∀ e ∈ s.bookings, e.2.ref ≠ ref)
    (hrates : C → ∀ i ∈ f.named, ∀ x, s.source i = some x → x.bandwidth = f.bandwidth)
    (hroom : B → s.bookings.length < 512 ∧ s.sources.length + f.named.countP (fun i => (s.source i).isNone) ≤ 512) :
    Sound C B False ((s.acceptBook ref f).state.setEngine .ready) := by
  obtain ⟨hnew, -, hle⟩ := lowestFree_spec (s.bookings.map Prod.fst) 0 h.tables.bookings fun j _ => Nat.zero_le j
  have hnamed := newBooking_named (ref := ref) (f := f)
  have hactive : (newBooking ref f).state.isEnded = false := rfl
  unfold State.acceptBook
  generalize lowestFree (s.bookings.map Prod.fst) 0 = k at hnew hle ⊢
  dsimp only
  have hfree : s.booking k = none := by
    cases hb : s.booking k with
    | none => rfl
    | some b => exact absurd (List.mem_map_of_mem (tabFind_mem hb)) hnew
  have hbooks : (((newBooking ref f).named.foldl (State.gainRef · f.bandwidth ·) (s.setBooking k (newBooking ref f))).setEngine
      .ready).bookings = tabSet s.bookings k (some (newBooking ref f)) :=
    foldl_same State.bookings _ (fun u i => by simp) _ _
  refine h.accept (k := k) (b := newBooking ref f) ⟨hbooks, ?_, fun p => ?_, fun j hj => nomatch hj⟩ ⟨?_, ?_, ?_⟩
    (h.groups_same ?_ ?_) (fun j hj => nomatch hj) id ?_ ?_
  · rw [hfree, namesOf_active hactive]
    show _ = (s.moveRefs f.bandwidth [] (newBooking ref f).named).sources
    rw [moveRefs_of_nil]
    exact gainRefs_sources_congr (s := s) (u := s.setBooking k (newBooking ref f)) rfl rfl _ _
  · exact congrArg (fun v : Vector PortRec 16 => v[p]) (foldl_same State.ports _ (fun u i => by simp) _ _)
  · exact fun i x l hx hl hk => absurd hk (h.noLegs_free hfree i x l hx hl)
  · rintro _ ⟨⟩
    exact ⟨hf, fun _ => rfl, nofun, fun _ m hm => nomatch hm⟩
  · rintro _ ⟨⟩
    exact .inr ⟨fun j c hc => href _ (tabFind_mem hc), fun j hj => nomatch hj⟩
  · exact foldl_same State.groups _ (fun u i => by simp) _ _
  · rw [hfree]
    exact heldOf_notHeld nofun
  · intro c i hi x hx
    rw [namesOf_active hactive] at hi
    exact hrates c i ((hnamed i).1 hi) x hx
  · intro c
    obtain ⟨hslot, hsrc⟩ := hroom c
    refine ⟨by simp only [List.length_map] at hle; omega, ?_⟩
    rw [namesOf_active hactive]
    have hnodup : (newBooking ref f).named.Nodup := once_nodup _
    have := countP_le_of_subset hnodup (fun i => (s.source i).isNone)
      fun i hi _ => (hnamed i).1 hi
    omega

/-- An accepted MODIFY, with no computation running after it (R70). -/
theorem Sound.acceptModify (h : Sound C B False s) {k : Nat} {b : Booking} {m : Mod} (hb : s.booking k = some b)
    (he : b.state.isEnded = false) (hm : ModForm b m)
    (hrates : C → ∀ i ∈ m.named, ∀ x, s.source i = some x → x.bandwidth = b.fields.bandwidth)
    (hroom : B → s.sources.length + m.named.countP (fun i => (s.source i).isNone) ≤ 512) :
    Sound C B False ((s.acceptModify k b m).state.setEngine .ready) := by
  have hr := h.records k b hb
  have hactive : ({ b with pending := some m } : Booking).state.isEnded = false := he
  have hnames : ∀ i ∈ namesOf (some { b with pending := some m }), i ∈ namesOf (some b) ∨ i ∈ m.named := by
    intro i hi
    rw [namesOf_active hactive] at hi
    obtain hi | ⟨m', hm', hi⟩ := mem_named.1 hi
    · rw [namesOf_active he]
      exact .inl (mem_named.2 (.inl hi))
    · cases hm'
      exact .inr hi
  unfold State.acceptModify
  dsimp only
  have hbooks : (((s.setBooking k { b with pending := some m }).moveRefs b.fields.bandwidth b.named
      ({ b with pending := some m } : Booking).named).setEngine .ready).bookings = tabSet s.bookings k (some { b with pending := some m }) :=
    State.moveRefs_bookings ..
  refine h.accept (k := k) (b := { b with pending := some m }) ⟨hbooks, ?_, fun p => ?_, fun j hj => nomatch hj⟩ ⟨?_, ?_, ?_⟩
    (h.groups_same (State.moveRefs_groups ..) ?_) (fun j hj => nomatch hj) id ?_ ?_
  · rw [hb, namesOf_active he, namesOf_active hactive]
    exact moveRefs_sources_congr (s := s) (u := s.setBooking k { b with pending := some m }) rfl rfl _ _ _
  · exact congrArg (fun v : Vector PortRec 16 => v[p]) (State.moveRefs_ports ..)
  · intro i x l hx hl hk
    obtain ⟨hl, hs⟩ := h.legs_of hb hx hl hk
    exact ⟨_, rfl, hl, hs⟩
  · rintro _ ⟨⟩
    refine ⟨hr.fields, hr.before, hr.spare, fun _ m' hm' => ?_⟩
    cases hm'
    exact ⟨hm.fields, hm.early, hm.onMain⟩
  · rintro _ ⟨⟩
    exact .inl ⟨b, hb, rfl⟩
  · rw [hb]
    rfl
  · intro c i hi x hx
    obtain hi | hi := hnames i hi
    · exact (h.rated c).rates k b i x hb hi hx
    · exact hrates c i hi x hx
  · intro c
    refine ⟨(h.placed c).slots k b hb, ?_⟩
    have := countP_le_of_subset (namesOf_nodup (some { b with pending := some m })) (fun i => (s.source i).isNone) (js := m.named)
      fun i hi hnone => (hnames i hi).resolve_left fun hin => by
        obtain ⟨x, hx⟩ := h.source_of_named hb hin
        rw [hx] at hnone
        cases hnone
    have := hroom c
    omega

/-! ## Cancels and releases -/

theorem Sound.cancelEarly (h : Sound C B False s) {k : Nat} {b : Booking} (hb : s.booking k = some b)
    (hst : b.state = .booked ∨ b.state = .preroll) : Sound C B False (s.cancelEarly k b).state := by
  have hclosed := bookingClosed_sameFrame s
  have hactive : b.state.isEnded = false := by obtain hs | hs := hst <;> rw [hs] <;> rfl
  have hheld : b.state ≠ .held := by obtain hs | hs := hst <;> rw [hs] <;> simp
  refine h.vacate hb (h.noLegs hb (by obtain hs | hs := hst <;> rw [hs] <;> rfl)) (o := none) ?_ ?_ ?_
    (hclosed.cancelEarly k b (.refl s)) (fun c hc => absurd hc (by simp))
  · exact congrArg (tabDel · k) (foldl_same State.bookings _ (fun u i => by simp) _ _)
  · rw [namesOf_active hactive]
    rfl
  · rw [if_neg hheld]
    exact foldl_same State.groups _ (fun u i => by simp) _ _

theorem Sound.cancelLate (h : Sound C B False s) {k : Nat} {b : Booking} (hb : s.booking k = some b) (hl : b.state.isLive = false)
    (he : b.state.isEnded = false) : Sound C B False (s.cancelLate k b).state :=
  h.retire (b' := b.clear) hb he (h.noLegs hb hl) rfl rfl rfl _

theorem foldl_earlierWaiter_mem (nt : Word) (ws : List (Nat × Booking × Bill)) (w : Nat × Booking × Bill) :
    ws.foldl (earlierWaiter nt) w ∈ w :: ws := by
  induction ws generalizing w with
  | nil => exact List.mem_singleton_self w
  | cons v ws ih =>
    have hmem := ih (earlierWaiter nt w v)
    have hone : earlierWaiter nt w v = w ∨ earlierWaiter nt w v = v := by
      unfold earlierWaiter
      split
      · exact .inr rfl
      · exact .inl rfl
    rw [List.foldl_cons]
    obtain hm | hm := List.mem_cons.1 hmem
    · rw [hm]
      obtain e | e := hone <;> rw [e] <;> simp
    · exact List.mem_cons_of_mem _ (List.mem_cons_of_mem _ hm)

theorem State.firstWaiter_booking (ht : TablesInForm s) {k : Nat} {b : Booking} {bill : Bill} (h : s.firstWaiter = some (k, b, bill)) :
    s.booking k = some b ∧ b.state = .ended bill := by
  unfold State.firstWaiter at h
  split at h
  · cases h
  · next w ws hw =>
    have hmem := foldl_earlierWaiter_mem s.time.nt ws w
    rw [← hw, Option.some.inj h] at hmem
    obtain ⟨e, he, hbill⟩ := List.mem_filterMap.1 hmem
    split at hbill
    · next bill' hst =>
      cases hbill
      exact ⟨ht.mem_bookings.1 he, hst⟩
    · cases hbill

theorem Sound.releaseOldest (h : Sound C B False s) (seq : Word) : Sound C B False (s.releaseOldest seq).state := by
  have h1 : Sound C B False { s with bills.records := s.bills.records.tail } := h.of_same' rfl rfl rfl rfl rfl
  unfold State.releaseOldest
  dsimp only
  split
  · next k b bill hw =>
    obtain ⟨hb, hst⟩ := State.firstWaiter_booking h1.tables hw
    refine h1.vacate hb (h1.noLegs hb (by rw [hst]; rfl)) (o := none) (State.writeBill_bookings ..) ?_ ?_ ?_
      (fun c hc => absurd hc (by simp))
    · rw [namesOf_ended (by rw [hst]; rfl)]
      exact State.writeBill_sources ..
    · rw [if_neg (by simp [hst])]
      exact State.writeBill_groups ..
    · exact ⟨State.writeBill_ports .., (noteLevel_mode ..).2⟩
  · exact h1

/-! ## CLEAR TRAFFIC (R95, R170) -/

/-- No live booking stands in this slot. -/
def State.NotLiveAt (s : State) (k : Nat) : Prop := ∀ b, s.booking k = some b → b.state.isLive = false

theorem Sound.abortSlot (h : Sound C B False s) (k : Nat) : Sound C B False (abortSlot s k) := by
  unfold Machine.abortSlot
  split
  · next b hb =>
    split
    · next hl => exact h.endBooking hb (BookingState.not_ended_of_live hl) _ _
    · exact h
  · exact h

theorem abortSlot_booking (s : State) {k j : Nat} (hj : j ≠ k) : (abortSlot s k).booking j = s.booking j := by
  unfold abortSlot
  split
  · split
    · exact State.endBooking_booking _ _ _ _ hj
    · rfl
  · rfl

theorem abortSlot_notLive (s : State) (k : Nat) : (abortSlot s k).NotLiveAt k := by
  unfold abortSlot
  split
  · next b hb =>
    split
    · intro c hc
      rw [State.handAndNote_booking_self _ _ _ _ c hc]
      rfl
    · next hl =>
      intro c hc
      rw [hb] at hc
      cases hc
      simpa using hl
  · next hb =>
    intro c hc
    rw [hb] at hc
    cases hc

theorem abortSlots_notLive (ks : List Nat) {s : State} (h : ∀ j, j ∉ ks → s.NotLiveAt j) : ∀ j, (ks.foldl abortSlot s).NotLiveAt j := by
  induction ks generalizing s with
  | nil => exact fun j => h j List.not_mem_nil
  | cons k ks ih =>
    refine ih fun j hj => ?_
    by_cases hjk : j = k
    · exact hjk ▸ abortSlot_notLive s k
    · intro b hb
      rw [abortSlot_booking s hjk] at hb
      exact h j (by simp [hjk, hj]) b hb

theorem abortSlots_booking (ks : List Nat) (s : State) {j : Nat} (hj : j ∉ ks) : (ks.foldl abortSlot s).booking j = s.booking j := by
  induction ks generalizing s with
  | nil => rfl
  | cons k ks ih =>
    obtain ⟨hjk, hj⟩ := not_or.1 fun h => hj (List.mem_cons.2 h)
    exact (ih _ hj).trans (abortSlot_booking s hjk)

theorem State.booking_of_not_slot {s : State} {j : Nat} (hj : j ∉ s.slots) : s.booking j = none := by
  cases hb : s.booking j with
  | none => rfl
  | some b => exact absurd (List.mem_map_of_mem (tabFind_mem hb)) hj

/-- A booking that CLEAR TRAFFIC does not free without a bill. -/
def Booking.stays (b : Booking) : Bool := b.state.isLive || b.state.isEnded

theorem freeEarly_booking (s : State) (k j : Nat) :
    (freeEarly s k).booking j = if j = k then (s.booking j).filter Booking.stays else s.booking j := by
  unfold freeEarly
  cases hb : s.booking k with
  | none =>
    dsimp only
    split
    · next e => rw [e, hb]; exact rfl
    · rfl
  | some b =>
    dsimp only
    split
    · next hst =>
      split
      · next e =>
        rw [e, hb]
        exact (Option.filter_some_pos (p := Booking.stays) hst).symm
      · rfl
    · next hst =>
      have hst : Booking.stays b = false := by simpa [Booking.stays] using hst
      rw [State.freeSlot_booking]
      split
      · next e =>
        rw [e, hb]
        exact (Option.filter_some_neg (p := Booking.stays) hst).symm
      · exact State.booking_congr (foldl_same State.bookings _ (fun u i => by simp) _ _) j

theorem freeEarlys_booking (ks : List Nat) (s : State) (j : Nat) :
    (ks.foldl freeEarly s).booking j = if j ∈ ks then (s.booking j).filter Booking.stays else s.booking j := by
  induction ks generalizing s with
  | nil => simp
  | cons k ks ih =>
    rw [List.foldl_cons, ih, freeEarly_booking]
    by_cases hjk : j = k
    · subst hjk
      simp [Option.filter_filter]
    · simp [hjk]

/-- Every booking that CLEAR TRAFFIC leaves was there after the abortions, and waits in ENDED (R95). -/
theorem clearedBookings (s : State) (j : Nat) (b : Booking)
    (h : (s.slots.foldl freeEarly (s.slots.foldl Machine.abortSlot s)).booking j = some b) :
    (s.slots.foldl Machine.abortSlot s).booking j = some b ∧ b.state.isEnded = true := by
  rw [freeEarlys_booking] at h
  split at h
  · obtain ⟨hb, hst⟩ := Option.filter_eq_some_iff.1 h
    refine ⟨hb, ?_⟩
    have := abortSlots_notLive s.slots (s := s) (fun i hi c hc => by rw [State.booking_of_not_slot hi] at hc; cases hc) j b hb
    simpa [Booking.stays, this] using hst
  · next hj =>
    rw [abortSlots_booking s.slots s hj, State.booking_of_not_slot hj] at h
    cases h

/-- Groups, sources and bookings as CLEAR TRAFFIC leaves them, no computation running (R51, R74, R95). -/
theorem Sound.cleared (h : Sound C B False s) {t : State} (hr : Rising t.bookings)
    (hb : ∀ j b, t.booking j = some b → s.booking j = some b ∧ b.state.isEnded = true) (hg : t.groups = Vector.replicate 32 ⟨.opened, 0⟩)
    (hs : t.sources = []) (he : ∀ j, t.mgmt.engine ≠ .working j) : Sound C B False t := by
  have hsource : ∀ i, t.source i = none := fun i => by unfold State.source; rw [hs]; rfl
  have htables : TablesInForm t := ⟨hr, hs ▸ List.Pairwise.nil, fun e he' => by rw [hs] at he'; cases he'⟩
  have hgroup : ∀ g x, t.groupOf g = some x → x = ⟨.opened, 0⟩ := fun g x hx => by
    unfold State.groupOf at hx
    split at hx
    · cases hx
    · rw [hg] at hx
      obtain ⟨hlt, hx⟩ := Vector.getElem?_eq_some_iff.1 hx
      simpa using hx.symm
  have hnotHeld : ∀ j b, t.booking j = some b → b.state ≠ .held := fun j b hb' e => by
    have := (hb j b hb').2
    rw [e] at this
    cases this
  refine ⟨⟨htables, fun i => ?_, ?_, ?_, fun q => ?_, ?_, ?_, ?_, ?_, fun j hj => absurd hj (he j)⟩, fun c => ?_, fun c => ?_, nofun⟩
  · rw [hsource]
    refine (List.countP_eq_zero.2 fun e he' hn => ?_).symm
    have := (hb e.1 e.2 (htables.mem_bookings.1 he')).2
    simp [this] at hn
  · intro i x hx
    rw [hsource] at hx
    cases hx
  · intro i x l hx
    rw [hsource] at hx
    cases hx
  · unfold State.pairTally
    rw [hs]
    exact Nat.zero_le _
  · exact fun i j b c hb' hc' => h.unique i j b c (hb i b hb').1 (hb j c hc').1
  · intro g x hx
    rw [hgroup g x hx]
    refine ⟨(List.countP_eq_zero.2 fun e he' hn => ?_).symm, fun _ => rfl⟩
    have := hnotHeld e.1 e.2 (htables.mem_bookings.1 he')
    simp [this] at hn
  · exact fun j b hb' e => absurd e (hnotHeld j b hb')
  · exact fun j b hb' => h.records j b (hb j b hb').1
  · refine ⟨fun p => ?_, fun j b i x _ _ hx => ?_, fun j hj => absurd hj (he j)⟩
    · rw [State.installed_eq, hs]
      exact Nat.zero_le _
    · rw [hsource] at hx
      cases hx
  · refine ⟨fun j b hb' => (h.placed c).slots j b (hb j b hb').1, ?_, fun j _ _ hj => absurd hj (he j), fun j hj => absurd hj (he j)⟩
    rw [hs]
    exact Nat.zero_le _

end

end Sys2Proof.Machine
end

