-- ==== Sys2Proof/Proofs/TableSteps.lean ====
section
/-! Every step keeps the tables, what binds them, the capacities and the places (R11, R33, R35, R37, R44, R52, R74). -/

namespace Sys2Proof.Machine

section
variable {C B : Prop} {s t : State}

/-! ## Every event -/

theorem quiet_sound : Quiet (Sound C B False) where
  ports _ _ hv h := h.of_same rfl rfl rfl (fun p => (hv p).capacity.ge) (fun _ hj => hj)
  mgmt _ _ hm h := h.of_same rfl rfl rfl (fun _ => Nat.le_refl _) hm.engine
  freeRead _ _ h := h.of_same' rfl rfl rfl rfl rfl
  ticks _ _ _ h := h.of_same' rfl rfl rfl rfl rfl
  source _ _ _ _ hx hy h := h.setSource_fewer hx hy.id (Prod.ext hy.bandwidth hy.refs) (by rw [hy.legs])
  sources _ _ hf h := h.mapSources hf

theorem timeClosed_sound : TimeClosed (Sound C B False) where
  time _ _ _ h := h.of_same' rfl rfl rfl rfl rfl
  hand _ t h := quiet_sound.handTick t h
  notice _ c h := quiet_sound.raise c h

/-- A port takes another capacity, above its old one or no less than what is installed (R11). -/
theorem Sound.setCapacity (h : Sound C B False s) {p : Port} {v : Nat} (hv : (s.port p).capacity < v ∨ s.installed p ≤ v) :
    Sound C B False (s.setPort p { s.port p with capacity := v }) := by
  refine ⟨⟨h.tables.of_tables rfl rfl, h.refs, h.counted, h.owners, h.pairs, h.unique, h.held, h.heldGroup, h.records, h.job⟩,
    fun c => ⟨fun q => ?_, (h.rated c).rates, (h.rated c).job⟩,
    fun c => ⟨(h.placed c).slots, (h.placed c).sources, (h.placed c).slot, (h.placed c).job⟩, h.settled⟩
  have hq := (h.rated c).installed q
  by_cases e : q = p
  · subst e
    rw [State.setPort_port_self]
    exact hv.elim (fun hlt => hq.trans hlt.le) id
  · rw [State.setPort_port_ne _ _ e]
    exact hq

theorem Sound.clearTraffic (h : Sound C B False s) (hr : s.mgmt.engine = .ready) : Sound C B False s.clearTraffic := by
  have hclosed := bookingClosed_sameFrame s
  have haborted := foldl_keeps (Sound C B False) _ (fun _ k hu => hu.abortSlot k) s.slots s h
  have hframe := hclosed.freeEarlySlots s.slots (hclosed.abortSlots s.slots (.refl s))
  have hrising : Rising (s.slots.foldl freeEarly (s.slots.foldl Machine.abortSlot s)).bookings := by
    refine foldl_keeps (fun u : State => Rising u.bookings) _ (fun u k hu => ?_) _ _ haborted.tables.bookings
    unfold freeEarly
    split
    · split
      · exact hu
      · refine Rising.del ?_ k
        rw [foldl_same State.bookings _ (fun v i => by simp)]
        exact hu
    · exact hu
  have hcleared : Sound C B False { s.slots.foldl freeEarly (s.slots.foldl Machine.abortSlot s) with
      groups := Vector.replicate 32 ⟨.opened, 0⟩, sources := [] } := by
    refine haborted.cleared hrising (clearedBookings s) rfl rfl fun j hj => ?_
    rw [show _ = s.mgmt.engine from hframe.2, hr] at hj
    cases hj
  exact foldl_keeps (Sound C B False) _ (fun _ p => quiet_sound.drainIfEmpty p) _ _
    (quiet_sound.ports _ _ (fun p => by simpa [State.port] using ⟨rfl, id, fun _ => Nat.zero_le _⟩) hcleared)

theorem Sound.orderWork (h : Sound C B False s) (hr : s.mgmt.engine = .ready) (hw : OrderWork s t) : Sound C B False t := by
  have hq : Quiet (Sound C B False) := quiet_sound
  have ht : TimeClosed (Sound C B False) := timeClosed_sound
  cases hw with
  | clearTraffic _ => exact h.clearTraffic hr
  | enablePort p => exact hq.enablePort p h
  | disablePort p => exact hq.disablePort p h
  | capacity p v _ hv => exact h.setCapacity hv
  | timeSource sel => exact ht.selectSource sel h
  | timeSet t _ => exact ht.setTime t h
  | watch i x w hx hw => exact hq.source s i x _ hx (touched_params x hw) h
  | cancelEarly ref k b hb hst => exact h.cancelEarly (State.byRef_booking h.tables hb) hst
  | cancelLate ref k b hb hl he => exact h.cancelLate (State.byRef_booking h.tables hb) hl he
  | endPending ref k b hb _ => exact h.retouch (State.byRef_booking h.tables hb) ⟨rfl, rfl, rfl, rfl, rfl⟩
  | select ref k b r hb _ => exact h.retouch (State.byRef_booking h.tables hb) ⟨by simp, by simp, by simp, by simp, by simp⟩
  | group g x st hx hst => exact h.setGroup hx hst
  | release seq _ => exact h.releaseOldest seq
  | nothing | mode | restart | threshold | routes | timePolicy | defaults | tariffs => exact h.of_same' rfl rfl rfl rfl rfl

theorem State.setEngine_finish (s : State) (e : Engine) (o : Order) (r : Result) (d : AnswerData) :
    (s.setEngine e).finish o r d = s.finish o r d := by
  unfold State.finish
  split
  · rfl
  · split
    · next hd => rw [if_pos (show (s.port o.arrival).isDark = true from hd)]; rfl
    · next hd =>
      rw [if_neg (show ¬ (s.port o.arrival).isDark = true from hd)]
      split
      · next hm => rw [if_pos (show (s.port o.arrival).mgmtRoom = true from hm)]; rfl
      · next hm => rw [if_neg (show ¬ (s.port o.arrival).mgmtRoom = true from hm)]; rfl

/-- An order's work completes once its computation is over. -/
theorem Sound.finish_ready (h : Sound C B False (s.setEngine .ready)) (o : Order) (r : Result) (d : AnswerData) :
    Sound C B False (s.finish o r d) := by
  rw [← State.setEngine_finish s .ready]
  exact quiet_sound.finish o r d h

theorem Booking.sameAs_iff {b c : Booking} (h : b.sameAs c = true) :
    b.ref = c.ref ∧ b.state = c.state ∧ b.fields = c.fields ∧ b.pending = c.pending ∧ b.position = c.position := by
  unfold Booking.sameAs at h
  simp only [Bool.and_eq_true, beq_iff_eq] at h
  obtain ⟨⟨⟨⟨h1, h2⟩, h3⟩, h4⟩, h5⟩ := h
  exact ⟨h1, h2, h3, h4, h5⟩

/-- A MODIFY whose computation runs has what it needs when the record stands as it did (R59, R64). -/
theorem Sound.modifiable (h : Sound C B False s) {j : Job} (hj : s.mgmt.engine = .working j) {k : Nat} {c : Change} {m : Mod}
    {built b : Booking} (hk : j.kind = .modify k c m built) (hb : s.booking k = some b) (hs : b.sameAs built = true) :
    Sound C B False ((s.acceptModify k b m).state.setEngine .ready) := by
  obtain ⟨-, hst, hf, -, hpos⟩ := Booking.sameAs_iff hs
  have hjob := (h.job j hj).2
  rw [hk] at hjob
  have hwants := Job.wants_modify hk
  have hrate := Job.rate_modify hk
  obtain ⟨he, hform⟩ := hjob
  refine h.acceptModify hb (hst ▸ he) ⟨hf ▸ hform.fields, hst ▸ hform.early, hpos ▸ hform.onMain⟩ (fun c => ?_) (fun c => ?_)
  · rw [← hwants, hf, ← hrate]
    exact (h.rated c).job j hj
  · rw [← hwants]
    exact (h.placed c).job j hj

theorem Sound.bookAccepted (h : Sound C B False s) {j : Job} (hj : s.mgmt.engine = .working j) {ref : Word} {f : Fields}
    (hk : j.kind = .book ref f) : Sound C B False ((s.acceptBook ref f).state.setEngine .ready) := by
  have hjob := (h.job j hj).2
  rw [hk] at hjob
  have hwants := Job.wants_book hk
  have hrate := Job.rate_book hk
  refine h.acceptBook hjob.1 hjob.2 (fun c => ?_) (fun c => ⟨(h.placed c).slot j ref f hj hk, ?_⟩)
  · rw [← hwants, ← hrate]
    exact (h.rated c).job j hj
  · rw [← hwants]
    exact (h.placed c).job j hj

theorem Sound.modifyAccepted (h : Sound C B False s) {k : Nat} {b : Booking} {m : Mod} (hm : Modifiable s k b m) :
    Sound C B False ((s.acceptModify k b m).state.setEngine .ready) :=
  h.acceptModify hm.booking hm.active hm.form (fun _ => hm.rates) (fun c => hm.room (h.placed c).sources)

/-- The computation of an order reads one booking on (R64). -/
theorem Sound.reads (h : Sound C B False s) {j : Job} {e : Nat × Booking} (hj : s.mgmt.engine = .working j) (hn : j.nextSlot ≤ e.1) :
    Sound C B False (s.setEngine (.working { j with nextSlot := e.1 + 1, read := j.read ++ [e] })) := by
  have hjob := h.job j hj
  obtain ⟨⟨hrise, hlt⟩, hkind⟩ := hjob
  refine h.setWorking ⟨⟨?_, fun d hd => ?_⟩, hkind⟩ (fun c => (h.rated c).job j hj)
    (fun c => ⟨fun ref f => (h.placed c).slot j ref f hj, (h.placed c).job j hj⟩)
  · unfold Rising
    rw [List.map_append]
    refine List.pairwise_append.2 ⟨hrise, List.pairwise_singleton .., fun a ha b hb => ?_⟩
    obtain ⟨d, hd, rfl⟩ := List.mem_map.1 ha
    obtain rfl := List.mem_singleton.1 hb
    exact Nat.lt_of_lt_of_le (hlt d hd) hn
  · dsimp only
    obtain hd | hd := List.mem_append.1 hd
    · have := hlt d hd
      omega
    · obtain rfl := List.mem_singleton.1 hd
      omega

/-- A BOOK whose checks have passed starts its computation (R57, R64). -/
theorem Sound.bookStarts (h : Sound C B False s) {ref : Word} {f : Fields} (hok : Bookable s ref f) (o : Order) (nt : Word) :
    Sound C B False (s.setEngine (.working ⟨o, nt, .book ref f, 0, []⟩)) :=
  h.setWorking ⟨⟨List.Pairwise.nil, fun _ he => absurd he List.not_mem_nil⟩, hok.fields, hok.fresh⟩ (fun _ => hok.rates)
    (fun c => ⟨fun _ _ _ => hok.slot, hok.room (h.placed c).sources⟩)

/-- A MODIFY whose checks have passed starts its computation (R64, R66). -/
theorem Sound.modifyStarts (h : Sound C B False s) {k : Nat} {b : Booking} {m : Mod} (hok : Modifiable s k b m) (o : Order) (nt : Word)
    (c : Change) : Sound C B False (s.setEngine (.working ⟨o, nt, .modify k c m b, 0, []⟩)) :=
  h.setWorking ⟨⟨List.Pairwise.nil, fun _ he => absurd he List.not_mem_nil⟩, hok.active, hok.form⟩ (fun _ => hok.rates)
    (fun c => ⟨fun _ _ e => (JobKind.noConfusion e), hok.room (h.placed c).sources⟩)

theorem Sound.event (h : Sound C B False s) (he : Event s t) : Sound C B False t := by
  have hq : Quiet (Sound C B False) := quiet_sound
  have ht : TimeClosed (Sound C B False) := timeClosed_sound
  cases he with
  | nothing => exact h
  | lossOfLight p _ => exact hq.loseLine _ _ _ h
  | lightReturns p _ => exact hq.setPort ⟨rfl, id, id⟩ h
  | restore p _ => exact hq.restoreLine p h
  | lossOfDelineation p _ n =>
    exact hq.loseLine _ _ _ (hq.setPort (r := { s.port p with headerErrors := n }) ⟨rfl, id, id⟩ h)
  | cell p bytes _ => exact hq.takeCell p bytes (fun _ v => ht.timeCell p v) h
  | send p => exact hq.lineSend p h
  | drained p => exact hq.drainIfEmpty p h
  | answer p => exact hq.appendWaiting p h
  | notice => exact hq.deliverNotice h
  | localTick a _ => exact ht.localTick a h
  | deadline a _ _ => exact ht.missDeadline a h
  | refill t rest _ => exact hq.sources _ _ touched_refill (hq.ticks s rest s.bookingTicks h)
  | sourceTick i want => exact hq.sourceTickIf i want h
  | bookingTick t rest _ => exact (hq.ticks s s.refillTicks rest h).wholeTick t
  | restartActs => exact hq.actRestart h
  | order o rest v r d ho hc hw => exact hq.finish o r d ((hq.taken ho h).orderWork (canTake_ready hc) hw)
  | bookStarts o rest f ho _ hb => exact (hq.taken ho h).bookStarts (bookCheck_ok hb) o _
  | modifyStarts o rest nt ref c k b m ho _ _ hm =>
    have h1 := hq.taken ho h
    exact h1.modifyStarts (State.modifyCheck_ok h1.toLinked hm) o _ c
  | modifyTaken o rest nt ref c k b m r d ho _ _ hm =>
    have h1 := hq.taken ho h
    exact (h1.modifyAccepted (State.modifyCheck_ok h1.toLinked hm)).finish_ready o r d
  | jobRefused j r d _ => exact hq.finish _ r d h
  | bookAccepted j ref f r d hj hk => exact (h.bookAccepted hj hk).finish_ready _ r d
  | modifyAccepted j k c m built b r d hj hk hb hs => exact (h.modifiable hj hk hb hs).finish_ready _ r d
  | modifyRebuilt j nt ref c k b m r d _ hm => exact (h.modifyAccepted (State.modifyCheck_ok h.toLinked hm)).finish_ready _ r d
  | reads j e hj _ hn => exact h.reads hj hn
  | clock => exact h.of_same' rfl rfl rfl rfl rfl

/-! ## Every step -/

theorem sound_hardReset (straps : BitVec 10) (light : BitVec 16) : Sound C B False (State.hardReset straps light) := by
  have ht := tablesInForm_hardReset straps light
  exact ⟨linked_iff.2 ⟨ht, linksInForm_hardReset straps light⟩, fun _ => (rated_iff ht).2 (capacityForm_hardReset straps light),
    fun _ => (placed_iff ht).2 (boundsForm_hardReset straps light), nofun⟩

theorem Sound.step (hs : Sound C B False s) (h : step s = .next t) : Sound C B False t := by
  refine step_keeps (P := Sound C B False) (fun s q h => h.of_same' rfl rfl rfl rfl rfl) ?_ ?_ (fun s t _ hs he => hs.event he) hs h
  · rintro s t hs ⟨⟩
    exact hs.of_same rfl rfl rfl (fun p => by simp [State.port, State.mapPorts, PortRec.loseCells])
      (fun j hj => absurd hj (by simp))
  · rintro straps light s t - ⟨⟩
    exact (sound_hardReset straps light).of_same' rfl rfl rfl rfl rfl

end

/-- Settles O57: by the cases of a step. One strengthened invariant, the links by lookup with the capacities and the places beside
them, is kept by every write that the blocks make of the tables, and each event is put together from such writes. -/
theorem stepKeepsTheTables : Obligations.StepKeepsTheTables := by
  refine ⟨fun s t ht hs h => ?_, fun s t ht hl h => ?_, fun s t ht hl hc h => ?_, fun s t ht hl hb h => ?_⟩
  · have := TablesSound.step ⟨ht, hs⟩ h
    exact ⟨this.tables, this.sources⟩
  · have hsound : Sound False False False s := ⟨linked_iff.2 ⟨ht, hl⟩, nofun, nofun, nofun⟩
    exact (linked_iff.1 (hsound.step h).toLinked).2
  · have hsound : Sound True False False s := ⟨linked_iff.2 ⟨ht, hl⟩, fun _ => (rated_iff ht).2 hc, nofun, nofun⟩
    have := hsound.step h
    exact (rated_iff this.tables).1 (this.rated trivial)
  · have hsound : Sound False True False s := ⟨linked_iff.2 ⟨ht, hl⟩, nofun, fun _ => (placed_iff ht).2 hb, nofun⟩
    have := hsound.step h
    exact (placed_iff this.tables).1 (this.placed trivial)

end Sys2Proof.Machine
end

