-- ==== Sys2Proof/Proofs/Abortions.lean ====
section
/-! The endings of CLEAR TRAFFIC, one live booking after another: their bills, their slots and their notices (R83, R95, R148, R154). -/

namespace Sys2Proof.Machine

/-! ## Notices, on states that agree -/

theorem State.raise_mgmt_congr {u v : State} (hm : u.mgmt = v.mgmt) (ht : u.time.nt = v.time.nt) (c : NoticeContent) :
    (u.raise c).mgmt = (v.raise c).mgmt := by
  unfold State.raise
  rw [hm, ht]
  split <;> rfl

theorem State.raiseAll_mgmt_congr {u v : State} (hm : u.mgmt = v.mgmt) (ht : u.time.nt = v.time.nt) (cs : List NoticeContent) :
    (u.raiseAll cs).mgmt = (v.raiseAll cs).mgmt := by
  induction cs generalizing u v with
  | nil => exact hm
  | cons c cs ih =>
    exact ih (State.raise_mgmt_congr hm ht c) (by rw [State.raise_time, State.raise_time, ht])

/-! ## Handing over a bill, with its notices -/

/-- BILL_LEVEL at the 48th record, BILL_FULL at the 64th (R154). -/
def levelNotes (count : Nat) (oldest seq : Word) (waiters : Nat) : List NoticeContent :=
  if count = 48 then [.billLevel 48 oldest seq waiters] else if count = 64 then [.billFull 64 oldest seq waiters] else []

section
variable {s : State} {k : Nat} {b : Booking} {bill : Bill}

theorem State.handAndNote_room (h : s.bills.records.length < 64) :
    s.handAndNote k b bill
      = (State.freeSlot { s with bills := ⟨s.bills.records ++ [⟨s.bills.next, bill⟩], nextSeq s.bills.next⟩ } k).raiseAll
        (levelNotes (s.bills.records.length + 1) (s.oldestBill.getD s.bills.next) s.bills.next (s.freeSlot k).waiters
          ++ [endedNotice k b bill (some s.bills.next)]) := by
  have hroom : s.billRoom = true := by simp [State.billRoom, h]
  have hold : (State.freeSlot { s with bills := ⟨s.bills.records ++ [⟨s.bills.next, bill⟩], nextSeq s.bills.next⟩ } k).oldestBill.getD
      s.bills.next = s.oldestBill.getD s.bills.next := by
    unfold State.oldestBill State.freeSlot
    cases s.bills.records <;> rfl
  have hlen : (State.freeSlot { s with bills := ⟨s.bills.records ++ [⟨s.bills.next, bill⟩], nextSeq s.bills.next⟩ }
      k).bills.records.length = s.bills.records.length + 1 := List.length_append
  rw [State.raiseAll_append]
  unfold State.handAndNote State.handBill State.writeBill State.noteLevel State.seqIfRoom levelNotes
  rw [hroom, if_pos rfl, if_pos rfl]
  dsimp only
  rw [hold, hlen]
  by_cases h48 : s.bills.records.length + 1 = 48
  · rw [if_pos h48, if_pos h48, h48]
    rfl
  · rw [if_neg h48, if_neg h48]
    by_cases h64 : s.bills.records.length + 1 = 64
    · rw [if_pos h64, if_pos (show _ = Config.billPlaces from h64), h64]
      exact rfl
    · rw [if_neg h64, if_neg (show ¬ _ = Config.billPlaces from h64)]
      rfl

theorem State.handAndNote_full (h : ¬ s.bills.records.length < 64) :
    s.handAndNote k b bill = (s.setBooking k { b with state := .ended bill }).raise (endedNotice k b bill none) := by
  have hroom : s.billRoom = false := by simpa [State.billRoom] using h
  unfold State.handAndNote State.handBill State.seqIfRoom
  rw [hroom]
  rfl

/-! ## Waiters -/

theorem State.waiters_eq (s : State) : s.waiters = tabSum (fun b : Booking => b.state.isEnded.toNat) s.bookings :=
  countP_eq_tabSum (fun b : Booking => b.state.isEnded) s.bookings

theorem State.freeSlot_waiters (ht : Rising s.bookings) (hb : s.booking k = some b) (he : b.state.isEnded = false) :
    (s.freeSlot k).waiters = s.waiters := by
  have hsum := tabSum_del (fun b : Booking => b.state.isEnded.toNat) ht k
  rw [show tabFind s.bookings k = some b from hb, weigh_some, he] at hsum
  rw [State.waiters_eq, State.waiters_eq]
  exact hsum

theorem State.setBooking_waiters (ht : Rising s.bookings) (hb : s.booking k = some b) (he : b.state.isEnded = false) {b' : Booking}
    (he' : b'.state.isEnded = true) : (s.setBooking k b').waiters = s.waiters + 1 := by
  have hsum := tabSum_put (fun b : Booking => b.state.isEnded.toNat) ht k b'
  rw [show tabFind s.bookings k = some b from hb, weigh_some, he, he'] at hsum
  rw [State.waiters_eq, State.waiters_eq]
  exact hsum

end

/-! ## One abortion -/

/-- The legs of a slot on a source's list. -/
def State.legsAt (s : State) (k : Nat) (i : SrcId) : List Leg :=
  match s.source i with
  | some x => x.legs.filter fun l => l.owner == k
  | none => []

/-- A live booking with its legs' sums added to its totals (R83). -/
def State.closedAt (s : State) (e : Nat × Booking) : Booking :=
  { e.2 with
    delivered := e.2.delivered + sumLegs Leg.sent (s.legsAt e.1 e.2.selected)
    dropped := e.2.dropped + sumLegs Leg.dropped (s.legsAt e.1 e.2.selected) }

theorem State.takeLegs_all (s : State) (k : Nat) (b : Booking) : (s.takeLegs k b fun _ => true).2 = s.closedAt (k, b) := by
  unfold State.takeLegs State.closedAt State.legsAt State.removeLegs
  cases s.source b.selected with
  | none => simp [sumLegs]
  | some x => simp

/-- Where the endings of CLEAR TRAFFIC start: how many bills stand, the next number, the oldest number, the waiters, and NT. -/
structure BillBase where
  count : Nat
  next : Word
  oldest : Word
  waiters : Nat
  nt : Word

def State.billBase (s : State) : BillBase :=
  ⟨s.bills.records.length, s.bills.next, s.oldestBill.getD s.bills.next, s.waiters, s.time.nt⟩

/-- The number that the bill takes which `i` others come before (R146). -/
def BillBase.seq (a : BillBase) (i : Nat) : Word := Nat.iterate nextSeq i a.next

/-- The bill of an aborted booking, from its record with its legs' sums. -/
def BillBase.bill (a : BillBase) (c : Booking) : Bill := closeBill c .aborted a.nt

/-- The notices of the abortion that `x.2` others come before (R97, R154). -/
def BillBase.notes (a : BillBase) (c : Nat × Booking → Booking) (x : (Nat × Booking) × Nat) : List NoticeContent :=
  levelNotes (if a.count + x.2 < 64 then a.count + x.2 + 1 else 0) a.oldest (a.seq x.2) a.waiters
    ++ [.bookingEnded x.1.1 x.1.2.ref x.1.2.fields.account .aborted a.nt (a.bill (c x.1)).total
      (if a.count + x.2 < 64 then some (a.seq x.2) else none)]

/-- The record of an aborted booking that waits in ENDED (R83, R148). -/
def BillBase.waiting (a : BillBase) (c : Booking) : Booking := { c.clear with state := .ended (a.bill c) }

/-- The state after `j` abortions, from the base on. -/
structure Aborted (a : BillBase) (j : Nat) (u : State) : Prop where
  rising : Rising u.bookings
  nt : u.time.nt = a.nt
  count : u.bills.records.length = a.count + min j (64 - a.count)
  next : u.bills.next = a.seq (min j (64 - a.count))
  oldest : u.oldestBill.getD u.bills.next = a.oldest
  waiters : u.waiters + min j (64 - a.count) = a.waiters + j

theorem aborted_start (s : State) (hr : Rising s.bookings) : Aborted s.billBase 0 s where
  rising := hr
  nt := rfl
  count := by simp [State.billBase]
  next := by simp [State.billBase, BillBase.seq]
  oldest := rfl
  waiters := by simp [State.billBase]

theorem closeBill_total_fields (b : Booking) (o : BillOutcome) (nt : Word) : (closeBill b o nt).outcome = o ∧ (closeBill b o nt).endNt = nt := by
  unfold closeBill
  split <;> exact ⟨rfl, rfl⟩

/-- What one abortion does (R83, R95, R148). -/
structure AbortStep (a : BillBase) (j : Nat) (u v : State) (k : Nat) (b c : Booking) : Prop where
  aborted : Aborted a (j + 1) v
  records : v.bills.records = u.bills.records ++ if a.count + j < 64 then [⟨a.seq j, a.bill c⟩] else []
  slot : v.booking k = if a.count + j < 64 then none else some (a.waiting c)
  mgmt : v.mgmt = (u.raiseAll (a.notes (fun _ => c) ((k, b), j))).mgmt

section
variable {a : BillBase} {j : Nat} {u v : State} {k : Nat} {b c : Booking}

theorem Aborted.of_same (h : Aborted a j u) (hb : v.bookings = u.bookings) (hl : v.bills = u.bills) (ht : v.time = u.time) :
    Aborted a j v := by
  refine ⟨hb ▸ h.rising, ht ▸ h.nt, hl ▸ h.count, hl ▸ h.next, ?_, ?_⟩
  · unfold State.oldestBill
    rw [hl]
    exact h.oldest
  · unfold State.waiters
    rw [hb]
    exact h.waiters

theorem endedNotice_eq (a : BillBase) (k : Nat) (b c : Booking) (q : Option Word) (href : c.ref = b.ref) (hf : c.fields = b.fields) :
    endedNotice k c.clear (a.bill c) q = .bookingEnded k b.ref b.fields.account .aborted a.nt (a.bill c).total q := by
  unfold endedNotice BillBase.bill
  rw [(closeBill_total_fields c .aborted a.nt).1, (closeBill_total_fields c .aborted a.nt).2, Booking.clear_ref, Booking.clear_fields,
    href, hf]

/-- The bill of an abortion is handed over, in a state that agrees with the one before. -/
theorem Aborted.hand (h : Aborted a j u) (hb : u.booking k = some b) (he : b.state.isEnded = false) (href : c.ref = b.ref)
    (hf : c.fields = b.fields) : AbortStep a j u (u.handAndNote k c.clear (a.bill c)) k b c := by
  have hcount := h.count
  by_cases hroom : a.count + j < 64
  · have hmin : min j (64 - a.count) = j := by omega
    have hmin' : min (j + 1) (64 - a.count) = j + 1 := by omega
    have hlen : u.bills.records.length = a.count + j := by rw [hcount, hmin]
    have hnext : u.bills.next = a.seq j := by rw [h.next, hmin]
    have hwaiters := h.waiters
    have hfree := State.freeSlot_waiters h.rising hb he
    have hstate := State.handAndNote_room (s := u) (k := k) (b := c.clear) (bill := a.bill c) (by omega)
    rw [hlen, h.oldest, hfree, hnext, endedNotice_eq a k b c _ href hf, show u.waiters = a.waiters by omega] at hstate
    have hsame : ∀ {γ : Type} (g : State → γ) (hg : ∀ t c, g (State.raise t c) = g t),
        g (u.handAndNote k c.clear (a.bill c)) = g (State.freeSlot { u with bills :=
          ⟨u.bills.records ++ [⟨a.seq j, a.bill c⟩], nextSeq (a.seq j)⟩ } k) := fun g hg => by
      rw [hstate]
      exact State.raiseAll_same g hg _ _
    have hbookings := hsame State.bookings (fun t c => State.raise_bookings ..)
    have hbills := hsame State.bills (fun t c => State.raise_bills ..)
    have htime := hsame State.time (fun t c => State.raise_time ..)
    refine ⟨⟨?_, ?_, ?_, ?_, ?_, ?_⟩, ?_, ?_, ?_⟩
    · rw [hbookings]
      exact h.rising.del k
    · rw [htime]
      exact h.nt
    · rw [hbills, hmin']
      refine List.length_append.trans ?_
      rw [hlen]
      rfl
    · rw [hbills, hmin']
      exact (Function.iterate_succ_apply' nextSeq j a.next).symm
    · unfold State.oldestBill
      rw [hbills, ← h.oldest, hnext]
      unfold State.oldestBill
      cases hr : u.bills.records with
      | nil => exact rfl
      | cons r rs => exact rfl
    · unfold State.waiters
      rw [hbookings, hmin']
      have : (u.freeSlot k).waiters + (j + 1) = a.waiters + (j + 1) := by omega
      exact this
    · rw [hbills, if_pos hroom]
      rfl
    · rw [if_pos hroom]
      unfold State.booking
      rw [hbookings]
      exact tabFind_del_self ..
    · rw [hstate]
      unfold BillBase.notes
      rw [if_pos hroom, if_pos hroom]
      exact State.raiseAll_mgmt_congr (v := u)
        (u := State.freeSlot { u with bills := ⟨u.bills.records ++ [⟨a.seq j, a.bill c⟩], nextSeq (a.seq j)⟩ } k) rfl rfl _
  · have hmin : min j (64 - a.count) = 64 - a.count := by omega
    have hmin' : min (j + 1) (64 - a.count) = 64 - a.count := by omega
    have hstate := State.handAndNote_full (s := u) (k := k) (b := c.clear) (bill := a.bill c) (by omega)
    have hwaiters := h.waiters
    have hput : (u.setBooking k (a.waiting c)).waiters = u.waiters + 1 := State.setBooking_waiters h.rising hb he rfl
    have hbookings : (u.handAndNote k c.clear (a.bill c)).bookings = tabPut u.bookings k (a.waiting c) := by
      rw [hstate, State.raise_bookings]
      rfl
    have hbills : (u.handAndNote k c.clear (a.bill c)).bills = u.bills := by
      rw [hstate, State.raise_bills]
      rfl
    have htime : (u.handAndNote k c.clear (a.bill c)).time = u.time := by
      rw [hstate, State.raise_time]
      rfl
    refine ⟨⟨?_, ?_, ?_, ?_, ?_, ?_⟩, ?_, ?_, ?_⟩
    · rw [hbookings]
      exact h.rising.put k _
    · rw [htime]
      exact h.nt
    · rw [hbills, hmin', hcount, hmin]
    · rw [hbills, hmin', h.next, hmin]
    · unfold State.oldestBill
      rw [hbills]
      exact h.oldest
    · unfold State.waiters
      rw [hbookings, hmin']
      have : (u.setBooking k (a.waiting c)).waiters + (64 - a.count) = a.waiters + (j + 1) := by omega
      exact this
    · rw [hbills, if_neg hroom, List.append_nil]
    · rw [if_neg hroom]
      unfold State.booking
      rw [hbookings]
      exact tabFind_put_self ..
    · rw [hstate, endedNotice_eq a k b c _ href hf]
      unfold BillBase.notes levelNotes
      rw [if_neg hroom, if_neg hroom]
      exact State.raise_mgmt_congr (u := u.setBooking k (a.waiting c)) (v := u) rfl rfl _

/-- The abortion of a live booking (R83, R95). -/
theorem Aborted.abort (h : Aborted a j u) (hb : u.booking k = some b) (hl : b.state.isLive = true) :
    AbortStep a j u (abortSlot u k) k b (u.closedAt (k, b)) := by
  have hended := BookingState.not_ended_of_live hl
  have hstep : abortSlot u k = (b.named.foldl State.loseRef (u.takeLegs k b fun _ => true).1).handAndNote k
      (u.closedAt (k, b)).clear (a.bill (u.closedAt (k, b))) := by
    unfold abortSlot
    rw [hb]
    dsimp only
    rw [if_pos hl, h.nt]
    unfold State.endBooking
    rw [if_pos hl, ← State.takeLegs_all]
    exact congrArg (fun v => (b.named.foldl State.loseRef v).handAndNote k _ _) (if_neg (BookingState.not_held_of_live hl))
  have hsame : ∀ {γ : Type} (g : State → γ) (hs : ∀ t x, g (State.setSource t x) = g t) (hl : ∀ t i, g (State.loseRef t i) = g t),
      g (b.named.foldl State.loseRef (u.takeLegs k b fun _ => true).1) = g u := fun g hs hl =>
    (foldl_same g _ hl _ _).trans (u.removeLegs_same g hs k b.selected fun _ => true)
  have hbookings := hsame State.bookings (fun _ _ => rfl) (fun t i => by simp)
  have hbills := hsame State.bills (fun _ _ => rfl) (fun t i => by simp)
  have htime := hsame State.time (fun _ _ => rfl) (fun t i => by simp)
  have hmgmt := hsame State.mgmt (fun _ _ => rfl) (fun t i => by simp)
  have h1 := (h.of_same hbookings hbills htime).hand (c := u.closedAt (k, b)) ((State.booking_congr hbookings k).trans hb) hended rfl rfl
  rw [hstep]
  refine ⟨h1.aborted, ?_, h1.slot, ?_⟩
  · rw [h1.records, hbills]
  · rw [h1.mgmt]
    exact State.raiseAll_mgmt_congr hmgmt (by rw [htime]) _

end

end Sys2Proof.Machine
end

