-- ==== Sys2Proof/Proofs/ClearTraffic.lean ====
section
/-! CLEAR TRAFFIC whole: its endings in slot order, the bookings freed without a bill, and the drains (R18, R95, R170). -/

namespace Sys2Proof.Machine

/-! ## A live booking's legs until its own ending -/

section
variable {u : State} {k k' : Nat} {b b' : Booking}

theorem removeLegs_legsAt (hT : TablesInForm u) (hk : k' ≠ k) (j i : SrcId) :
    (u.removeLegs k j fun _ => true).1.legsAt k' i = u.legsAt k' i := by
  rcases u.removeLegs_cases k j fun _ => true with ⟨-, e⟩ | ⟨x, hx, e⟩ <;> rw [e]
  unfold State.legsAt
  dsimp only
  rw [State.setSource_source]
  split
  · next x' hx' =>
    split at hx'
    · next hi =>
      cases hx'
      rw [hi, hT.source_id hx, hx]
      dsimp only
      rw [List.filter_filter]
      refine List.filter_congr fun l _ => ?_
      by_cases hl : l.owner = k'
      · simp [hl, hk]
      · simp [hl]
    · rw [hx']
  · next hnone =>
    split at hnone
    · cases hnone
    · rw [hnone]

/-- The ending of another live booking leaves the legs of a live booking on its selected source (R35, R44, R83). -/
theorem Linked.abort_legsAt (h : Linked u) (hb : u.booking k = some b) (hl : b.state.isLive = true) (hk : k' ≠ k)
    (hb' : u.booking k' = some b') (hl' : b'.state.isLive = true) :
    (abortSlot u k).legsAt k' b'.selected = u.legsAt k' b'.selected := by
  have hsound : Sound False False False u := ⟨h, nofun, nofun, nofun⟩
  have hafter := (hsound.abortSlot k).toLinked
  obtain ⟨y, hy⟩ := hafter.source_of_named ((abortSlot_booking u hk).trans hb')
    (by rw [namesOf_active (BookingState.not_ended_of_live hl')]; exact selected_mem_named b')
  have hsources : (abortSlot u k).sources = (b.named.foldl State.loseRef (u.removeLegs k b.selected fun _ => true).1).sources := by
    unfold abortSlot
    rw [hb]
    dsimp only
    rw [if_pos hl]
    unfold State.endBooking
    rw [if_pos hl]
    refine (State.handAndNote_sources ..).trans ?_
    exact congrArg (fun v => (b.named.foldl State.loseRef v).sources) (if_neg (BookingState.not_held_of_live hl))
  have hT : TablesInForm (u.removeLegs k b.selected fun _ => true).1 := (hsound.removeLegs k b.selected fun _ => true).tables
  have hnodup : b.named.Nodup := once_nodup _
  have hlost := State.loseRefs_source hT hnodup b'.selected
  have hsource := State.source_congr hsources b'.selected
  rw [hsource, hlost] at hy
  have hlegs : ∃ z, (u.removeLegs k b.selected fun _ => true).1.source b'.selected = some z ∧ y.legs = z.legs := by
    split at hy
    · obtain ⟨z, hz, hlost⟩ := Option.bind_eq_some_iff.1 hy
      unfold Source.lost at hlost
      split at hlost
      · cases hlost
      · cases hlost
        exact ⟨z, hz, rfl⟩
    · exact ⟨y, hy, rfl⟩
  obtain ⟨z, hz, hyz⟩ := hlegs
  rw [← removeLegs_legsAt h.tables hk b.selected]
  unfold State.legsAt
  rw [hsource, hlost, hy, hz]
  dsimp only
  rw [hyz]

end

/-! ## The endings one after another -/

/-- What the abortions of these live bookings do, their records closed as `c` says. -/
structure AbortRun (a : BillBase) (u v : State) (xs : List ((Nat × Booking) × Nat)) (c : Nat × Booking → Booking) : Prop where
  records : v.bills.records = u.bills.records
    ++ (xs.filter fun x => a.count + x.2 < 64).map fun x => ⟨a.seq x.2, a.bill (c x.1)⟩
  slots : ∀ x ∈ xs, v.booking x.1.1 = if a.count + x.2 < 64 then none else some (a.waiting (c x.1))
  others : ∀ i, (∀ x ∈ xs, x.1.1 ≠ i) → v.booking i = u.booking i
  mgmt : v.mgmt = (u.raiseAll (xs.flatMap (a.notes c))).mgmt
  closed : Linked u → ∀ x ∈ xs, c x.1 = u.closedAt x.1

/-- Records closed alike bring the same notices. -/
theorem BillBase.notes_congr (a : BillBase) {c c' : Nat × Booking → Booking} {x : (Nat × Booking) × Nat} (h : c x.1 = c' x.1) :
    a.notes c x = a.notes c' x := by
  unfold BillBase.notes
  rw [h]

/-- Records closed alike make the same run. -/
theorem AbortRun.congr {a : BillBase} {u v : State} {xs : List ((Nat × Booking) × Nat)} {c c' : Nat × Booking → Booking}
    (h : AbortRun a u v xs c) (hc : ∀ x ∈ xs, c' x.1 = c x.1) : AbortRun a u v xs c' where
  records := h.records.trans (congrArg (u.bills.records ++ ·)
    (List.map_congr_left fun x hx => by rw [hc x (List.mem_filter.1 hx).1]))
  slots x hx := by rw [hc x hx]; exact h.slots x hx
  others := h.others
  mgmt := by
    rw [h.mgmt, List.flatMap_congr fun x hx => a.notes_congr (hc x hx)]
  closed hl x hx := (hc x hx).trans (h.closed hl x hx)

/-- One abortion, and then the run of the rest. -/
theorem AbortRun.cons {a : BillBase} {j : Nat} {u v w : State} {k : Nat} {b : Booking} {xs : List ((Nat × Booking) × Nat)}
    {c : Nat × Booking → Booking} (hu : Aborted a j u) (hb : u.booking k = some b) (hl : b.state.isLive = true)
    (h1 : AbortStep a j u v k b (u.closedAt (k, b))) (hv : v = abortSlot u k) (h : AbortRun a v w xs c)
    (hc : c (k, b) = u.closedAt (k, b)) (hne : ∀ x ∈ xs, x.1.1 ≠ k)
    (hlive : ∀ x ∈ xs, u.booking x.1.1 = some x.1.2 ∧ x.1.2.state.isLive = true) :
    AbortRun a u w (((k, b), j) :: xs) c := by
  refine ⟨?_, ?_, ?_, ?_, ?_⟩
  · rw [h.records, h1.records, List.append_assoc, List.filter_cons]
    by_cases hroom : a.count + j < 64
    · simp [hroom, hc]
    · simp [hroom]
  · intro x hx
    obtain rfl | hx := List.mem_cons.1 hx
    · rw [hc]
      exact (h.others k fun y hy e => hne y hy e).trans h1.slot
    · exact h.slots x hx
  · intro i hi
    refine (h.others i fun x hx => hi x (List.mem_cons_of_mem _ hx)).trans ?_
    rw [hv]
    exact abortSlot_booking u (hi _ (List.mem_cons_self ..)).symm
  · rw [h.mgmt, List.flatMap_cons, State.raiseAll_append,
      a.notes_congr (c' := fun _ => u.closedAt (k, b)) (x := ((k, b), j)) hc]
    refine State.raiseAll_mgmt_congr h1.mgmt ?_ _
    rw [State.raiseAll_same State.time (fun t c => State.raise_time ..), h1.aborted.nt, hu.nt]
  · intro hlinked x hx
    obtain rfl | hx := List.mem_cons.1 hx
    · exact hc
    · obtain ⟨hbx, hlx⟩ := hlive x hx
      have hsound : Sound False False False u := ⟨hlinked, nofun, nofun, nofun⟩
      rw [h.closed (hv ▸ (hsound.abortSlot k).toLinked) x hx]
      unfold State.closedAt
      rw [hv, hlinked.abort_legsAt hb hl (hne x hx) hbx hlx]

/-- The endings of CLEAR TRAFFIC, over the slots in order (R95). -/
theorem abortRun (a : BillBase) (es : List (Nat × Booking)) {j : Nat} {u : State} (h : Aborted a j u)
    (hes : ∀ e ∈ es, u.booking e.1 = some e.2) (hkeys : (es.map Prod.fst).Nodup) :
    Aborted a (j + (es.filter fun e => e.2.state.isLive).length) ((es.map Prod.fst).foldl abortSlot u)
      ∧ ∃ c, AbortRun a u ((es.map Prod.fst).foldl abortSlot u) ((es.filter fun e => e.2.state.isLive).zipIdx j) c := by
  induction es generalizing j u with
  | nil =>
    refine ⟨h, Prod.snd, ?_⟩
    rw [List.filter_nil, List.zipIdx_nil]
    exact ⟨by simp, fun x hx => absurd hx List.not_mem_nil, fun _ _ => rfl, rfl, fun _ x hx => absurd hx List.not_mem_nil⟩
  | cons e es ih =>
    obtain ⟨k, b⟩ := e
    have hb : u.booking k = some b := hes (k, b) (List.mem_cons_self ..)
    obtain ⟨hk, hkeys⟩ := List.nodup_cons.1 hkeys
    have hkne : ∀ e ∈ es, e.1 ≠ k := fun e he hek => hk (List.mem_map.2 ⟨e, he, hek⟩)
    rw [List.map_cons, List.foldl_cons]
    dsimp only
    by_cases hl : b.state.isLive = true
    · have h1 := h.abort hb hl
      obtain ⟨hcount, c, hrun⟩ := ih h1.aborted
        (fun e he => (abortSlot_booking u (hkne e he)).trans (hes e (List.mem_cons_of_mem _ he))) hkeys
      rw [List.filter_cons_of_pos (by exact hl), List.zipIdx_cons, List.length_cons]
      have hmem : ∀ x ∈ (es.filter fun e => e.2.state.isLive).zipIdx (j + 1), x.1 ∈ es ∧ x.1.2.state.isLive = true := fun x hx => by
        have := List.fst_mem_of_mem_zipIdx hx
        simpa using List.mem_filter.1 this
      refine ⟨by rw [show j + ((es.filter fun e => e.2.state.isLive).length + 1)
        = j + 1 + (es.filter fun e => e.2.state.isLive).length by omega]; exact hcount,
        fun e => if e = (k, b) then u.closedAt (k, b) else c e, ?_⟩
      refine AbortRun.cons h hb hl h1 rfl (hrun.congr fun x hx => if_neg fun e => ?_) (if_pos rfl) (fun x hx => hkne _ (hmem x hx).1)
        fun x hx => ⟨hes _ (List.mem_cons_of_mem _ (hmem x hx).1), (hmem x hx).2⟩
      exact hkne _ (hmem x hx).1 (congrArg Prod.fst e)
    · have hsame : abortSlot u k = u := by
        unfold abortSlot
        rw [hb]
        exact if_neg hl
      rw [hsame, List.filter_cons_of_neg (by exact hl)]
      exact ih h (fun e he => hes e (List.mem_cons_of_mem _ he)) hkeys

/-! ## Freeing without a bill (R95) -/

@[simp] theorem freeEarly_bills (s : State) (k : Nat) : (freeEarly s k).bills = s.bills := by
  unfold freeEarly
  split
  · split
    · rfl
    · exact foldl_same State.bills _ (fun u i => by simp) _ _
  · rfl

@[simp] theorem freeEarly_mgmt (s : State) (k : Nat) : (freeEarly s k).mgmt = s.mgmt := by
  unfold freeEarly
  split
  · split
    · rfl
    · exact foldl_same State.mgmt _ (fun u i => by simp) _ _
  · rfl

theorem freeEarly_waiters {s : State} (h : Rising s.bookings) (k : Nat) :
    Rising (freeEarly s k).bookings ∧ (freeEarly s k).waiters = s.waiters := by
  unfold freeEarly
  cases hb : s.booking k with
  | none => exact ⟨h, rfl⟩
  | some b =>
    dsimp only
    split
    · exact ⟨h, rfl⟩
    · next hst =>
      have hbookings : (b.named.foldl State.loseRef s).bookings = s.bookings := foldl_same State.bookings _ (fun u i => by simp) _ _
      have he : b.state.isEnded = false := by
        cases he : b.state.isEnded
        · rfl
        · simp [he] at hst
      refine ⟨Rising.del (hbookings ▸ h) k, ?_⟩
      rw [State.freeSlot_waiters (hbookings ▸ h) ((State.booking_congr hbookings k).trans hb) he]
      unfold State.waiters
      rw [hbookings]

theorem freeEarlys_waiters (ks : List Nat) {s : State} (h : Rising s.bookings) : (ks.foldl freeEarly s).waiters = s.waiters :=
  (foldl_keeps (fun u : State => Rising u.bookings ∧ u.waiters = s.waiters) _
    (fun _ k hu => ⟨(freeEarly_waiters hu.1 k).1, (freeEarly_waiters hu.1 k).2.trans hu.2⟩) ks s ⟨h, rfl⟩).2

/-! ## The drains (R7, R18) -/

/-- The notice of a port that is DRAINING with no feed cell left (R7, R15). -/
def State.drainNotice (s : State) (p : Port) : Option NoticeContent :=
  if (s.port p).state = .draining ∧ (s.port p).feedQ = [] then some (.portState p .draining .disabled (s.port p).line .drained) else none

theorem drains_mgmt (ps : List Port) (hn : ps.Nodup) (v : State) :
    (ps.foldl State.drainIfEmpty v).mgmt = (v.raiseAll (ps.filterMap v.drainNotice)).mgmt := by
  induction ps generalizing v with
  | nil => rfl
  | cons p ps ih =>
    obtain ⟨hp, hn⟩ := List.nodup_cons.1 hn
    have hsame : ps.filterMap (v.drainIfEmpty p).drainNotice = ps.filterMap v.drainNotice := List.filterMap_congr fun q hq => by
      have hqp : q ≠ p := fun e => hp (e ▸ hq)
      have hport : (v.drainIfEmpty p).port q = v.port q := (v.drainIfEmpty_port p q).trans (if_neg fun h => hqp h.1)
      unfold State.drainNotice
      rw [hport]
    rw [List.foldl_cons, ih hn, hsame]
    by_cases hd : (v.port p).state = .draining ∧ (v.port p).feedQ = []
    · have hstep : v.drainIfEmpty p = (v.setPort p { v.port p with state := .disabled }).raise
          (.portState p .draining .disabled (v.port p).line .drained) := by
        unfold State.drainIfEmpty State.changePort
        dsimp only
        rw [if_pos hd, hd.1]
      rw [hstep, List.filterMap_cons_some (show v.drainNotice p = some _ from if_pos hd), State.raiseAll_cons]
      exact State.raiseAll_mgmt_congr
        (State.raise_mgmt_congr (u := v.setPort p { v.port p with state := .disabled }) (v := v) rfl rfl _)
        (by rw [State.raise_time, State.raise_time]; rfl) _
    · have hstep : v.drainIfEmpty p = v := by
        unfold State.drainIfEmpty
        exact if_neg hd
      rw [hstep, List.filterMap_cons_none (show v.drainNotice p = none from if_neg hd)]

end Sys2Proof.Machine
end

