-- ==== Sys2Proof/Proofs/ClearTrafficWhole.lean ====
section
/-! CLEAR TRAFFIC settled: what it leaves of bookings, bills, ports and notices (R18, R51, R95, R170). -/

namespace Sys2Proof.Machine

/-! ## Its parts -/

/-- The state after the endings and the bookings freed without a bill (R95). -/
def State.freed (s : State) : State := s.slots.foldl freeEarly (s.slots.foldl abortSlot s)

/-- Groups and sources cleared and feed queues flushed, before the drains (R18, R51, R170). -/
def State.emptied (s : State) : State :=
  State.mapPorts { s.freed with groups := Vector.replicate 32 ⟨.opened, 0⟩, sources := [] } PortRec.flushFeed

theorem State.clearTraffic_eq (s : State) : s.clearTraffic = (List.finRange 16).foldl State.drainIfEmpty s.emptied := rfl

theorem State.drainIfEmpty_same {γ : Type} (g : State → γ) (hp : ∀ t p r, g (State.setPort t p r) = g t)
    (hr : ∀ t c, g (State.raise t c) = g t) (s : State) (p : Port) : g (s.drainIfEmpty p) = g s := by
  unfold State.drainIfEmpty State.changePort
  dsimp only
  split
  · exact (hr _ _).trans (hp _ _ _)
  · rfl

theorem State.clearTraffic_same {γ : Type} (g : State → γ) (hp : ∀ t p r, g (State.setPort t p r) = g t)
    (hr : ∀ t c, g (State.raise t c) = g t) (s : State) : g s.clearTraffic = g s.emptied :=
  foldl_same g _ (fun u p => State.drainIfEmpty_same g hp hr u p) _ _

section
variable (s : State)

theorem State.freed_ports : s.freed.ports = s.ports :=
  ((bookingClosed_sameFrame s).freeEarlySlots s.slots ((bookingClosed_sameFrame s).abortSlots s.slots (.refl s))).1

theorem State.freed_time : s.freed.time = s.time :=
  ((bookingClosed_sameMode s).freeEarlySlots s.slots ((bookingClosed_sameMode s).abortSlots s.slots (.refl s))).2.2

theorem State.freed_tariffs : s.freed.tariffs = s.tariffs := by
  refine (foldl_same State.tariffs _ (fun u k => ?_) _ _).trans (foldl_same State.tariffs _ (fun u k => ?_) _ _)
  · unfold freeEarly
    split
    · split
      · rfl
      · exact foldl_same State.tariffs _ (fun u i => by simp) _ _
    · rfl
  · unfold abortSlot
    split
    · split
      · exact State.endBooking_tariffs ..
      · rfl
    · rfl

theorem State.emptied_port (p : Port) : s.emptied.port p = { s.port p with feedQ := [] } := by
  unfold State.emptied
  rw [State.mapPorts_port]
  unfold PortRec.flushFeed
  rw [show State.port { s.freed with groups := Vector.replicate 32 ⟨.opened, 0⟩, sources := [] } p = s.port p from
    congrArg (fun v : Vector PortRec 16 => v[p]) s.freed_ports]

end

/-! ## Its whole effect -/

/-- The live bookings in slot order, each with the number of those before it. -/
def State.lives (s : State) : List ((Nat × Booking) × Nat) := (s.bookings.filter fun e => e.2.state.isLive).zipIdx

/-- The PORT_STATE notices of the drains, in port order (R7, R15). -/
def State.drainNotices (s : State) : List NoticeContent := (List.finRange 16).filterMap fun p =>
  if (s.port p).state = .draining then some (.portState p .draining .disabled (s.port p).line .drained) else none

theorem zipIdx_filter_take {α : Type} (xs : List α) (n m j : Nat) :
    ((xs.zipIdx j).filter fun x => decide (n + x.2 < m)) = (xs.zipIdx j).take (m - (n + j)) := by
  induction xs generalizing j with
  | nil => simp
  | cons x xs ih =>
    rw [List.zipIdx_cons, List.filter_cons, ih]
    by_cases h : n + j < m
    · rw [if_pos (by simpa using h), show m - (n + j) = m - (n + (j + 1)) + 1 by omega, List.take_succ_cons]
    · rw [if_neg (by simpa using h), show m - (n + j) = 0 by omega, show m - (n + (j + 1)) = 0 by omega]
      rfl

/-- What CLEAR TRAFFIC does to bookings, bills and notices, the aborted bookings closed as `c` says (R95, R148, R154, R170). -/
structure ClearedBy (s t : State) (c : Nat × Booking → Booking) : Prop where
  records : t.bills.records = s.bills.records
    ++ (s.lives.take (64 - s.bills.records.length)).map fun x => ⟨s.billBase.seq x.2, s.billBase.bill (c x.1)⟩
  next : t.bills.next = s.billBase.seq (min s.liveCount (64 - s.bills.records.length))
  waiters : t.waiters = s.waiters + s.liveCount - min s.liveCount (64 - s.bills.records.length)
  slots : ∀ x ∈ s.lives, t.booking x.1.1 =
    if s.bills.records.length + x.2 < 64 then none else some (s.billBase.waiting (c x.1))
  ended : ∀ k b, s.booking k = some b → b.state.isEnded = true → t.booking k = some b
  all : ∀ k b, t.booking k = some b → ∃ bill, b.state = .ended bill
    ∧ (s.booking k = some b ∨ bill.outcome = .aborted ∧ bill.endNt = s.time.nt)
  mgmt : t.mgmt = (s.raiseAll (s.lives.flatMap (s.billBase.notes c) ++ s.drainNotices)).mgmt
  closed : Linked s → ∀ x ∈ s.lives, c x.1 = s.closedAt x.1

theorem State.lives_length (s : State) : (s.bookings.filter fun e => e.2.state.isLive).length = s.liveCount :=
  (List.countP_eq_length_filter (p := fun e : Nat × Booking => e.2.state.isLive) (l := s.bookings)).symm

theorem State.mem_lives {s : State} (ht : TablesInForm s) {x : (Nat × Booking) × Nat} (hx : x ∈ s.lives) :
    s.booking x.1.1 = some x.1.2 ∧ x.1.2.state.isLive = true := by
  obtain ⟨hmem, hl⟩ := List.mem_filter.1 (List.fst_mem_of_mem_zipIdx hx)
  exact ⟨ht.mem_bookings.1 hmem, hl⟩

/-- The bookings before the drains are those after the endings that wait in ENDED (R95). -/
theorem State.freed_booking (s : State) (k : Nat) :
    s.freed.booking k = ((s.slots.foldl abortSlot s).booking k).filter Booking.stays := by
  unfold State.freed
  rw [freeEarlys_booking]
  split
  · rfl
  · next hk => rw [abortSlots_booking s.slots s hk, State.booking_of_not_slot hk]; exact rfl

theorem State.emptied_mgmt (s : State) : s.emptied.mgmt = (s.slots.foldl abortSlot s).mgmt := by
  have hfreed : s.freed.mgmt = (s.slots.foldl abortSlot s).mgmt := foldl_same State.mgmt _ (fun u k => freeEarly_mgmt u k) _ _
  unfold State.emptied
  rw [State.mapPorts_mgmt]
  exact hfreed

theorem State.emptied_nt (s : State) : s.emptied.time.nt = (s.slots.foldl abortSlot s).time.nt := by
  have habort := ((bookingClosed_sameMode s).abortSlots s.slots (.refl s)).2.2
  unfold State.emptied
  rw [State.mapPorts_time]
  exact congrArg TimeUnit.nt (s.freed_time.trans habort.symm)

/-- The notices of CLEAR TRAFFIC end with those of the drains (R15, R18). -/
theorem State.clearTraffic_mgmt (s : State) : s.clearTraffic.mgmt = ((s.slots.foldl abortSlot s).raiseAll s.drainNotices).mgmt := by
  have hdrains : (List.finRange 16).filterMap s.emptied.drainNotice = s.drainNotices := List.filterMap_congr fun p _ => by
    unfold State.drainNotice
    rw [State.emptied_port]
    simp
  rw [State.clearTraffic_eq, drains_mgmt _ (List.nodup_finRange 16), hdrains]
  exact State.raiseAll_mgmt_congr s.emptied_mgmt s.emptied_nt _

theorem clearTraffic_effect (s : State) (ht : TablesInForm s) : ∃ c, ClearedBy s s.clearTraffic c := by
  obtain ⟨habort, c, hrun⟩ := abortRun s.billBase s.bookings (aborted_start s ht.bookings)
    (fun e he => ht.mem_bookings.1 he) (ht.bookings.imp Nat.ne_of_lt)
  rw [Nat.zero_add, State.lives_length] at habort
  have hbills : s.clearTraffic.bills = (s.slots.foldl abortSlot s).bills :=
    (State.clearTraffic_same State.bills (fun _ _ _ => rfl) (fun t c => State.raise_bills ..) s).trans
      (foldl_same State.bills _ (fun u k => freeEarly_bills u k) _ _)
  have hbookings : s.clearTraffic.bookings = s.freed.bookings :=
    State.clearTraffic_same State.bookings (fun _ _ _ => rfl) (fun t c => State.raise_bookings ..) s
  have hbooking : ∀ k, s.clearTraffic.booking k = ((s.slots.foldl abortSlot s).booking k).filter Booking.stays :=
    fun k => (State.booking_congr hbookings k).trans (s.freed_booking k)
  refine ⟨c, ?_, ?_, ?_, ?_, ?_, ?_, ?_, hrun.closed⟩
  · rw [hbills]
    refine hrun.records.trans ?_
    rw [zipIdx_filter_take]
    rfl
  · rw [hbills]
    exact habort.next
  · have hwaiters : s.clearTraffic.waiters = (s.slots.foldl abortSlot s).waiters := by
      unfold State.waiters
      rw [hbookings]
      exact freeEarlys_waiters s.slots habort.rising
    have hcount : (s.slots.foldl abortSlot s).waiters + min s.liveCount (64 - s.bills.records.length) = s.waiters + s.liveCount :=
      habort.waiters
    omega
  · intro x hx
    have hslot : (s.slots.foldl abortSlot s).booking x.1.1 =
        if s.bills.records.length + x.2 < 64 then none else some (s.billBase.waiting (c x.1)) := hrun.slots x hx
    rw [hbooking, hslot]
    split
    · rfl
    · exact Option.filter_some_pos (p := Booking.stays) rfl
  · intro k b hb he
    have hsame : (s.slots.foldl abortSlot s).booking k = s.booking k := hrun.others k fun x hx hk => by
      obtain ⟨hb', hl⟩ := State.mem_lives ht hx
      rw [hk, hb] at hb'
      cases hb'
      rw [BookingState.not_ended_of_live hl] at he
      cases he
    rw [hbooking, hsame, hb]
    exact Option.filter_some_pos (p := Booking.stays) (by unfold Booking.stays; rw [he, Bool.or_true])
  · intro k b hb
    obtain ⟨hafter, hended⟩ := clearedBookings s k b ((State.booking_congr hbookings k).symm.trans hb)
    obtain ⟨bill, hbill⟩ : ∃ bill, b.state = .ended bill := by
      cases hs : b.state with
      | ended bill => exact ⟨bill, rfl⟩
      | _ => rw [hs] at hended; cases hended
    refine ⟨bill, hbill, ?_⟩
    by_cases hk : ∃ x ∈ s.lives, x.1.1 = k
    · obtain ⟨x, hx, rfl⟩ := hk
      have hslot : (s.slots.foldl abortSlot s).booking x.1.1 =
          if s.bills.records.length + x.2 < 64 then none else some (s.billBase.waiting (c x.1)) := hrun.slots x hx
      rw [hafter] at hslot
      split at hslot
      · cases hslot
      · cases hslot
        cases hbill
        exact .inr (closeBill_total_fields ..)
    · exact .inl ((hrun.others k fun x hx hxk => hk ⟨x, hx, hxk⟩).symm.trans hafter)
  · rw [s.clearTraffic_mgmt, State.raiseAll_append]
    refine State.raiseAll_mgmt_congr hrun.mgmt ?_ _
    rw [State.raiseAll_same State.time (fun t c => State.raise_time ..)]
    exact habort.nt

end Sys2Proof.Machine
end

