-- ==== Sys2Proof/Proofs/ClearTrafficOrder.lean ====
section
/-! The order CLEAR TRAFFIC and what it answers (R170). -/

namespace Sys2Proof.Machine

/-- The notices of one abortion: BILL_LEVEL at the 48th record, BILL_FULL at the 64th, and BOOKING_ENDED (R97, R154). -/
theorem BillBase.notes_eq (a : BillBase) (c : Nat × Booking → Booking) (x : (Nat × Booking) × Nat) :
    a.notes c x =
      (if a.count + x.2 = 47 then [.billLevel 48 a.oldest (a.seq x.2) a.waiters]
        else if a.count + x.2 = 63 then [.billFull 64 a.oldest (a.seq x.2) a.waiters] else [])
        ++ [.bookingEnded x.1.1 x.1.2.ref x.1.2.fields.account .aborted a.nt (a.bill (c x.1)).total
          (if a.count + x.2 < 64 then some (a.seq x.2) else none)] := by
  have h48 : (if a.count + x.2 < 64 then a.count + x.2 + 1 else 0) = 48 ↔ a.count + x.2 = 47 := by split <;> omega
  have h64 : (if a.count + x.2 < 64 then a.count + x.2 + 1 else 0) = 64 ↔ a.count + x.2 = 63 := by split <;> omega
  unfold BillBase.notes levelNotes
  simp only [h48, h64]

section
variable {s t : State} {c : Nat × Booking → Booking}

theorem ClearedBy.closedAt (h : ClearedBy s t c) (hl : Linked s) : ClearedBy s t s.closedAt := by
  have hc := h.closed hl
  refine { h with records := ?_, slots := fun x hx => ?_, mgmt := ?_, closed := fun _ _ _ => rfl }
  · rw [h.records, List.map_congr_left fun x hx => by rw [hc x (List.mem_of_mem_take hx)]]
  · rw [← hc x hx]
    exact h.slots x hx
  · rw [h.mgmt, List.flatMap_congr fun x hx => s.billBase.notes_congr (hc x hx)]

theorem ClearedBy.records_length (h : ClearedBy s t c) :
    t.bills.records.length = s.bills.records.length + min s.liveCount (64 - s.bills.records.length) := by
  rw [h.records, List.length_append, List.length_map, List.length_take, Nat.min_comm, State.lives, List.length_zipIdx,
    State.lives_length]

theorem ClearedBy.records_take (h : ClearedBy s t c) : t.bills.records.take s.bills.records.length = s.bills.records := by
  rw [h.records]
  exact List.take_left' rfl

theorem ClearedBy.records_drop (h : ClearedBy s t c) :
    ∀ r ∈ t.bills.records.drop s.bills.records.length, r.bill.outcome = .aborted ∧ r.bill.endNt = s.time.nt := by
  rw [h.records, List.drop_left' rfl]
  intro r hr
  obtain ⟨x, -, rfl⟩ := List.mem_map.1 hr
  exact closeBill_total_fields ..

theorem ClearedBy.mode (h : ClearedBy s t c) : t.mgmt.mode = s.mgmt.mode := by
  rw [h.mgmt]
  exact State.raiseAll_same (fun u => u.mgmt.mode) (fun u n => u.raise_mode n) s _

theorem ClearedBy.orders (h : ClearedBy s t c) : t.mgmt.orders = s.mgmt.orders := by
  rw [h.mgmt]
  exact State.raiseAll_same (fun u => u.mgmt.orders) (fun u n => u.raise_orders n) s _

end

theorem exec_clearTraffic (s : State) :
    exec .clearTraffic s = s.awake fun s => s.takeOrder .clearTraffic clearTrafficOrder := rfl

section
variable {s : State} {o : Order} {rest : List Order}

theorem clearTrafficOrder_commissioning (hl : o.badLength 0 = false) (hm : s.mgmt.mode = .commissioning) :
    clearTrafficOrder o s = ⟨s, .mode, .empty⟩ := by
  unfold clearTrafficOrder
  generalize s.clearTraffic = t
  simp [State.checked, firstFail, checkStep, hl, hm]

theorem clearTrafficOrder_done (hl : o.badLength 0 = false) (hm : s.mgmt.mode ≠ .commissioning) :
    clearTrafficOrder o s = ⟨s.clearTraffic, .done, .trafficCleared s.liveCount s.earlyCount
      (s.clearTraffic.bills.records.length - s.bills.records.length) s.clearTraffic.waiters⟩ := by
  unfold clearTrafficOrder
  generalize s.clearTraffic = t
  simp [State.checked, firstFail, checkStep, hl, hm]

theorem Offers.goodLength {k : OrderKind} {n : Nat} (h : Offers s k n o rest) : o.badLength n = false := by
  simp [h.badLength]

theorem ClearedBy.answers {c : Nat × Booking → Booking} (ho : Offers s .clearTraffic 0 o rest) (hm : s.mgmt.mode ≠ .commissioning)
    (h : ClearedBy (s.taken o rest) (s.taken o rest).clearTraffic c) :
    Answers .clearTraffic s o (s.taken o rest).clearTraffic .done
      (.trafficCleared s.liveCount s.earlyCount (min s.liveCount (64 - s.bills.records.length))
        (s.waiters + s.liveCount - min s.liveCount (64 - s.bills.records.length))) := by
  refine ho.answers (exec_clearTraffic s) ((clearTrafficOrder_done (s := s.taken o rest) ho.goodLength hm).trans ?_)
  have hlen := h.records_length
  have hwritten : (s.taken o rest).clearTraffic.bills.records.length - (s.taken o rest).bills.records.length
      = min s.liveCount (64 - s.bills.records.length) := by
    rw [hlen]
    exact Nat.add_sub_cancel_left ..
  rw [hwritten, h.waiters]
  exact rfl

theorem State.clearTraffic_groups (s : State) : s.clearTraffic.groups = Vector.replicate 32 ⟨.opened, 0⟩ :=
  State.clearTraffic_same State.groups (fun _ _ _ => rfl) (fun _ _ => State.raise_groups ..) s

theorem State.clearTraffic_sources (s : State) : s.clearTraffic.sources = [] :=
  State.clearTraffic_same State.sources (fun _ _ _ => rfl) (fun _ _ => State.raise_sources ..) s

theorem State.clearTraffic_tariffs (s : State) : s.clearTraffic.tariffs = s.tariffs :=
  (State.clearTraffic_same State.tariffs (fun _ _ _ => rfl) (fun _ _ => State.raise_tariffs ..) s).trans s.freed_tariffs

theorem State.clearTraffic_time (s : State) : s.clearTraffic.time = s.time :=
  (State.clearTraffic_same State.time (fun _ _ _ => rfl) (fun _ _ => State.raise_time ..) s).trans s.freed_time

theorem Linked.taken (h : Linked s) (ho : s.mgmt.orders = o :: rest) : Linked (s.taken o rest) := by
  have hsound : Sound False False False s := ⟨h, nofun, nofun, nofun⟩
  exact (quiet_sound.taken ho hsound).toLinked

end

/-- Settles O55: the endings run over the slots in order, each live booking's legs standing until its own ending; the bookings
freed early, the flush and the drains come after them. -/
theorem clearTrafficEmptiesTheNode : Obligations.ClearTrafficEmptiesTheNode := by
  intro s o rest ht ho
  refine ⟨fun hm => ho.answers (exec_clearTraffic s) (clearTrafficOrder_commissioning ho.goodLength hm), fun hm => ?_⟩
  obtain ⟨c, hc⟩ := clearTraffic_effect (s.taken o rest) (ht.of_tables rfl rfl)
  refine ⟨(s.taken o rest).clearTraffic, hc.answers ho hm, State.clearTraffic_sources _, State.clearTraffic_groups _, fun p => ?_,
    hc.ended, hc.all, hc.records_length, hc.records_take, hc.records_drop, State.clearTraffic_tariffs _, State.clearTraffic_time _,
    hc.mode, hc.orders, fun hl => ?_⟩
  · rw [State.clearTraffic_port]
    exact ⟨rfl, rfl, rfl⟩
  · have hlinked : Linked (s.taken o rest) := (linked_iff.2 ⟨ht, hl⟩).taken ho.head
    have hs := hc.closedAt hlinked
    refine ⟨hs.records, hs.next, hs.slots, hs.mgmt.trans ?_⟩
    rw [List.flatMap_congr fun x _ => BillBase.notes_eq _ _ x]
    exact rfl

end Sys2Proof.Machine
end

