-- ==== Sys2Proof/Proofs/NetworkTime.lean ====
section
/-! Network time (chapter 2): serial comparison, the ticks of time cells and of the local reference, steps, and the orders of the
Time Unit (R19 to R31). -/

namespace Sys2Proof.Machine

/-! ## Serial time (R20) -/

theorem reached_iff (nt t : Word) : reached nt t = true ↔ (nt - t).toNat < 2 ^ 31 := by
  simp [reached]

/-- A signed reading is at most 0 exactly when the word of the opposite sign is at most half the circle. -/
theorem toInt_neg_nonpos_iff (x : Word) : (-x).toInt ≤ 0 ↔ x.toNat ≤ 2 ^ 31 := by
  have hx : x.toNat < 2 ^ 32 := x.isLt
  rw [BitVec.toInt_eq_toNat_cond, BitVec.toNat_neg]
  split <;> omega

theorem ticksUntil_nonpos_iff (nt t : Word) : ticksUntil nt t ≤ 0 ↔ (nt - t).toNat ≤ 2 ^ 31 := by
  rw [← toInt_neg_nonpos_iff, neg_sub, ticksUntil]

/-- Settles O14: both are bounds on the distance from `t` to NT, and they part only where it is half the circle. -/
theorem serialTimeOrders : Obligations.SerialTimeOrders := by
  refine ⟨fun nt t hne => ?_, fun t n hn => ?_, fun t => ⟨?_, ?_⟩⟩
  · have hd : (nt - t).toNat ≠ 2 ^ 31 := fun h => hne (BitVec.eq_of_toNat_eq h)
    rw [reached_iff, ticksUntil_nonpos_iff]
    omega
  · rw [reached_iff, add_sub_cancel_left, BitVec.toNat_ofNat]
    omega
  · rw [reached, add_sub_cancel_left]
    rfl
  · rw [ticksUntil, ← neg_sub, add_sub_cancel_left]
    rfl

/-! ## The TIME_STATE notice (R31) -/

section
variable {s : State}

theorem State.noteTimeState_of_eq {old : TimeState} (h : s.time.state = old) (c : TimeCause) : s.noteTimeState old c = s :=
  if_pos h

theorem State.noteTimeState_of_ne {old : TimeState} (h : s.time.state ≠ old) (c : TimeCause) :
    s.noteTimeState old c = s.raise (.timeState old s.time.state c s.time.nt s.time.selection) :=
  if_neg h

end

/-! ## The local reference (R21, R23) -/

section
variable {s : State} (hr : s.inReset = false) {a : Nat}
include hr

theorem exec_localTick (ha : s.time.nextLocal = some a) : exec .localTick s = .next (s.localTick a) := by
  unfold exec execLocalTick
  rw [State.awake_of_out hr, ha]

theorem exec_timeCellDeadline (hl : s.time.state = .locked) (ha : s.time.deadline = some a) :
    exec .timeCellDeadline s = .next (s.missDeadline a) := by
  unfold exec execTimeCellDeadline
  rw [State.awake_of_out hr, hl, ha]

end

/-- Leaving LOCKED on a missed deadline is a change of time state, so its notice is raised (R23, R31). -/
theorem State.missDeadline_locked {s : State} (hl : s.time.state = .locked) (a : Nat) :
    s.missDeadline a
      = (State.makeTick
          { s with
            now := max s.now a
            time := { s.time with state := .holdover, nextLocal := some (a + 10), deadline := none } }
          (s.time.nt + 1) false).raise (.timeState .locked .holdover .timeout (s.time.nt + 1) s.time.selection) := by
  unfold State.missDeadline
  rw [hl]
  exact State.noteTimeState_of_ne (by simp [State.makeTick]) _

/-- Settles O15: each instant is one ordinary tick, the deadline's made in HOLDOVER. -/
theorem localReferenceMakesTicks : Obligations.LocalReferenceMakesTicks := by
  intro s a hr
  refine ⟨fun ha => ?_, fun hl ha => ?_⟩
  · rw [exec_localTick hr ha]
    rfl
  · rw [exec_timeCellDeadline hr hl ha, State.missDeadline_locked hl]
    rfl

/-! ## Time cells (R22 to R26) -/

/-- A time cell that passes the check, on a port that is not DARK, reaches the Time Unit (R4, R22). -/
theorem State.takeCell_time {s : State} {p : Port} {bytes : List Byte} (hc : checkPasses bytes = true)
    (hd : (s.port p).isDark = false) (hl : (cellOf bytes).label = 255#8) :
    s.takeCell p bytes = (s.endFailRun p).timeCell p (timeValue (cellOf bytes)) := by
  rw [State.takeCell, if_pos hc, State.sortCell]
  cases hs : (s.port p).state with
  | dark ret => simp [PortRec.isDark, hs] at hd
  | enabled => simp [State.endFailRun, hs, PortState.sorts, hl]
  | draining => simp [State.endFailRun, hs, PortState.sorts, hl]
  | disabled => simp [State.endFailRun, hs, PortState.sorts, hl]

theorem exec_timeCell {s : State} {p : Port} {bytes : List Byte} (hr : s.inReset = false) (hn : (s.port p).line = .delineated)
    (hd : (s.port p).isDark = false) (hc : checkPasses bytes = true) (hl : (cellOf bytes).label = 255#8) :
    exec (.cellArrival p bytes) s = .next ((s.endFailRun p).timeCell p (timeValue (cellOf bytes))) := by
  rw [exec_cellArrival hr, if_pos hn, State.takeCell_time hc hd hl]

/-- The TIME_STATE notice of a unit that a cell has LOCKED: none when it was LOCKED already (R31). -/
theorem State.noteTimeState_locked {s : State} (hs : s.time.state = .locked) (old : TimeState) (c : TimeCause) :
    s.noteTimeState old c
      = s.raiseAll (if old = .locked then [] else [.timeState old .locked c s.time.nt s.time.selection]) := by
  split
  · next ho => exact State.noteTimeState_of_eq (hs.trans ho.symm) c
  · next ho =>
    rw [State.noteTimeState_of_ne (hs ▸ Ne.symm ho), hs]
    rfl

/-- An accepted step raises TIME_STEP, and after it TIME_STATE unless the unit was LOCKED already (R25, R31). -/
theorem State.acceptStep_eq (s : State) (v : Word) : s.acceptStep v
    = (s.makeTick v true).lock.raiseAll
        (.timeStep .accepted (v - s.time.nt - 1) v v s.time.selection s.time.stepCount
          :: if s.time.state = .locked then [] else [.timeState s.time.state .locked .stepAccepted v s.time.selection]) := by
  unfold State.acceptStep
  dsimp only
  rw [State.noteTimeState_locked (by rw [State.raise_time]; rfl), State.raiseAll_cons, State.raise_time]
  rfl

/-- The Time Unit's record after a refused step of difference `d` (R26). -/
def TimeUnit.refused (u : TimeUnit) (d : Word) : TimeUnit :=
  let y : TimeUnit := { u with stepCount := u.stepCount + 1, lastRefused := some d }
  if u.state = .locked then { y with state := .holdover, nextLocal := u.deadline, deadline := none } else y

section
variable (u : TimeUnit) (d : Word)

@[simp] theorem TimeUnit.refused_nt : (u.refused d).nt = u.nt := by
  unfold TimeUnit.refused
  split <;> rfl

@[simp] theorem TimeUnit.refused_selection : (u.refused d).selection = u.selection := by
  unfold TimeUnit.refused
  split <;> rfl

@[simp] theorem TimeUnit.refused_stepCount : (u.refused d).stepCount = u.stepCount + 1 := by
  unfold TimeUnit.refused
  split <;> rfl

theorem TimeUnit.refused_state : (u.refused d).state = if u.state = .locked then .holdover else u.state := by
  unfold TimeUnit.refused
  split <;> rfl

/-- A refused step changes the time state out of LOCKED alone, and its TIME_STATE notice says so (R26, R31). -/
theorem State.noteTimeState_refused {s : State} (hs : s.time = u.refused d) :
    s.noteTimeState u.state .stepRefused
      = s.raiseAll (if u.state = .locked then [.timeState .locked .holdover .stepRefused u.nt u.selection] else []) := by
  have hst : s.time.state = if u.state = .locked then .holdover else u.state := hs ▸ u.refused_state d
  split
  · next hl =>
    rw [if_pos hl] at hst
    rw [State.noteTimeState_of_ne (by simp [hst, hl]), hst, hl, hs, u.refused_nt, u.refused_selection]
    rfl
  · next hl =>
    rw [if_neg hl] at hst
    exact State.noteTimeState_of_eq hst _

end

/-- A refused step raises TIME_STEP unless its difference is the last refused one, and after it TIME_STATE when the unit was LOCKED
(R26, R31). -/
theorem State.refuseStep_eq {s : State} {v d : Word} (hd : stepDifference s.time.nt v = d) : s.refuseStep v
    = State.raiseAll { s with time := s.time.refused d }
        ((if s.time.lastRefused = some d then []
          else [.timeStep .refused d v s.time.nt s.time.selection (s.time.stepCount + 1)])
          ++ if s.time.state = .locked then [.timeState .locked .holdover .stepRefused s.time.nt s.time.selection] else []) := by
  have hmodel : s.refuseStep v = State.noteTimeState
      (if s.time.lastRefused = some d then { s with time := s.time.refused d }
        else State.raise { s with time := s.time.refused d }
          (.timeStep .refused d v (s.time.refused d).nt (s.time.refused d).selection (s.time.refused d).stepCount))
      s.time.state .stepRefused := by
    subst hd
    rfl
  rw [hmodel, TimeUnit.refused_nt, TimeUnit.refused_selection, TimeUnit.refused_stepCount, State.raiseAll_append]
  split
  · exact State.noteTimeState_refused s.time d rfl
  · exact State.noteTimeState_refused s.time d (State.raise_time ..)

section
variable {s : State} {p : Port} {v : Word}

theorem State.timeCell_unselected (h : s.time.selection ≠ some p) : s.timeCell p v = s := if_pos h

/-- A cell from the selected port that acquires NT, or matches NT + 1, is a tick (R22 to R24). -/
theorem State.timeCell_tick (h : s.time.selection = some p) (ht : s.time.state = .free ∨ v = s.time.nt + 1) :
    s.timeCell p v = s.tickCell v := by
  unfold State.timeCell
  rw [if_neg (not_not_intro h)]
  split
  · rfl
  · next hf => exact if_pos (ht.resolve_left hf)

variable (h : s.time.selection = some p) (hf : s.time.state ≠ .free) (hv : v ≠ s.time.nt + 1)
include h hf hv

/-- Any other cell from the selected port is a step, which the policy decides (R25, R26). -/
theorem State.timeCell_accept (hp : s.time.policy = .accept) : s.timeCell p v = s.acceptStep v := by
  unfold State.timeCell
  rw [if_neg (not_not_intro h), if_neg hf, if_neg hv, hp]

theorem State.timeCell_refuse (hp : s.time.policy = .refuse) : s.timeCell p v = s.refuseStep v := by
  unfold State.timeCell
  rw [if_neg (not_not_intro h), if_neg hf, if_neg hv, hp]

end

/-- Settles O16: the cell reaches the Time Unit, which takes it as a tick when it comes from the port selected. -/
theorem timeCellMakesTheTick : Obligations.TimeCellMakesTheTick := by
  intro s p bytes hr hn hd hc hl
  rw [exec_timeCell hr hn hd hc hl]
  refine ⟨fun hsel => ?_, fun hsel ht => ?_⟩
  · exact congrArg _ (State.timeCell_unselected hsel)
  · rw [State.timeCell_tick (s := s.endFailRun p) hsel ht, State.tickCell, State.noteTimeState_locked rfl, ← hsel]
    by_cases hs : s.time.state = .locked
    · rw [if_pos hs]
      exact congrArg (fun ns => Host.Outcome.next (State.raiseAll _ ns)) (if_pos hs)
    · rw [if_neg hs]
      exact congrArg (fun ns => Host.Outcome.next (State.raiseAll _ ns)) (if_neg hs)

/-- Settles O17: the policy decides the step, and the notices are those of its outcome. -/
theorem stepFollowsThePolicy : Obligations.StepFollowsThePolicy := by
  intro s p bytes hr hn hd hc hl hsel hf hv
  rw [exec_timeCell hr hn hd hc hl, ← hsel]
  refine ⟨fun hp => ?_, fun hp => ?_⟩
  · rw [State.timeCell_accept (s := s.endFailRun p) hsel hf hv hp, State.acceptStep_eq]
    rfl
  · rw [State.timeCell_refuse (s := s.endFailRun p) hsel hf hv hp, State.refuseStep_eq rfl]
    rfl

/-! ## TIME SOURCE (R27) -/

theorem exec_timeSource (s : State) : exec .timeSource s = s.awake fun s => s.takeOrder .timeSource fun o s =>
    if o.badLength 1 then ⟨s, .format, .empty⟩
    else
      match selectionOf (byteAt (paramsOf o.cell) 0) with
      | none => ⟨s, .range, .empty⟩
      | some sel => ⟨s.selectSource sel, .done, .timeSource (s.selectSource sel).time.selection (s.selectSource sel).time.state⟩ := rfl

/-- LOCAL or a port of the part, as the selection byte carries it (R172). -/
theorem selectionOf_named {b : Byte} {sel : Option Port}
    (h : sel = none ∧ b = 255 ∨ ∃ p : Port, sel = some p ∧ b.toNat = p.val) : selectionOf b = some sel := by
  unfold selectionOf
  obtain ⟨rfl, rfl⟩ | ⟨p, rfl, hp⟩ := h
  · rfl
  · have hb : b ≠ 255#8 := by
      rintro rfl
      exact absurd p.isLt (by rw [← hp]; decide)
    rw [if_neg hb, portOf_of_toNat hp]
    rfl

theorem selectionOf_large {b : Byte} (h : 15 < b.toNat) (hb : b ≠ 255) : selectionOf b = none := by
  unfold selectionOf
  rw [if_neg (show b ≠ 255#8 from hb), portOf_of_large h]
  rfl

section
variable {s t : State} {o : Order} {rest : List Order} {sel : Option Port}

/-- TIME SOURCE with a selection in range reports the selection and the time state that it leaves (R27). -/
theorem Offers.timeSource_answers {st : TimeState} (h : Offers s .timeSource 1 o rest) (hsel : selectionOf (o.param 0) = some sel)
    (ht : (s.taken o rest).selectSource sel = t) (hs : t.time.selection = sel) (hst : t.time.state = st) :
    Answers .timeSource s o t .done (.timeSource sel st) := by
  refine h.answers (exec_timeSource s) ?_
  rw [if_neg (by simp [h.goodLength]), show byteAt (paramsOf o.cell) 0 = o.param 0 from rfl, hsel]
  dsimp only
  rw [ht, hs, hst]

theorem Offers.timeSource_range (h : Offers s .timeSource 1 o rest) (hsel : selectionOf (o.param 0) = none) :
    Answers .timeSource s o (s.taken o rest) .range .empty := by
  refine h.answers (exec_timeSource s) ?_
  rw [if_neg (by simp [h.goodLength]), show byteAt (paramsOf o.cell) 0 = o.param 0 from rfl, hsel]

theorem State.selectSource_same (h : sel = s.time.selection) : s.selectSource sel = s := if_pos h

variable (hne : sel ≠ s.time.selection)
include hne

/-- A new selection that its table gives no other time state (R27). -/
theorem State.selectSource_stays
    (hs : s.time.state = .free ∨ s.time.state = .localRef ∨ s.time.state = .holdover ∧ sel ≠ none) :
    s.selectSource sel = { s with time := { s.time with selection := sel, lastRefused := none } } := by
  unfold State.selectSource
  rw [if_neg hne]
  dsimp only
  obtain hs | hs | ⟨hs, hp⟩ := hs
  · rw [hs]
    exact State.noteTimeState_of_eq rfl _
  · rw [hs]
    exact State.noteTimeState_of_eq rfl _
  · rw [hs, if_neg hp]
    exact State.noteTimeState_of_eq rfl _

/-- HOLDOVER becomes LOCAL when LOCAL is named (R27). -/
theorem State.selectSource_toLocal (hs : s.time.state = .holdover) (hsel : sel = none) :
    s.selectSource sel
      = State.raise { s with time := { s.time with selection := sel, lastRefused := none, state := .localRef } }
          (.timeState .holdover .localRef .sourceOrder s.time.nt none) := by
  unfold State.selectSource
  rw [if_neg hne]
  subst hsel
  dsimp only
  rw [hs]
  exact State.noteTimeState_of_ne (by simp) _

/-- LOCKED becomes LOCAL or HOLDOVER by whether LOCAL is named, its local schedule started at the running deadline (R21, R27). -/
theorem State.selectSource_unlocks (hs : s.time.state = .locked) :
    s.selectSource sel
      = State.raise
          { s with
            time :=
              { s.time with
                selection := sel, lastRefused := none, state := if sel = none then .localRef else .holdover
                nextLocal := s.time.deadline, deadline := none } }
          (.timeState .locked (if sel = none then .localRef else .holdover) .sourceOrder s.time.nt sel) := by
  unfold State.selectSource
  rw [if_neg hne]
  dsimp only
  rw [hs]
  refine State.noteTimeState_of_ne ?_ _
  show (if sel = none then TimeState.localRef else .holdover) ≠ .locked
  split <;> decide

end

/-- Settles O18, by the time state in which a new selection is made. -/
theorem timeSourceFollowsItsTable : Obligations.TimeSourceFollowsItsTable := by
  intro s o rest h
  refine ⟨fun hl hb => h.timeSource_range (selectionOf_large hl hb), fun sel hsel => ?_⟩
  have hof := selectionOf_named hsel
  refine ⟨fun he => ?_, fun hne hs => ?_, fun hne hs hl => ?_, fun hne hs => ?_⟩
  · exact h.timeSource_answers hof (State.selectSource_same (s := s.taken o rest) he) he.symm rfl
  · exact h.timeSource_answers hof (State.selectSource_stays (s := s.taken o rest) hne hs) rfl rfl
  · exact h.timeSource_answers hof (State.selectSource_toLocal (s := s.taken o rest) hne hs hl) (by simp) (by simp)
  · exact h.timeSource_answers hof (State.selectSource_unlocks (s := s.taken o rest) hne hs) (by simp) (by simp)

/-! ## TIME SET and TIME POLICY (R28, R29) -/

theorem exec_timeSet (s : State) : exec .timeSet s = s.awake fun s => s.takeOrder .timeSet fun o s =>
    if o.badLength 4 then ⟨s, .format, .empty⟩
    else if s.time.state = .locked ∨ s.time.state = .holdover then ⟨s, .state, .empty⟩
    else ⟨s.setTime (o.word 0), .done, .timeSet (s.setTime (o.word 0)).time.nt (s.setTime (o.word 0)).time.state⟩ := rfl

theorem exec_timePolicy (s : State) : exec .timePolicy s = s.awake fun s => s.takeOrder .timePolicy fun o s =>
    match if o.badLength 1 then none else policyOf (o.param 0) with
    | none => ⟨s, .format, .empty⟩
    | some pol => ⟨{ s with time := { s.time with policy := pol, lastRefused := none } }, .done, .timePolicy pol⟩ := rfl

section
variable {s t : State} {o : Order} {rest : List Order}

theorem Offers.timeSet_refused (h : Offers s .timeSet 4 o rest) (hs : s.time.state = .locked ∨ s.time.state = .holdover) :
    Answers .timeSet s o (s.taken o rest) .state .empty := by
  refine h.answers (exec_timeSet s) ?_
  rw [if_neg (by simp [h.goodLength])]
  exact if_pos hs

/-- TIME SET outside LOCKED and HOLDOVER reports NT and the time state that it leaves, the unit then in LOCAL (R28). -/
theorem Offers.timeSet_answers (h : Offers s .timeSet 4 o rest) (hs : s.time.state = .free ∨ s.time.state = .localRef)
    (ht : (s.taken o rest).setTime (o.word 0) = t) (hn : t.time.nt = o.word 0) (hl : t.time.state = .localRef) :
    Answers .timeSet s o t .done (.timeSet (o.word 0) .localRef) := by
  have hnot : ¬ ((s.taken o rest).time.state = .locked ∨ (s.taken o rest).time.state = .holdover) := by
    obtain hs | hs := hs <;> simp [hs]
  refine h.answers (exec_timeSet s) ?_
  rw [if_neg (by simp [h.goodLength]), if_neg hnot, ht, hn, hl]

/-- TIME POLICY by the policy that its byte names (R29, R172). -/
theorem Offers.timePolicy_answers {pol : StepPolicy} (h : Offers s .timePolicy 1 o rest) (hp : policyOf (o.param 0) = some pol) :
    Answers .timePolicy s o
      { s.taken o rest with time := { s.time with policy := pol, lastRefused := none } } .done (.timePolicy pol) := by
  refine h.answers (exec_timePolicy s) ?_
  rw [if_neg (by simp [h.goodLength]), hp]
  rfl

theorem Offers.timePolicy_format (h : Offers s .timePolicy 1 o rest) (hp : policyOf (o.param 0) = none) :
    Answers .timePolicy s o (s.taken o rest) .format .empty := by
  refine h.answers (exec_timePolicy s) ?_
  rw [if_neg (by simp [h.goodLength]), hp]

variable {v : Word}

/-- In FREE, NT becomes valid in LOCAL; TIME_STEP is raised before TIME_STATE (R28, R31). -/
theorem State.setTime_free (hs : s.time.state = .free) :
    s.setTime v
      = ((State.raise { s with time := { s.time with nt := v, state := .localRef, stepMark := true, lastRefused := none } }
          (.timeStep .set 0 v v s.time.selection s.time.stepCount)).raise
            (.timeState .free .localRef .setOrder v s.time.selection)) := by
  unfold State.setTime
  dsimp only
  rw [if_pos hs, State.noteTimeState_of_ne (by simp), State.raise_time]

theorem State.setTime_equal (hs : s.time.state ≠ .free) (hv : v = s.time.nt) :
    s.setTime v = { s with time := { s.time with lastRefused := none } } := by
  unfold State.setTime
  dsimp only
  rw [if_neg hs, if_pos hv]

theorem State.setTime_new (hs : s.time.state ≠ .free) (hv : v ≠ s.time.nt) :
    s.setTime v
      = State.raise { s with time := { s.time with nt := v, stepMark := true, lastRefused := none } }
          (.timeStep .set (v - s.time.nt) v v s.time.selection s.time.stepCount) := by
  unfold State.setTime
  dsimp only
  rw [if_neg hs, if_neg hv]

end

theorem policyOf_large {b : Byte} (h : 1 < b.toNat) : policyOf b = none := by
  unfold policyOf
  rw [if_neg (by rintro rfl; exact absurd h (by decide)), if_neg (by rintro rfl; exact absurd h (by decide))]

/-- Settles O19: TIME SET by the time state and the value set, TIME POLICY by its byte. -/
theorem timeSetAndPolicy : Obligations.TimeSetAndPolicy := by
  intro s o rest
  refine ⟨fun h => ⟨h.timeSet_refused, fun hs => ?_, fun hs hv => ?_, fun hs hv => ?_⟩,
    fun h => ⟨fun hp => ?_, fun hp => ?_, fun hp => h.timePolicy_format (policyOf_large hp)⟩⟩
  · exact h.timeSet_answers (.inl hs) (State.setTime_free (s := s.taken o rest) hs) (by simp) (by simp)
  · have hf : s.time.state ≠ .free := by simp [hs]
    exact h.timeSet_answers (.inr hs) (State.setTime_new (s := s.taken o rest) hf hv) (by simp) (by simp [hs])
  · have hf : s.time.state ≠ .free := by simp [hs]
    exact h.timeSet_answers (.inr hs) (State.setTime_equal (s := s.taken o rest) hf hv) hv.symm hs
  · exact h.timePolicy_answers (by rw [hp]; rfl)
  · exact h.timePolicy_answers (by rw [hp]; rfl)

end Sys2Proof.Machine
end

