-- ==== Sys2Proof/Proofs/SourceCells.lean ====
section
/-! Chapter 3: the refill of tokens, and a cell of a watched source from its distance to its token (R39 to R42). -/

namespace Sys2Proof.Machine

/-! ## The refill (R42) -/

theorem exec_tokenRefill (s : State) : exec .tokenRefill s = execTokenRefill s := rfl

/-- Settles O20: `refill` of every record is the statement's own. -/
theorem refillFillsEveryBucket : Obligations.RefillFillsEveryBucket := by
  intro s k rest hs hk
  rw [exec_tokenRefill, execTokenRefill, State.awake_of_out hs, hk]
  rfl

/-! ## Continuity by the distance (R39) -/

section
variable {q : Seq} {x : Source}

theorem continuity_resync (h : x.resync = true) : continuity q x = ({ x with expected := q + 1, resync := false }, false) :=
  if_pos h

theorem continuity_inOrder (h : x.resync = false) (hd : (q - x.expected).toNat = 0) :
    continuity q x = ({ x with expected := q + 1 }, false) := by
  have hzero : q - x.expected = 0 := BitVec.eq_of_toNat_eq hd
  unfold continuity
  rw [if_neg (by simp [h]), if_pos hzero]

theorem continuity_gap (h : x.resync = false) (h1 : 1 ≤ (q - x.expected).toNat) (h2 : (q - x.expected).toNat ≤ 2047) :
    continuity q x =
      ({ x with expected := q + 1, missing := x.missing + BitVec.ofNat 32 (q - x.expected).toNat, errored := true }, false) := by
  have hnonzero : q - x.expected ≠ 0 := fun e => by rw [e] at h1; exact absurd h1 (by decide)
  unfold continuity
  rw [if_neg (by simp [h]), if_neg hnonzero, if_pos h2, BitVec.ofNat_toNat]

theorem continuity_late (h : x.resync = false) (hd : 2048 ≤ (q - x.expected).toNat) :
    continuity q x = ({ x with late := x.late + 1, errored := true }, true) := by
  have hnonzero : q - x.expected ≠ 0 := fun e => by rw [e] at hd; exact absurd hd (by decide)
  unfold continuity
  rw [if_neg (by simp [h]), if_neg hnonzero, if_neg (by omega)]

/-- The three kinds of cell that go on to policing leave one record, which marks the gap where there is one. -/
theorem continuity_goesOn (h : x.resync = true ∨ (q - x.expected).toNat ≤ 2047) :
    continuity q x =
      (let gap := !x.resync && decide ((q - x.expected).toNat ≠ 0)
       { x with
          expected := q + 1, resync := false
          missing := if gap then x.missing + BitVec.ofNat 32 (q - x.expected).toNat else x.missing
          errored := x.errored || gap }, false) := by
  cases hr : x.resync with
  | true =>
    rw [continuity_resync hr]
    simp
  | false =>
    have hd : (q - x.expected).toNat ≤ 2047 := h.resolve_left (by simp [hr])
    obtain hzero | hpos := Nat.eq_zero_or_pos (q - x.expected).toNat
    · rw [continuity_inOrder hr hzero]
      simp [hzero, hr]
    · have hgap : decide ((q - x.expected).toNat ≠ 0) = true := decide_eq_true hpos.ne'
      rw [continuity_gap hr hpos hd, hgap]
      simp [hr]

end

/-! ## Policing and what follows it (R41, R45) -/

/-- A counted cell of the source `y` at the policing stage: excess where the source holds no token, else copied to every leg. -/
def State.police (s : State) (payload : List Byte) (y : Source) : State :=
  if y.tokens = 0 then s.setSource { y with excess := y.excess + 1 }
  else
    ({ s with ports := (replicate payload y.legs s.ports).1 } : State).setSource
      { y with tokens := y.tokens - 1, legs := (replicate payload y.legs s.ports).2 }

section
variable {s : State} {payload : List Byte} {x y : Source} {c : Cell}

theorem State.police_excess (h : y.tokens = 0) : s.police payload y = s.setSource { y with excess := y.excess + 1 } := if_pos h

theorem State.police_passes (h : 0 < y.tokens) :
    s.police payload y =
      ({ s with ports := (replicate payload y.legs s.ports).1 } : State).setSource
        { y with tokens := y.tokens - 1, legs := (replicate payload y.legs s.ports).2 } := if_neg (by omega)

theorem policing_excess (h : y.tokens = 0) : policing y = ({ y with excess := y.excess + 1 }, false) := if_neg (by omega)

theorem policing_passes (h : 0 < y.tokens) : policing y = ({ y with tokens := y.tokens - 1 }, true) := if_pos h

/-- A late cell leaves after it is counted (R40). -/
theorem State.watchedCell_late (h : continuity c.seq x = (y, true)) : s.watchedCell x c = s.setSource (counting y) := by
  unfold State.watchedCell
  rw [h]
  rfl

theorem State.watchedCell_goesOn (h : continuity c.seq x = (y, false)) :
    s.watchedCell x c = s.police c.payload (counting y) := by
  unfold State.watchedCell
  rw [h]
  obtain ht | ht := Nat.eq_zero_or_pos (counting y).tokens
  · rw [State.police_excess ht]
    simp only [policing_excess ht]
    rfl
  · rw [State.police_passes ht]
    simp only [policing_passes ht]
    rfl

end

/-- Settles O21: the distance decides what continuity answers, and that decides how far the cell goes. -/
theorem continuityByDistance : Obligations.ContinuityByDistance := by
  intro s x c
  exact ⟨fun hr => State.watchedCell_goesOn (continuity_resync hr),
    fun hr hd => State.watchedCell_goesOn (continuity_inOrder hr hd),
    fun hr h1 h2 => State.watchedCell_goesOn (continuity_gap hr h1 h2),
    fun hr hd => State.watchedCell_late (continuity_late hr hd)⟩

/-- Settles O22, on the one record that all three kinds of cell leave. -/
theorem policingUsesOneToken : Obligations.PolicingUsesOneToken := by
  intro s x c d h
  have hcell := State.watchedCell_goesOn (s := s) (continuity_goesOn h)
  exact ⟨fun ht => hcell.trans (State.police_excess ht), fun ht => hcell.trans (State.police_passes ht)⟩

end Sys2Proof.Machine
end

