-- ==== Sys2Proof/Proofs/LegRequests.lean ====
section
/-! Chapter 3: install and move requests, their checks, and what they do to the installed bandwidth of the ports (R11, R47, R49). -/

namespace Sys2Proof.Machine

/-! ## The installed bandwidth when one list changes (R11, R37) -/

section
variable {s : State} {i : SrcId} {x y : Source}

theorem legsOn_append (p : Port) (ls ms : List Leg) : legsOn p (ls ++ ms) = legsOn p ls + legsOn p ms := List.countP_append

/-- The source that is written again takes its old legs off the port and puts its new ones on. -/
theorem State.installed_setSource (h : TablesInForm s) (hx : s.source i = some x) (hid : y.id = x.id) (p : Port) :
    (s.setSource y).installed p + x.bandwidth * legsOn p x.legs = s.installed p + y.bandwidth * legsOn p y.legs :=
  tabSum_setSource h hx hid fun x => x.bandwidth * legsOn p x.legs

theorem State.installed_append (h : TablesInForm s) (hx : s.source i = some x) (ls : List Leg) (p : Port) :
    (s.setSource { x with legs := x.legs ++ ls }).installed p = s.installed p + x.bandwidth * legsOn p ls := by
  have hsum := State.installed_setSource (y := { x with legs := x.legs ++ ls }) h hx rfl p
  dsimp only at hsum
  rw [legsOn_append, Nat.mul_add] at hsum
  omega

theorem State.installed_without (h : TablesInForm s) (hx : s.source i = some x) (slot : Nat) (p : Port) :
    (s.setSource { x with legs := x.legs.filter fun l => l.owner != slot }).installed p
      + x.bandwidth * legsOn p (x.legs.filter fun l => l.owner == slot) = s.installed p := by
  have hsum := State.installed_setSource (y := { x with legs := x.legs.filter fun l => l.owner != slot }) h hx rfl p
  have hsplit : legsOn p (x.legs.filter fun l => l.owner != slot) + legsOn p (x.legs.filter fun l => l.owner == slot)
      = legsOn p x.legs := countP_split x.legs _ slot
  dsimp only at hsum
  rw [← hsplit, Nat.mul_add] at hsum
  omega

end

/-! ## Install requests (R47) -/

/-- Some pair of the list is on some leg (R44, R47). -/
def State.InUse (s : State) (ps : List Pair) : Prop := ∃ q ∈ ps, ∃ e ∈ s.sources, ∃ l ∈ e.2.legs, l.pair = q

/-- Some port of the list would hold more than its capacity with a leg of the source for each pair (R11, R47). -/
def State.Overfilled (s : State) (x : Source) (ps : List Pair) : Prop :=
  ∃ q ∈ ps, (s.port q.port).capacity < s.installed q.port + x.bandwidth * pairsOn q.port ps

section
variable {s : State} {i : SrcId} {x : Source} {ps : List Pair} (hx : s.source i = some x)

theorem State.inUse_iff : (ps.any s.pairHeld) = true ↔ s.InUse ps := by
  simp [State.InUse, State.pairHeld]

theorem State.overfilled_iff :
    (ps.any fun q => (s.port q.port).capacity < s.installed q.port + x.bandwidth * pairsOn q.port ps) = true
      ↔ s.Overfilled x ps := by
  simp [State.Overfilled]

include hx

open Classical in
/-- The check of an install request, in its order. -/
theorem State.installCheck_eq : s.installCheck i ps =
    if s.InUse ps then .pairInUse else if s.Overfilled x ps then .overCapacity
    else if 16 < x.legs.length + ps.length then .noRoom else .taken := by
  unfold State.installCheck
  rw [hx]
  exact if_congr State.inUse_iff rfl (if_congr State.overfilled_iff rfl rfl)

theorem State.install_taken (h : s.installCheck i ps = .taken) (slot : Nat) :
    s.install slot i ps = s.setSource { x with legs := x.legs ++ ps.map (newLeg slot) } := by
  unfold State.install
  rw [h, hx]

omit hx in
theorem State.install_refused {r : ReqResult} (h : s.installCheck i ps = r) (hr : r ≠ .taken) (slot : Nat) :
    s.installCheck i ps = r ∧ s.install slot i ps = s := by
  obtain e | ⟨-, -, ht, -⟩ := s.install_cases slot i ps
  · exact ⟨h, e⟩
  · exact absurd (h.symm.trans ht) hr

theorem State.installed_install (h : TablesInForm s) (ht : s.installCheck i ps = .taken) (slot : Nat) (p : Port) :
    (s.install slot i ps).installed p = s.installed p + x.bandwidth * pairsOn p ps := by
  rw [State.install_taken hx ht, State.installed_append h hx, legsOn_newLegs]

end

/-! ## Move requests (R49) -/

section
variable {s : State} {slot : Nat} {x y : Source}

theorem State.moveLegs_full (hx : s.source x.id = some x) (hy : s.source y.id = some y)
    (hfull : 16 < y.legs.length + x.legs.countP fun l => l.owner == slot) : s.moveLegs slot x.id y.id = (.noRoom, s) := by
  rw [List.countP_eq_length_filter] at hfull
  unfold State.moveLegs
  rw [hx, hy]
  exact if_pos hfull

/-- The state after the legs of a slot have left the list of `x` for the end of that of `y`. -/
def State.legsMoved (s : State) (slot : Nat) (x y : Source) : State :=
  (s.setSource { x with legs := x.legs.filter fun l => l.owner != slot }).setSource
    { y with legs := y.legs ++ x.legs.filter fun l => l.owner == slot }

theorem State.moveLegs_taken (hx : s.source x.id = some x) (hy : s.source y.id = some y)
    (hroom : y.legs.length + (x.legs.countP fun l => l.owner == slot) ≤ 16) :
    s.moveLegs slot x.id y.id = (.taken, s.legsMoved slot x y) := by
  rw [List.countP_eq_length_filter] at hroom
  unfold State.moveLegs
  rw [hx, hy]
  exact if_neg (Nat.not_lt.2 hroom)

theorem State.legsMoved_source (i : SrcId) : (s.legsMoved slot x y).source i =
    if i = y.id then some { y with legs := y.legs ++ x.legs.filter fun l => l.owner == slot }
    else if i = x.id then some { x with legs := x.legs.filter fun l => l.owner != slot }
    else s.source i := by
  unfold State.legsMoved
  rw [State.setSource_source, State.setSource_source]

/-- What leaves a port with the one list comes back to it with the other, at the same bandwidth (R37). -/
theorem State.installed_legsMoved (h : TablesInForm s) (hx : s.source x.id = some x) (hy : s.source y.id = some y)
    (hne : x.id ≠ y.id) (hband : x.bandwidth = y.bandwidth) (p : Port) : (s.legsMoved slot x y).installed p = s.installed p := by
  have hy' : (s.setSource { x with legs := x.legs.filter fun l => l.owner != slot }).source y.id = some y := by
    rw [State.setSource_source_ne s { x with legs := x.legs.filter fun l => l.owner != slot } hne.symm, hy]
  have hleft := State.installed_without h hx slot p
  have hcame := State.installed_append (h.setSource _) hy' (x.legs.filter fun l => l.owner == slot) p
  unfold State.legsMoved
  rw [hcame, ← hband, hleft]

end

/-- Settles O24: the install request by the order of its checks, the move request by the places of the target list. -/
theorem moveKeepsLegsAndBandwidth : Obligations.MoveKeepsLegsAndBandwidth := by
  refine ⟨fun s p => rfl, fun s slot i x ps hx => ?_, fun s slot x y h hx hy hne => ⟨?_, fun hroom => ?_⟩⟩
  · have hcheck := State.installCheck_eq (ps := ps) hx
    refine ⟨fun hu => ?_, fun hu ho => ?_, fun hu ho hf => ?_, fun hu ho hf => ?_⟩
    · exact State.install_refused (hcheck.trans (if_pos hu)) (by decide) slot
    · exact State.install_refused (hcheck.trans ((if_neg hu).trans (if_pos ho))) (by decide) slot
    · exact State.install_refused (hcheck.trans ((if_neg hu).trans ((if_neg ho).trans (if_pos hf)))) (by decide) slot
    · have htaken := hcheck.trans ((if_neg hu).trans ((if_neg ho).trans (if_neg hf)))
      exact ⟨htaken, State.install_taken hx htaken slot, fun h p => State.installed_install hx h htaken slot p⟩
  · exact State.moveLegs_full hx hy
  · refine ⟨s.legsMoved slot x y, State.moveLegs_taken hx hy hroom, ?_, ?_, fun i hix hiy => ?_,
      fun hband => State.installed_legsMoved h hx hy hne hband⟩
    · rw [State.legsMoved_source, if_neg hne, if_pos rfl]
    · rw [State.legsMoved_source, if_pos rfl]
    · rw [State.legsMoved_source, if_neg hiy, if_neg hix]

end Sys2Proof.Machine
end

