-- ==== Sys2Proof/Proofs/SourceReferences.lean ====
section
/-! Chapter 3: the sources a booking names, the writing of one record, and one reference gained or lost (R34 to R36, R99, R100). -/

namespace Sys2Proof.Machine

/-! ## The sources a booking names (R35) -/

theorem Fields.mem_named {f : Fields} {i : SrcId} : i ∈ f.named ↔ i = f.main ∨ f.spare = some i := by
  simp [Fields.named]

theorem Mod.mem_named {m : Mod} {i : SrcId} : i ∈ m.named ↔ m.main = some i ∨ m.spare = some (some i) := by
  simp [Mod.named, Option.getD_eq_iff]

/-! ## One record written -/

theorem State.setBooking_booking (s : State) (k j : Nat) (b : Booking) :
    (s.setBooking k b).booking j = if j = k then some b else s.booking j := tabFind_put ..

theorem State.setPort_port_eq (s : State) (p q : Port) (r : PortRec) :
    (s.setPort p r).port q = if q = p then r else s.port q := by
  split
  · next h => rw [h, State.setPort_port_self]
  · next h => rw [State.setPort_port_ne s r h]

/-! ## One reference (R34 to R36) -/

theorem Source.lost_eq (x : Source) : x.lost = if 1 < x.refs then some { x with refs := x.refs - 1 } else none := by
  unfold Source.lost
  split
  · next h => rw [if_neg (Nat.not_lt.2 h)]
  · next h => rw [if_pos (Nat.not_le.1 h)]

/-- Settles O34, the table read source by source after one reference is gained or lost. -/
theorem referencesKeepTheSourceTable : Obligations.ReferencesKeepTheSourceTable := by
  refine ⟨fun b i => ⟨?_, once_nodup _⟩, fun s => ⟨fun x i => State.setSource_source x i, fun k j b => ?_, s.setPort_port_eq,
    fun x k b p r => ⟨rfl, rfl, rfl, rfl⟩⟩, fun s n i h => ⟨?_, fun j hj => ?_, fun x hx => ?_, fun j hj => ?_, by simp, by simp⟩⟩
  · simp only [Machine.mem_named, Fields.mem_named, Mod.mem_named, or_assoc]
  · exact ⟨s.setBooking_booking k j b, State.freeSlot_booking k j⟩
  · rw [State.gainRef_source h, if_pos rfl]
    cases s.source i <;> rfl
  · rw [State.gainRef_source h, if_neg hj]
  · rw [State.loseRef_source h, if_pos rfl, hx, Option.bind_some, Source.lost_eq]
  · rw [State.loseRef_source h, if_neg hj]

end Sys2Proof.Machine
end

