-- ==== Sys2Proof/Proofs/SourceOrders.lean ====
section
/-! The orders on sources, SOURCE STATUS and SOURCE WATCH, by the source that their bytes name (R50, R113, R172). -/

namespace Sys2Proof.Machine

/-! ## The operands of the orders on sources (R50, R113) -/

theorem srcOf_of_range {p l : Byte} (h : 15 < p.toNat ∨ l = 0 ∨ l = 255) : srcOf p l = none := by
  unfold srcOf
  obtain hp | hl := h
  · rw [portOf_of_large hp]
  · split
    · exact if_pos hl
    · rfl

theorem srcOf_of_id {p l : Byte} {i : SrcId} (h0 : i.label ≠ 0) (h255 : i.label ≠ 255) (hp : p.toNat = i.port.val)
    (hl : l = i.label) : srcOf p l = some i := by
  subst hl
  unfold srcOf
  rw [portOf_of_toNat hp]
  exact if_neg fun h => h.elim h0 h255

/-- A range from 1: 0 is taken up to 1, and what lies above the range down to its top. -/
theorem clamp_one {hi : Nat} (h : 1 ≤ hi) (n : Nat) : clamp 1 hi n = ⟨max 1 (min hi n), decide (n = 0 ∨ hi < n)⟩ := by
  unfold clamp
  refine congrArg (Clamped.mk _) (Bool.eq_iff_iff.2 ?_)
  rw [bne_iff_ne, decide_eq_true_iff]
  omega

/-! ## SOURCE WATCH by its target (R113) -/

section
variable {s : State} {o : Order} {f c d : Clamped} (hlen : o.badLength 8 = false)
  (hv : watchValues (paramsOf o.cell) = (f, c, d))
include hlen

theorem sourceWatch_format (h : 1 < (o.param 0).toNat) : sourceWatch o s = ⟨s, .format, .empty⟩ := by
  have h1 : byteAt (paramsOf o.cell) 0 ≠ 1#8 := fun e => by rw [Order.param, e] at h; exact absurd h (by decide)
  have h0 : byteAt (paramsOf o.cell) 0 ≠ 0#8 := fun e => by rw [Order.param, e] at h; exact absurd h (by decide)
  simp [sourceWatch, hlen, h1, h0]

include hv in
theorem sourceWatch_defaults (h : o.param 0 = 1) :
    sourceWatch o s = ⟨{ s with defaults := ⟨f.value, c.value, d.value⟩ }, .done, .watch none f c d⟩ := by
  have h1 : byteAt (paramsOf o.cell) 0 = 1#8 := h
  simp [sourceWatch, hlen, hv, h1]

theorem sourceWatch_range (h : o.param 0 = 0) (hi : srcOf (o.param 1) (o.param 2) = none) :
    sourceWatch o s = ⟨s, .range, .empty⟩ := by
  unfold Order.param at h hi
  simp [sourceWatch, hlen, h, hi]

theorem sourceWatch_unknown {i : SrcId} (h : o.param 0 = 0) (hi : srcOf (o.param 1) (o.param 2) = some i)
    (hx : s.source i = none) : sourceWatch o s = ⟨s, .unknown, .empty⟩ := by
  unfold Order.param at h hi
  simp [sourceWatch, hlen, h, hi, hx]

include hv in
theorem sourceWatch_source {i : SrcId} {x : Source} (h : o.param 0 = 0) (hi : srcOf (o.param 1) (o.param 2) = some i)
    (hx : s.source i = some x) :
    sourceWatch o s = ⟨s.setSource { x with watch := { x.watch with params := ⟨f.value, c.value, d.value⟩ } }, .done,
      .watch (some i) f c d⟩ := by
  unfold Order.param at h hi
  simp [sourceWatch, hlen, hv, h, hi, hx]

end

/-! ## SOURCE STATUS (R50) -/

section
variable {s : State} {o : Order} {rest : List Order} {i : SrcId} (h : Offers s .sourceStatus 2 o rest)
include h

theorem Offers.sourceStatus_range (hi : srcOf (o.param 0) (o.param 1) = none) :
    Answers .sourceStatus s o (s.taken o rest) .range .empty := by
  refine h.answers (by unfold exec execSourceStatus; rfl) ?_
  unfold Order.param at hi
  rw [h.badLength, hi]
  rfl

theorem Offers.sourceStatus_unknown (hi : srcOf (o.param 0) (o.param 1) = some i) (hx : s.source i = none) :
    Answers .sourceStatus s o (s.taken o rest) .unknown .empty := by
  have hu : (s.taken o rest).source i = none := hx
  refine h.answers (by unfold exec execSourceStatus; rfl) ?_
  unfold Order.param at hi
  rw [h.badLength, hi]
  simp [hu]

theorem Offers.sourceStatus_done {x : Source} (hi : srcOf (o.param 0) (o.param 1) = some i) (hx : s.source i = some x) :
    Answers .sourceStatus s o (s.taken o rest) .done (.sourceStatus x.status) := by
  have hu : (s.taken o rest).source i = some x := hx
  refine h.answers (by unfold exec execSourceStatus; rfl) ?_
  unfold Order.param at hi
  rw [h.badLength, hi]
  simp [hu]

end

/-! ## Both orders -/

theorem exec_sourceWatch (s : State) : exec .sourceWatch s = s.awake fun s => s.takeOrder .sourceWatch sourceWatch := rfl

/-- Settles O25: each order by the source that its bytes name. -/
theorem sourceOrdersByTheMap : Obligations.SourceOrdersByTheMap := by
  intro s o rest u
  refine ⟨fun h => ⟨fun hr => h.sourceStatus_range (srcOf_of_range hr), fun i h0 h255 hp hl => ?_⟩,
    fun h => ?_⟩
  · have hi := srcOf_of_id h0 h255 hp hl
    exact ⟨h.sourceStatus_unknown hi, fun x => h.sourceStatus_done hi⟩
  · intro within f c d
    have hlen : o.badLength 8 = false := by simp [h.badLength]
    have hv : watchValues (paramsOf o.cell) = (f, c, d) := by
      unfold watchValues
      rw [clamp_one (by decide), clamp_one (by decide), clamp_one (by decide)]
      rfl
    have hx := exec_sourceWatch s
    refine ⟨fun hf => h.answers hx (sourceWatch_format hlen hf), fun hd => h.answers hx (sourceWatch_defaults hlen hv hd),
      fun ht => ⟨fun hr => h.answers hx (sourceWatch_range hlen ht (srcOf_of_range hr)), fun i h0 h255 hp hl => ?_⟩⟩
    have hi := srcOf_of_id h0 h255 hp hl
    exact ⟨fun hn => h.answers hx (sourceWatch_unknown hlen ht hi hn),
      fun x hs => h.answers hx (sourceWatch_source hlen hv ht hi hs)⟩

end Sys2Proof.Machine
end

