-- ==== Sys2Proof/Proofs/BookingReadAndGroups.lean ====
section
/-! BOOKING READ, GROUP HOLD and GROUP RELEASE, and the group that a booking leaves (R73 to R76, R87). -/

namespace Sys2Proof.Machine

/-! ## BOOKING READ (R73) -/

section
variable {s : State} {o : Order} (hlen : o.badLength 5 = false)
include hlen

theorem bookingReadOrder_format (h : 1 < (o.param 0).toNat) : bookingReadOrder o s = ⟨s, .format, .empty⟩ := by
  have hb : isYesNo (byteAt (paramsOf o.cell) 0) = false := by
    have h : 1 < (byteAt (paramsOf o.cell) 0).toNat := h
    simp only [isYesNo, Bool.or_eq_false_iff, beq_eq_false_iff_ne]
    constructor <;> intro e <;> rw [e] at h <;> exact absurd h (by decide)
  simp [bookingReadOrder, hlen, hb]

theorem bookingReadOrder_byRef (h : o.param 0 = 0) : bookingReadOrder o s =
    match s.byRef (o.word 1) with
    | none => ⟨s, .unknown, .empty⟩
    | some (k, b) => ⟨s, .done, bookingRecord k b⟩ := by
  have h : byteAt (paramsOf o.cell) 0 = 0#8 := h
  unfold bookingReadOrder
  rw [hlen, h]
  rfl

theorem bookingReadOrder_range (h : o.param 0 = 1) (hn : 511 < (o.word 1).toNat) :
    bookingReadOrder o s = ⟨s, .range, .empty⟩ := by
  have h : byteAt (paramsOf o.cell) 0 = 1#8 := h
  unfold bookingReadOrder
  rw [hlen, h]
  exact if_pos (show 512 ≤ (o.word 1).toNat from hn)

theorem bookingReadOrder_slot (h : o.param 0 = 1) (hn : (o.word 1).toNat ≤ 511) : bookingReadOrder o s =
    match s.booking (o.word 1).toNat with
    | none => ⟨s, .done, .freeSlot⟩
    | some b => ⟨s, .done, bookingRecord (o.word 1).toNat b⟩ := by
  have h : byteAt (paramsOf o.cell) 0 = 1#8 := h
  unfold bookingReadOrder
  rw [hlen, h]
  exact if_neg (show ¬ 512 ≤ (o.word 1).toNat by omega)

end

theorem exec_bookingRead (s : State) : exec .bookingRead s = s.awake fun s => s.takeOrder .bookingRead bookingReadOrder := rfl

/-- Settles O37, case by case of the named-by byte. -/
theorem bookingReadReturnsTheRecord : Obligations.BookingReadReturnsTheRecord := by
  intro s o rest h u n full
  have hlen : o.badLength 5 = false := h.goodLength
  have hx := exec_bookingRead s
  refine ⟨fun hb => h.answers hx (bookingReadOrder_format hlen hb),
    fun hb hn => h.answers hx (bookingReadOrder_range hlen hb hn), fun hb hn hs => h.answers hx ?_, fun b hb hn hs => h.answers hx ?_,
    fun hb hs => h.answers hx ?_, fun k b hb hs => h.answers hx ?_⟩
  · have hs : u.booking (o.word 1).toNat = none := hs
    rw [bookingReadOrder_slot hlen hb hn, hs]
  · have hs : u.booking (o.word 1).toNat = some b := hs
    rw [bookingReadOrder_slot hlen hb hn, hs]
    rfl
  · have hs : u.byRef (o.word 1) = none := hs
    rw [bookingReadOrder_byRef hlen hb, hs]
  · have hs : u.byRef (o.word 1) = some (k, b) := hs
    rw [bookingReadOrder_byRef hlen hb, hs]
    rfl

/-! ## Start groups (R74 to R76) -/

section
variable {s : State} {g : Nat}

theorem State.groupOf_none (h : g = 0 ∨ 32 < g) : s.groupOf g = none := by
  unfold State.groupOf
  obtain h | h := h
  · exact if_pos h
  · rw [if_neg (by omega)]
    exact Vector.getElem?_eq_none (by unfold groupPlace; omega)

theorem State.groupOf_place (h : 1 ≤ g) : s.groupOf g = s.groups[g - 1]? := if_neg (Nat.ne_of_gt h)

theorem setIfInBounds_of_lt {α : Type} {n i : Nat} (v : Vector α n) (h : i < n) (x : α) : v.setIfInBounds i x = v.set i x h := by
  ext j hj
  rw [Vector.getElem_setIfInBounds, Vector.getElem_set]

theorem State.setGroup_place (h : 1 ≤ g) (x : Group) : s.setGroup g x = { s with groups := s.groups.setIfInBounds (g - 1) x } :=
  if_neg (Nat.ne_of_gt h)

/-- A booking leaves its group: one held member fewer, and the last leaving opens a RELEASING group (R74). -/
theorem State.leaveGroup_some {x : Group} (h : s.groupOf g = some x) : s.leaveGroup g
    = s.setGroup g ⟨if x.state = .releasing ∧ x.held ≤ 1 then .opened else x.state, x.held - 1⟩ := by
  unfold State.leaveGroup
  rw [h]
  simp only [Nat.sub_eq_zero_iff_le]

theorem State.leaveGroup_none (h : s.groupOf g = none) : s.leaveGroup g = s := by
  unfold State.leaveGroup
  rw [h]

end

theorem groupOrder_eq {s : State} {o : Order} (hlen : o.badLength 1 = false) (next : Nat → GroupState) : groupOrder next o s =
    match s.groupOf (o.param 0).toNat with
    | none => ⟨s, .range, .empty⟩
    | some x => ⟨s.setGroup (o.param 0).toNat { x with state := next x.held }, .done, .group (next x.held) x.held⟩ := by
  unfold groupOrder
  rw [hlen]
  rfl

section
variable {s : State} {o : Order} {rest : List Order} {k : OrderKind} {c : Instr} {next : Nat → GroupState} (h : Offers s k 1 o rest)
  (hc : exec c s = s.awake fun s => s.takeOrder k (groupOrder next))
include h hc

theorem Offers.group_range (hg : (o.param 0).toNat = 0 ∨ 32 < (o.param 0).toNat) : Answers c s o (s.taken o rest) .range .empty := by
  refine h.answers hc ?_
  rw [groupOrder_eq h.goodLength, State.groupOf_none hg]

theorem Offers.group_answers (hg : 1 ≤ (o.param 0).toNat ∧ (o.param 0).toNat ≤ 32) :
    let n := (s.groups[(o.param 0).toNat - 1]'(by omega)).held
    Answers c s o { s.taken o rest with groups := s.groups.set ((o.param 0).toNat - 1) ⟨next n, n⟩ (by omega) } .done
      (.group (next n) n) := by
  intro n
  have hlt : (o.param 0).toNat - 1 < 32 := by omega
  have hsome : (s.taken o rest).groupOf (o.param 0).toNat = some s.groups[(o.param 0).toNat - 1] :=
    (State.groupOf_place hg.1).trans (Vector.getElem?_eq_getElem hlt)
  refine h.answers hc ?_
  rw [groupOrder_eq h.goodLength, hsome]
  dsimp only
  rw [State.setGroup_place hg.1, setIfInBounds_of_lt _ hlt]
  rfl

end

theorem exec_groupHold (s : State) : exec .groupHold s = s.awake fun s => s.takeOrder .groupHold (groupOrder fun _ => .holding) := rfl

theorem exec_groupRelease (s : State) :
    exec .groupRelease s = s.awake fun s => s.takeOrder .groupRelease (groupOrder fun n => if 0 < n then .releasing else .opened) := rfl

/-- Settles O38: both orders set the state of the group they name, and the leaving of a group is one held member fewer. -/
theorem groupOrdersSetTheGroup : Obligations.GroupOrdersSetTheGroup := by
  refine ⟨fun s o rest => ?_, fun s g => ⟨fun hg => ?_, fun x hg hx => ?_⟩⟩
  · have hhold := exec_groupHold s
    have hrelease := exec_groupRelease s
    exact ⟨fun hg => ⟨fun h => h.group_answers hhold hg, fun h => h.group_answers hrelease hg⟩,
      fun hg => ⟨fun h => h.group_range hhold hg, fun h => h.group_range hrelease hg⟩⟩
  · have hnone := State.groupOf_none (s := s) hg
    exact ⟨State.leaveGroup_none hnone, hnone⟩
  · have hsome : s.groupOf g = some x := (State.groupOf_place hg).trans hx
    exact ⟨hsome, (State.leaveGroup_some hsome).trans (State.setGroup_place hg _)⟩

end Sys2Proof.Machine
end

