-- ==== Sys2Proof/Proofs/Cancels.lean ====
section
/-! CANCEL: its checks, the early cancel, and the bill and the notices of a late one (R71, R72, R148, R154). -/

namespace Sys2Proof.Machine

theorem exec_cancel (s : State) : exec .cancel s = s.awake fun s => s.takeOrder .cancel cancelOrder := rfl

/-! ## The checks (R71) -/

section
variable {s : State} {o : Order} {k : Nat} {b : Booking} (hlen : o.badLength 4 = false)
include hlen

theorem cancelOrder_mode (hm : s.mgmt.mode ≠ .service) : cancelOrder o s = ⟨s, .mode, .empty⟩ := by
  unfold cancelOrder
  rw [hlen]
  exact if_pos hm

variable (hm : s.mgmt.mode = .service)
include hm

theorem cancelOrder_unknown (hr : s.byRef (o.word 0) = none) : cancelOrder o s = ⟨s, .unknown, .empty⟩ := by
  have hr : s.namedBooking o = none := hr
  simp [cancelOrder, hlen, hm, hr]

theorem cancelOrder_held (hr : s.byRef (o.word 0) = some (k, b)) : cancelOrder o s =
    if b.state.isLive = true ∨ b.state.isEnded = true then ⟨s, .state, .empty⟩
    else if s.cancelIsLate b then s.cancelLate k b else s.cancelEarly k b := by
  have hr : s.namedBooking o = some (k, b) := hr
  simp [cancelOrder, hlen, hm, hr]

end

/-- The start lies nearer than the class's cancel window; a BLANK class has none (R71). -/
def State.nearStart (s : State) (b : Booking) : Bool :=
  match s.tariff b.fields.tariffClass with
  | some c => decide (ticksUntil s.time.nt b.fields.start < c.window)
  | none => false

theorem State.cancelIsLate_iff {s : State} {b : Booking} :
    s.cancelIsLate b = true ↔ b.state = .held ∨ reached s.time.nt b.fields.start = true ∨ s.nearStart b = true := by
  have h : s.cancelIsLate b = (b.state == .held || reached s.time.nt b.fields.start || s.nearStart b) := rfl
  rw [h, Bool.or_eq_true, Bool.or_eq_true, beq_iff_eq, or_assoc]

/-! ## A late cancel (R72) -/

theorem levelNotes_succ (n : Nat) (oldest seq : Word) (waiters : Nat) : levelNotes (n + 1) oldest seq waiters
    = if n = 47 then [.billLevel 48 oldest seq waiters] else if n = 63 then [.billFull 64 oldest seq waiters] else [] := by
  simp only [levelNotes, Nat.reduceEqDiff]

/-- The state in which a late cancel hands its bill over: the group left, the references lost. -/
def State.released (s : State) (b : Booking) : State :=
  b.named.foldl State.loseRef (if b.state = .held then s.leaveGroup b.fields.group else s)

section
variable {s : State} {k : Nat} {b : Booking}

theorem State.cancelLate_eq : s.cancelLate k b
    = ⟨(s.released b).handAndNote k b.clear (s.lateBill b), .done, .cancelledLate s.seqIfRoom⟩ := rfl

theorem State.released_bills : (s.released b).bills = s.bills := by
  refine (foldl_same State.bills _ (by simp) _ _).trans ?_
  split <;> simp

theorem State.seqIfRoom_room (h : s.bills.records.length < 64) : s.seqIfRoom = some s.bills.next :=
  if_pos (decide_eq_true h)

theorem State.seqIfRoom_full (h : ¬ s.bills.records.length < 64) : s.seqIfRoom = none :=
  if_neg (by simpa [State.billRoom] using h)

/-- Written while there is room, with BILL_LEVEL or BILL_FULL before BOOKING_ENDED. -/
theorem State.cancelLate_room (h : s.bills.records.length < 64) :
    let q := s.bills.next
    let oldest := (s.bills.records.head?.map BillRec.seq).getD q
    let freed := (s.released b).freeSlot k
    s.cancelLate k b
      = ⟨State.raiseAll { freed with bills := ⟨s.bills.records ++ [⟨q, s.lateBill b⟩], nextSeq q⟩ }
          ((if s.bills.records.length = 47 then [.billLevel 48 oldest q freed.waiters]
            else if s.bills.records.length = 63 then [.billFull 64 oldest q freed.waiters] else [])
          ++ [endedNotice k b (s.lateBill b) (some q)]), .done, .cancelledLate (some q)⟩ := by
  have hb := s.released_bills (b := b)
  have hlt : (s.released b).bills.records.length < 64 := by rwa [hb]
  rw [State.cancelLate_eq, State.handAndNote_room hlt, State.seqIfRoom_room h, levelNotes_succ]
  unfold State.oldestBill
  rw [hb]
  rfl

/-- Left waiting in ENDED while there is none. -/
theorem State.cancelLate_full (h : ¬ s.bills.records.length < 64) : s.cancelLate k b
    = ⟨((s.released b).setBooking k { b.clear with state := .ended (s.lateBill b) }).raise (endedNotice k b (s.lateBill b) none),
      .done, .cancelledLate none⟩ := by
  have hlt : ¬ (s.released b).bills.records.length < 64 := by rwa [State.released_bills]
  rw [State.cancelLate_eq, State.handAndNote_full hlt, State.seqIfRoom_full h]
  rfl

end

/-- Settles O36, by the checks in their order and then by how near the start lies. -/
theorem cancelEarlyOrLate : Obligations.CancelEarlyOrLate := by
  intro s o rest n h u
  have hx := exec_cancel s
  have hlen (hn : n = 4) : o.badLength 4 = false := hn ▸ h.goodLength
  refine ⟨fun hn => ?_, fun hn hm => ?_, fun hn hm => ⟨fun hr => ?_, fun k b hr => ?_⟩⟩
  · exact refusesLength_cancel s o rest n h hn
  · exact h.answers hx (cancelOrder_mode (hlen hn) hm)
  · exact h.answers hx (cancelOrder_unknown (hlen hn) hm hr)
  intro cls near
  have hwork := cancelOrder_held (s := u) (hlen hn) hm hr
  have hnear : u.nearStart b = near := rfl
  refine ⟨fun hst hnr hn => h.answers hx ?_, fun hlate => ?_, fun hst => h.answers hx ?_⟩
  · have hearly : ¬ u.cancelIsLate b = true := by
      rw [State.cancelIsLate_iff, hnear, hn, show reached u.time.nt b.fields.start = false from hnr]
      obtain e | e := hst <;> simp [e]
    rw [hwork, if_neg (by obtain e | e := hst <;> simp [e, BookingState.isLive, BookingState.isEnded]), if_neg hearly]
    rfl
  · intro v bill w freed m q oldest ended
    have hl : u.cancelIsLate b = true := State.cancelIsLate_iff.2 (hlate.imp_right And.right)
    have hst : ¬ (b.state.isLive = true ∨ b.state.isEnded = true) := by
      obtain e | ⟨e | e, -⟩ := hlate <;> simp [e, BookingState.isLive, BookingState.isEnded]
    rw [if_neg hst, if_pos hl] at hwork
    have hbill : u.lateBill b = bill := by
      have htotal : ((cls.map Tariff.fee).getD 0) = match cls with | some c => c.fee | none => 0 := by cases cls <;> rfl
      exact congrArg (closeUnlive b .cancelledLate s.time.nt cls.isNone) htotal
    refine ⟨fun hroom => h.answers hx ?_, fun hfull => h.answers hx ?_⟩
    · rw [hwork, State.cancelLate_room (show u.bills.records.length < 64 from hroom), hbill]
      rfl
    · rw [hwork, State.cancelLate_full (show ¬ u.bills.records.length < 64 from Nat.not_lt.2 hfull), hbill]
      rfl
  · rw [hwork, if_pos hst]

end Sys2Proof.Machine
end

