-- ==== Sys2Proof/Proofs/EvaluationPoints.lean ====
section
/-! Section 4.4: a load over its limit anywhere in a candidate window is over it at one of the evaluation points (R60, R62, R63). -/

namespace Sys2Proof.Machine

/-! ## The earliest point over a limit -/

theorem earliest_eq_none {l : List Int} : earliest l = none ↔ l = [] := by
  cases l with
  | nil => exact ⟨fun _ => rfl, fun _ => rfl⟩
  | cons x l =>
    unfold earliest
    split <;> simp

theorem earliest_le {l : List Int} {x y : Int} (h : earliest l = some x) (hy : y ∈ l) : x ≤ y := by
  obtain ⟨z, hz, hmin⟩ := Finset.exists_min_image l.toFinset id ⟨y, List.mem_toFinset.2 hy⟩
  simp only [List.mem_toFinset, id] at hz hmin
  obtain rfl : z = x := Option.some.inj ((earliest_eq hz hmin).symm.trans h)
  exact hmin y hy

section
variable {f : Part → Nat} {own limit : Nat} {points : List Int} {compared : List (List Part)}

theorem overAt_eq_none : overAt f own limit points compared = none ↔ ∀ x ∈ points, sumAt f x compared + own ≤ limit := by
  simp [overAt, earliest_eq_none]

/-- The point found is the earliest one over the limit, and the load reported is the load there. -/
theorem overAt_eq_some {x : Int} {n : Nat} (h : overAt f own limit points compared = some (x, n)) :
    x ∈ points ∧ n = sumAt f x compared + own ∧ limit < n ∧ ∀ y ∈ points, y < x → sumAt f y compared + own ≤ limit := by
  obtain ⟨z, hz, hzx⟩ := Option.map_eq_some_iff.1 h
  obtain ⟨rfl, rfl⟩ := Prod.mk.inj hzx
  obtain ⟨hmem, hover⟩ := List.mem_filter.1 (earliest_mem hz)
  refine ⟨hmem, rfl, of_decide_eq_true hover, fun y hy hlt => Nat.le_of_not_lt fun ho => ?_⟩
  exact absurd (earliest_le hz (List.mem_filter.2 ⟨hy, decide_eq_true ho⟩)) (Int.not_le.2 hlt)

/-! ## The points of a candidate window -/

theorem mem_pointsIn {c : Part} {x : Int} : x ∈ pointsIn c compared
    ↔ x = c.from_ ∨ (c.from_ ≤ x ∧ x < c.upTo) ∧ ∃ ps ∈ compared, ∃ p ∈ ps, p.from_ = x := by
  simp only [pointsIn, starts, List.mem_cons, List.mem_filter, List.mem_flatMap, List.mem_map, Bool.and_eq_true, decide_eq_true_eq]
  rw [and_comm (a := ∃ ps ∈ compared, _)]

/-- The last evaluation point up to an instant of the window carries at least its load. -/
theorem exists_pointIn (f : Part → Nat) {c : Part} {x : Int} (hfrom : c.from_ ≤ x) (hto : x < c.upTo) :
    ∃ a ∈ pointsIn c compared, a ≤ x ∧ sumAt f x compared ≤ sumAt f a compared := by
  have hne : ((pointsIn c compared).toFinset.filter fun a => a ≤ x).Nonempty :=
    ⟨c.from_, Finset.mem_filter.2 ⟨List.mem_toFinset.2 (mem_pointsIn.2 (.inl rfl)), hfrom⟩⟩
  obtain ⟨a, ha, hmax⟩ := Finset.exists_max_image _ id hne
  simp only [Finset.mem_filter, List.mem_toFinset, id] at ha hmax
  have hopen : c.from_ ≤ a := hmax c.from_ ⟨mem_pointsIn.2 (.inl rfl), hfrom⟩
  refine ⟨a, ha.1, ha.2, sumAt_mono fun ps hps p hp hold => ?_⟩
  simp only [Part.holds, Bool.and_eq_true, decide_eq_true_eq] at hold ⊢
  refine ⟨?_, Int.lt_of_le_of_lt ha.2 hold.2⟩
  obtain hin | hin := le_or_gt c.from_ p.from_
  · exact hmax p.from_ ⟨mem_pointsIn.2 (.inr ⟨⟨hin, by omega⟩, ps, hps, p, hp, rfl⟩), hold.1⟩
  · exact Int.le_trans (Int.le_of_lt hin) hopen

end

/-- Settles O30: the load at an instant is no greater than at the last evaluation point before it. -/
theorem evaluationPointsSuffice : Obligations.EvaluationPointsSuffice := by
  intro f own limit c compared hc
  rw [overAt_eq_none]
  constructor
  · intro h x hfrom hto
    obtain ⟨a, ha, -, hle⟩ := exists_pointIn f (compared := compared) hfrom hto
    exact Nat.le_trans (Nat.add_le_add_right hle own) (h a ha)
  · intro h x hx
    obtain rfl | ⟨⟨hfrom, hto⟩, -⟩ := mem_pointsIn.1 hx
    · exact h _ (Int.le_refl _) hc
    · exact h x hfrom hto

end Sys2Proof.Machine
end

