-- ==== Sys2Proof/Proofs/AdmissionRules.lean ====
section
/-! Steps 8 to 10 of an order: what the model's evaluation of parts finds is the refusal that chapter 4 names (R55 to R57, R60 to
R63). -/

namespace Sys2Proof.Machine

/-! ## The model's parts are the fields a booking reserves for (R55, R56, R60) -/

section
variable {nt : Word} {b : Booking} {F : Part → Nat} {G : Fields → Nat} {running : Bool} {f : Fields} {others : List (Nat × Booking)}

theorem partsOf_reserved : partsOf nt b = b.reserved.map (partOf nt b.state.isRunning) := by
  unfold partsOf Booking.reserved
  cases b.state <;> cases b.pending <;> rfl

theorem countsAt_reserved (h : ∀ r g, F (partOf nt r g) = G g) (x : Int) : countsAt F x (partsOf nt b) = b.shareAt nt G x := by
  have hshare : F ∘ partOf nt b.state.isRunning = G := funext (h b.state.isRunning)
  rw [partsOf_reserved, countsAt, List.filter_map, List.map_map, hshare]
  exact List.foldl_eq_foldr ..

/-- The parts of the bookings compared. -/
def partsOfAll (nt : Word) (others : List (Nat × Booking)) : List (List Part) := others.map fun e => partsOf nt e.2

theorem sumAt_partsOfAll (h : ∀ r g, F (partOf nt r g) = G g) (x : Int) :
    sumAt F x (partsOfAll nt others) = totalAt nt G x others := by
  unfold sumAt partsOfAll totalAt
  rw [List.map_map]
  exact congrArg List.sum (List.map_congr_left fun e _ => countsAt_reserved h x)

theorem mem_pointsIn_iff {x : Int} : x ∈ pointsIn (partOf nt running f) (partsOfAll nt others) ↔ IsPoint nt running f others x := by
  rw [mem_pointsIn]
  refine or_congr Iff.rfl (and_congr Iff.rfl ?_)
  simp only [partsOfAll, List.mem_map, exists_exists_and_eq_and, partsOf_reserved]
  rfl

/-! ## The earliest evaluation point over a limit (R62, R63) -/

theorem overAt_none_iff (h : ∀ r g, F (partOf nt r g) = G g) {own limit : Nat} :
    overAt F own limit (pointsIn (partOf nt running f) (partsOfAll nt others)) (partsOfAll nt others) = none
      ↔ ∀ x, IsPoint nt running f others x → totalAt nt G x others + own ≤ limit := by
  simp only [overAt_eq_none, mem_pointsIn_iff, sumAt_partsOfAll h]

theorem overAt_some {own limit : Nat} {x : Int} {n : Nat} (h : ∀ r g, F (partOf nt r g) = G g)
    (ho : overAt F own limit (pointsIn (partOf nt running f) (partsOfAll nt others)) (partsOfAll nt others) = some (x, n)) :
    IsPoint nt running f others x ∧ n = totalAt nt G x others + own ∧ ¬ totalAt nt G x others + own ≤ limit
      ∧ ∀ y, IsPoint nt running f others y → y < x → totalAt nt G y others + own ≤ limit := by
  obtain ⟨hx, hn, hover, hfirst⟩ := overAt_eq_some ho
  simp only [mem_pointsIn_iff, sumAt_partsOfAll h] at hx hn hfirst
  exact ⟨hx, hn, Nat.not_le.2 (hn ▸ hover), hfirst⟩

theorem onPort_partOf (q : Port) (r : Bool) (g : Fields) : Part.onPort q (partOf nt r g) = g.onPort q := rfl

theorem onSource_partOf (i : SrcId) (r : Bool) (g : Fields) : Part.onSource i (partOf nt r g) = g.onSource i := by
  unfold Part.onSource Fields.onSource
  refine if_congr ?_ rfl rfl
  rw [Fields.mem_named]
  exact or_congr eq_comm Iff.rfl

end

/-- The first element of a list at which a function answers: the function answers none at every element before it. -/
theorem findSome?_split {α β : Type} {f : α → Option β} {l : List α} {y : β} (h : l.findSome? f = some y) :
    ∃ l₁ a l₂, l = l₁ ++ a :: l₂ ∧ f a = some y ∧ ∀ x ∈ l₁, f x = none := List.findSome?_eq_some_iff.1 h

section
variable {s : State} {nt : Word} {running : Bool} {f : Fields} {others : List (Nat × Booking)}

/-! ## Step 9: the ports (R62) -/

theorem firstOverPort_none_iff :
    firstOverPort s (partOf nt running f) (partsOfAll nt others) = none ↔ PortsFit s nt running f others := by
  unfold firstOverPort PortsFit PortFits
  simp only [List.findSome?_eq_none_iff, Option.map_eq_none_iff, List.mem_filter, List.mem_finRange, true_and, List.any_eq_true,
    beq_iff_eq]
  constructor
  · exact fun h q hq => (overAt_none_iff (onPort_partOf q.port)).1 (h q.port ⟨q, hq, rfl⟩)
  · rintro h p ⟨q, hq, rfl⟩
    exact (overAt_none_iff (onPort_partOf q.port)).2 (h q hq)

theorem overCapacityAt_of_first {q : Port} {x : Int} {n : Nat}
    (h : firstOverPort s (partOf nt running f) (partsOfAll nt others) = some (q, x, n)) :
    OverCapacityAt s nt running f others ⟨.capacity, .overCapacity q (instantAt nt x) n⟩ := by
  have hsorted := (List.pairwise_lt_finRange 16).filter fun q => f.legs.any fun y => y.port == q
  obtain ⟨l₁, q', l₂, hl, hq, hbefore⟩ := findSome?_split h
  obtain ⟨r, ho, hr⟩ := Option.map_eq_some_iff.1 hq
  obtain ⟨rfl, rfl⟩ := Prod.mk.inj hr
  have hl : (List.finRange 16).filter (fun q => f.legs.any fun y => y.port == q) = l₁ ++ q' :: l₂ := hl
  have hmem (p : Port) (y : Pair) (hy : y ∈ f.legs) (hp : y.port = p) : p ∈ l₁ ++ q' :: l₂ := by
    rw [← hl]
    exact List.mem_filter.2 ⟨List.mem_finRange p, List.any_eq_true.2 ⟨y, hy, beq_iff_eq.2 hp⟩⟩
  have hin : q' ∈ (List.finRange 16).filter fun q => f.legs.any fun y => y.port == q := by
    rw [hl]
    exact List.mem_append_right _ (List.mem_cons_self ..)
  obtain ⟨y, hy, hyq⟩ := List.any_eq_true.1 (List.mem_filter.1 hin).2
  obtain rfl : y.port = q' := beq_iff_eq.1 hyq
  obtain ⟨hpoint, hn, hover, hfirst⟩ := overAt_some (onPort_partOf y.port) ho
  refine ⟨y, hy, x, ?_, hpoint, hover, hfirst, fun z hz hlt => ?_⟩
  · rw [hn]
    rfl
  · rw [hl] at hsorted
    have hz₁ : z.port ∈ l₁ := by
      obtain hm | hm := List.mem_append.1 (hmem z.port z hz rfl)
      · exact hm
      · obtain hm | hm := List.mem_cons.1 hm
        · exact absurd hm (ne_of_lt hlt)
        · exact absurd ((List.pairwise_cons.1 (List.pairwise_append.1 hsorted).2.1).1 _ hm) (not_lt_of_gt hlt)
    exact (overAt_none_iff (onPort_partOf z.port)).1 (Option.map_eq_none_iff.1 (hbefore _ hz₁))

/-! ## Step 10: the sources (R63) -/

theorem firstOverSource_none_iff : firstOverSource (partOf nt running f) (partsOfAll nt others) = none
    ↔ ∀ i ∈ f.named, ∀ x, IsPoint nt running f others x → SourceFits nt f others i x := by
  unfold firstOverSource SourceFits
  simp only [List.findSome?_eq_none_iff, Option.map_eq_none_iff, overAt_none_iff (nt := nt) (onSource_partOf _)]
  rfl

theorem overLegsAt_of_first {i : SrcId} {x : Int} {n : Nat}
    (h : firstOverSource (partOf nt running f) (partsOfAll nt others) = some (i, x, n)) :
    OverLegsAt nt running f others ⟨.legLimit, .overLegs i (instantAt nt x) n⟩ := by
  obtain ⟨l₁, i', l₂, hl, hi, hbefore⟩ := findSome?_split h
  obtain ⟨r, ho, hr⟩ := Option.map_eq_some_iff.1 hi
  obtain ⟨rfl, rfl⟩ := Prod.mk.inj hr
  have hl : f.named = l₁ ++ i' :: l₂ := hl
  obtain ⟨hpoint, hn, hover, hfirst⟩ := overAt_some (onSource_partOf i') ho
  refine ⟨i', hl ▸ List.mem_append_right _ (List.mem_cons_self ..), x, ?_, hpoint, hover, hfirst, ?_⟩
  · rw [hn]
    rfl
  · cases l₁ with
    | nil => exact .inl (List.cons.inj hl).1.symm
    | cons j l₁ =>
      obtain rfl : f.main = j := (List.cons.inj hl).1
      exact .inr ((overAt_none_iff (onSource_partOf f.main)).1 (Option.map_eq_none_iff.1 (hbefore _ (List.mem_cons_self ..))))

/-! ## Step 8: the pairs (R61) -/

/-- Fields that hold some pair the candidate names in an overlapping window. -/
def ClashesAny (nt : Word) (running : Bool) (f : Fields) (b : Booking) (g : Fields) : Prop := ∃ y ∈ f.legs, Clashes nt running f b g y

/-- The parts of a booking that conflict with a candidate's part. -/
def conflicting (c : Part) (ps : List Part) : List Part := ps.filter fun p => p.overlaps c && c.legs.any fun x => p.legs.contains x

variable {b : Booking}

theorem mem_conflicting {p : Part} : p ∈ conflicting (partOf nt running f) (partsOf nt b)
    ↔ ∃ g, p = partOf nt b.state.isRunning g ∧ ClashesAny nt running f b g := by
  simp only [conflicting, partsOf_reserved, List.mem_filter, List.mem_map, Bool.and_eq_true, List.any_eq_true, List.contains_iff_mem,
    Part.overlaps, decide_eq_true_eq]
  constructor
  · rintro ⟨⟨g, hg, rfl⟩, ⟨h1, h2⟩, y, hy, hyg⟩
    exact ⟨g, rfl, y, hy, hg, hyg, h1, h2⟩
  · rintro ⟨g, rfl, y, hy, hg, hyg, h1, h2⟩
    exact ⟨⟨g, hg, rfl⟩, ⟨h1, h2⟩, y, hy, hyg⟩

theorem conflicting_holds {x : Pair} (hx : x ∈ f.legs) :
    ((conflicting (partOf nt running f) (partsOf nt b)).any fun p => p.legs.contains x) = true ↔ ∃ g, Clashes nt running f b g x := by
  simp only [List.any_eq_true, List.contains_iff_mem, mem_conflicting]
  constructor
  · rintro ⟨_, ⟨g, rfl, y, -, hg, -, h1, h2⟩, hxg⟩
    exact ⟨g, hg, hxg, h1, h2⟩
  · rintro ⟨g, hc⟩
    exact ⟨_, ⟨g, rfl, x, hx, hc⟩, hc.2.1⟩

theorem conflictWith_eq (c : Part) (ps : List Part) : conflictWith c ps
    = (earliest ((conflicting c ps).map Part.from_)).bind fun a =>
      (c.legs.find? fun x => (conflicting c ps).any fun p => p.legs.contains x).map fun x => (a, x) := by
  unfold conflictWith conflicting
  dsimp only
  cases earliest _ <;> cases List.find? _ _ <;> rfl

theorem conflictWith_none_iff : conflictWith (partOf nt running f) (partsOf nt b) = none
    ↔ ∀ x ∈ f.legs, ∀ g, ¬ Clashes nt running f b g x := by
  rw [conflictWith_eq]
  constructor
  · intro h x hx g hc
    obtain ⟨a, ha⟩ : ∃ a, earliest ((conflicting (partOf nt running f) (partsOf nt b)).map Part.from_) = some a :=
      Option.ne_none_iff_exists'.1 fun hn => by
        have hmem := mem_conflicting.2 ⟨g, rfl, x, hx, hc⟩
        rw [List.map_eq_nil_iff.1 (earliest_eq_none.1 hn)] at hmem
        exact List.not_mem_nil hmem
    rw [ha, Option.bind_some, Option.map_eq_none_iff, List.find?_eq_none] at h
    exact h x hx ((conflicting_holds hx).2 ⟨g, hc⟩)
  · intro h
    have hnone : conflicting (partOf nt running f) (partsOf nt b) = [] :=
      List.eq_nil_iff_forall_not_mem.2 fun p hp => by
        obtain ⟨g, -, y, hy, hc⟩ := mem_conflicting.1 hp
        exact h y hy g hc
    rw [hnone]
    rfl

/-- What a conflict found with one booking is: the earliest opening of its fields that clash, and the first of the candidate's pairs
that such fields hold. -/
theorem conflictWith_some {a : Int} {x : Pair} (h : conflictWith (partOf nt running f) (partsOf nt b) = some (a, x)) :
    (∃ g, ClashesAny nt running f b g ∧ g.opens nt b.state.isRunning = a)
      ∧ (∀ g, ClashesAny nt running f b g → a ≤ g.opens nt b.state.isRunning)
      ∧ ∃ n : Nat, f.legs[n]? = some x ∧ (∃ g, Clashes nt running f b g x)
        ∧ ∀ m : Nat, m < n → ∀ y g, f.legs[m]? = some y → ¬ Clashes nt running f b g y := by
  rw [conflictWith_eq] at h
  obtain ⟨a', ha, h⟩ := Option.bind_eq_some_iff.1 h
  obtain ⟨x', hx, he⟩ := Option.map_eq_some_iff.1 h
  obtain ⟨rfl, rfl⟩ := Prod.mk.inj he
  refine ⟨?_, fun g hg => earliest_le ha (List.mem_map_of_mem (mem_conflicting.2 ⟨g, rfl, hg⟩)), ?_⟩
  · obtain ⟨p, hp, hpa⟩ := List.mem_map.1 (earliest_mem ha)
    obtain ⟨g, rfl, hg⟩ := mem_conflicting.1 hp
    exact ⟨g, hg, hpa⟩
  · obtain ⟨hholds, n, hn, hxn, hbefore⟩ := List.find?_eq_some_iff_getElem.1 hx
    have hmem : x' ∈ f.legs := List.mem_of_find?_eq_some hx
    refine ⟨n, List.getElem?_eq_some_iff.2 ⟨hn, hxn⟩, (conflicting_holds hmem).1 hholds, fun m hm y g hy hc => ?_⟩
    obtain ⟨hlt, rfl⟩ := List.getElem?_eq_some_iff.1 hy
    have hfree := hbefore m hm
    rw [Bool.not_eq_true', ← Bool.not_eq_true] at hfree
    exact hfree ((conflicting_holds (List.getElem_mem hlt)).2 ⟨g, hc⟩)

theorem firstConflict_cons (c : Part) (k : Nat) (b : Booking) (rest : List (Nat × Booking)) :
    firstConflict nt c ((k, b) :: rest) =
      match conflictWith c (partsOf nt b), firstConflict nt c rest with
      | some (a, x), some (a', r) => if a' < a then some (a', r) else some (a, k, b, x)
      | some (a, x), none => some (a, k, b, x)
      | none, r => r := rfl

theorem firstConflict_none_iff {c : Part} :
    firstConflict nt c others = none ↔ ∀ e ∈ others, conflictWith c (partsOf nt e.2) = none := by
  induction others with
  | nil => simp [firstConflict]
  | cons e rest ih =>
    obtain ⟨k, b⟩ := e
    rw [List.forall_mem_cons, ← ih, firstConflict_cons]
    cases hb : conflictWith c (partsOf nt b) with
    | none => simp
    | some r =>
      cases hr : firstConflict nt c rest with
      | none => simp
      | some r' =>
        dsimp only
        split <;> simp

/-- The conflict reported is with the booking whose conflict opens earliest, ties to the lower slot. -/
theorem firstConflict_some {c : Part} {a : Int} {k : Nat} {b : Booking} {x : Pair} (hrise : Rising others)
    (h : firstConflict nt c others = some (a, k, b, x)) :
    (k, b) ∈ others ∧ conflictWith c (partsOf nt b) = some (a, x)
      ∧ ∀ e ∈ others, ∀ a' x', conflictWith c (partsOf nt e.2) = some (a', x') → a < a' ∨ a = a' ∧ k ≤ e.1 := by
  induction others generalizing a k b x with
  | nil => cases h
  | cons e rest ih =>
    obtain ⟨j, d⟩ := e
    rw [firstConflict_cons] at h
    cases hd : conflictWith c (partsOf nt d) with
    | none =>
      rw [hd] at h
      obtain ⟨hmem, hb, hfirst⟩ := ih hrise.tail h
      refine ⟨List.mem_cons_of_mem _ hmem, hb, List.forall_mem_cons.2 ⟨fun a' x' he => ?_, hfirst⟩⟩
      rw [hd] at he
      cases he
    | some r =>
      obtain ⟨ad, xd⟩ := r
      rw [hd] at h
      cases hr : firstConflict nt c rest with
      | none =>
        rw [hr] at h
        cases h
        refine ⟨List.mem_cons_self .., hd, List.forall_mem_cons.2 ⟨fun a' x' he => ?_, fun e he a' x' hx' => ?_⟩⟩
        · rw [hd] at he
          cases he
          exact .inr ⟨rfl, Nat.le_refl _⟩
        · rw [firstConflict_none_iff.1 hr e he] at hx'
          cases hx'
      | some r' =>
        obtain ⟨ar, kr, br, xr⟩ := r'
        rw [hr] at h
        obtain ⟨hmem, hb, hfirst⟩ := ih hrise.tail hr
        dsimp only at h
        split at h
        · next hlt =>
          cases h
          refine ⟨List.mem_cons_of_mem _ hmem, hb, List.forall_mem_cons.2 ⟨fun a' x' he => ?_, hfirst⟩⟩
          rw [hd] at he
          cases he
          exact .inl hlt
        · next hge =>
          cases h
          refine ⟨List.mem_cons_self .., hd, List.forall_mem_cons.2 ⟨fun a' x' he => ?_, fun e he a' x' hx' => ?_⟩⟩
          · rw [hd] at he
            cases he
            exact .inr ⟨rfl, Nat.le_refl _⟩
          · have hslot := hrise.head_lt e he
            obtain hlt | ⟨heq, -⟩ := hfirst e he a' x' hx'
            · exact .inl (by omega)
            · obtain hlt | heq' := Int.lt_or_eq_of_le (Int.not_lt.1 hge)
              · exact .inl (heq ▸ hlt)
              · exact .inr ⟨heq'.trans heq, Nat.le_of_lt hslot⟩

theorem firstConflict_pairsFree : firstConflict nt (partOf nt running f) others = none ↔ PairsFree nt running f others := by
  simp only [firstConflict_none_iff, conflictWith_none_iff]
  rfl

theorem conflictWith_of_first {a : Int} {k : Nat} {x : Pair} (hrise : Rising others)
    (h : firstConflict nt (partOf nt running f) others = some (a, k, b, x)) :
    ConflictWith nt running f others ⟨.conflict, .conflictWith b.ref k x⟩ := by
  obtain ⟨hmem, hb, hfirst⟩ := firstConflict_some hrise h
  obtain ⟨⟨g, hg, hga⟩, -, n, hxn, hclash, hbefore⟩ := conflictWith_some hb
  refine ⟨(k, b), hmem, n, x, rfl, hxn, hclash, hbefore, g, hg, fun e he g' hg' => ?_⟩
  cases hc : conflictWith (partOf nt running f) (partsOf nt e.2) with
  | none =>
    obtain ⟨y, hy, hcy⟩ := hg'
    exact absurd hcy (conflictWith_none_iff.1 hc y hy g')
  | some r =>
    have hle := (conflictWith_some hc).2.1 g' hg'
    rw [hga]
    obtain hlt | ⟨heq, hslot⟩ := hfirst e he r.1 r.2 hc
    · exact .inl (Int.lt_of_lt_of_le hlt hle)
    · obtain hlt | heq' := Int.lt_or_eq_of_le hle
      · exact .inl (heq ▸ hlt)
      · exact .inr ⟨heq.trans heq', hslot⟩

/-! ## The three steps together (R57) -/

theorem firstRefusal_nil : firstRefusal [] = none := rfl

theorem firstRefusal_cons (r : Option Refused) (rs : List (Option Refused)) : firstRefusal (r :: rs) = r.or (firstRefusal rs) := by
  cases r <;> rfl

theorem State.admission_eq : s.admission nt (partOf nt running f) others
    = ((firstConflict nt (partOf nt running f) others).map fun r => ⟨.conflict, .conflictWith r.2.2.1.ref r.2.1 r.2.2.2⟩).or
      (((firstOverPort s (partOf nt running f) (partsOfAll nt others)).map fun r =>
          ⟨.capacity, .overCapacity r.1 (instantAt nt r.2.1) r.2.2⟩).or
        ((firstOverSource (partOf nt running f) (partsOfAll nt others)).map fun r =>
          ⟨.legLimit, .overLegs r.1 (instantAt nt r.2.1) r.2.2⟩)) := by
  unfold State.admission
  dsimp only
  rw [firstRefusal_cons, firstRefusal_cons, firstRefusal_cons, firstRefusal_nil, Option.or_none]
  rfl

/-- Steps 8 to 10 find nothing exactly when the candidate is admissible. -/
theorem State.admission_none_iff : s.admission nt (partOf nt running f) others = none ↔ Admissible s nt running f others := by
  rw [State.admission_eq, Option.or_eq_none_iff, Option.or_eq_none_iff, Option.map_eq_none_iff, Option.map_eq_none_iff,
    Option.map_eq_none_iff, firstConflict_pairsFree, firstOverPort_none_iff, firstOverSource_none_iff]
  exact ⟨fun ⟨hpairs, hports, hsources⟩ => ⟨hpairs, hports, hsources⟩, fun h => ⟨h.pairs, h.ports, h.sources⟩⟩

/-- What they find is the refusal of the first step that fails. -/
theorem State.admission_refuses {r : Refused} (hrise : Rising others)
    (h : s.admission nt (partOf nt running f) others = some r) : AdmissionRefuses s nt running f others r := by
  rw [State.admission_eq] at h
  obtain h | ⟨hpairs, h⟩ := Option.or_eq_some_iff.1 h
  · obtain ⟨⟨a, k, b, x⟩, hc, rfl⟩ := Option.map_eq_some_iff.1 h
    exact .inl (conflictWith_of_first hrise hc)
  have hpairs := firstConflict_pairsFree.1 (Option.map_eq_none_iff.1 hpairs)
  obtain h | ⟨hports, h⟩ := Option.or_eq_some_iff.1 h
  · obtain ⟨⟨q, x, n⟩, hc, rfl⟩ := Option.map_eq_some_iff.1 h
    exact .inr (.inl ⟨hpairs, overCapacityAt_of_first hc⟩)
  · obtain ⟨⟨i, x, n⟩, hc, rfl⟩ := Option.map_eq_some_iff.1 h
    exact .inr (.inr ⟨hpairs, firstOverPort_none_iff.1 (Option.map_eq_none_iff.1 hports), overLegsAt_of_first hc⟩)

end

end Sys2Proof.Machine
end

