-- ==== Sys2Proof/Proofs/BookAdmission.lean ====
section
/-! The completion of a BOOK: refused by steps 8 to 10, or into the lowest FREE slot with its sources (R61 to R65). -/

namespace Sys2Proof.Machine

theorem lowestFree_least (ks : List Nat) (n : Nat) : ∀ i, n ≤ i → i < lowestFree ks n → i ∈ ks := by
  induction ks generalizing n with
  | nil => exact fun i h1 h2 => absurd h2 (Nat.not_lt.2 h1)
  | cons k ks ih =>
    intro i h1 h2
    unfold lowestFree at h2
    split at h2
    · next hk =>
      obtain rfl | hlt := Nat.eq_or_lt_of_le h1
      · exact hk ▸ List.mem_cons_self ..
      · exact List.mem_cons_of_mem _ (ih (n + 1) i hlt h2)
    · exact absurd h2 (Nat.not_lt.2 h1)

/-- The lowest FREE slot of the booking table (R65). -/
def State.lowestFreeSlot (s : State) : Nat := lowestFree (s.bookings.map Prod.fst) 0

section
variable {s : State} (h : TablesInForm s)
include h

theorem State.lowestFreeSlot_free : s.booking s.lowestFreeSlot = none := by
  obtain ⟨hnew, -, -⟩ := lowestFree_spec (s.bookings.map Prod.fst) 0 h.bookings fun j _ => Nat.zero_le j
  cases hb : s.booking s.lowestFreeSlot with
  | none => rfl
  | some b => exact absurd (List.mem_map_of_mem (tabFind_mem hb)) hnew

theorem State.lowestFreeSlot_least {i : Nat} (hi : i < s.lowestFreeSlot) : (s.booking i).isSome = true := by
  obtain ⟨e, he, rfl⟩ := List.mem_map.1 (lowestFree_least _ 0 i (Nat.zero_le i) hi)
  rw [h.mem_bookings.1 he]
  rfl

end

/-! ## The table after an acceptance (R65) -/

/-- Gaining references writes the source table alone (R34, R35). -/
theorem State.gainRef_frame (s : State) (n : Nat) (i : SrcId) : s.gainRef n i = { s with sources := (s.gainRef n i).sources } := by
  unfold State.gainRef
  split <;> rfl

theorem State.gainRefs_frame (s : State) (n : Nat) (is : List SrcId) : is.foldl (State.gainRef · n ·) s
    = { s with sources := (is.foldl (State.gainRef · n ·) s).sources } :=
  foldl_keeps (fun u => u = { s with sources := u.sources }) _ (fun u i hu => by
    refine (u.gainRef_frame n i).trans ?_
    generalize (u.gainRef n i).sources = t
    rw [hu]) is s rfl

/-- The table after an accepted BOOK. -/
def State.booked (s : State) (ref : Word) (f : Fields) : State :=
  (newBooking ref f).named.foldl (State.gainRef · f.bandwidth ·) (s.setBooking s.lowestFreeSlot (newBooking ref f))

section
variable {s : State} {ref : Word} {f : Fields}

theorem State.acceptBook_eq : s.acceptBook ref f = ⟨s.booked ref f, .done,
    .booked s.lowestFreeSlot f.effStart f.plannedEnd f.windowEnd f.preroll f.holdOff f.wtr⟩ := rfl

theorem State.booked_bookings : (s.booked ref f).bookings = (s.setBooking s.lowestFreeSlot (newBooking ref f)).bookings :=
  foldl_same State.bookings _ (fun u i => by simp) _ _

theorem State.booked_booking (i : Nat) :
    (s.booked ref f).booking i = if i = s.lowestFreeSlot then some (newBooking ref f) else s.booking i :=
  (State.booking_congr State.booked_bookings i).trans (s.setBooking_booking ..)

theorem State.booked_source (h : TablesInForm s) (i : SrcId) :
    (s.booked ref f).source i = if i = f.main ∨ f.spare = some i then some (gained f.bandwidth s.defaults i (s.source i)) else s.source i := by
  unfold State.booked
  rw [State.gainRefs_source (h.setBooking _ _) _ (is := (newBooking ref f).named) (once_nodup _)]
  refine if_congr ?_ rfl rfl
  rw [newBooking_named, Fields.mem_named]

theorem State.booked_frame : s.booked ref f = { s with sources := (s.booked ref f).sources, bookings := (s.booked ref f).bookings } := by
  rw [State.booked_bookings]
  exact State.gainRefs_frame ..

end

/-! ## The completion -/

theorem exec_bookAccepted {s : State} {j : Job} {ref : Word} {f : Fields} (ha : s.inReset = false) (he : s.mgmt.engine = .working j)
    (hk : j.kind = .book ref f) {t : State} {r : Result} {d : AnswerData} (hr : s.completeBook j ref f = ⟨t, r, d⟩) :
    Answers .bookAccepted s j.order t r d := by
  unfold Answers
  have hexec : exec .bookAccepted s = execBookAccepted s := rfl
  unfold execBookAccepted at hexec
  rw [hexec, State.awake_of_out ha, he]
  dsimp only
  rw [hk]
  dsimp only
  rw [hr]

/-- Settles O33, by what steps 8 to 10 come to on the bookings compared. -/
theorem admittedBookTakesTheLowestSlot : Obligations.AdmittedBookTakesTheLowestSlot := by
  intro s j ref f compared ha ht hrise he hk
  have hanswers {t : State} {r : Result} {d : AnswerData} := exec_bookAccepted (t := t) (r := r) (d := d) ha he hk
  have hcomplete : s.completeBook j ref f = match s.admission j.nt (partOf j.nt false f) compared with
    | some r => ⟨s, r.result, r.data⟩
    | none => s.acceptBook ref f := rfl
  constructor
  · intro hnot
    obtain ⟨r, hr⟩ := Option.ne_none_iff_exists'.1 fun hn => hnot (State.admission_none_iff.1 hn)
    exact ⟨r, State.admission_refuses hrise hr, hanswers (by rw [hcomplete, hr])⟩
  · intro hadm
    rw [State.admission_none_iff.2 hadm] at hcomplete
    refine ⟨s.lowestFreeSlot, s.booked ref f, State.lowestFreeSlot_free ht, fun i => State.lowestFreeSlot_least ht,
      hanswers (hcomplete.trans State.acceptBook_eq), (State.booked_booking _).trans (if_pos rfl),
      fun i hi => (State.booked_booking i).trans (if_neg hi), fun i => ?_, State.booked_frame⟩
    rw [State.booked_source ht]
    cases s.source i <;> rfl

end Sys2Proof.Machine
end

