-- ==== Sys2Proof/Proofs/Checks.lean ====
section
/-! What the bytes of a BOOK or a MODIFY name (R53, R172), and checks made in order, of which the first failing one is answered
(R162). -/

namespace Sys2Proof.Machine

/-! ## Bytes (R172) -/

theorem isYes_eq (x : Byte) : isYes x = decide (x.toNat = 1) := by
  rw [Bool.eq_iff_iff, decide_eq_true_iff, isYes, beq_iff_eq, BitVec.toNat_eq]
  rfl

theorem isYesNo_iff {x : Byte} : isYesNo x = true ↔ x.toNat ≤ 1 := by
  simp only [isYesNo, Bool.or_eq_true, beq_iff_eq, BitVec.toNat_eq, BitVec.toNat_ofNat]
  omega

theorem isYesNo_eq_false {x : Byte} : isYesNo x = false ↔ 1 < x.toNat := by
  rw [← Bool.not_eq_true, isYesNo_iff, Nat.not_le]

theorem pairBytes_eq (ps : List Byte) (start n : Nat) :
    pairBytes ps start n = (List.range n).map fun i => (byteAt ps (start + 2 * i), byteAt ps (start + 2 * i + 1)) := by
  induction n generalizing start with
  | zero => rfl
  | succ n ih =>
    rw [List.range_succ_eq_map, List.map_cons, List.map_map, pairBytes, ih]
    refine congrArg _ (List.map_congr_left fun i _ => ?_)
    have h : start + 2 + 2 * i = start + 2 * (i + 1) := by omega
    simp only [Function.comp_apply, h]

/-! ## Ports, sources and pairs (R53) -/

theorem portOf_eq_some {x : Byte} {p : Port} : portOf x = some p ↔ x.toNat = p.val := by
  refine ⟨fun h => ?_, portOf_of_toNat⟩
  unfold portOf at h
  split at h
  · cases h
    rfl
  · cases h

theorem srcOf_eq_some {p l : Byte} {i : SrcId} : srcOf p l = some i ↔ p.toNat = i.port.val ∧ l = i.label ∧ l ≠ 0 ∧ l ≠ 255 := by
  refine ⟨fun h => ?_, fun ⟨hp, hl, h0, h255⟩ => srcOf_of_id (hl ▸ h0) (hl ▸ h255) hp hl⟩
  unfold srcOf at h
  split at h
  · next q hq =>
    split at h
    · cases h
    · next hl =>
      cases h
      obtain ⟨h0, h255⟩ := not_or.1 hl
      exact ⟨portOf_eq_some.1 hq, rfl, h0, h255⟩
  · cases h

/-- A pair is carried as a source is: its port and label. -/
theorem pairOf_eq (x : Byte × Byte) : pairOf x = (srcOf x.1 x.2).map fun i => ⟨i.port, i.label⟩ := by
  unfold pairOf srcOf
  cases portOf x.1 with
  | none => rfl
  | some q =>
    dsimp only
    split <;> rfl

theorem pairOf_eq_some {x : Byte × Byte} {q : Pair} :
    pairOf x = some q ↔ x.1.toNat = q.port.val ∧ x.2 = q.label ∧ x.2 ≠ 0 ∧ x.2 ≠ 255 := by
  rw [pairOf_eq, Option.map_eq_some_iff]
  constructor
  · rintro ⟨i, hi, rfl⟩
    exact srcOf_eq_some.1 hi
  · exact fun h => ⟨⟨q.port, q.label⟩, srcOf_eq_some.2 h, rfl⟩

theorem pairsOf_eq_some {xs : List (Byte × Byte)} {qs : List Pair} : pairsOf xs = some qs ↔ xs.map pairOf = qs.map some := by
  induction xs generalizing qs with
  | nil => cases qs <;> simp [pairsOf]
  | cons x xs ih =>
    unfold pairsOf
    cases hx : pairOf x with
    | none => cases qs <;> simp [hx]
    | some q =>
      cases hxs : pairsOf xs with
      | none =>
        cases qs with
        | nil => simp
        | cons q' qs => simpa [hx, hxs] using fun _ => ih (qs := qs)
      | some qs' =>
        have hqs : xs.map pairOf = qs'.map some := ih.1 hxs
        cases qs with
        | nil => simp
        | cons q' qs => simp [hx, hqs, List.map_inj_right]

/-! ## The first failing check -/

/-- Of some checks, made in order, the first that fails is refused with `x`; with none, none fails. -/
def FirstFailing {β : Type} : List (Prop × β) → Option β → Prop
  | [], x => x = none
  | (fails, r) :: rest, x => fails ∧ x = some r ∨ ¬ fails ∧ FirstFailing rest x

section
variable {β : Type} {steps : List (Prop × β)}

theorem FirstFailing.unique {x y : Option β} (hx : FirstFailing steps x) (hy : FirstFailing steps y) : x = y := by
  induction steps with
  | nil => exact Eq.trans hx (Eq.symm hy)
  | cons step rest ih =>
    obtain ⟨hp, rfl⟩ | ⟨hp, hx⟩ := hx
    · obtain ⟨-, rfl⟩ | ⟨hn, -⟩ := hy
      · rfl
      · exact absurd hp hn
    · obtain ⟨hp', -⟩ | ⟨-, hy⟩ := hy
      · exact absurd hp' hp
      · exact ih hx hy

theorem FirstFailing.of_index {n : Nat} {p : Prop} {r : β} (hn : steps[n]? = some (p, r)) (hp : p)
    (hbefore : ∀ (m : Nat) (q : Prop) (r' : β), m < n → steps[m]? = some (q, r') → ¬ q) : FirstFailing steps (some r) := by
  induction steps generalizing n with
  | nil => simp at hn
  | cons step rest ih =>
    cases n with
    | zero =>
      obtain rfl : step = (p, r) := by simpa using hn
      exact .inl ⟨hp, rfl⟩
    | succ n =>
      refine .inr ⟨hbefore 0 step.1 step.2 (Nat.succ_pos n) rfl, ih (by simpa using hn) fun m q r' hm hq => ?_⟩
      exact hbefore (m + 1) q r' (Nat.succ_lt_succ hm) (by simpa using hq)

theorem firstFailing_none_iff : FirstFailing steps none ↔ ∀ x ∈ steps, ¬ x.1 := by
  induction steps with
  | nil => simp [FirstFailing]
  | cons step rest ih => simp [FirstFailing, ih]

theorem FirstFailing.skip {before : List (Prop × β)} {x : Option β} (hb : ∀ y ∈ before, ¬ y.1) (h : FirstFailing steps x) :
    FirstFailing (before ++ steps) x := by
  induction before with
  | nil => exact h
  | cons step rest ih =>
    exact .inr ⟨hb step (List.mem_cons_self ..), ih fun y hy => hb y (List.mem_cons_of_mem _ hy)⟩

theorem FirstFailing.stop {after : List (Prop × β)} {r : β} (h : FirstFailing steps (some r)) :
    FirstFailing (steps ++ after) (some r) := by
  induction steps with
  | nil => cases h
  | cons step rest ih => exact h.imp_right (And.imp_right ih)

theorem FirstFailing.map {γ : Type} {x : Option β} (g : β → γ) (h : FirstFailing steps x) :
    FirstFailing (steps.map fun y => (y.1, g y.2)) (x.map g) := by
  induction steps with
  | nil => exact congrArg (Option.map g) h
  | cons step rest ih => exact h.imp (And.imp_right (congrArg (Option.map g))) (And.imp_right ih)

end

/-- What some checks, made in order, come to: the error of the first that fails, or, with none failing, a value of this kind. -/
def Checked {β α : Type} (steps : List (Prop × β)) (P : α → Prop) : Except β α → Prop
  | .error x => FirstFailing steps (some x)
  | .ok v => (∀ y ∈ steps, ¬ y.1) ∧ P v

namespace Checked

variable {β α : Type} {steps rest before : List (Prop × β)} {P : α → Prop} {p : Prop} {x : β} {r : Except β α}

theorem done {v : α} (h : P v) : Checked ([] : List (Prop × β)) P (.ok v) := ⟨nofun, h⟩

theorem fail (h : p) : Checked ((p, x) :: rest) P (.error x) := .inl ⟨h, rfl⟩

theorem skip (hb : ∀ y ∈ before, ¬ y.1) (h : Checked rest P r) : Checked (before ++ rest) P r := by
  cases r with
  | error x => exact FirstFailing.skip hb h
  | ok v => exact ⟨List.forall_mem_append.2 ⟨hb, h.1⟩, h.2⟩

theorem pass (hp : ¬ p) (h : Checked rest P r) : Checked ((p, x) :: rest) P r :=
  skip (before := [(p, x)]) (List.forall_mem_singleton.2 hp) h

theorem stop (h : FirstFailing steps (some x)) : Checked (steps ++ rest) P (.error x) := FirstFailing.stop h

theorem ite [Decidable p] (h : ¬ p → Checked rest P r) : Checked ((p, x) :: rest) P (if p then .error x else r) := by
  split
  · next hp => exact fail hp
  · next hp => exact pass hp (h hp)

end Checked

/-- An order's checks answer the first failing one, if the model finds that one and answers it. -/
theorem answersFirst {c : Instr} {s t : State} {o : Order} {steps : List (Prop × Refused)} {x : Option Refused}
    (hx : FirstFailing steps x) (ha : ∀ r, x = some r → Answers c s o t r.result r.data) : AnswersFirst c s o t steps :=
  fun _ _ r hn hp hbefore => ha r (hx.unique (.of_index hn hp hbefore))

end Sys2Proof.Machine
end

