-- ==== Sys2Proof/Proofs/BookChecks.lean ====
section
/-! BOOK up to its admission computation: its leg list, its fields and its checks in order (R53, R57 to R59). -/

namespace Sys2Proof.Machine

/-! ## The block (R172) -/

theorem bookBlock_eq (ps : List Byte) :
    let num (i : Nat) : Nat := (byteAt ps i).toNat
    bookBlock ps =
      { ref := word32 ps 0, account := word16 ps 4, tariffClass := num 6, group := num 7
        main := (byteAt ps 8, byteAt ps 9), spare := if num 10 = 1 then some (byteAt ps 11, byteAt ps 12) else none
        extend := decide (num 13 = 1), revertive := decide (num 14 = 1), switchOnDegrade := decide (num 15 = 1)
        bandwidth := (word16 ps 16).toNat, holdOff := (word16 ps 18).toNat, start := word32 ps 20
        duration := (word32 ps 24).toNat, allowance := (word32 ps 28).toNat, preroll := (word32 ps 32).toNat
        wtr := (word32 ps 36).toNat
        legs := (List.range (num 40)).map fun i => (byteAt ps (41 + 2 * i), byteAt ps (42 + 2 * i)) } := by
  have hlegs (i : Nat) : 41 + 2 * i + 1 = 42 + 2 * i := by omega
  simp only [bookBlock, isYes_eq, decide_eq_true_eq, pairBytes_eq, hlegs]

/-- A BOOK block is malformed: a length that its leg count does not give, or a yes-or-no byte above 1 (R58, R172). -/
def Order.bookMalformed (o : Order) (n : Nat) : Prop :=
  n ≠ 41 + 2 * (o.param 40).toNat ∨ 240 < n ∨ ∃ i ∈ [10, 13, 14, 15], 1 < (o.param i).toNat

theorem bookMalformed_iff {o : Order} {n : Nat} : Machine.bookMalformed n (paramsOf o.cell) = true ↔ o.bookMalformed n := by
  simp only [Machine.bookMalformed, Order.bookMalformed, Order.param, Bool.or_eq_true, decide_eq_true_eq, bne_iff_ne,
    Bool.not_eq_true', Bool.and_eq_false_iff, isYesNo_eq_false, List.mem_cons, List.not_mem_nil, or_false, exists_eq_or_imp,
    exists_eq_left, or_assoc]
  exact or_left_comm

/-! ## The leg list (R53, R58) -/

/-- The leg at a place of a list is past the fourth, out of range, or the same as an earlier one. -/
def LegFails (legs : List (Byte × Byte)) (i : Nat) : Prop :=
  ∃ x ∈ legs[i]?, 4 ≤ i ∨ pairOf x = none ∨ ∃ j < i, ∃ y ∈ legs[j]?, pairOf y = pairOf x

section
variable {before rest : List (Byte × Byte)} {seen : List Pair} {x : Byte × Byte}

theorem earlier_pair_iff {q : Pair} (hb : before.map pairOf = seen.map some) (hx : pairOf x = some q) :
    (∃ j < before.length, ∃ y ∈ (before ++ x :: rest)[j]?, pairOf y = pairOf x) ↔ q ∈ seen := by
  have hq : q ∈ seen ↔ some q ∈ before.map pairOf := by
    rw [hb, List.mem_map_of_injective (Option.some_injective _)]
  rw [hq, List.mem_map, hx]
  constructor
  · rintro ⟨j, hj, y, hy, he⟩
    rw [List.getElem?_append_left hj] at hy
    exact ⟨y, List.mem_of_getElem? hy, he⟩
  · rintro ⟨y, hy, he⟩
    obtain ⟨j, hj, rfl⟩ := List.mem_iff_getElem.1 hy
    exact ⟨j, hj, before[j], by rw [List.getElem?_append_left hj, List.getElem?_eq_getElem hj]; rfl, he⟩

theorem legFails_here (hb : before.map pairOf = seen.map some) : LegFails (before ++ x :: rest) before.length
    ↔ 4 ≤ seen.length ∨ pairOf x = none ∨ ∃ q ∈ seen, pairOf x = some q := by
  have hlen : before.length = seen.length := by simpa using congrArg List.length hb
  have hhere : (before ++ x :: rest)[before.length]? = some x := by simp
  unfold LegFails
  rw [hhere]
  simp only [Option.mem_some_iff, exists_eq_left']
  refine or_congr (by rw [hlen]) ?_
  cases hx : pairOf x with
  | none => simp
  | some q =>
    rw [← hx, earlier_pair_iff hb hx, hx]
    simp

/-- What becomes of a leg list of which the legs before place `n` are taken: it is taken whole and no further leg fails, or the
first leg that does is reported. -/
def LegListOutcome (legs : List (Byte × Byte)) (n : Nat) : Except Nat (List Pair) → Prop
  | .ok ls => legs.map pairOf = ls.map some ∧ ∀ i, n ≤ i → ¬ LegFails legs i
  | .error i => n ≤ i ∧ LegFails legs i ∧ ∀ j, n ≤ j → j < i → ¬ LegFails legs j

theorem LegListOutcome.fails {legs : List (Byte × Byte)} {n : Nat} (h : LegFails legs n) : LegListOutcome legs n (.error n) :=
  ⟨Nat.le_refl n, h, fun _ h1 h2 => absurd h2 (Nat.not_lt.2 h1)⟩

theorem LegListOutcome.of_succ {legs : List (Byte × Byte)} {n : Nat} {r : Except Nat (List Pair)} (hn : ¬ LegFails legs n)
    (h : LegListOutcome legs (n + 1) r) : LegListOutcome legs n r := by
  have hskip (j : Nat) (hj : n ≤ j) (hlater : n + 1 ≤ j → ¬ LegFails legs j) : ¬ LegFails legs j := by
    obtain rfl | hlt := Nat.eq_or_lt_of_le hj
    · exact hn
    · exact hlater hlt
  cases r with
  | ok ls => exact ⟨h.1, fun i hi => hskip i hi (h.2 i)⟩
  | error i => exact ⟨Nat.le_of_succ_le h.1, h.2.1, fun j hj hji => hskip j hj fun h' => h.2.2 j h' hji⟩

theorem takeLegList_outcome (hb : before.map pairOf = seen.map some) :
    LegListOutcome (before ++ rest) before.length (takeLegList seen rest) := by
  induction rest generalizing before seen with
  | nil =>
    refine ⟨by simpa using hb, fun i hi => ?_⟩
    rintro ⟨x, hx, -⟩
    simp [hi] at hx
  | cons x rest ih =>
    have hlen : seen.length = before.length := by simpa using (congrArg List.length hb).symm
    have hhere := legFails_here (x := x) (rest := rest) hb
    unfold takeLegList
    cases hx : pairOf x with
    | none =>
      dsimp only
      rw [hlen]
      exact .fails (hhere.2 (.inr (.inl hx)))
    | some q =>
      dsimp only
      by_cases hq : 4 ≤ seen.length ∨ q ∈ seen
      · rw [if_pos hq, hlen]
        exact .fails (hhere.2 (hq.imp_right fun h => .inr ⟨q, h, hx⟩))
      · rw [if_neg hq]
        refine .of_succ ?_ ?_
        · rw [hhere, hx]
          simpa using hq
        · have hstep : (before ++ [x]).map pairOf = (seen ++ [q]).map some := by simp [hb, hx]
          simpa using ih hstep

end

/-- A leg list fails at a place: an empty one at its first (assumption log 9). -/
def LegListFails (legs : List (Byte × Byte)) (i : Nat) : Prop := (i = 0 ∧ legs = []) ∨ LegFails legs i

/-- What a check that passes with a value or fails reports. -/
def errorOf {ε α : Type} : Except ε α → Option ε
  | .error e => some e
  | .ok _ => none

theorem legListOf_firstFailing (xs : List (Byte × Byte)) :
    FirstFailing ((List.range 5).map fun i => (LegListFails xs i, i)) (errorOf (legListOf xs)) := by
  unfold legListOf
  by_cases hxs : xs = []
  · rw [if_pos hxs]
    exact .inl ⟨.inl ⟨rfl, hxs⟩, rfl⟩
  have hfails (i : Nat) : LegListFails xs i ↔ LegFails xs i := or_iff_right fun h => hxs h.2
  have hout : LegListOutcome xs 0 (takeLegList [] xs) := takeLegList_outcome (before := []) rfl
  rw [if_neg hxs]
  cases htake : takeLegList [] xs with
  | ok ls =>
    rw [htake] at hout
    refine firstFailing_none_iff.2 fun x hx => ?_
    obtain ⟨i, -, rfl⟩ := List.mem_map.1 hx
    exact fun h => hout.2 i (Nat.zero_le i) ((hfails i).1 h)
  | error i =>
    rw [htake] at hout
    obtain ⟨-, hi, hbefore⟩ := hout
    have hlt : i < 5 := by
      by_contra hge
      obtain ⟨x, hx, -⟩ := hi
      obtain ⟨hlen, -⟩ := List.getElem?_eq_some_iff.1 hx
      refine hbefore 4 (Nat.zero_le 4) (by omega) ⟨xs[4], ?_, .inl (Nat.le_refl 4)⟩
      exact List.getElem?_eq_getElem (by omega)
    refine .of_index (n := i) (p := LegListFails xs i) (by simp [hlt]) ((hfails i).2 hi) fun m q r hm hq => ?_
    obtain ⟨rfl, -⟩ : LegListFails xs m = q ∧ m = r := by simpa [Nat.lt_trans hm hlt] using hq
    exact fun h => hbefore m (Nat.zero_le m) hm ((hfails m).1 h)

theorem legListOf_ok {xs : List (Byte × Byte)} {ls : List Pair} (h : legListOf xs = .ok ls) : xs.map pairOf = ls.map some := by
  unfold legListOf at h
  split at h
  · cases h
  · have hout : LegListOutcome xs 0 (takeLegList [] xs) := takeLegList_outcome (before := []) rfl
    rw [h] at hout
    exact hout.1

/-- A list of 1 to 4 pairs in range, none twice, fails nowhere (R53). -/
theorem not_legListFails {xs : List (Byte × Byte)} {ls : List Pair} (hls : xs.map pairOf = ls.map some) (hn : ls.Nodup)
    (hlen : 1 ≤ ls.length ∧ ls.length ≤ 4) (i : Nat) : ¬ LegListFails xs i := by
  have hat (j : Nat) (x : Byte × Byte) (hx : xs[j]? = some x) : ∃ h : j < ls.length, pairOf x = some ls[j] := by
    have hj : (xs.map pairOf)[j]? = (ls.map some)[j]? := congrArg (·[j]?) hls
    rw [List.getElem?_map, List.getElem?_map, hx, Option.map_some] at hj
    obtain ⟨q, hq, he⟩ := Option.map_eq_some_iff.1 hj.symm
    obtain ⟨hlt, rfl⟩ := List.getElem?_eq_some_iff.1 hq
    exact ⟨hlt, he.symm⟩
  rintro (⟨-, rfl⟩ | ⟨x, hx, hfail⟩)
  · have := congrArg List.length hls
    simp at this
    omega
  · obtain ⟨hi, hxi⟩ := hat i x hx
    obtain h4 | hnone | ⟨j, hji, y, hy, he⟩ := hfail
    · omega
    · rw [hxi] at hnone
      cases hnone
    · obtain ⟨hj, hyj⟩ := hat j y hy
      rw [hxi, hyj, Option.some_inj, hn.getElem_inj_iff] at he
      omega

/-! ## The fields (R53, R58) -/

/-- The spare carried is out of range, or the main again (R53). -/
def BookBlock.spareFails (b : BookBlock) : Prop := ∃ x ∈ b.spare, srcOf x.1 x.2 = none ∨ srcOf x.1 x.2 = srcOf b.main.1 b.main.2

/-- The ranges of R53's table, in its order. -/
def BookBlock.ranges (b : BookBlock) (nt : Word) : List (Prop × FieldName) :=
  [(31 < b.tariffClass, FieldName.tariffClass), (srcOf b.main.1 b.main.2 = none, FieldName.mainSource), (b.spareFails, FieldName.spareSource),
      (b.bandwidth = 0 ∨ 48000 < b.bandwidth, FieldName.bandwidth)]
    ++ (List.range 5).map (fun i => (LegListFails b.legs i, FieldName.leg i))
    ++ [((2 ^ 30 : Int) < ticksUntil nt b.start, FieldName.start),
      (b.duration = 0 ∨ 8640000 < b.duration ∨ reached nt (b.start + BitVec.ofNat 32 b.duration) = true, FieldName.plannedDuration),
      (1080000 < b.allowance, FieldName.allowance), (32 < b.group, FieldName.startGroup)]

/-- The fields of a BOOK whose sources and legs are read, clamped where R53 clamps. -/
def BookBlock.fields (b : BookBlock) (nt : Word) (main : SrcId) (spare : Option SrcId) (legs : List Pair) : Fields :=
  { account := b.account, tariffClass := b.tariffClass, main := main, spare := spare, bandwidth := b.bandwidth
    legs := legs, start := b.start, effStart := if reached nt b.start then nt else b.start, duration := b.duration
    allowance := b.allowance, extend := b.extend, preroll := min b.preroll 60000, group := b.group
    revertive := b.revertive, switchOnDegrade := b.switchOnDegrade, holdOff := min b.holdOff 10000
    wtr := min b.wtr 60000 }

theorem spareOf_eq_none {b : BookBlock} {main : SrcId} (hm : srcOf b.main.1 b.main.2 = some main) :
    spareOf main b.spare = none ↔ b.spareFails := by
  unfold BookBlock.spareFails
  rw [hm]
  cases b.spare with
  | none => simp [spareOf]
  | some x =>
    obtain ⟨p, l⟩ := x
    cases hi : srcOf p l <;> simp [spareOf, hi]

theorem spareOf_eq_some {main : SrcId} {x : Option (Byte × Byte)} {spare : Option SrcId} (h : spareOf main x = some spare) :
    spare = x.bind fun y => srcOf y.1 y.2 := by
  unfold spareOf at h
  split at h
  · cases h
    rfl
  · next p l =>
    split at h
    · next i hi =>
      split at h
      · cases h
      · cases h
        exact hi.symm
    · cases h

/-- The fields of a BOOK with its sources and its legs. -/
def BookBlock.Reads (b : BookBlock) (nt : Word) (f : Fields) : Prop :=
  ∃ main spare legs, f = b.fields nt main spare legs ∧ srcOf b.main.1 b.main.2 = some main
    ∧ spare = (b.spare.bind fun x => srcOf x.1 x.2) ∧ b.legs.map pairOf = legs.map some

theorem BookBlock.fieldsAt_checked (b : BookBlock) (nt : Word) : Checked (b.ranges nt) (b.Reads nt) (b.fieldsAt nt) := by
  have hmax : startAheadMax = 2 ^ 30 := by norm_num
  unfold BookBlock.fieldsAt
  rw [hmax]
  refine .ite fun _ => ?_
  cases hmain : srcOf b.main.1 b.main.2 with
  | none => exact .fail rfl
  | some main =>
  refine .pass nofun ?_
  dsimp only
  cases hspare : spareOf main b.spare with
  | none => exact .fail ((spareOf_eq_none hmain).1 hspare)
  | some spare =>
  refine .pass (fun h => by simp [(spareOf_eq_none hmain).2 h] at hspare) (.ite fun _ => ?_)
  have hleg := (legListOf_firstFailing b.legs).map FieldName.leg
  rw [List.map_map] at hleg
  cases hlegs : legListOf b.legs with
  | error i =>
    rw [hlegs] at hleg
    exact .stop hleg
  | ok legs =>
  rw [hlegs] at hleg
  exact .skip (firstFailing_none_iff.1 hleg) (.ite fun _ => .ite fun _ => .ite fun _ => .ite fun _ =>
    .done ⟨main, spare, legs, rfl, hmain, spareOf_eq_some hspare, legListOf_ok hlegs⟩)

theorem BookBlock.Reads.bandwidth {b : BookBlock} {nt : Word} {f : Fields} (h : b.Reads nt f) : f.bandwidth = b.bandwidth := by
  obtain ⟨main, spare, legs, rfl, -⟩ := h
  rfl

theorem BookBlock.Reads.named {b : BookBlock} {nt : Word} {f : Fields} (h : b.Reads nt f) :
    f.named = (srcOf b.main.1 b.main.2).toList ++ (b.spare.bind fun x => srcOf x.1 x.2).toList := by
  obtain ⟨main, spare, legs, rfl, hmain, hspare, -⟩ := h
  rw [hmain, ← hspare]
  rfl

theorem BookBlock.Reads.unique {b : BookBlock} {nt : Word} {f g : Fields} (hf : b.Reads nt f) (hg : b.Reads nt g) : f = g := by
  obtain ⟨main, spare, legs, rfl, hmain, rfl, hlegs⟩ := hf
  obtain ⟨main', spare', legs', rfl, hmain', rfl, hlegs'⟩ := hg
  obtain rfl : main = main' := Option.some.inj (hmain.symm.trans hmain')
  obtain rfl : legs = legs' := List.map_injective_iff.2 (Option.some_injective _) (hlegs.symm.trans hlegs')
  rfl

/-! ## The checks (R57 to R59) -/

/-- The checks of a BOOK that come before the table is read, in order. -/
def State.bookSteps (s : State) (o : Order) (n : Nat) : List (Prop × Refused) :=
  [(o.bookMalformed n, ⟨.format, .empty⟩), (s.mgmt.mode ≠ .service, ⟨.mode, .empty⟩)]
    ++ ((bookBlock (paramsOf o.cell)).ranges s.time.nt).map fun x => (x.1, ⟨.range, .badField x.2⟩)

theorem State.bookSteps_pass {s : State} {o : Order} {n : Nat} (hform : ¬ o.bookMalformed n) (hmode : s.mgmt.mode = .service)
    (hranges : ∀ x ∈ (bookBlock (paramsOf o.cell)).ranges s.time.nt, ¬ x.1) : ∀ x ∈ s.bookSteps o n, ¬ x.1 := by
  simp only [State.bookSteps, List.forall_mem_append, List.forall_mem_cons, List.forall_mem_map]
  exact ⟨⟨hform, not_not.2 hmode, List.forall_mem_nil _⟩, hranges⟩

/-- The checks that read the tables, in order (R59). -/
def State.bookRefusal (s : State) (ref : Word) (f : Fields) : Option Refused :=
  (s.duplicateRef ref).or ((s.bandwidthMismatch f.bandwidth f.named).or (s.noSlot.or (s.noSourceSlot f.named)))

/-- A BOOK is refused by the first failing check, or its fields are read and the tables decide. -/
theorem bookCheck_cases (o : Order) (s : State) :
    (∃ r, bookCheck o s = .error r ∧ FirstFailing (s.bookSteps o (lengthOf o.cell)) (some r))
      ∨ (∀ x ∈ s.bookSteps o (lengthOf o.cell), ¬ x.1) ∧ ∃ f, (bookBlock (paramsOf o.cell)).Reads s.time.nt f
        ∧ bookCheck o s = match s.bookRefusal (bookBlock (paramsOf o.cell)).ref f with
          | some r => .error r
          | none => .ok f := by
  unfold bookCheck
  dsimp only
  by_cases hbad : o.bookMalformed (lengthOf o.cell)
  · rw [if_pos (bookMalformed_iff.2 hbad)]
    exact .inl ⟨_, rfl, .inl ⟨hbad, rfl⟩⟩
  rw [if_neg fun h => hbad (bookMalformed_iff.1 h)]
  by_cases hmode : s.mgmt.mode ≠ .service
  · rw [if_pos hmode]
    exact .inl ⟨_, rfl, .inr ⟨hbad, .inl ⟨hmode, rfl⟩⟩⟩
  rw [if_neg hmode]
  have hpass : ∀ y ∈ [(o.bookMalformed (lengthOf o.cell), (⟨.format, .empty⟩ : Refused)),
      (s.mgmt.mode ≠ .service, ⟨.mode, .empty⟩)], ¬ y.1 := by
    simpa using ⟨hbad, not_ne_iff.1 hmode⟩
  have hranges := (bookBlock (paramsOf o.cell)).fieldsAt_checked s.time.nt
  cases hf : (bookBlock (paramsOf o.cell)).fieldsAt s.time.nt with
  | error x =>
    rw [hf] at hranges
    exact .inl ⟨_, rfl, .skip hpass (FirstFailing.map (fun x => (⟨.range, .badField x⟩ : Refused)) hranges)⟩
  | ok f =>
    rw [hf] at hranges
    refine .inr ⟨State.bookSteps_pass hbad (not_ne_iff.1 hmode) hranges.1, f, hranges.2, ?_⟩
    dsimp only
    rw [firstRefusal_cons, firstRefusal_cons, firstRefusal_cons, firstRefusal_cons, firstRefusal_nil, Option.or_none]
    rfl

/-- A BOOK of which no check fails goes on with its fields. -/
theorem bookCheck_passes {o : Order} {s : State} {f : Fields} (hpass : ∀ x ∈ s.bookSteps o (lengthOf o.cell), ¬ x.1)
    (hf : (bookBlock (paramsOf o.cell)).Reads s.time.nt f) (hnone : s.bookRefusal (bookBlock (paramsOf o.cell)).ref f = none) :
    bookCheck o s = .ok f := by
  obtain ⟨r, -, hfirst⟩ | ⟨-, g, hg, hcheck⟩ := bookCheck_cases o s
  · exact absurd (hfirst.unique (firstFailing_none_iff.2 hpass)) (Option.some_ne_none _)
  · obtain rfl : g = f := hg.unique hf
    rw [hcheck, hnone]

section
variable {s : State} {n : Nat} {is : List SrcId}

/-- A source that is in the table with another bandwidth (R59). -/
def State.Differs (s : State) (n : Nat) (j : SrcId) (x : Source) : Prop := s.source j = some x ∧ x.bandwidth ≠ n

theorem State.bandwidthMismatch_eq_none (h : ∀ j ∈ is, ∀ x, ¬ s.Differs n j x) : s.bandwidthMismatch n is = none := by
  refine List.findSome?_eq_none_iff.2 fun j hj => ?_
  cases hx : s.source j with
  | none => rfl
  | some x => exact if_pos (not_not.1 fun hne => h j hj x ⟨hx, hne⟩)

theorem State.bandwidthMismatch_at {i : Nat} {j : SrcId} {x : Source} (hi : is[i]? = some j) (hd : s.Differs n j x)
    (hbefore : ∀ i' j' y, i' < i → is[i']? = some j' → ¬ s.Differs n j' y) :
    s.bandwidthMismatch n is = some ⟨.bandwidthMismatch, .otherBandwidth j x.bandwidth⟩ := by
  obtain ⟨hlt, hj⟩ := List.getElem?_eq_some_iff.1 hi
  have hsplit : is = is.take i ++ j :: is.drop (i + 1) := by rw [← hj, List.cons_getElem_drop_succ, List.take_append_drop]
  have hnone : s.bandwidthMismatch n (is.take i) = none := State.bandwidthMismatch_eq_none fun j' hj' y => by
    obtain ⟨i', hi', rfl⟩ := List.mem_take_iff_getElem.1 hj'
    exact hbefore i' _ y (by omega) (List.getElem?_eq_getElem (by omega))
  rw [hsplit]
  unfold State.bandwidthMismatch at hnone ⊢
  rw [List.findSome?_append, hnone, Option.none_or, List.findSome?_cons, hd.1]
  dsimp only
  rw [if_neg hd.2]

theorem State.noSlot_eq_none (h : s.bookings.length < 512) : s.noSlot = none := if_neg (Nat.not_le.2 h)

theorem State.noSlot_full (h : 512 ≤ s.bookings.length) : s.noSlot = some ⟨.noSlot, .empty⟩ := if_pos h

theorem State.noSourceSlot_eq_none (h : is.countP (fun i => (s.source i).isNone) ≤ 512 - s.sources.length) :
    s.noSourceSlot is = none := if_neg (Nat.not_lt.2 h)

theorem State.noSourceSlot_full (h : 512 - s.sources.length < is.countP fun i => (s.source i).isNone) : s.noSourceSlot is
    = some ⟨.noSourceSlot, .sourceRecords (is.countP fun i => (s.source i).isNone) (512 - s.sources.length)⟩ := if_pos h

theorem State.duplicateRef_held {ref : Word} {k : Nat} {b : Booking} (h : s.byRef ref = some (k, b)) :
    s.duplicateRef ref = some ⟨.duplicateRef, .heldBy k⟩ := by
  rw [State.duplicateRef, h]
  rfl

theorem State.duplicateRef_eq_none {ref : Word} (h : s.byRef ref = none) : s.duplicateRef ref = none := by
  rw [State.duplicateRef, h]
  rfl

theorem State.bookRefusal_eq_none {ref : Word} {f : Fields} (href : s.byRef ref = none)
    (hrates : ∀ i ∈ f.named, ∀ x, ¬ s.Differs f.bandwidth i x) (hslot : s.bookings.length < 512)
    (hroom : f.named.countP (fun i => (s.source i).isNone) ≤ 512 - s.sources.length) : s.bookRefusal ref f = none := by
  unfold State.bookRefusal
  rw [State.duplicateRef_eq_none href, State.bandwidthMismatch_eq_none hrates, State.noSlot_eq_none hslot,
    State.noSourceSlot_eq_none hroom]
  rfl

end

/-! ## BOOK taken (R57) -/

section
variable {s : State} {o : Order} {rest : List Order} {n : Nat} (h : Offers s .book n o rest)
include h

theorem Offers.exec_book : exec .book s = .next ((s.taken o rest).book o) := by
  have hx : exec .book s = execBook s := rfl
  unfold execBook at hx
  rw [hx, State.awake_of_out h.awake, h.headOrder]

theorem Offers.book_refused {r : Refused} (hc : bookCheck o (s.taken o rest) = .error r) :
    Answers .book s o (s.taken o rest) r.result r.data := by
  unfold Answers
  rw [h.exec_book, State.book, hc]

theorem Offers.book_starts {f : Fields} (hc : bookCheck o (s.taken o rest) = .ok f) : exec .book s
    = .next ((s.taken o rest).setEngine (.working ⟨o, s.time.nt, .book (bookBlock (paramsOf o.cell)).ref f, 0, []⟩)) := by
  rw [h.exec_book, State.book, hc]
  rfl

end

/-- Settles O31: no check of the orderly BOOK fails, so its fields are read as carried and its computation starts. -/
theorem bookInRangeStartsAdmission : Obligations.BookInRangeStartsAdmission := by
  refine ⟨bookBlock_eq, fun s o rest main spare legs n h hmode => ?_⟩
  intro b nt f hn hn240 hyes hclass hmain hspare hband hlegs hcount hnodup hstart hdur hplan hallow hgroup href hrates hslot hroom
  have hbind : spare = (b.spare.bind fun x => srcOf x.1 x.2) := by
    cases hb : b.spare with
    | none => simpa [hb] using hspare
    | some x =>
      obtain ⟨i, hi, -, rfl⟩ : ∃ i, srcOf x.1 x.2 = some i ∧ i ≠ main ∧ spare = some i := by simpa [hb] using hspare
      exact hi.symm
  have hmap := pairsOf_eq_some.1 hlegs
  have hother : ¬ b.spareFails := by
    rintro ⟨x, hx, hfail⟩
    obtain ⟨i, hi, hne, -⟩ : ∃ i, srcOf x.1 x.2 = some i ∧ i ≠ main ∧ spare = some i := by simpa [Option.mem_def.1 hx] using hspare
    rw [hi, hmain] at hfail
    simp [hne] at hfail
  have hranges : ∀ x ∈ b.ranges nt, ¬ x.1 := by
    simp only [BookBlock.ranges, List.forall_mem_append, List.forall_mem_cons, List.forall_mem_map, not_or, Nat.not_lt, Int.not_lt]
    exact ⟨⟨⟨hclass, by simp [hmain], hother, ⟨by omega, hband.2⟩, nofun⟩, fun i _ => not_legListFails hmap hnodup hcount i⟩,
      hstart, ⟨by omega, hdur.2, by simp [hplan]⟩, hallow, hgroup, nofun⟩
  have hpass : ∀ x ∈ (s.taken o rest).bookSteps o (lengthOf o.cell), ¬ x.1 := by
    have hform : ¬ o.bookMalformed (lengthOf o.cell) := by
      rw [h.length]
      rintro (hl | hl | ⟨i, hi, hl⟩)
      · exact hl hn
      · exact Nat.not_lt.2 hn240 hl
      · exact Nat.not_lt.2 (hyes i (by simpa using hi)) hl
    exact State.bookSteps_pass hform hmode hranges
  refine h.book_starts (bookCheck_passes hpass ⟨main, spare, legs, rfl, hmain, hbind, hmap⟩ ?_)
  have hby : (s.taken o rest).byRef b.ref = none := List.find?_eq_none.2 fun e he => by simpa using href e he
  exact State.bookRefusal_eq_none hby (fun i hi x hx => hx.2 (hrates i hi x hx.1)) hslot hroom

section
variable {s : State} {o : Order} {rest : List Order} {n : Nat} (h : Offers s .book n o rest)
include h

theorem Offers.book_answersFirst : AnswersFirst .book s o (s.taken o rest) ((s.taken o rest).bookSteps o n) := by
  have hcases := bookCheck_cases o (s.taken o rest)
  rw [h.length] at hcases
  obtain ⟨r, hr, hfirst⟩ | ⟨hpass, -⟩ := hcases
  · exact answersFirst hfirst fun r' e => h.book_refused (hr.trans (congrArg Except.error (Option.some.inj e)))
  · exact answersFirst (firstFailing_none_iff.2 hpass) fun r e => absurd e.symm (Option.some_ne_none r)

/-- With no check failing, the tables are asked for the reference and the sources that the bytes name. -/
theorem Offers.book_refused_by_tables (hpass : ∀ x ∈ (s.taken o rest).bookSteps o n, ¬ x.1) :
    let b := bookBlock (paramsOf o.cell)
    let named := (srcOf b.main.1 b.main.2).toList ++ (b.spare.bind fun x => srcOf x.1 x.2).toList
    ∀ r, (s.duplicateRef b.ref).or ((s.bandwidthMismatch b.bandwidth named).or (s.noSlot.or (s.noSourceSlot named))) = some r →
      Answers .book s o (s.taken o rest) r.result r.data := by
  intro b named r hr
  have hcases := bookCheck_cases o (s.taken o rest)
  rw [h.length] at hcases
  obtain ⟨r', -, hfirst⟩ | ⟨-, f, hf, hcheck⟩ := hcases
  · exact absurd (hfirst.unique (firstFailing_none_iff.2 hpass)) (Option.some_ne_none _)
  · have htables : (s.taken o rest).bookRefusal b.ref f = some r := by
      unfold State.bookRefusal
      rw [hf.named, hf.bandwidth]
      exact hr
    rw [htables] at hcheck
    exact h.book_refused hcheck

end

/-- Settles O32: the first failing check is answered, and with none failing the tables are asked in their order. -/
theorem bookRefusesInOrder : Obligations.BookRefusesInOrder := by
  refine ⟨fun p l i => srcOf_eq_some, fun x q => pairOf_eq_some, fun xs qs => pairsOf_eq_some, fun s o rest n h => ?_⟩
  refine ⟨h.book_answersFirst, fun hpass => ?_⟩
  have htables := h.book_refused_by_tables hpass
  dsimp only at htables
  refine ⟨fun k c hby => htables ⟨.duplicateRef, .heldBy k⟩ ?_, fun hby => ?_⟩
  · rw [State.duplicateRef_held hby]
    rfl
  rw [State.duplicateRef_eq_none hby, Option.none_or] at htables
  refine ⟨fun i j x hi hd hbefore => htables ⟨.bandwidthMismatch, .otherBandwidth j x.bandwidth⟩ ?_, fun hsame => ?_⟩
  · rw [State.bandwidthMismatch_at hi hd hbefore]
    rfl
  rw [State.bandwidthMismatch_eq_none hsame, Option.none_or] at htables
  refine ⟨fun hfull => htables ⟨.noSlot, .empty⟩ ?_, fun hslot hfew => htables ⟨.noSourceSlot, .sourceRecords _ _⟩ ?_⟩
  · rw [State.noSlot_full hfull]
    rfl
  · rw [State.noSlot_eq_none hslot, Option.none_or]
    exact State.noSourceSlot_full hfew

end Sys2Proof.Machine
end

