-- ==== Sys2Proof/Proofs/ModifyFields.lean ====
section
/-! MODIFY: its block by its bytes, and the modification its fields come to (R66 to R68, R172). -/

namespace Sys2Proof.Machine

/-! ## The block (R172) -/

/-- The field mask, bytes 4 to 6 (R172). -/
def maskOf (ps : List Byte) : Nat := (byteAt ps 4).toNat * 65536 + (byteAt ps 5).toNat * 256 + (byteAt ps 6).toNat

theorem maskBit_eq (ps : List Byte) (i : Nat) : maskBit ps i = (maskOf ps).testBit i := by
  have h5 := (byteAt ps 5).isLt
  have h6 := (byteAt ps 6).isLt
  have hword : (word16 ps 5).toNat = (byteAt ps 5).toNat * 256 + (byteAt ps 6).toNat := by
    rw [word16, BitVec.toNat_append, ← Nat.shiftLeft_add_eq_or_of_lt h6, Nat.shiftLeft_eq]
  have hmask : (byteAt ps 4 ++ word16 ps 5 : BitVec 24).toNat = maskOf ps := by
    rw [BitVec.toNat_append, ← Nat.shiftLeft_add_eq_or_of_lt (word16 ps 5).isLt, Nat.shiftLeft_eq, hword, maskOf]
    omega
  rw [← hmask]
  rfl

theorem field_eq {α : Type} (ps : List Byte) (i : Nat) (v : α) : field ps i v = if (maskOf ps).testBit i then some v else none := by
  rw [field, maskBit_eq]

theorem modifyBlock_eq (ps : List Byte) :
    let num (i : Nat) : Nat := (byteAt ps i).toNat
    let named (i : Nat) : Bool := (num 4 * 65536 + num 5 * 256 + num 6).testBit i
    let pair (i : Nat) : Byte × Byte := (byteAt ps i, byteAt ps (i + 1))
    let yes (i : Nat) : Bool := decide (num i = 1)
    let adds := (List.range (num 41)).map fun i => pair (43 + 2 * i)
    let drops := (List.range (num 42)).map fun i => pair (43 + 2 * num 41 + 2 * i)
    modifyBlock ps =
      { start := if named 0 then some (word32 ps 7) else none, main := if named 1 then some (pair 11) else none
        group := if named 2 then some (num 13) else none, preroll := if named 3 then some (word32 ps 14).toNat else none
        account := if named 4 then some (word16 ps 18) else none, tariffClass := if named 5 then some (num 20) else none
        duration := if named 6 then some (word32 ps 21).toNat else none
        allowance := if named 7 then some (word32 ps 25).toNat else none
        extend := if named 8 then some (yes 29) else none, adds := if named 9 then some adds else none
        drops := if named 10 then some drops else none
        spare := if named 11 then some (if yes 30 then some (pair 31) else none) else none
        revertive := if named 12 then some (yes 33) else none, switchOnDegrade := if named 13 then some (yes 34) else none
        holdOff := if named 14 then some (word16 ps 35).toNat else none
        wtr := if named 15 then some (word32 ps 37).toNat else none } := by
  simp only [modifyBlock, field_eq, isYes_eq, pairBytes_eq]
  rfl

/-- A MODIFY block is malformed (R66, R172). -/
def Order.modifyMalformed (o : Order) (n : Nat) : Prop :=
  let mask := maskOf (paramsOf o.cell)
  let adds := (o.param 41).toNat
  let drops := (o.param 42).toNat
  240 < n ∨ n ≠ 43 + 2 * (adds + drops) ∨ mask % 65536 = 0 ∨ mask.testBit 16 = true ∨ mask.testBit 17 = true
    ∨ (mask.testBit 9 = true ↔ adds = 0) ∨ (mask.testBit 10 = true ↔ drops = 0)
    ∨ ∃ x ∈ [(8, 29), (11, 30), (12, 33), (13, 34)], mask.testBit x.1 = true ∧ 1 < (o.param x.2).toNat

theorem lowBits_clear_iff (mask : Nat) : (List.range 16).all (fun i => !mask.testBit i) = true ↔ mask % 65536 = 0 := by
  simp only [List.all_eq_true, List.mem_range, Bool.not_eq_true']
  constructor
  · intro h
    refine Nat.eq_of_testBit_eq fun i => ?_
    rw [show 65536 = 2 ^ 16 from rfl, Nat.testBit_mod_two_pow, Nat.zero_testBit]
    by_cases hi : i < 16
    · rw [h i hi, Bool.and_false]
    · rw [decide_eq_false hi, Bool.false_and]
  · intro h i hi
    have hbit : (mask % 2 ^ 16).testBit i = false := by rw [show mask % 2 ^ 16 = 0 from h, Nat.zero_testBit]
    rwa [Nat.testBit_mod_two_pow, decide_eq_true hi, Bool.true_and] at hbit

theorem bit_ne_count_iff (x : Bool) (n : Nat) : x ≠ (n != 0) ↔ (x = true ↔ n = 0) := by
  cases x <;> simp

theorem modifyMalformed_iff {o : Order} {n : Nat} : Machine.modifyMalformed n (paramsOf o.cell) = true ↔ o.modifyMalformed n := by
  simp only [Machine.modifyMalformed, Order.modifyMalformed, Order.param, maskBit_eq, Bool.or_eq_true, decide_eq_true_eq, bne_iff_ne,
    lowBits_clear_iff, bit_ne_count_iff, Bool.and_eq_true, Bool.not_eq_true', isYesNo_eq_false, List.mem_cons, List.not_mem_nil,
    or_false, exists_eq_or_imp, exists_eq_left, or_assoc]

/-! ## The fields as modified, and their instants (R55, R80) -/

theorem Mod.apply_eq (m : Mod) (f : Fields) :
    m.apply f =
      { account := m.account.getD f.account, tariffClass := m.tariffClass.getD f.tariffClass, main := m.main.getD f.main
        spare := m.spare.getD f.spare, bandwidth := f.bandwidth, legs := m.legs.getD f.legs
        start := (m.start.map Prod.fst).getD f.start, effStart := (m.start.map Prod.snd).getD f.effStart
        duration := m.duration.getD f.duration, allowance := m.allowance.getD f.allowance
        extend := m.extend.getD f.extend, preroll := m.preroll.getD f.preroll, group := m.group.getD f.group
        revertive := m.revertive.getD f.revertive, switchOnDegrade := m.switchOnDegrade.getD f.switchOnDegrade
        holdOff := m.holdOff.getD f.holdOff, wtr := m.wtr.getD f.wtr } := rfl

/-! ## The modification a change comes to (R68) -/

theorem namedSource_iff {x : Option (Byte × Byte)} {o : Option SrcId} : namedSource x = some o ↔
    match x with
    | none => o = none
    | some y => ∃ i, srcOf y.1 y.2 = some i ∧ o = some i := by
  cases x with
  | none => simp [namedSource, eq_comm]
  | some y => simp [namedSource, eq_comm]

theorem namedSpare_iff {x : Option (Option (Byte × Byte))} {o : Option (Option SrcId)} : namedSpare x = some o ↔
    match x with
    | none => o = none
    | some none => o = some none
    | some (some y) => ∃ i, srcOf y.1 y.2 = some i ∧ o = some (some i) := by
  obtain _ | _ | y := x <;> simp [namedSpare, namedSource, eq_comm]

/-- What R68 asks of the legs to add and to drop, and the list they lead to. -/
def Change.LegsGive (c : Change) (now : List Pair) (o : Option (List Pair)) : Prop :=
  if c.adds = none ∧ c.drops = none then o = none
  else ∃ adds drops, pairsOf (c.adds.getD []) = some adds ∧ pairsOf (c.drops.getD []) = some drops
    ∧ o = some ((now.filter fun x => !drops.contains x) ++ adds)
    ∧ (∀ x ∈ drops, x ∈ now) ∧ (∀ x ∈ adds, x ∉ now ∧ x ∉ drops) ∧ adds.Nodup
    ∧ 1 ≤ (o.getD now).length ∧ (o.getD now).length ≤ 4

theorem changedLegs_iff {now adds drops new : List Pair} : changedLegs now adds drops = some new ↔
    new = (now.filter fun x => !drops.contains x) ++ adds ∧ (∀ x ∈ drops, x ∈ now) ∧ (∀ x ∈ adds, x ∉ now ∧ x ∉ drops)
      ∧ adds.Nodup ∧ 1 ≤ new.length ∧ new.length ≤ 4 := by
  unfold changedLegs
  dsimp only
  rw [Option.ite_none_right_eq_some, Option.some_inj, and_comm, eq_comm]
  refine and_congr_right fun h => ?_
  subst h
  simp only [List.all_eq_true, List.contains_iff_mem, Bool.and_eq_true, Bool.not_eq_true', ← Bool.not_eq_true]

theorem Change.legs_iff {c : Change} {now : List Pair} {o : Option (List Pair)} : c.legs now = some o ↔ c.LegsGive now o := by
  unfold Change.legs Change.LegsGive
  simp only [Option.isNone_iff_eq_none]
  split
  · simp [eq_comm]
  · cases pairsOf (c.adds.getD []) with
    | none => simp
    | some adds =>
      cases pairsOf (c.drops.getD []) with
      | none => simp
      | some drops =>
        dsimp only
        rw [Option.map_eq_some_iff]
        constructor
        · rintro ⟨new, hnew, rfl⟩
          obtain ⟨rfl, hrest⟩ := changedLegs_iff.1 hnew
          exact ⟨adds, drops, rfl, rfl, rfl, hrest⟩
        · rintro ⟨adds', drops', hadds, hdrops, rfl, hrest⟩
          cases hadds
          cases hdrops
          exact ⟨_, changedLegs_iff.2 ⟨rfl, hrest⟩, rfl⟩

theorem Change.inRange_iff {nt : Word} {c : Change} : c.inRange nt = true ↔
    (∀ t, c.start = some t → ticksUntil nt t ≤ 2 ^ 30) ∧ (∀ g, c.group = some g → g ≤ 32) ∧ (∀ k, c.tariffClass = some k → k ≤ 31)
      ∧ (∀ n, c.duration = some n → 1 ≤ n ∧ n ≤ 8640000) ∧ ∀ n, c.allowance = some n → n ≤ 1080000 := by
  have hmax : startAheadMax = 2 ^ 30 := by norm_num
  unfold Change.inRange
  rw [hmax]
  simp only [Bool.and_eq_true, Option.all_eq_true, decide_eq_true_eq, and_assoc]

theorem Change.candidateOk_iff {nt : Word} {c : Change} {b : Booking} {f : Fields} : c.candidateOk nt b f = true ↔
    f.spare ≠ some f.main ∧ (b.state = .booked ∨ b.state = .preroll → reached nt f.plannedEnd = false)
      ∧ (c.adds.isSome → reached nt f.windowEnd = false) := by
  unfold Change.candidateOk
  simp only [Bool.and_eq_true, bne_iff_ne, Bool.not_eq_true', Bool.and_eq_false_imp, BookingState.isEarly_iff, and_assoc]

/-- A modification is what a change comes to where its source, its spare and its legs are what the change names, its other fields
those carried, and R68 refuses none of it. -/
theorem Change.modAt_eq_some {nt : Word} {c : Change} {b : Booking} {m : Mod} : c.modAt nt b = some m ↔
    namedSource c.main = some m.main ∧ namedSpare c.spare = some m.spare ∧ c.legs b.fields.legs = some m.legs
      ∧ c.mod nt m.main m.spare m.legs = m ∧ c.inRange nt = true ∧ c.candidateOk nt b (m.apply b.fields) = true := by
  unfold Change.modAt
  constructor
  · intro h
    split at h
    · next main spare legs hmain hspare hlegs =>
      obtain ⟨⟨hrange, hok⟩, he⟩ := Option.ite_none_right_eq_some.1 h
      cases he
      exact ⟨hmain, hspare, hlegs, rfl, hrange, hok⟩
    · cases h
  · rintro ⟨hmain, hspare, hlegs, hmod, hrange, hok⟩
    rw [hmain, hspare, hlegs]
    dsimp only
    rw [hmod, if_pos ⟨hrange, hok⟩]

/-- The modification that a MODIFY comes to is the one whose fields R68 finds in range. -/
theorem Change.modAt_iff {nt : Word} {c : Change} {b : Booking} {m : Mod} : c.modAt nt b = some m ↔ InRange nt c b m := by
  rw [Change.modAt_eq_some, namedSource_iff, namedSpare_iff, Change.legs_iff, Change.inRange_iff, Change.candidateOk_iff]
  constructor
  · rintro ⟨hmain, hspare, hlegs, hmod, ⟨hstart, hgroup, hclass, hdur, hallow⟩, hother, hplan, hadds⟩
    have h {α : Type} (x : Mod → α) : x m = x (c.mod nt m.main m.spare m.legs) := congrArg x hmod.symm
    exact ⟨h Mod.start, hstart, hmain, ⟨h Mod.group, hgroup⟩, h Mod.preroll, h Mod.account, ⟨h Mod.tariffClass, hclass⟩,
      ⟨h Mod.duration, hdur⟩, ⟨h Mod.allowance, hallow⟩, h Mod.extend, hlegs, hspare, h Mod.revertive, h Mod.switchOnDegrade,
      h Mod.holdOff, h Mod.wtr, hother, hplan, hadds⟩
  · intro h
    have hmod : c.mod nt m.main m.spare m.legs = m := by
      obtain ⟨hgroup, -⟩ := h.group
      obtain ⟨hclass, -⟩ := h.tariffClass
      obtain ⟨hdur, -⟩ := h.duration
      obtain ⟨hallow, -⟩ := h.allowance
      rw [Change.mod, ← hgroup, ← h.preroll, ← h.account, ← hclass, ← hdur, ← hallow, ← h.extend, ← h.revertive,
        ← h.switchOnDegrade, ← h.holdOff, ← h.wtr]
      exact congrArg (fun x => { m with start := x }) h.start.symm
    exact ⟨h.main, h.spare, h.legs, hmod, ⟨h.startAhead, h.group.2, h.tariffClass.2, h.duration.2, h.allowance.2⟩, h.otherSpare,
      h.planAhead, h.addsAhead⟩

/-! ## Availability (R67) -/

theorem Booking.spareOpen_iff {b : Booking} : b.spareOpen = true ↔ (b.state = .booked ∨ b.state = .preroll)
    ∨ (b.state = .held ∨ b.state = .live ∨ b.state = .overrun) ∧ b.position = .onMain ∧ b.request ≠ .forceSpare := by
  unfold Booking.spareOpen
  cases b.state <;> simp

theorem fieldsByState_eq (c : Change) (b : Booking) :
    fieldsByState c b = (c.availability b).map fun x => (x.1 = true, x.2.1 = true, x.2.2) := by
  simp only [fieldsByState, Change.availability, List.map_cons, List.map_nil, Bool.or_eq_true, BookingState.isEarly_iff,
    Booking.spareOpen_iff, beq_iff_eq, bne_iff_ne]

/-- The refusal of a field that is named and not available. -/
def unavailable (x : Bool × Bool × FieldName) : Option Refused :=
  if x.1 && !x.2.1 then some ⟨.state, .badField x.2.2⟩ else none

theorem firstUnavailable (xs : List (Bool × Bool × FieldName)) :
    FirstFailing (xs.map fun x => ((x.1 = true ∧ ¬ x.2.1 = true : Prop), (⟨.state, .badField x.2.2⟩ : Refused)))
      (xs.findSome? unavailable) := by
  induction xs with
  | nil => rfl
  | cons x rest ih =>
    by_cases hx : x.1 = true ∧ ¬ x.2.1 = true
    · exact .inl ⟨hx, by simp [unavailable, hx]⟩
    · refine .inr ⟨hx, ?_⟩
      have hnone : unavailable x = none := if_neg (by simpa using hx)
      rwa [List.findSome?_cons, hnone]

/-- The first field named and not available, in R66's order, is the one refused. -/
theorem Change.stateRefusal_firstFailing {c : Change} {b : Booking} (h : b.state.isEnded = false) :
    FirstFailing ((fieldsByState c b).map fun x => (x.1 ∧ ¬ x.2.1, (⟨.state, .badField x.2.2⟩ : Refused))) (c.stateRefusal b) := by
  have hrefusal : c.stateRefusal b = (c.availability b).findSome? unavailable := if_neg (by simp [h])
  rw [hrefusal, fieldsByState_eq, List.map_map]
  exact firstUnavailable _

/-! ## Whether steps 8 to 10 run (R69) -/

theorem Part.within_iff {nt : Word} {running : Bool} {f g : Fields} :
    (partOf nt running f).within (partOf nt running g) = true ↔ ∀ x, f.spans nt running x → g.spans nt running x := by
  have hpart (f : Fields) : (partOf nt running f).from_ = f.opens nt running ∧ (partOf nt running f).upTo = f.shuts nt := ⟨rfl, rfl⟩
  unfold Part.within Fields.spans
  rw [(hpart f).1, (hpart f).2, (hpart g).1, (hpart g).2, Bool.or_eq_true, Bool.and_eq_true, decide_eq_true_iff, decide_eq_true_iff,
    decide_eq_true_iff]
  constructor
  · rintro h x ⟨h1, h2⟩
    omega
  · intro h
    by_contra hn
    have hfirst := h (f.opens nt running)
    have hlast := h (f.shuts nt - 1)
    omega

theorem admissionNeeded_iff {nt : Word} {b : Booking} {f : Fields} : admissionNeeded nt b f = true ↔ NeedsAdmission nt b f := by
  unfold admissionNeeded NeedsAdmission
  simp only [Bool.and_eq_true, Bool.or_eq_true, Bool.not_eq_true', beq_iff_eq, List.any_eq_true, ← Bool.not_eq_true, Part.within_iff,
    List.contains_iff_mem, not_forall, exists_prop, or_assoc]

end Sys2Proof.Machine
end

