-- ==== Sys2Proof/Proofs/Modify.lean ====
section
/-! MODIFY: its checks in order, and its completion (R57, R60 to R64, R66 to R70). -/

namespace Sys2Proof.Machine

/-! ## The checks (R66 to R68) -/

section
variable {i : Instr} {s t : State} {o : Order} {nt ref : Word} {c : Change} {k : Nat} {b : Booking} {m : Mod}

/-- The refusal by the bandwidths of the sources a modification names, or by the source records it needs (R59, R68). -/
def State.modRefusal (s : State) (b : Booking) (m : Mod) : Option Refused :=
  (s.bandwidthMismatch b.fields.bandwidth m.named).or (s.noSourceSlot m.named)

theorem State.modifyCheck_unknown (hr : s.byRef ref = none) : s.modifyCheck nt ref c = .error ⟨.unknown, .empty⟩ := by
  rw [State.modifyCheck, hr]

section
variable (hr : s.byRef ref = some (k, b))
include hr

theorem State.modifyCheck_state {r : Refused} (hs : c.stateRefusal b = some r) : s.modifyCheck nt ref c = .error r := by
  rw [State.modifyCheck, hr]
  dsimp only
  rw [hs]

theorem State.modifyCheck_range (hs : c.stateRefusal b = none) (hm : ∀ m, ¬ InRange nt c b m) :
    s.modifyCheck nt ref c = .error ⟨.range, .empty⟩ := by
  have hnone : c.modAt nt b = none := Option.eq_none_iff_forall_ne_some.2 fun m h => hm m (Change.modAt_iff.1 h)
  rw [State.modifyCheck, hr]
  dsimp only
  rw [hs, hnone]

theorem State.modifyCheck_tables (hs : c.stateRefusal b = none) (hm : InRange nt c b m) : s.modifyCheck nt ref c =
    match s.modRefusal b m with
    | some r => .error r
    | none => .ok (k, b, m) := by
  rw [State.modifyCheck, hr]
  dsimp only
  rw [hs, Change.modAt_iff.2 hm]
  dsimp only
  rw [firstRefusal_cons, firstRefusal_cons, firstRefusal_nil, Option.or_none]
  rfl

end

theorem State.modRefusal_mismatch {j : SrcId} {x : Source}
    (h : s.bandwidthMismatch b.fields.bandwidth m.named = some ⟨.bandwidthMismatch, .otherBandwidth j x.bandwidth⟩) :
    s.modRefusal b m = some ⟨.bandwidthMismatch, .otherBandwidth j x.bandwidth⟩ := by
  rw [State.modRefusal, h]
  rfl

theorem State.modRefusal_of_same (h : ∀ j ∈ m.named, ∀ x, ¬ s.Differs b.fields.bandwidth j x) :
    s.modRefusal b m = s.noSourceSlot m.named := by
  rw [State.modRefusal, State.bandwidthMismatch_eq_none h, Option.none_or]

theorem State.bandwidthMismatch_main {n : Nat} {j : SrcId} {x : Source} (hj : m.main = some j) (hd : s.Differs n j x) :
    s.bandwidthMismatch n m.named = some ⟨.bandwidthMismatch, .otherBandwidth j x.bandwidth⟩ := by
  have hhead : m.named[0]? = some j := by simp [Mod.named, hj]
  exact State.bandwidthMismatch_at hhead hd fun i' _ _ hi' => absurd hi' (Nat.not_lt_zero i')

theorem State.bandwidthMismatch_spare {n : Nat} {j : SrcId} {x : Source} (hj : m.spare = some (some j)) (hd : s.Differs n j x)
    (hmain : ∀ j' y, m.main = some j' → ¬ s.Differs n j' y) :
    s.bandwidthMismatch n m.named = some ⟨.bandwidthMismatch, .otherBandwidth j x.bandwidth⟩ := by
  cases hm : m.main with
  | none =>
    have hhead : m.named[0]? = some j := by simp [Mod.named, hm, hj]
    exact State.bandwidthMismatch_at hhead hd fun i' _ _ hi' => absurd hi' (Nat.not_lt_zero i')
  | some a =>
    have hsecond : m.named[1]? = some j := by simp [Mod.named, hm, hj]
    refine State.bandwidthMismatch_at hsecond hd fun i' j' y hi' hj' => ?_
    obtain rfl : i' = 0 := Nat.lt_one_iff.1 hi'
    obtain rfl : a = j' := by simpa [Mod.named, hm] using hj'
    exact hmain a y hm

/-- A MODIFY's steps are answered as the statements name them, if its check's refusals are answered and what passes goes on. -/
theorem ModifySteps.of_check {go : Nat → Booking → Mod → Prop}
    (herr : ∀ r, s.modifyCheck nt ref c = .error r → Answers i s o t r.result r.data)
    (hok : ∀ k b m, s.modifyCheck nt ref c = .ok (k, b, m) → go k b m) :
    ModifySteps i s o t nt ref c go := by
  refine ⟨fun hr => herr _ (State.modifyCheck_unknown hr), fun k b hr => ⟨fun hend => ?_, fun hactive => ?_⟩⟩
  · exact herr ⟨.state, .empty⟩ (State.modifyCheck_state hr (if_pos hend))
  have hfirst := Change.stateRefusal_firstFailing (c := c) hactive
  refine ⟨answersFirst hfirst fun r hs => herr r (State.modifyCheck_state hr hs), fun havail => ?_⟩
  have hs : c.stateRefusal b = none := hfirst.unique (firstFailing_none_iff.2 (List.forall_mem_map.2 fun x hx hfail =>
    hfail.2 (havail x hx hfail.1)))
  refine ⟨fun hm => herr ⟨.range, .empty⟩ (State.modifyCheck_range hr hs hm), fun m hm => ?_⟩
  have htables := State.modifyCheck_tables hr hs hm
  have hrefused (r : Refused) (h : s.modRefusal b m = some r) : Answers i s o t r.result r.data :=
    herr r (by rw [htables, h])
  refine ⟨fun j x hj hd => ?_, fun j x hj hd hmain => ?_, fun hsame => ⟨fun hfew => ?_, fun hroom => hok k b m ?_⟩⟩
  · exact hrefused _ (State.modRefusal_mismatch (State.bandwidthMismatch_main hj hd))
  · exact hrefused _ (State.modRefusal_mismatch (State.bandwidthMismatch_spare hj hd hmain))
  · exact hrefused ⟨.noSourceSlot, .sourceRecords _ _⟩ ((State.modRefusal_of_same hsame).trans (State.noSourceSlot_full hfew))
  · rw [htables, (State.modRefusal_of_same hsame).trans (State.noSourceSlot_eq_none hroom)]

end

/-! ## MODIFY taken (R66, R69) -/

section
variable {s : State} {o : Order} {rest : List Order} {n : Nat} (h : Offers s .modify n o rest)
include h

theorem Offers.exec_modify : exec .modify s = .next ((s.taken o rest).modify o) := by
  have hx : exec .modify s = execModify s := rfl
  unfold execModify at hx
  rw [hx, State.awake_of_out h.awake, h.headOrder]

theorem Offers.modify_format (hbad : o.modifyMalformed n) : Answers .modify s o (s.taken o rest) .format .empty := by
  unfold Answers
  rw [h.exec_modify, State.modify]
  dsimp only
  rw [h.length, if_pos (modifyMalformed_iff.2 hbad)]

section
variable (hform : ¬ o.modifyMalformed n)
include hform

theorem Offers.modify_mode (hm : s.mgmt.mode ≠ .service) : Answers .modify s o (s.taken o rest) .mode .empty := by
  unfold Answers
  rw [h.exec_modify, State.modify]
  dsimp only
  rw [h.length, if_neg (mt modifyMalformed_iff.1 hform)]
  exact congrArg _ (if_pos hm)

variable (hm : s.mgmt.mode = .service)
include hm

theorem Offers.modify_checked : exec .modify s = .next
    (match s.modifyCheck s.time.nt (o.word 0) (modifyBlock (paramsOf o.cell)) with
      | .error r => (s.taken o rest).finish o r.result r.data
      | .ok (k, b, m) =>
        if admissionNeeded s.time.nt b (m.apply b.fields) then
          (s.taken o rest).setEngine (.working ⟨o, s.time.nt, .modify k (modifyBlock (paramsOf o.cell)) m b, 0, []⟩)
        else
          let r := (s.taken o rest).acceptModify k b m
          r.state.finish o r.result r.data) := by
  rw [h.exec_modify, State.modify]
  dsimp only
  rw [h.length, if_neg (mt modifyMalformed_iff.1 hform)]
  exact congrArg _ (if_neg (not_not.2 hm))

/-- Taken in SERVICE MODE, its checks are made, and what passes them is accepted or starts its computation. -/
theorem Offers.modify_steps :
    let u := s.taken o rest
    let nt := s.time.nt
    let c := modifyBlock (paramsOf o.cell)
    ModifySteps .modify s o u nt (o.word 0) c fun k b m =>
      (NeedsAdmission nt b (m.apply b.fields) → exec .modify s = .next (u.setEngine (.working ⟨o, nt, .modify k c m b, 0, []⟩)))
      ∧ (¬ NeedsAdmission nt b (m.apply b.fields) →
          Answers .modify s o (u.acceptModify k b m).state .done (u.acceptModify k b m).data) := by
  intro u nt c
  have hexec := h.modify_checked hform hm
  refine .of_check (fun r hr => ?_) fun k b m hok => ?_
  · rw [hr] at hexec
    exact hexec
  · rw [hok] at hexec
    dsimp only at hexec
    refine ⟨fun hneeds => ?_, fun hneeds => ?_⟩
    · rw [if_pos (admissionNeeded_iff.2 hneeds)] at hexec
      exact hexec
    · rw [if_neg (mt admissionNeeded_iff.1 hneeds)] at hexec
      exact hexec

end

end

/-! ## The completion (R64, R70) -/

/-- A command's whole effect is this reply to the order. -/
def Replies (i : Instr) (s : State) (o : Order) (r : Reply) : Prop := Answers i s o r.state r.result r.data

theorem exec_modifyAccepted {s : State} {j : Job} {k : Nat} {c : Change} {m : Mod} {built : Booking} (ha : s.inReset = false)
    (he : s.mgmt.engine = .working j) (hk : j.kind = .modify k c m built) :
    Replies .modifyAccepted s j.order (s.completeModify j k c m built) := by
  have hx : exec .modifyAccepted s = execModifyAccepted s := rfl
  unfold execModifyAccepted at hx
  unfold Replies Answers
  rw [hx, State.awake_of_out ha, he]
  dsimp only
  rw [hk]

theorem Booking.sameAs_of {b built : Booking} (h : b.ref = built.ref ∧ b.state = built.state ∧ b.fields = built.fields
    ∧ b.pending = built.pending ∧ b.position = built.position) : b.sameAs built = true := by
  obtain ⟨href, hst, hf, hp, hpos⟩ := h
  simp [Booking.sameAs, href, hst, hf, hp, hpos]

theorem Rising.filter {α : Type} {t : List (Nat × α)} (h : Rising t) (p : Nat × α → Bool) : Rising (t.filter p) :=
  h.sublist (List.filter_sublist.map Prod.fst)

section
variable {i : Instr} {s : State} {o : Order} {nt : Word} {k : Nat} {b : Booking} {m : Mod} {compared : List (Nat × Booking)}

/-- Steps 8 to 10 accept an admissible candidate, and refuse any other by the first step that fails. -/
theorem State.decideModify_replies (hrise : Rising compared) (h : Replies i s o (s.decideModify nt k b m compared)) :
    let f := m.apply b.fields
    let others := compared.filter fun e => e.1 != k
    (Admissible s nt b.state.isRunning f others → Replies i s o (s.acceptModify k b m))
    ∧ (¬ Admissible s nt b.state.isRunning f others →
        ∃ r, AdmissionRefuses s nt b.state.isRunning f others r ∧ Answers i s o s r.result r.data) := by
  intro f others
  unfold State.decideModify at h
  refine ⟨fun hadm => ?_, fun hnot => ?_⟩
  · rw [State.admission_none_iff.2 hadm] at h
    exact h
  · obtain ⟨r, hr⟩ := Option.ne_none_iff_exists'.1 fun hn => hnot (State.admission_none_iff.1 hn)
    rw [hr] at h
    exact ⟨r, State.admission_refuses (hrise.filter _) hr, h⟩

/-- A candidate built again goes through every check, and then through steps 8 to 10 where it needs them. -/
theorem State.rebuildModify_steps {ref : Word} {c : Change} (h : Replies i s o (s.rebuildModify nt ref c)) :
    ModifySteps i s o s nt ref c fun k b m =>
      (NeedsAdmission nt b (m.apply b.fields) → Replies i s o (s.decideModify nt k b m s.bookings))
      ∧ (¬ NeedsAdmission nt b (m.apply b.fields) → Replies i s o (s.acceptModify k b m)) := by
  unfold State.rebuildModify at h
  refine .of_check (fun r hr => ?_) fun k b m hok => ?_
  · rw [hr] at h
    exact h
  · rw [hok] at h
    dsimp only at h
    refine ⟨fun hneeds => ?_, fun hneeds => ?_⟩
    · rwa [if_pos (admissionNeeded_iff.2 hneeds)] at h
    · rwa [if_neg (mt admissionNeeded_iff.1 hneeds)] at h

end

section
variable {s : State} {j : Job} {k : Nat} {c : Change} {m : Mod} {built : Booking}

theorem State.completeModify_stands {b : Booking} (hb : s.booking k = some b) (hs : b.sameAs built = true) :
    s.completeModify j k c m built = s.decideModify j.nt k b m (j.compared s) := by
  rw [State.completeModify, hb]
  exact if_pos hs

theorem State.completeModify_moved (h : ∀ b, s.booking k = some b → ¬ b.sameAs built = true) :
    s.completeModify j k c m built = s.rebuildModify j.nt built.ref c := by
  unfold State.completeModify
  cases hb : s.booking k with
  | none => rfl
  | some b => exact if_neg (h b hb)

end

theorem ModifySteps.imp {i : Instr} {s t : State} {o : Order} {nt ref : Word} {c : Change} {go go' : Nat → Booking → Mod → Prop}
    (h : ModifySteps i s o t nt ref c go) (himp : ∀ k b m, go k b m → go' k b m) : ModifySteps i s o t nt ref c go' := by
  refine ⟨h.1, fun k b hr => ?_⟩
  obtain ⟨hended, hactive⟩ := h.2 k b hr
  refine ⟨hended, fun ha => ?_⟩
  obtain ⟨hstate, hrest⟩ := hactive ha
  refine ⟨hstate, fun havail => ?_⟩
  obtain ⟨hrange, hrest⟩ := hrest havail
  refine ⟨hrange, fun m hm => ?_⟩
  obtain ⟨hmain, hspare, hrest⟩ := hrest m hm
  refine ⟨hmain, hspare, fun hsame => ?_⟩
  obtain ⟨hfew, hgo⟩ := hrest hsame
  exact ⟨hfew, fun hroom => himp k b m (hgo hroom)⟩

/-- Settles O35: the checks come to what R66 to R68 name, taken and built again, and steps 8 to 10 decide what needs them. -/
theorem modifyBecomesPending : Obligations.ModifyBecomesPending := by
  unfold Obligations.ModifyBecomesPending
  intro accepted done
  refine ⟨modifyBlock_eq, fun m f => ⟨m.apply_eq f, rfl, rfl, rfl⟩, fun s o rest n h => ?_, fun s j k c m built => ?_⟩
  · intro u c mask adds drops malformed
    exact ⟨h.modify_format, h.modify_mode, h.modify_steps⟩
  · intro compared ha he hk stands decided
    have hreply := exec_modifyAccepted ha he hk
    refine ⟨fun b hb hs hrise => ?_, fun hmoved hrise => ?_⟩
    · rw [State.completeModify_stands hb (Booking.sameAs_of hs)] at hreply
      exact State.decideModify_replies hrise hreply
    · rw [State.completeModify_moved fun b hb hs => hmoved b hb (Booking.sameAs_iff hs)] at hreply
      exact (State.rebuildModify_steps hreply).imp fun k b m hgo =>
        ⟨fun hneeds => State.decideModify_replies hrise (hgo.1 hneeds), hgo.2⟩

end Sys2Proof.Machine
end

