-- ==== Sys2Proof/Proofs/WatchAndSelect.lean ====
section
/-! Which sources are demanded, a source's tick that starts or ends its watch (R77, R78, R101 to R103), and the orders END and SELECT
(R94, R125, R126). -/

namespace Sys2Proof.Machine

/-! ## States of a booking, and demand (R77, R78) -/

theorem BookingState.isRunning_iff {st : BookingState} : st.isRunning = true ↔ st = .held ∨ st.isLive = true := by
  cases st <;> simp [BookingState.isRunning, BookingState.isLive]

theorem BookingState.isEnded_iff {st : BookingState} : st.isEnded = true ↔ ∃ bill, st = .ended bill := by
  cases st <;> simp [BookingState.isEnded]

theorem BookingState.demands_iff {st : BookingState} :
    st.demands = true ↔ st = .preroll ∨ st = .held ∨ st = .live ∨ st = .overrun ∨ st = .extended := by
  cases st <;> simp [BookingState.demands]

theorem State.demanded_iff {s : State} {i : SrcId} :
    s.demanded i = true ↔ ∃ e ∈ s.bookings, e.2.state.demands = true ∧ i ∈ e.2.fields.named := by
  simp [State.demanded]

theorem State.watchOf_some {s : State} {i : SrcId} {x : Source} (hx : s.source i = some x) : s.watchOf i = x.watch.state := by
  unfold State.watchOf
  rw [hx]

theorem State.watchOf_none {s : State} {i : SrcId} (hx : s.source i = none) : s.watchOf i = .unwatched := by
  unfold State.watchOf
  rw [hx]

/-! ## A source's tick (R101 to R103) -/

section
variable {d : Bool} {t : Tick} {x : Source}

theorem watchTick_idle (hw : x.watch.state = .unwatched) (hd : d = false) : watchTick d t x = ⟨x, none, false⟩ := by
  simp [watchTick, hw, hd]

theorem watchTick_starts (hw : x.watch.state = .unwatched) (hd : d = true) :
    watchTick d t x = ⟨watchStart t x, some .demandStarted, false⟩ := by
  simp [watchTick, hw, hd]

theorem watchTick_ends (hw : x.watch.state ≠ .unwatched) (hd : d = false) :
    watchTick d t x = ⟨watchStop t x, some .demandEnded, false⟩ := by
  simp [watchTick, hw, hd]

end

/-- SOURCE_TICK on a source with a tick to take: the record of its outcome, and the notice of its change (R101, R114). -/
theorem exec_sourceTick {s : State} {x : Source} {k : Tick} {rest : List Tick} (ha : s.inReset = false)
    (hx : s.source x.id = some x) (ht : x.ticks = k :: rest) {r : WatchStep}
    (hr : watchTick (s.demanded x.id) k { x with ticks := rest } = r) :
    exec (.sourceTick x.id.port x.id.label) s = .next (match r.cause with
      | some c => afterSourceTick s x r.src c k.nt
      | none => s.setSource r.src) := by
  have hnext : s.nextTick x.id = some ({ x with ticks := rest }, k) := by
    unfold State.nextTick
    rw [hx]
    dsimp only
    rw [ht]
  have hexec : exec (.sourceTick x.id.port x.id.label) s = s.awake fun s => s.sourceTickIf x.id fun _ => true := rfl
  rw [hexec, State.awake_of_out ha]
  unfold State.sourceTickIf
  rw [hnext]
  dsimp only
  rw [hr]
  rfl

/-- Settles O26, a source's tick by its watch state and its demand. -/
theorem sourceTickStartsAndEndsTheWatch : Obligations.SourceTickStartsAndEndsTheWatch := by
  refine ⟨fun s i => ⟨?_, fun x => State.watchOf_some, State.watchOf_none⟩,
    fun st => ⟨BookingState.isLive_iff, BookingState.isRunning_iff, BookingState.isEnded_iff⟩,
    fun s x k rest ha hx ht => ?_⟩
  · simp only [State.demanded_iff, BookingState.demands_iff, Fields.mem_named, eq_comm (a := i)]
  · intro y
    refine ⟨fun hw hd => ?_, fun hw hd => ?_, fun hw hd => ?_⟩
    · exact exec_sourceTick ha hx ht (watchTick_idle hw hd)
    · exact exec_sourceTick ha hx ht (watchTick_starts hw hd)
    · exact exec_sourceTick ha hx ht (watchTick_ends hw hd)

/-! ## END (R94) -/

theorem exec_endBooking (s : State) : exec .endBooking s = s.awake fun s => s.takeOrder .endBooking endOrder := rfl

section
variable {s : State} {o : Order} {k : Nat} {b : Booking} (hlen : o.badLength 4 = false)
include hlen

theorem endOrder_mode (hm : s.mgmt.mode = .commissioning) : endOrder o s = ⟨s, .mode, .empty⟩ := by
  unfold endOrder
  rw [hlen]
  exact if_pos hm

variable (hm : s.mgmt.mode ≠ .commissioning)
include hm

theorem endOrder_unknown (hr : s.byRef (o.word 0) = none) : endOrder o s = ⟨s, .unknown, .empty⟩ := by
  have hr : s.namedBooking o = none := hr
  simp [endOrder, hlen, hm, hr]

theorem endOrder_held (hr : s.byRef (o.word 0) = some (k, b)) : endOrder o s =
    if b.state.isLive then ⟨s.setBooking k { b with endPending := true }, .done, .endPending b.state⟩
    else ⟨s, .state, .empty⟩ := by
  have hr : s.namedBooking o = some (k, b) := hr
  simp [endOrder, hlen, hm, hr]

end

/-! ## SELECT (R125, R126) -/

theorem exec_select (s : State) : exec .select s = s.awake fun s => s.takeOrder .select selectOrder := rfl

theorem Request.needsSpare_iff {req : Request} : req.needsSpare = true ↔ req = .forceMain ∨ req = .forceSpare := by
  cases req <;> simp [Request.needsSpare]

/-- The byte that spells a request (R172). -/
def Request.byte : Request → Byte
  | .noRequest => 0
  | .forceMain => 1
  | .forceSpare => 2
  | .lockMain => 3

theorem requestOf_byte (req : Request) : requestOf req.byte = some req := by cases req <;> rfl

theorem requestOf_large {x : Byte} (h : 3 < x.toNat) : requestOf x = none := by
  have hne {n : Byte} (hn : n.toNat ≤ 3) : x ≠ n := fun e => absurd h (Nat.not_lt.2 (e ▸ hn))
  unfold requestOf
  rw [if_neg (hne (by decide)), if_neg (hne (by decide)), if_neg (hne (by decide)), if_neg (hne (by decide))]

theorem Booking.placeRequest_eq (b : Booking) (req : Request) : b.placeRequest req =
    { b with request := req, afresh := b.afresh || decide (req = .noRequest ∧ b.request ≠ .noRequest) } := by
  have hmark : (req == .noRequest && b.request != .noRequest) = decide (req = .noRequest ∧ b.request ≠ .noRequest) := by
    rw [Bool.eq_iff_iff]
    simp
  unfold Booking.placeRequest
  rw [hmark]

section
variable {s : State} {o : Order} {k : Nat} {b : Booking} {req : Request} (hlen : o.badLength 5 = false)
include hlen

theorem selectOrder_format (h : 3 < (o.param 4).toNat) : selectOrder o s = ⟨s, .format, .empty⟩ := by
  have h : requestOf (byteAt (paramsOf o.cell) 4) = none := requestOf_large h
  simp [selectOrder, hlen, h]

variable (hq : o.param 4 = req.byte)
include hq

theorem selectOrder_mode (hm : s.mgmt.mode = .commissioning) : selectOrder o s = ⟨s, .mode, .empty⟩ := by
  have hq : byteAt (paramsOf o.cell) 4 = req.byte := hq
  simp [selectOrder, hlen, hq, requestOf_byte, hm]

variable (hm : s.mgmt.mode ≠ .commissioning)
include hm

theorem selectOrder_unknown (hr : s.byRef (o.word 0) = none) : selectOrder o s = ⟨s, .unknown, .empty⟩ := by
  have hq : byteAt (paramsOf o.cell) 4 = req.byte := hq
  have hr : s.namedBooking o = none := hr
  simp [selectOrder, hlen, hq, requestOf_byte, hm, hr]

theorem selectOrder_held (hr : s.byRef (o.word 0) = some (k, b)) : selectOrder o s =
    if b.state.isEnded = true ∨ req.needsSpare = true ∧ b.fields.spare = none then ⟨s, .state, .empty⟩
    else ⟨s.setBooking k (b.placeRequest req), .done, .selector req b.position b.holdOffLeft b.wtrLeft⟩ := by
  have hq : byteAt (paramsOf o.cell) 4 = req.byte := hq
  have hr : s.namedBooking o = some (k, b) := hr
  simp [selectOrder, hlen, hq, requestOf_byte, hm, hr]

end

/-- Settles O42, each order by its checks in their order. -/
theorem endAndSelectMarkTheBooking : Obligations.EndAndSelectMarkTheBooking := by
  intro s o rest u
  refine ⟨fun h => ?_, fun h => ?_⟩
  · have hlen : o.badLength 4 = false := h.goodLength
    have hx := exec_endBooking s
    refine ⟨fun hm => h.answers hx (endOrder_mode hlen hm), fun hm => ⟨fun hr => h.answers hx (endOrder_unknown hlen hm hr),
      fun k b hr => ?_⟩⟩
    have hwork := endOrder_held (s := u) hlen hm hr
    exact ⟨fun hl => h.answers hx (hwork.trans (if_pos hl)), fun hl => h.answers hx (hwork.trans (if_neg (by simp [hl])))⟩
  · have hlen : o.badLength 5 = false := h.goodLength
    have hx := exec_select s
    refine ⟨fun hf => h.answers hx (selectOrder_format hlen hf), fun req hq => ?_⟩
    have hq : o.param 4 = req.byte := by rw [hq]; cases req <;> rfl
    refine ⟨fun hm => h.answers hx (selectOrder_mode hlen hq hm),
      fun hm => ⟨fun hr => h.answers hx (selectOrder_unknown hlen hq hm hr), fun k b hr => ?_⟩⟩
    have hwork := selectOrder_held (s := u) hlen hq hm hr
    simp only [Request.needsSpare_iff, Booking.placeRequest_eq] at hwork
    refine ⟨fun hno => h.answers hx (hwork.trans (if_pos hno)), fun he hok => h.answers hx (hwork.trans (if_neg ?_))⟩
    rintro (he' | ⟨hforce, hnone⟩)
    · rw [he] at he'; cases he'
    · rw [hnone] at hok
      obtain rfl | rfl := hforce <;> simp at hok

end Sys2Proof.Machine
end

