-- ==== Sys2Proof/Proofs/Endings.lean ====
section
/-! The ending of a booking: the state in which it hands its bill over, source by source, and its bill, slot and notices (R83, R148,
R154). -/

namespace Sys2Proof.Machine

/-! ## The legs of a slot leave a list (R48) -/

/-- A source whose list holds no leg of a slot. -/
def Source.without (k : Nat) (x : Source) : Source := { x with legs := x.legs.filter fun l => l.owner != k }

section
variable {s : State} {k : Nat} {b : Booking}

theorem State.takeLegs_source (h : TablesInForm s) (i : SrcId) : (s.takeLegs k b fun _ => true).1.source i =
    if i = b.selected then (s.source i).map (Source.without k) else s.source i := by
  have hstate : (s.takeLegs k b fun _ => true).1 = (s.removeLegs k b.selected fun _ => true).1 := rfl
  rw [hstate]
  rcases s.removeLegs_cases k b.selected fun _ => true with ⟨hx, e⟩ | ⟨x, hx, e⟩ <;> rw [e]
  · split
    · next hi => rw [hi, hx]; rfl
    · rfl
  · have hid := h.source_id hx
    dsimp only
    rw [State.setSource_source, hid]
    split
    · next hi =>
      rw [hi, hx]
      simp [Source.without, bne, hid]
    · rfl

theorem State.takeLegs_same {γ : Type} (g : State → γ) (hg : ∀ t x, g (State.setSource t x) = g t) (named : Pair → Bool) :
    g (s.takeLegs k b named).1 = g s := s.removeLegs_same g hg k b.selected named

/-! ## The state in which a bill is handed over (R83) -/

/-- The state after steps 1 to 5 of an ending: the legs gone, the group left, the references lost. -/
def State.vacate (s : State) (k : Nat) (b : Booking) : State :=
  let s1 := if b.state.isLive then (s.takeLegs k b fun _ => true).1 else s
  b.named.foldl State.loseRef (if b.state = .held then s1.leaveGroup b.fields.group else s1)

/-- The record that an ending closes: a live booking's with the sums of its legs. -/
def State.closing (s : State) (k : Nat) (b : Booking) : Booking := if b.state.isLive then s.closedAt (k, b) else b

theorem State.endBooking_eq (s : State) (k : Nat) (b : Booking) (o : BillOutcome) (nt : Word) :
    s.endBooking k b o nt = (s.vacate k b).handAndNote k (s.closing k b).clear (closeBill (s.closing k b) o nt) := by
  unfold State.endBooking State.vacate State.closing
  rw [← State.takeLegs_all]
  by_cases hl : b.state.isLive = true
  · rw [if_pos hl, if_pos hl, if_pos hl]
  · rw [if_neg hl, if_neg hl, if_neg hl]

theorem State.vacate_same {γ : Type} (g : State → γ) (hs : ∀ t x, g (State.setSource t x) = g t)
    (hl : ∀ t i, g (State.loseRef t i) = g t) (hg : ∀ t n, g (State.leaveGroup t n) = g t) : g (s.vacate k b) = g s := by
  have h1 : g (if b.state.isLive then (s.takeLegs k b fun _ => true).1 else s) = g s := by
    split
    · exact State.takeLegs_same g hs _
    · rfl
  unfold State.vacate
  rw [foldl_same g _ hl]
  split
  · rw [hg, h1]
  · exact h1

@[simp] theorem State.vacate_bookings : (s.vacate k b).bookings = s.bookings := State.vacate_same State.bookings (by simp) (by simp) (by simp)
@[simp] theorem State.vacate_bills : (s.vacate k b).bills = s.bills := State.vacate_same State.bills (by simp) (by simp) (by simp)
@[simp] theorem State.vacate_mgmt : (s.vacate k b).mgmt = s.mgmt := State.vacate_same State.mgmt (by simp) (by simp) (by simp)
@[simp] theorem State.vacate_time : (s.vacate k b).time = s.time := State.vacate_same State.time (by simp) (by simp) (by simp)
@[simp] theorem State.vacate_ports : (s.vacate k b).ports = s.ports := State.vacate_same State.ports (by simp) (by simp) (by simp)
@[simp] theorem State.vacate_tariffs : (s.vacate k b).tariffs = s.tariffs :=
  State.vacate_same State.tariffs (by simp) (by simp) (by simp)

theorem State.vacate_groups : (s.vacate k b).groups = (if b.state = .held then s.leaveGroup b.fields.group else s).groups := by
  unfold State.vacate
  rw [foldl_same State.groups _ (by simp)]
  by_cases hl : b.state.isLive = true
  · rw [if_neg (BookingState.not_held_of_live hl), if_neg (BookingState.not_held_of_live hl), if_pos hl]
    exact State.takeLegs_same State.groups (by simp) _
  · rw [if_neg hl]

theorem State.vacate_source (h : TablesInForm s) (i : SrcId) : (s.vacate k b).source i = (s.source i).bind fun x =>
    let x' := if b.state.isLive = true ∧ i = b.selected then x.without k else x
    if i ∈ b.named then if 1 < x.refs then some { x' with refs := x.refs - 1 } else none else some x' := by
  have h1 : ∀ v : State, TablesInForm v → v.source i = ((s.source i).map fun x =>
        if b.state.isLive = true ∧ i = b.selected then x.without k else x) →
      (b.named.foldl State.loseRef v).source i = (s.source i).bind fun x =>
        let x' := if b.state.isLive = true ∧ i = b.selected then x.without k else x
        if i ∈ b.named then if 1 < x.refs then some { x' with refs := x.refs - 1 } else none else some x' := by
    intro v hv hvi
    have hnodup : b.named.Nodup := once_nodup _
    rw [State.loseRefs_source hv hnodup, hvi]
    cases s.source i with
    | none => simp
    | some x =>
      have hrefs : (if b.state.isLive = true ∧ i = b.selected then x.without k else x).refs = x.refs := by split <;> rfl
      simp only [Option.map_some, Option.bind_some, Source.lost_eq, hrefs]
  unfold State.vacate
  by_cases hl : b.state.isLive = true
  · simp only [if_pos hl, if_neg (BookingState.not_held_of_live hl)]
    refine h1 _ ?_ ?_
    · have ht : TablesInForm (s.removeLegs k b.selected fun _ => true).1 := by
        rcases s.removeLegs_cases k b.selected fun _ => true with ⟨-, e⟩ | ⟨x, -, e⟩ <;> rw [e]
        · exact h
        · exact h.setSource _
      exact ht
    · rw [State.takeLegs_source h, hl]
      split
      · next hi => simp [hi]
      · next hi => simp [hi]
  · simp only [if_neg hl]
    refine h1 _ ?_ ?_
    · split
      · exact h.of_tables (by simp) (by simp)
      · exact h
    · have hsame : (if b.state = .held then s.leaveGroup b.fields.group else s).source i = s.source i := by
        split
        · exact State.source_congr (by simp) i
        · rfl
      rw [hsame]
      simp [hl]

/-! ## The bill handed over (R148, R149, R154) -/

/-- BILL_LEVEL at the 48th record, BILL_FULL at the 64th, with no booking waiting (R154). -/
def State.levelNotes (s : State) : List NoticeContent :=
  let oldest := (s.bills.records.head?.map BillRec.seq).getD s.bills.next
  if s.bills.records.length = 47 then [.billLevel 48 oldest s.bills.next 0]
  else if s.bills.records.length = 63 then [.billFull 64 oldest s.bills.next 0] else []

theorem closing_fields (s : State) (k : Nat) (b : Booking) : (s.closing k b).ref = b.ref ∧ (s.closing k b).fields = b.fields := by
  unfold State.closing State.closedAt
  split <;> exact ⟨rfl, rfl⟩

theorem closeBill_ref (b : Booking) (o : BillOutcome) (nt : Word) : (closeBill b o nt).ref = b.ref := by
  unfold closeBill
  split <;> rfl

/-- While the queue has room, an ending frees its slot and writes its bill with the next number. -/
theorem State.endBooking_written (hn : s.bills.records.length < 64) (o : BillOutcome) (nt : Word) :
    (s.endBooking k b o nt).bookings = tabDel s.bookings k ∧ (s.endBooking k b o nt).bills =
      ⟨s.bills.records ++ [⟨s.bills.next, closeBill (s.closing k b) o nt⟩], nextSeq s.bills.next⟩ := by
  rw [s.endBooking_eq k b o nt, State.handAndNote_room (s := s.vacate k b) (by simpa using hn)]
  constructor
  · rw [State.raiseAll_same State.bookings (by simp)]
    simp [State.freeSlot]
  · rw [State.raiseAll_same State.bills (by simp)]
    simp [State.freeSlot]

/-- What an ending leaves of bills, bookings and notices while the queue has room, with no other booking waiting. -/
theorem State.endBooking_room (hw : (s.freeSlot k).waiters = 0) (hn : s.bills.records.length < 64) (o : BillOutcome) (nt : Word) :
    let bill := closeBill (s.closing k b) o nt
    let v := s.endBooking k b o nt
    v.bookings = tabDel s.bookings k ∧ v.bills = ⟨s.bills.records ++ [⟨s.bills.next, bill⟩], nextSeq s.bills.next⟩
      ∧ v.mgmt = (s.raiseAll (s.levelNotes
          ++ [.bookingEnded k b.ref b.fields.account o nt bill.total (some s.bills.next)])).mgmt := by
  intro bill v
  obtain ⟨href, hf⟩ := closing_fields s k b
  obtain ⟨ho, hnt⟩ := closeBill_total_fields (s.closing k b) o nt
  obtain ⟨hbookings, hbills⟩ := State.endBooking_written (k := k) (b := b) hn o nt
  refine ⟨hbookings, hbills, ?_⟩
  have hwait : ((s.vacate k b).freeSlot k).waiters = 0 := by
    unfold State.waiters State.freeSlot at hw ⊢
    rw [State.vacate_bookings]
    exact hw
  have hv : v = _ := (s.endBooking_eq k b o nt).trans
    (State.handAndNote_room (s := s.vacate k b) (k := k) (b := (s.closing k b).clear) (bill := bill) (by simpa using hn))
  rw [hv, levelNotes_succ, hwait]
  refine (State.raiseAll_mgmt_congr (v := s) (by simp [State.freeSlot]) (by simp [State.freeSlot]) _).trans ?_
  unfold endedNotice State.levelNotes State.oldestBill
  rw [State.vacate_bills, Booking.clear_ref, Booking.clear_fields, href, hf, ho, hnt]

/-- What an ending leaves of bills, bookings and notices while the queue is full. -/
theorem State.endBooking_full (hn : 64 ≤ s.bills.records.length) (o : BillOutcome) (nt : Word) :
    let bill := closeBill (s.closing k b) o nt
    let v := s.endBooking k b o nt
    v.bookings = tabPut s.bookings k { (s.closing k b).clear with state := .ended bill } ∧ v.bills = s.bills
      ∧ v.mgmt = (s.raise (.bookingEnded k b.ref b.fields.account o nt bill.total none)).mgmt := by
  intro bill v
  obtain ⟨href, hf⟩ := closing_fields s k b
  obtain ⟨ho, hnt⟩ := closeBill_total_fields (s.closing k b) o nt
  have hv : v = _ := (s.endBooking_eq k b o nt).trans
    (State.handAndNote_full (s := s.vacate k b) (k := k) (b := (s.closing k b).clear) (bill := bill) (by simpa using hn))
  rw [hv]
  refine ⟨?_, ?_, ?_⟩
  · rw [State.raise_bookings]
    simp [State.setBooking]
  · rw [State.raise_bills]
    simp [State.setBooking]
  · refine (State.raise_mgmt_congr (v := s) (by simp) (by simp) _).trans ?_
    unfold endedNotice
    rw [Booking.clear_ref, Booking.clear_fields, href, hf, ho, hnt]

theorem State.endBooking_sources (s : State) (k : Nat) (b : Booking) (o : BillOutcome) (nt : Word) :
    (s.endBooking k b o nt).sources = (s.vacate k b).sources := by
  rw [State.endBooking_eq, State.handAndNote_sources]

theorem State.endBooking_groups (s : State) (k : Nat) (b : Booking) (o : BillOutcome) (nt : Word) :
    (s.endBooking k b o nt).groups = (if b.state = .held then s.leaveGroup b.fields.group else s).groups := by
  rw [State.endBooking_eq, State.handAndNote_groups, State.vacate_groups]

end

end Sys2Proof.Machine
end

