-- ==== Sys2Proof/Proofs/LoneBooking.lean ====
section
/-! The booking tick on a table of one booking: its stages, and the ending of that booking (R79, R82 to R87, R91). -/

namespace Sys2Proof.Machine

/-! ## A table of one booking -/

/-- The state with these booking ticks still to take and this one booking in its table. -/
def State.lone (s : State) (ts : List Tick) (k : Nat) (b : Booking) : State := { s with bookingTicks := ts, bookings := [(k, b)] }

section
variable (s : State) (ts : List Tick) (k : Nat) (b c : Booking)

@[simp] theorem State.lone_bookings : (s.lone ts k b).bookings = [(k, b)] := rfl
@[simp] theorem State.lone_booking : (s.lone ts k b).booking k = some b := if_pos rfl
@[simp] theorem State.lone_source (i : SrcId) : (s.lone ts k b).source i = s.source i := rfl
@[simp] theorem State.lone_watchOf (i : SrcId) : (s.lone ts k b).watchOf i = s.watchOf i := rfl
@[simp] theorem State.lone_groupOf (g : Nat) : (s.lone ts k b).groupOf g = s.groupOf g := rfl
@[simp] theorem State.lone_isHolding : (s.lone ts k b).isHolding c = s.isHolding c := rfl
@[simp] theorem State.lone_feedClassOf : (s.lone ts k b).feedClassOf c = s.feedClassOf c := rfl
@[simp] theorem State.lone_failureCondition (f : Fields) : (s.lone ts k b).failureCondition f = s.failureCondition f := rfl
@[simp] theorem State.lone_restoreCondition (f : Fields) : (s.lone ts k b).restoreCondition f = s.restoreCondition f := rfl
@[simp] theorem State.lone_spareFailedCondition (f : Fields) : (s.lone ts k b).spareFailedCondition f = s.spareFailedCondition f := rfl
@[simp] theorem State.lone_lone : (s.lone ts k b).lone ts k c = s.lone ts k c := rfl
@[simp] theorem State.lone_setSource (x : Source) : (s.lone ts k b).setSource x = (s.setSource x).lone ts k b := rfl

@[simp] theorem State.lone_setBooking : (s.lone ts k b).setBooking k c = s.lone ts k c := by
  unfold State.setBooking State.lone
  simp [tabPut]

theorem State.setGroup_lone (g : Nat) (x : Group) : (s.lone ts k b).setGroup g x = (s.setGroup g x).lone ts k b := by
  unfold State.setGroup
  split <;> rfl

theorem State.joinGroup_lone (g : Nat) : (s.lone ts k b).joinGroup g = (s.joinGroup g).lone ts k b := by
  unfold State.joinGroup
  rw [State.lone_groupOf]
  split
  · exact State.setGroup_lone ..
  · rfl

theorem State.leaveGroup_lone (g : Nat) : (s.lone ts k b).leaveGroup g = (s.leaveGroup g).lone ts k b := by
  unfold State.leaveGroup
  rw [State.lone_groupOf]
  split
  · exact State.setGroup_lone ..
  · rfl

theorem State.loseRef_lone (i : SrcId) : (s.lone ts k b).loseRef i = (s.loseRef i).lone ts k b := by
  unfold State.loseRef
  rw [State.lone_source]
  split
  · split <;> rfl
  · rfl

theorem State.loseRefs_lone (is : List SrcId) : is.foldl State.loseRef (s.lone ts k b) = (is.foldl State.loseRef s).lone ts k b := by
  induction is generalizing s with
  | nil => rfl
  | cons i is ih => rw [List.foldl_cons, List.foldl_cons, State.loseRef_lone, ih]

theorem State.raise_lone (n : NoticeContent) : (s.lone ts k b).raise n = (s.raise n).lone ts k b := by
  unfold State.raise
  split
  · next h => exact (if_pos h).symm ▸ rfl
  · next h => exact (if_neg h).symm ▸ rfl

end

/-! ## The tick is taken, stage by stage (R79) -/

theorem exec_bookingTick {s : State} {t : Tick} {rest : List Tick} (ha : s.inReset = false) (ht : s.bookingTicks = t :: rest) :
    exec .bookingTick s = .next (wholeTick t { s with bookingTicks := rest }) := by
  have hexec : exec .bookingTick s = s.awake fun s => s.bookingTickIf fun _ _ => true := rfl
  rw [hexec, State.awake_of_out ha]
  unfold State.bookingTickIf
  rw [ht]
  rfl

theorem exec_bookingTick_lone {s : State} {t : Tick} {rest : List Tick} {k : Nat} {b : Booking} (ha : s.inReset = false)
    (ht : s.bookingTicks = t :: rest) (hs : s.bookings = [(k, b)]) :
    exec .bookingTick s = .next (wholeTick t (s.lone rest k b)) := by
  rw [exec_bookingTick ha ht]
  unfold State.lone
  rw [hs]

/-- Stages 2 to 5, with the notes that stage 1 has left. -/
def restOfTick (t : Tick) (notes : Notes) (s : State) : State := stage5 t (stage4 t (stage3 t notes (stage2 t notes s)))

theorem wholeTick_eq (t : Tick) (s : State) : wholeTick t s = restOfTick t (stage1 t s).2 (stage1 t s).1 := rfl

section
variable {t : Tick} {notes : Notes} {s : State} {ts : List Tick} {k : Nat} {b : Booking}

theorem restOfTick_lone {s2 s3 s4 : State} {b2 b3 b4 : Booking} (h2 : stage2Slot t notes (s.lone ts k b) k = s2.lone ts k b2)
    (h3 : stage3Slot t notes (s2.lone ts k b2) k = s3.lone ts k b3) (h4 : selectorSlot t.nt (s3.lone ts k b3) k = s4.lone ts k b4) :
    restOfTick t notes (s.lone ts k b) = meterSlot t (s4.lone ts k b4) k := by
  have e2 : stage2 t notes (s.lone ts k b) = s2.lone ts k b2 := h2
  have e3 : stage3 t notes (s2.lone ts k b2) = s3.lone ts k b3 := h3
  have e4 : stage4 t (s3.lone ts k b3) = s4.lone ts k b4 := h4
  unfold restOfTick
  rw [e2, e3, e4]
  rfl

end

/-! ## Stage 1, with no modification waiting (R82) -/

section
variable {t : Tick} {s : State} {ts : List Tick} {k : Nat} {b : Booking} (hp : b.pending = none)
include hp

theorem stage1_lone (he : b.endPending = false) : stage1 t (s.lone ts k b) = (s.lone ts k b, []) := by
  have hslot : stage1 t (s.lone ts k b) = stage1Slot t (s.lone ts k b, []) k := rfl
  rw [hslot]
  unfold stage1Slot endIfPending
  simp [hp, he]

theorem stage1_lone_ends (hl : b.state.isEnded = false) (he : b.endPending = true) :
    stage1 t (s.lone ts k b) = ((s.lone ts k b).endBooking k b .endedByOrder t.nt, []) := by
  have hslot : stage1 t (s.lone ts k b) = stage1Slot t (s.lone ts k b, []) k := rfl
  rw [hslot]
  unfold stage1Slot endIfPending
  simp [hp, he, hl]

theorem wholeTick_lone (he : b.endPending = false) : wholeTick t (s.lone ts k b) = restOfTick t [] (s.lone ts k b) := by
  rw [wholeTick_eq, stage1_lone hp he]

end

/-! ## A booking that has ended takes no further part (R83, R149) -/

section
variable {t : Tick} {notes : Notes} {s : State} {ts : List Tick} {k : Nat} {b : Booking}

theorem dropLegs_nil (s : State) (k : Nat) : dropLegs k [] s = s := by
  unfold dropLegs
  split
  · exact if_neg (by simp)
  · rfl

theorem dropLegs_notLive {ps : List Pair} (hb : s.booking k = some b) (h : b.state.isLive = false) : dropLegs k ps s = s := by
  unfold dropLegs
  rw [hb]
  exact if_neg (by simp [h])

theorem dropLegs_free {ps : List Pair} (hb : s.booking k = none) : dropLegs k ps s = s := by
  unfold dropLegs
  rw [hb]

/-- Every booking of the table has ended. -/
def State.AllEnded (s : State) : Prop := ∀ e ∈ s.bookings, e.2.state.isEnded = true

theorem State.AllEnded.booking (h : s.AllEnded) (hb : s.booking k = some b) : ∃ bill, b.state = .ended bill :=
  BookingState.isEnded_iff.1 (h (k, b) (tabFind_mem hb))

theorem foldl_fixed {α β : Type} {f : α → β → α} {a : α} (h : ∀ b, f a b = a) (bs : List β) : bs.foldl f a = a :=
  foldl_keeps (· = a) f (fun c b hc => by rw [hc, h]) bs a rfl

theorem State.AllEnded.stage2 (h : s.AllEnded) : stage2 t notes s = s := foldl_fixed (fun k => by
  unfold stage2Slot
  cases hb : s.booking k with
  | none => rfl
  | some b =>
    obtain ⟨bill, hs⟩ := h.booking hb
    simp [hs, BookingState.isRunning, dropLegs_notLive hb (by rw [hs]; rfl)]) _

theorem State.AllEnded.stage3 (h : s.AllEnded) : stage3 t notes s = s := foldl_fixed (fun k => by
  unfold stage3Slot
  cases hb : s.booking k with
  | none => rfl
  | some b =>
    obtain ⟨bill, hs⟩ := h.booking hb
    simp [hs]) _

theorem State.AllEnded.stage4 (h : s.AllEnded) : stage4 t s = s := foldl_fixed (fun k => by
  unfold selectorSlot
  cases hb : s.booking k with
  | none => rfl
  | some b =>
    obtain ⟨bill, hs⟩ := h.booking hb
    simp [hs, BookingState.isLive]) _

theorem State.AllEnded.stage5 (h : s.AllEnded) : stage5 t s = s := foldl_fixed (fun k => by
  unfold meterSlot
  cases hb : s.booking k with
  | none => rfl
  | some b =>
    obtain ⟨bill, hs⟩ := h.booking hb
    simp [hs, phaseOf]) _

theorem AllEnded.endBooking (hs : s.bookings = [(k, b)]) (o : BillOutcome) (nt : Word) : (s.endBooking k b o nt).AllEnded := by
  intro e he
  obtain hn | hn := Nat.lt_or_ge s.bills.records.length 64
  · have hfreed : s.freeSlot k = { s with bookings := [] } := by unfold State.freeSlot; rw [hs]; simp [tabDel]
    obtain ⟨hb, -, -⟩ := State.endBooking_room (s := s) (k := k) (b := b) (by rw [hfreed]; rfl) hn o nt
    rw [hb, hs] at he
    simp [tabDel] at he
  · obtain ⟨hb, -, -⟩ := State.endBooking_full (s := s) (k := k) (b := b) hn o nt
    rw [hb, hs] at he
    simp only [tabPut, lt_irrefl, if_false, if_true, List.mem_singleton] at he
    rw [he]
    rfl

/-! ## The window end (R84, R86) -/

theorem BookingState.eq_of_not_live {st : BookingState} (hl : st.isLive = false) (he : st.isEnded = false) :
    st = .booked ∨ st = .preroll ∨ st = .held := by
  cases st <;> simp [BookingState.isLive, BookingState.isEnded] at hl he ⊢

theorem atWindowEnd_ends (hr : b.state.isRunning = true) (hx : b.state.isLive = true → b.fields.extend = false) :
    atWindowEnd t k b s = s.endBooking k b .endedAtLimit t.nt := by
  unfold atWindowEnd
  cases hs : b.state <;> simp_all [BookingState.isRunning, BookingState.isLive]

/-- The booking ends at its window end, in stage 2 when it is running and else in stage 3. -/
theorem restOfTick_ends (he : b.state.isEnded = false) (hw : windowActs t.nt (noteOf notes k) b = true)
    (hx : b.state.isLive = true → b.fields.extend = false) :
    restOfTick t notes (s.lone ts k b) = (s.lone ts k b).endBooking k b .endedAtLimit t.nt := by
  have hended := AllEnded.endBooking (State.lone_bookings s ts k b) .endedAtLimit t.nt
  generalize hv : (s.lone ts k b).endBooking k b .endedAtLimit t.nt = v at hended
  have h23 : stage3 t notes (stage2 t notes (s.lone ts k b)) = v := by
    have hslot2 : stage2 t notes (s.lone ts k b) = stage2Slot t notes (s.lone ts k b) k := rfl
    by_cases hr : b.state.isRunning = true
    · have h2 : stage2 t notes (s.lone ts k b) = v := by
        rw [hslot2]
        unfold stage2Slot
        rw [State.lone_booking]
        dsimp only
        rw [hr, hw, Bool.and_self, if_pos rfl, atWindowEnd_ends hr hx, hv]
        cases hb : v.booking k with
        | none => exact dropLegs_free hb
        | some c =>
          obtain ⟨bill, hc⟩ := hended.booking hb
          exact dropLegs_notLive hb (by rw [hc]; rfl)
      rw [h2, hended.stage3]
    · have hearly : b.state = .booked ∨ b.state = .preroll := by
        have hl : b.state.isLive = false := by cases hs : b.state <;> simp_all [BookingState.isRunning, BookingState.isLive]
        obtain hs | hs | hs := BookingState.eq_of_not_live hl he
        · exact .inl hs
        · exact .inr hs
        · exact absurd (by rw [hs]; rfl) hr
      have h2 : stage2 t notes (s.lone ts k b) = s.lone ts k b := by
        rw [hslot2]
        unfold stage2Slot
        rw [State.lone_booking]
        have hl : b.state.isLive = false := by obtain hs | hs := hearly <;> rw [hs] <;> rfl
        simp [hr, dropLegs_notLive (State.lone_booking s ts k b) hl]
      rw [h2]
      show stage3Slot t notes (s.lone ts k b) k = v
      unfold stage3Slot passEarly
      rw [State.lone_booking]
      obtain hs | hs := hearly <;> simp only [hs, hw, if_true, hv]
  unfold restOfTick
  rw [h23, hended.stage4, hended.stage5]

end

/-! ## The ending of the one booking of a table -/

section
variable {s : State} {ts : List Tick} {k : Nat} {b : Booking}

theorem State.leaveGroup_groups_congr {u v : State} (h : u.groups = v.groups) (g : Nat) :
    (u.leaveGroup g).groups = (v.leaveGroup g).groups := by
  unfold State.leaveGroup
  rw [State.groupOf_congr h]
  split
  · unfold State.setGroup
    split
    · exact h
    · exact congrArg (Vector.setIfInBounds · _ _) h
  · exact h

/-- The legs of the booking of a slot, live or not, on its selected source. -/
theorem State.closing_eq (s : State) (k : Nat) (b : Booking) :
    let gone : List Leg := match s.source b.selected with
      | some x => if b.state.isLive then x.legs.filter fun l => l.owner == k else []
      | none => []
    s.closing k b = { b with delivered := b.delivered + sumLegs Leg.sent gone, dropped := b.dropped + sumLegs Leg.dropped gone } := by
  unfold State.closing State.closedAt State.legsAt
  cases s.source b.selected <;> by_cases hl : b.state.isLive = true <;> simp [hl, sumLegs]

end

/-- Settles O41: the tick is the ending, in stage 1, 2 or 3, and what the ending leaves is read source by source. -/
theorem loneBookingEnds : Obligations.LoneBookingEnds := by
  intro s k b t rest outcome ha hT ht hs hp hcase gone sumOf b1 bill n oldest
  let u : State := s.lone rest k b
  have hTu : TablesInForm u := hT.of_tables hs.symm rfl
  have hclosing : u.closing k b = b1 := u.closing_eq k b
  have htick : wholeTick t u = u.endBooking k b outcome t.nt := by
    have hended := AllEnded.endBooking (s := u) (State.lone_bookings ..) outcome t.nt
    obtain ⟨hl, he, rfl⟩ | ⟨hl, he, hw, hx, rfl⟩ := hcase
    · rw [wholeTick_eq, stage1_lone_ends hp (BookingState.not_ended_of_live hl) he]
      unfold restOfTick
      rw [hended.stage2, hended.stage3, hended.stage4, hended.stage5]
    · rw [wholeTick_lone hp he]
      refine restOfTick_ends hl ?_ hx
      have hnote : noteOf [] k = .nothing := rfl
      rw [hnote]
      unfold windowActs windowReached TickNote.nothing
      obtain hw | hw := hw <;> simp [hw]
  have hfreed : u.freeSlot k = { u with bookings := [] } := congrArg (fun bs => { u with bookings := bs }) (by simp [u, tabDel])
  have hroom (hn : n < 64) := State.endBooking_room (s := u) (k := k) (b := b) (by rw [hfreed]; rfl) hn outcome t.nt
  have hfull (hn : 64 ≤ n) := State.endBooking_full (s := u) (k := k) (b := b) hn outcome t.nt
  refine ⟨_, (exec_bookingTick_lone ha ht hs).trans (congrArg _ htick), fun i => ?_, ?_, ?_, ?_, ?_, ?_, fun hn => ?_, fun hn => ?_⟩
  · have hsource := State.vacate_source (k := k) (b := b) hTu i
    exact (State.source_congr (State.endBooking_sources ..) i).trans hsource
  · rw [State.endBooking_groups]
    split
    · exact State.leaveGroup_groups_congr (u := u) (v := s) rfl _
    · rfl
  · exact State.endBooking_ports ..
  · exact State.endBooking_time ..
  · exact State.endBooking_tariffs ..
  · obtain hn | hn := Nat.lt_or_ge n 64
    · obtain ⟨-, -, hmgmt⟩ := hroom hn
      rw [hmgmt]
      exact State.raiseAll_same (fun v => v.mgmt.orders) State.raise_orders u _
    · obtain ⟨-, -, hmgmt⟩ := hfull hn
      rw [hmgmt]
      exact State.raise_orders u _
  · obtain ⟨hbookings, hbills, hmgmt⟩ := hroom hn
    rw [hclosing] at hbills hmgmt
    refine ⟨?_, ?_, ?_, ?_⟩
    · rw [hbookings]
      simp [u, tabDel]
    · exact congrArg BillQueue.records hbills
    · exact congrArg BillQueue.next hbills
    · rw [hmgmt]
      exact State.raiseAll_mgmt_congr (u := u) (v := s) rfl rfl _
  · obtain ⟨hbookings, hbills, hmgmt⟩ := hfull hn
    rw [hclosing] at hbookings hmgmt
    refine ⟨hbills, ?_, ?_⟩
    · rw [hbookings]
      simp [u, tabPut, Booking.clear, Booking.stopCountdowns, bill]
    · rw [hmgmt]
      exact State.raise_mgmt_congr (u := u) (v := s) rfl rfl _

end Sys2Proof.Machine
end

