-- ==== Sys2Proof/Proofs/LoneEntry.lean ====
section
/-! LIVE entry of the one booking of a table (R86 to R88, R96, R118, R137). -/

namespace Sys2Proof.Machine

/-! ## Stages 2 and 3 (R84 to R87) -/

section
variable {t : Tick} {notes : Notes} {s : State} {ts : List Tick} {k : Nat} {b : Booking}

theorem stage2Slot_rests (hw : b.state.isRunning = true → windowActs t.nt (noteOf notes k) b = false) :
    stage2Slot t notes (s.lone ts k b) k = dropLegs k (noteOf notes k).dropped (s.lone ts k b) := by
  unfold stage2Slot
  rw [State.lone_booking]
  dsimp only
  rw [if_neg]
  intro h
  obtain ⟨hr, ha⟩ := Bool.and_eq_true_iff.1 h
  rw [hw hr] at ha
  cases ha

theorem dropLegs_lone_notLive (h : b.state.isLive = false) (ps : List Pair) : dropLegs k ps (s.lone ts k b) = s.lone ts k b :=
  dropLegs_notLive (State.lone_booking ..) h

/-- The preroll point is passed on this tick (R86). -/
def prerollPasses (nt : Word) (n : TickNote) (b : Booking) : Bool := reached nt b.fields.prerollPoint && !n.prerollChanged

/-- The start is passed on this tick (R86). -/
def startPasses (nt : Word) (n : TickNote) (b : Booking) : Bool := reached nt b.fields.start && !n.startChanged

section
variable (hw : windowActs t.nt (noteOf notes k) b = false)
include hw

theorem stage3Slot_booked (hs : b.state = .booked) (hp : prerollPasses t.nt (noteOf notes k) b = false) :
    stage3Slot t notes (s.lone ts k b) k = s.lone ts k b := by
  unfold prerollPasses at hp
  unfold stage3Slot passEarly
  simp [hs, hw, hp]

theorem stage3Slot_preroll (hs : b.state = .preroll ∨ b.state = .booked ∧ prerollPasses t.nt (noteOf notes k) b = true) :
    stage3Slot t notes (s.lone ts k b) k
      = passStart t.nt (noteOf notes k) k { b with state := .preroll } (s.lone ts k { b with state := .preroll }) := by
  unfold prerollPasses at hs
  unfold stage3Slot passEarly
  rw [State.lone_booking]
  obtain hs | ⟨hs, hp⟩ := hs
  · have hb : { b with state := .preroll } = b := by rw [← hs]
    rw [hb]
    simp [hs, hw]
  · simp [hs, hw, hp]

end

theorem stage3Slot_held (hs : b.state = .held) :
    stage3Slot t notes (s.lone ts k b) k = passHeld t.nt (noteOf notes k) k b (s.lone ts k b) := by
  unfold stage3Slot
  simp [hs]

variable {nt : Word} {n : TickNote}

theorem passStart_before (h : startPasses nt n b = false) : passStart nt n k b s = s := by
  unfold startPasses at h
  unfold passStart
  simp [h]

theorem passStart_holds (h : startPasses nt n b = true) (hg : s.isHolding b = true) :
    passStart nt n k b (s.lone ts k b) = (s.joinGroup b.fields.group).lone ts k { b with state := .held } := by
  unfold startPasses at h
  unfold passStart
  simp [h, hg, State.joinGroup_lone]

theorem passStart_enters (h : startPasses nt n b = true) (hg : s.isHolding b = false) : passStart nt n k b s = goLive nt n k b s := by
  unfold startPasses at h
  unfold passStart
  simp [h, hg]

theorem passHeld_stays (h : reached nt b.fields.windowEnd = true ∨ s.isHolding b = true) : passHeld nt n k b s = s := by
  unfold passHeld
  exact if_pos (Bool.or_eq_true_iff.2 h)

theorem passHeld_enters (h : reached nt b.fields.windowEnd = false) (hg : s.isHolding b = false) :
    passHeld nt n k b s = goLive nt n k b s := by
  unfold passHeld
  simp [h, hg]

end

/-! ## No cuts where no booking is EXTENDED (R89) -/

/-- No booking of the table is EXTENDED. -/
def State.NoneExtended (s : State) : Prop := ∀ e ∈ s.bookings, e.2.state ≠ .extended

section
variable {s : State} (h : s.NoneExtended)
include h

theorem State.NoneExtended.toCut (at_ : SrcId → Leg → Bool) : s.toCut at_ = none := by
  unfold State.toCut
  dsimp only
  rw [List.filter_eq_nil_iff.2 fun e he => by simp [h e he]]

theorem State.NoneExtended.extendedHolding (q : Pair) : s.extendedHolding q = none := by
  cases hk : s.extendedHolding q with
  | none => rfl
  | some k =>
    obtain ⟨b, hb, hs⟩ := State.extendedHolding_extended hk
    exact absurd hs (h (k, b) (tabFind_mem hb))

variable (nt : Word) (n : Nat)

theorem State.NoneExtended.cutPairs (ps : List Pair) : cutPairs nt ps (s, n) = (s, n) :=
  foldl_keeps (· = (s, n)) _ (fun c q hc => by rw [hc, h.extendedHolding q]) ps _ rfl

theorem State.NoneExtended.cutWhile (tooMuch : State → Bool) (at_ : SrcId → Leg → Bool) (fuel : Nat) :
    cutWhile nt tooMuch at_ fuel (s, n) = (s, n) := by
  cases fuel with
  | zero => rfl
  | succ fuel =>
    unfold Machine.cutWhile
    rw [h.toCut]
    split <;> rfl

theorem State.NoneExtended.cutCapacity (m : Nat) (ps : List Pair) : cutCapacity nt m ps (s, n) = (s, n) :=
  foldl_keeps (· = (s, n)) _ (fun c q hc => by rw [hc, h.cutWhile]) _ _ rfl

theorem State.NoneExtended.cutPlaces (i : SrcId) (m : Nat) : cutPlaces nt i m (s, n) = (s, n) := h.cutWhile nt n _ _ _

theorem State.NoneExtended.clearGround (i : SrcId) (m : Nat) (ps : List Pair) : s.clearGround nt i m ps = (s, 0) := by
  unfold State.clearGround
  rw [h.cutPairs, h.cutCapacity, h.cutPlaces]

end

theorem State.lone_noneExtended {s : State} {ts : List Tick} {k : Nat} {b : Booking} (h : b.state ≠ .extended) : (s.lone ts k b).NoneExtended := by
  intro e he
  rw [List.mem_singleton.1 he]
  exact h

/-! ## The table after LIVE entry (R88) -/

section
variable {s : State} {ts : List Tick} {k : Nat} {b : Booking} {nt : Word}

theorem State.installCheck_lone (s : State) (ts : List Tick) (k : Nat) (b : Booking) (i : SrcId) (ps : List Pair) :
    (s.lone ts k b).installCheck i ps = s.installCheck i ps := rfl

theorem State.install_lone (s : State) (ts : List Tick) (k : Nat) (b : Booking) (i : SrcId) (ps : List Pair) :
    (s.lone ts k b).install k i ps = (s.install k i ps).lone ts k b := by
  unfold State.install
  rw [State.installCheck_lone, State.lone_source]
  split <;> rfl

/-- LIVE entry where nothing is cut: the legs, the record, the group and the notice (R88, R96). -/
theorem State.enterLive_lone (hne : b.state ≠ .extended) (isOver : Bool) :
    (s.lone ts k b).enterLive k b nt isOver =
      ((if b.state = .held then (s.install k (s.entered b nt).selected b.fields.legs).leaveGroup b.fields.group
          else s.install k (s.entered b nt).selected b.fields.legs).raise
        (.bookingLive k b.ref b.fields.account nt (s.choice b) (s.entered b nt).selected
          (snapshotOf b.fields.tariffClass (s.tariff b.fields.tariffClass)).noTariff 0
          (if isOver then .overrun else .live))).lone ts k (s.entered b nt) := by
  have hground : ∀ i m ps, (s.lone ts k b).clearGround nt i m ps = (s.lone ts k b, 0) :=
    (State.lone_noneExtended (s := s) (ts := ts) (k := k) hne).clearGround nt
  unfold State.enterLive
  dsimp only
  rw [hground]
  dsimp only
  rw [State.install_lone, State.lone_setBooking]
  by_cases hh : b.state = .held
  · rw [if_pos hh, if_pos hh, State.leaveGroup_lone, State.raise_lone]
    rfl
  · rw [if_neg hh, if_neg hh, State.raise_lone]
    rfl

theorem passPlan_lone (s : State) (n : TickNote) (k : Nat) (b : Booking) (hs : b.state = .live) :
    passPlan nt n k (s.lone ts k b) = s.lone ts k { b with state := if planPasses nt n b then .overrun else .live } := by
  unfold passPlan
  rw [State.lone_booking]
  dsimp only
  cases hp : planPasses nt n b with
  | true => simp [hs]
  | false =>
    have : b = { b with state := .live } := by rw [← hs]
    simp [hs, ← this]

end

/-! ## The selector on the tick of LIVE entry (R118 to R122) -/

section
variable {s : State} {ts : List Tick} {k : Nat} {b : Booking} {nt : Word}

theorem runSelector_onMain (hr : b.request = .noRequest) (hp : b.position = .onMain) : s.runSelector k b nt = s.holdOffRule k b nt := by
  unfold State.runSelector
  rw [hr, hp]

theorem runSelector_onSpare (hr : b.request = .noRequest) (hp : b.position = .onSpare) :
    s.runSelector k b nt = s.onSpareRule k b nt := by
  unfold State.runSelector
  rw [hr, hp]

theorem runSelector_forceSpare (hr : b.request = .forceSpare) (hp : b.position = .onMain) :
    s.runSelector k b nt = s.forceSwitch k b .onSpare .forceSpare nt := by
  unfold State.runSelector
  rw [hr, hp]

/-- A request that the position meets makes both countdowns absent (R119). -/
theorem runSelector_met (h : (b.request, b.position) ∈ [(Request.forceSpare, Position.onSpare), (.forceMain, .onMain), (.lockMain, .onMain)]) :
    s.runSelector k b nt = s.setBooking k { b with holdOffLeft := none, wtrLeft := none } := by
  unfold State.runSelector
  simp only [List.mem_cons, Prod.mk.injEq, List.not_mem_nil, or_false] at h
  obtain ⟨hr, hp⟩ | ⟨hr, hp⟩ | ⟨hr, hp⟩ := h <;> rw [hr, hp]

theorem selectorSlot_lone (hl : b.state.isLive = true) (ha : b.afresh = false) :
    selectorSlot nt (s.lone ts k b) k = (s.lone ts k b).runSelector k b nt := by
  unfold selectorSlot
  rw [State.lone_booking]
  simp [hl, ha]

theorem forceSwitch_noSpare (hs : b.fields.spare = none) (to_ : Position) (cause : SwitchCause) :
    (s.lone ts k b).forceSwitch k b to_ cause nt = s.lone ts k { b with holdOffLeft := none, wtrLeft := none } := by
  unfold State.forceSwitch
  simp [hs]

theorem holdOffRule_idle (hf : s.failureCondition b.fields = false) :
    (s.lone ts k b).holdOffRule k b nt = s.lone ts k { b with holdOffLeft := none } := by
  unfold State.holdOffRule
  simp [hf]

theorem holdOffRule_counts (hf : s.failureCondition b.fields = true) {n : Nat} (hn : countDown b.fields.holdOff b.holdOffLeft = n + 1) :
    (s.lone ts k b).holdOffRule k b nt = s.lone ts k { b with holdOffLeft := some (n + 1) } := by
  unfold State.holdOffRule
  simp [hf, hn]

theorem onSpareRule_idle (hsp : s.spareFailedCondition b.fields = false) (hr : s.restoreCondition b.fields = false) :
    (s.lone ts k b).onSpareRule k b nt = s.lone ts k { b with wtrLeft := none } := by
  unfold State.onSpareRule State.wtrRule
  simp [hsp, hr]

theorem onSpareRule_counts (hsp : s.spareFailedCondition b.fields = false) (hr : s.restoreCondition b.fields = true) {n : Nat}
    (hn : countDown b.fields.wtr b.wtrLeft = n + 1) :
    (s.lone ts k b).onSpareRule k b nt = s.lone ts k { b with wtrLeft := some (n + 1) } := by
  unfold State.onSpareRule State.wtrRule
  simp [hsp, hr, hn]

theorem State.failureCondition_noSpare {f : Fields} (h : f.spare = none) : s.failureCondition f = false := by
  unfold State.failureCondition State.spareWatch
  simp [h]

/-- Where the condition for failure has put a booking on its spare, neither rule of that position switches it back. -/
theorem State.failureCondition_holds {f : Fields} (h : s.failureCondition f = true) :
    s.spareFailedCondition f = false ∧ s.restoreCondition f = false := by
  unfold State.failureCondition at h
  unfold State.spareFailedCondition State.restoreCondition
  obtain ⟨hm, hs⟩ := Bool.and_eq_true_iff.1 h
  constructor
  · cases hw : s.spareWatch f with
    | none => rfl
    | some w =>
      rw [hw] at hs
      cases w <;> simp [spareUsable] at hs ⊢
  · cases hw : s.watchOf f.main <;> rw [hw] at hm <;> simp [mainBad] at hm ⊢

theorem State.failureCondition_iff {f : Fields} {sp : SrcId} (hs : f.spare = some sp) : s.failureCondition f = true ↔
    (s.watchOf f.main = .failed ∨ s.watchOf f.main = .degraded ∧ f.switchOnDegrade = true)
      ∧ s.watchOf sp ≠ .failed ∧ ¬ (s.watchOf sp = .degraded ∧ f.switchOnDegrade = true) := by
  have hspare : s.spareWatch f = some (s.watchOf sp) := by unfold State.spareWatch; rw [hs]; rfl
  unfold State.failureCondition
  rw [hspare, Bool.and_eq_true_iff]
  refine and_congr ?_ ?_
  · cases s.watchOf f.main <;> simp [mainBad]
  · cases s.watchOf sp <;> simp [spareUsable]

theorem Booking.noCountdowns (hh : b.holdOffLeft = none) (hw : b.wtrLeft = none) :
    { b with holdOffLeft := none, wtrLeft := none } = b ∧ { b with holdOffLeft := none } = b ∧ { b with wtrLeft := none } = b := by
  cases b
  simp_all

/-- The position that LIVE entry chooses, by the spare, the request and the two sources (R118). -/
theorem State.choice_eq (s : State) (b : Booking) :
    let bad (w : WatchState) : Bool := w == .failed || (w == .degraded && b.fields.switchOnDegrade)
    s.choice b = match b.fields.spare, b.request with
      | none, _ => .onMain
      | some _, .forceSpare => .onSpare
      | some sp, .noRequest => if bad (s.watchOf b.fields.main) && !bad (s.watchOf sp) then .onSpare else .onMain
      | some _, _ => .onMain := by
  intro bad
  unfold State.choice
  cases hs : b.fields.spare with
  | none => exact if_pos rfl
  | some sp =>
    rw [if_neg (by simp)]
    cases b.request with
    | noRequest =>
      have hf : s.failureCondition b.fields = (bad (s.watchOf b.fields.main) && !bad (s.watchOf sp)) := by
        rw [Bool.eq_iff_iff, State.failureCondition_iff hs]
        simp [bad, imp_iff_not_or]
      dsimp only
      rw [hf]
    | _ => rfl

theorem Booking.selected_at (b : Booking) (pos : Position) :
    ({ b with position := pos } : Booking).selected = match b.fields.spare, pos with
      | some sp, .onSpare => sp
      | _, _ => b.fields.main := by
  unfold Booking.selected
  cases pos <;> cases b.fields.spare <;> rfl

/-- A booking in the position that its LIVE entry chose, with no countdown running, is left there. -/
theorem selectorSlot_chosen (hl : b.state.isLive = true) (ha : b.afresh = false) (hh : b.holdOffLeft = none) (hw : b.wtrLeft = none)
    (hpos : b.position = s.choice b) : selectorSlot nt (s.lone ts k b) k = s.lone ts k b := by
  obtain ⟨hboth, hhold, hwtr⟩ := Booking.noCountdowns hh hw
  rw [selectorSlot_lone hl ha]
  unfold State.choice at hpos
  by_cases hs : b.fields.spare = none
  · rw [if_pos hs] at hpos
    cases hr : b.request with
    | noRequest => rw [runSelector_onMain hr hpos, holdOffRule_idle (State.failureCondition_noSpare hs), hhold]
    | forceSpare => rw [runSelector_forceSpare hr hpos, forceSwitch_noSpare hs, hboth]
    | forceMain => rw [runSelector_met (by simp [hr, hpos]), State.lone_setBooking, hboth]
    | lockMain => rw [runSelector_met (by simp [hr, hpos]), State.lone_setBooking, hboth]
  · rw [if_neg hs] at hpos
    cases hr : b.request with
    | noRequest =>
      rw [hr] at hpos
      cases hf : s.failureCondition b.fields with
      | true =>
        obtain ⟨hsp, hrest⟩ := State.failureCondition_holds hf
        rw [runSelector_onSpare hr (hpos.trans (if_pos hf)), onSpareRule_idle hsp hrest, hwtr]
      | false => rw [runSelector_onMain hr (hpos.trans (if_neg (by simp [hf]))), holdOffRule_idle hf, hhold]
    | _ =>
      rw [hr] at hpos
      rw [runSelector_met (by simp [hr, hpos]), State.lone_setBooking, hboth]

end

/-! ## The whole tick -/

section
variable {s : State} {ts : List Tick} {k : Nat} {b : Booking} {t : Tick}

theorem meterSlot_lone {ph : Phase} {c : FeedClass} (hl : phaseOf b.state = some ph) (hc : s.feedClassOf b = c) :
    meterSlot t (s.lone ts k b) k = s.lone ts k { b with meter := b.meter.liveTick ph c t.stepped } := by
  have hh : b.state ≠ .held := fun e => by rw [e] at hl; cases hl
  unfold meterSlot
  simp [hh, hl, hc]

theorem State.choice_congr {u : State} {c : Booking} (hf : c.fields = b.fields) (hr : c.request = b.request)
    (hw : ∀ i, u.watchOf i = s.watchOf i) : u.choice c = s.choice b := by
  unfold State.choice State.failureCondition State.spareWatch
  rw [hf, hr, hw]
  cases b.fields.spare <;> simp [hw]

theorem State.feedClassOf_congr {u : State} {c : Booking} (hw : u.watchOf b.selected = s.watchOf b.selected) (hp : u.ports = s.ports)
    (hs : c.selected = b.selected) (hl : c.fields.legs = b.fields.legs) : u.feedClassOf c = s.feedClassOf b := by
  unfold State.feedClassOf State.port
  rw [hs, hw, hp, hl]

theorem State.watchOf_congr {u : State} (h : u.sources = s.sources) (i : SrcId) : u.watchOf i = s.watchOf i := by
  unfold State.watchOf
  rw [State.source_congr h]

theorem State.watchOf_setSource {x y : Source} (hx : s.source x.id = some x) (hid : y.id = x.id) (hw : y.watch = x.watch) (i : SrcId) :
    (s.setSource y).watchOf i = s.watchOf i := by
  unfold State.watchOf
  rw [State.setSource_source, hid]
  by_cases hi : i = x.id
  · rw [if_pos hi, hi, hx]
    exact congrArg Watch.state hw
  · rw [if_neg hi]

/-- The state of the tables but for the record after LIVE entry: its legs, its group and its notice (R88, R96). -/
def State.liveEntry (s : State) (k : Nat) (b : Booking) (nt : Word) (isOver : Bool) : State :=
  (if b.state = .held then (s.install k (s.entered b nt).selected b.fields.legs).leaveGroup b.fields.group
      else s.install k (s.entered b nt).selected b.fields.legs).raise
    (.bookingLive k b.ref b.fields.account nt (s.choice b) (s.entered b nt).selected
      (snapshotOf b.fields.tariffClass (s.tariff b.fields.tariffClass)).noTariff 0 (if isOver then .overrun else .live))

theorem goLive_lone (hne : b.state ≠ .extended) (n : TickNote) : goLive t.nt n k b (s.lone ts k b) =
    (s.liveEntry k b t.nt (planPasses t.nt n b)).lone ts k
      { s.entered b t.nt with state := if planPasses t.nt n b then .overrun else .live } := by
  unfold goLive
  rw [State.enterLive_lone hne]
  exact passPlan_lone _ _ _ _ rfl

/-- The tick of a LIVE entry: stages 4 and 5 leave the position and meter the first tick (R118, R138). -/
theorem restOfTick_enters {notes : Notes} {x : Source} {isOver : Bool} {c : Booking} (hx : s.source x.id = some x)
    (hid : x.id = (s.entered c t.nt).selected) (htaken : s.installCheck x.id c.fields.legs = .taken)
    {s2 : State} {b2 : Booking} (h2 : stage2Slot t notes (s.lone ts k b) k = s2.lone ts k b2)
    (h3 : stage3Slot t notes (s2.lone ts k b2) k = (s.liveEntry k c t.nt isOver).lone ts k
      { s.entered c t.nt with state := if isOver then .overrun else .live }) :
    restOfTick t notes (s.lone ts k b) = (s.liveEntry k c t.nt isOver).lone ts k
      { s.entered c t.nt with
        state := if isOver then .overrun else .live
        meter := (s.entered c t.nt).meter.liveTick (if isOver then .overrun else .scheduled) (s.feedClassOf (s.entered c t.nt))
          t.stepped } := by
  have hinstall := State.install_taken hx htaken k
  have hsources : (s.liveEntry k c t.nt isOver).sources = (s.setSource { x with legs := x.legs ++ c.fields.legs.map (newLeg k) }).sources := by
    unfold State.liveEntry
    rw [State.raise_sources, ← hid, hinstall]
    split
    · simp
    · rfl
  have hports : (s.liveEntry k c t.nt isOver).ports = s.ports := by
    unfold State.liveEntry
    rw [State.raise_ports, ← hid, hinstall]
    split <;> simp
  have hwatch (i : SrcId) : (s.liveEntry k c t.nt isOver).watchOf i = s.watchOf i :=
    (State.watchOf_congr hsources i).trans (State.watchOf_setSource (y := { x with legs := x.legs ++ c.fields.legs.map (newLeg k) }) hx rfl rfl i)
  have hchosen := selectorSlot_chosen (ts := ts) (k := k) (nt := t.nt)
    (b := { s.entered c t.nt with state := if isOver then .overrun else .live }) (by cases isOver <;> rfl) rfl rfl rfl
    (State.choice_congr (s := s) (b := c) rfl rfl hwatch).symm
  rw [restOfTick_lone h2 h3 hchosen]
  exact meterSlot_lone (by cases isOver <;> rfl) (State.feedClassOf_congr (hwatch _) hports rfl rfl)

end

/-- Settles O40: the tick comes to LIVE entry from PREROLL, BOOKED or HELD, and the entry is the same. -/
theorem loneBookingEntersLive : Obligations.LoneBookingEntersLive := by
  intro s k b t rest x ha ht hs hp he hwin hstate hgroup mainState bad pos i hx hid htaken isOver snap b' v w
  have hnote : noteOf [] k = .nothing := rfl
  have hrun : b.state ≠ .extended := by
    obtain h | ⟨h | ⟨h, -⟩, -⟩ := hstate <;> rw [h] <;> simp
  have hw : windowActs t.nt .nothing b = false := by
    unfold windowActs windowReached
    simp [hwin, hrun]
  have h2 : stage2Slot t [] (s.lone rest k b) k = s.lone rest k b := (stage2Slot_rests fun _ => hw).trans (dropLegs_nil _ k)
  have hholding (c : Booking) (hc : c.fields = b.fields) : s.isHolding c = false := by
    unfold State.isHolding
    rw [hc]
    cases hg : s.groupOf b.fields.group with
    | none => rfl
    | some g => simpa using hgroup g hg
  have hpos (st : BookingState) : s.choice { b with state := st } = pos := s.choice_eq _
  have hsel (st : BookingState) : (s.entered { b with state := st } t.nt).selected = i := by
    unfold State.entered
    rw [hpos]
    exact Booking.selected_at b pos
  have hsnap : snapshotOf b.fields.tariffClass (s.tariff b.fields.tariffClass) = snap := by
    unfold State.tariff snap
    cases (s.tariffs.classes[b.fields.tariffClass]?).getD none <;> rfl
  have henters (st : BookingState) (hst : st = .held ↔ b.state = .held) (hne : st ≠ .extended)
      (h3 : stage3Slot t [] (s.lone rest k b) k = goLive t.nt .nothing k { b with state := st } (s.lone rest k { b with state := st })) :
      restOfTick t [] (s.lone rest k b) = (w.raise (.bookingLive k b.ref b.fields.account t.nt pos i snap.noTariff 0
          (if isOver then .overrun else .live))).lone rest k b' := by
    have hover : planPasses t.nt .nothing { b with state := st } = isOver := by simp [planPasses, TickNote.nothing, isOver]
    rw [← hid] at hx htaken
    rw [goLive_lone hne, hover] at h3
    rw [restOfTick_enters (c := { b with state := st }) (isOver := isOver) hx (hid.trans (hsel st).symm) htaken h2 h3]
    have hentry : s.liveEntry k { b with state := st } t.nt isOver = w.raise (.bookingLive k b.ref b.fields.account t.nt pos i
        snap.noTariff 0 (if isOver then .overrun else .live)) := by
      unfold State.liveEntry
      rw [hsel, hpos, hsnap, ← hid, State.install_taken hx htaken]
      exact congrArg (State.raise · _) (if_congr hst rfl rfl)
    have hentered : s.entered { b with state := st } t.nt =
        { b with
          state := .live, position := pos, holdOffLeft := none, wtrLeft := none, afresh := false
          meter := { b.meter with snapshot := some snap, acc := 0, firstLive := some t.nt } } := by
      unfold State.entered
      rw [hpos, hsnap]
      rfl
    rw [hentry, hentered]
    rfl
  rw [exec_bookingTick_lone ha ht hs, wholeTick_lone hp he]
  refine congrArg _ ?_
  obtain hst | ⟨hst, hstart⟩ := hstate
  · refine henters b.state Iff.rfl hrun ?_
    rw [stage3Slot_held hst]
    exact passHeld_enters hwin (hholding b rfl)
  · have hearly : b.state ≠ .held := by obtain h | ⟨h, -⟩ := hst <;> rw [h] <;> simp
    refine henters .preroll (by simp [hearly]) (by simp) ?_
    rw [stage3Slot_preroll hw (hst.imp_right fun h => ⟨h.1, by simp [prerollPasses, hnote, TickNote.nothing, h.2]⟩)]
    exact passStart_enters (by simp [startPasses, hnote, TickNote.nothing, hstart]) (hholding _ rfl)

end Sys2Proof.Machine
end

