-- ==== Sys2Proof/Proofs/LoneTick.lean ====
section
/-! The tick of the one booking of a table that neither enters LIVE nor ends, whatever stage 1 has noted (R80, R81, R84 to R87, R91,
R138). -/

namespace Sys2Proof.Machine

section
variable {t : Tick} {notes : Notes} {s : State} {ts : List Tick} {k : Nat} {b : Booking}

/-! ## Before LIVE (R84, R86, R138) -/

theorem selectorSlot_notLive (hl : b.state.isLive = false) (nt : Word) : selectorSlot nt (s.lone ts k b) k = s.lone ts k b := by
  unfold selectorSlot
  simp [hl]

theorem meterSlot_early (hs : b.state = .booked ∨ b.state = .preroll) : meterSlot t (s.lone ts k b) k = s.lone ts k b := by
  unfold meterSlot
  obtain hs | hs := hs <;> simp [hs, phaseOf]

theorem meterSlot_held (hs : b.state = .held) :
    meterSlot t (s.lone ts k b) k = s.lone ts k { b with meter := b.meter.heldTick t.stepped } := by
  unfold meterSlot
  simp [hs]

theorem stage2Slot_lone_notLive (hl : b.state.isLive = false) (hw : windowActs t.nt (noteOf notes k) b = false) :
    stage2Slot t notes (s.lone ts k b) k = s.lone ts k b := by
  rw [stage2Slot_rests fun _ => hw, dropLegs_lone_notLive hl]

section
variable (hw : windowActs t.nt (noteOf notes k) b = false)
include hw

theorem restOfTick_booked (hs : b.state = .booked) (hp : prerollPasses t.nt (noteOf notes k) b = false) :
    restOfTick t notes (s.lone ts k b) = s.lone ts k b := by
  have hl : b.state.isLive = false := by rw [hs]; rfl
  rw [restOfTick_lone (stage2Slot_lone_notLive hl hw) (stage3Slot_booked hw hs hp) (selectorSlot_notLive hl _), meterSlot_early (.inl hs)]

section
variable (hs : b.state = .preroll ∨ b.state = .booked ∧ prerollPasses t.nt (noteOf notes k) b = true)
include hs

omit hw in
theorem early_notLive : b.state.isLive = false := by obtain hs | ⟨hs, -⟩ := hs <;> rw [hs] <;> rfl

theorem restOfTick_preroll (hp : startPasses t.nt (noteOf notes k) b = false) :
    restOfTick t notes (s.lone ts k b) = s.lone ts k { b with state := .preroll } := by
  have h3 := (stage3Slot_preroll (s := s) (ts := ts) hw hs).trans (passStart_before hp)
  rw [restOfTick_lone (stage2Slot_lone_notLive (early_notLive hs) hw) h3 (selectorSlot_notLive rfl _), meterSlot_early (.inr rfl)]

theorem restOfTick_joins (hp : startPasses t.nt (noteOf notes k) b = true) (hg : s.isHolding b = true) :
    restOfTick t notes (s.lone ts k b) = (s.joinGroup b.fields.group).lone ts k
      { b with state := .held, meter := b.meter.heldTick t.stepped } := by
  have h3 := (stage3Slot_preroll (s := s) (ts := ts) hw hs).trans (passStart_holds (b := { b with state := .preroll }) hp hg)
  rw [restOfTick_lone (stage2Slot_lone_notLive (early_notLive hs) hw) h3 (selectorSlot_notLive rfl _), meterSlot_held rfl]

end

theorem restOfTick_held (hs : b.state = .held) (hg : reached t.nt b.fields.windowEnd = true ∨ s.isHolding b = true) :
    restOfTick t notes (s.lone ts k b) = s.lone ts k { b with meter := b.meter.heldTick t.stepped } := by
  have hl : b.state.isLive = false := by rw [hs]; rfl
  have h3 := (stage3Slot_held (s := s) (ts := ts) (t := t) (notes := notes) (k := k) hs).trans (passHeld_stays hg)
  rw [restOfTick_lone (stage2Slot_lone_notLive hl hw) h3 (selectorSlot_notLive hl _), meterSlot_held hs]

end

/-! ## A live booking (R84, R85, R90, R91) -/

/-- The state of a live booking after stages 2 and 3, where it does not end (R84, R91). -/
def liveStateAfter (nt : Word) (n : TickNote) (b : Booking) : BookingState :=
  if windowActs nt n b = true ∨ b.state = .extended then .extended
  else if planPasses nt n b = true ∨ b.state = .overrun then .overrun
  else .live

theorem liveStateAfter_isLive (nt : Word) (n : TickNote) (b : Booking) : (liveStateAfter nt n b).isLive = true := by
  unfold liveStateAfter
  split
  · rfl
  · split <;> rfl

section
variable (hl : b.state.isLive = true)
include hl

theorem stage2Slot_live (hx : windowActs t.nt (noteOf notes k) b = true → b.fields.extend = true) :
    stage2Slot t notes (s.lone ts k b) k = dropLegs k (noteOf notes k).dropped
      (s.lone ts k { b with state := if windowActs t.nt (noteOf notes k) b = true then .extended else b.state }) := by
  have hrun : b.state.isRunning = true := BookingState.isRunning_iff.2 (.inr hl)
  unfold stage2Slot
  rw [State.lone_booking]
  dsimp only
  rw [hrun, Bool.true_and]
  by_cases hw : windowActs t.nt (noteOf notes k) b = true
  · rw [if_pos hw, if_pos hw]
    unfold atWindowEnd
    obtain hs | hs | hs := BookingState.isLive_iff.1 hl
    · simp [hs, hx hw]
    · simp [hs, hx hw]
    · have hb : { b with state := .extended } = b := by rw [← hs]
      simp [hs, hx hw, hb]
  · rw [if_neg hw, if_neg hw]

theorem stage3Slot_live : stage3Slot t notes (s.lone ts k b) k =
    if b.state = .extended then s.lone ts k b
    else installAdded t.nt (noteOf notes k).added k
      (s.lone ts k { b with state := if planPasses t.nt (noteOf notes k) b = true ∨ b.state = .overrun then .overrun else .live }) := by
  unfold stage3Slot
  rw [State.lone_booking]
  obtain hs | hs | hs := BookingState.isLive_iff.1 hl
  · simp [hs, passPlan_lone _ _ _ _ hs]
  · have hb : { b with state := .overrun } = b := by rw [← hs]
    simp [hs, hb]
  · simp [hs]

end

theorem installAdded_nil (nt : Word) (k : Nat) (s : State) : installAdded nt [] k s = s := by
  unfold installAdded
  split
  · exact if_neg (by simp)
  · rfl

/-- A live booking whose legs stand goes through stages 2 and 3 by its state alone. -/
theorem stages23_live (hl : b.state.isLive = true) (hx : windowActs t.nt (noteOf notes k) b = true → b.fields.extend = true)
    (hd : (noteOf notes k).dropped = [])
    (ha : liveStateAfter t.nt (noteOf notes k) b ≠ .extended → (noteOf notes k).added = []) :
    ∃ b2, stage2Slot t notes (s.lone ts k b) k = s.lone ts k b2
      ∧ stage3Slot t notes (s.lone ts k b2) k = s.lone ts k { b with state := liveStateAfter t.nt (noteOf notes k) b } := by
  refine ⟨_, (stage2Slot_live hl hx).trans (by rw [hd, dropLegs_nil]), ?_⟩
  unfold liveStateAfter at ha ⊢
  by_cases hw : windowActs t.nt (noteOf notes k) b = true
  · rw [if_pos hw, stage3Slot_live rfl, if_pos rfl, if_pos (.inl hw)]
  · simp only [if_neg hw]
    rw [stage3Slot_live hl]
    by_cases hs : b.state = .extended
    · rw [if_pos hs, if_pos (.inr hs), ← hs]
    · have hno : ¬ (windowActs t.nt (noteOf notes k) b = true ∨ b.state = .extended) := by simp [hw, hs]
      rw [if_neg hno] at ha ⊢
      rw [if_neg hs, ha (by split <;> simp), installAdded_nil]

theorem restOfTick_live (hl : b.state.isLive = true) (hx : windowActs t.nt (noteOf notes k) b = true → b.fields.extend = true)
    (hd : (noteOf notes k).dropped = [])
    (ha : liveStateAfter t.nt (noteOf notes k) b ≠ .extended → (noteOf notes k).added = []) {s4 : State} {b4 : Booking}
    (h4 : selectorSlot t.nt (s.lone ts k { b with state := liveStateAfter t.nt (noteOf notes k) b }) k = s4.lone ts k b4)
    {ph : Phase} {c : FeedClass} (hph : phaseOf b4.state = some ph) (hc : s4.feedClassOf b4 = c) :
    restOfTick t notes (s.lone ts k b) = s4.lone ts k { b4 with meter := b4.meter.liveTick ph c t.stepped } := by
  obtain ⟨b2, h2, h3⟩ := stages23_live (s := s) (ts := ts) hl hx hd ha
  rw [restOfTick_lone h2 h3 h4, meterSlot_lone hph hc]

/-! ## On the main with no spare -/

/-- A booking on its main, with no spare and no countdown for the selector to end. -/
def Booking.Alone (b : Booking) : Prop :=
  b.fields.spare = none ∧ b.position = .onMain ∧ b.holdOffLeft = none ∧ b.wtrLeft = none ∧ b.afresh = false

theorem selectorSlot_alone (h : b.Alone) (hl : b.state.isLive = true) (nt : Word) :
    selectorSlot nt (s.lone ts k b) k = s.lone ts k b := by
  obtain ⟨hs, hp, hh, hw, ha⟩ := h
  refine selectorSlot_chosen hl ha hh hw ?_
  unfold State.choice
  rw [if_pos hs, hp]

theorem restOfTick_alone (h : b.Alone) (hl : b.state.isLive = true)
    (hx : windowActs t.nt (noteOf notes k) b = true → b.fields.extend = true) (hd : (noteOf notes k).dropped = [])
    (ha : liveStateAfter t.nt (noteOf notes k) b ≠ .extended → (noteOf notes k).added = []) {st : BookingState}
    (hst : liveStateAfter t.nt (noteOf notes k) b = st) {ph : Phase} (hph : phaseOf st = some ph) :
    restOfTick t notes (s.lone ts k b) = s.lone ts k
      { b with state := st, meter := b.meter.liveTick ph (s.feedClassOf b) t.stepped } := by
  have h4 := selectorSlot_alone (s := s) (ts := ts) (k := k) (b := { b with state := liveStateAfter t.nt (noteOf notes k) b }) h
    (liveStateAfter_isLive ..) t.nt
  rw [restOfTick_live hl hx hd ha h4 (by rw [hst]; exact hph) rfl, hst]
  rfl

end

end Sys2Proof.Machine
end

