-- ==== Sys2Proof/Proofs/LoneModification.lean ====
section
/-! A pending modification applied on the tick of the one booking of a table (R80, R81, R85, R90, R127), and what the tick is when no
changed threshold is reached. -/

namespace Sys2Proof.Machine

/-! ## What a modification makes of a record (R80, R81, R127) -/

/-- The record with a modification applied, its state left as it was. -/
def Booking.modified (b : Booking) (m : Mod) : Booking :=
  { selectorAfter b (m.apply b.fields) with fields := m.apply b.fields, pending := none }

/-- The state that the thresholds of the modification leave (R80). -/
def Booking.stateAfter (b : Booking) (m : Mod) (nt : Word) : BookingState :=
  stateBack nt (m.apply b.fields) (thresholdNote b.fields (m.apply b.fields)) b.state

section
variable {b : Booking} {m : Mod} {nt : Word}

theorem applied_record : (applied nt b m).1 = { b.modified m with state := b.stateAfter m nt } := rfl

/-- What a modification notes for the later stages (R81, R85, R90). -/
theorem applied_note : (applied nt b m).2 =
    { prerollChanged := decide ((m.apply b.fields).prerollPoint ≠ b.fields.prerollPoint)
      startChanged := decide ((m.apply b.fields).start ≠ b.fields.start)
      planChanged := decide ((m.apply b.fields).plannedEnd ≠ b.fields.plannedEnd)
      windowChanged := decide ((m.apply b.fields).windowEnd ≠ b.fields.windowEnd)
      dropped := if b.state.isLive then b.fields.legs.filter fun q => !(m.apply b.fields).legs.contains q else []
      added := if b.stateAfter m nt = .live ∨ b.stateAfter m nt = .overrun then
          (m.apply b.fields).legs.filter fun q => !b.fields.legs.contains q else [] } := by
  have hne (x y : Word) : (x != y) = decide (x ≠ y) := by rw [Bool.eq_iff_iff]; simp
  simp only [← hne]
  rfl

theorem selectorAfter_same {f : Fields} (h : b.fields.spare = none ∨ f.spare = b.fields.spare) : selectorAfter b f = b := by
  unfold selectorAfter
  refine if_neg ?_
  obtain h | h := h <;> simp [h]

theorem Booking.modified_fields : (b.modified m).fields = m.apply b.fields := rfl

theorem Booking.modified_state : (b.modified m).state = b.state := by
  unfold Booking.modified selectorAfter
  split <;> rfl

theorem Booking.stateAfter_isLive : (b.stateAfter m nt).isLive = b.state.isLive := (stateBack_same ..).1

/-- Where no threshold moves that the state stands on, the state stands. -/
theorem Booking.stateAfter_same (hpre : b.state = .preroll → (m.apply b.fields).prerollPoint = b.fields.prerollPoint)
    (hp : (m.apply b.fields).plannedEnd = b.fields.plannedEnd) (hw : (m.apply b.fields).windowEnd = b.fields.windowEnd) :
    b.stateAfter m nt = b.state := by
  unfold Booking.stateAfter stateBack thresholdNote
  cases hs : b.state with
  | preroll => simp [hpre hs]
  | overrun => simp [hp]
  | extended => simp [hw]
  | _ => rfl

/-! ## The sources it names no more (R35, R80) -/

/-- The sources that a booking names no more once a modification is applied. -/
def Booking.unnamed (b : Booking) (m : Mod) : List SrcId := b.named.filter fun i => !(b.modified m).named.contains i

theorem Mod.named_apply {f : Fields} {i : SrcId} (h : i ∈ m.named) : i ∈ (m.apply f).named := by
  rw [Fields.mem_named]
  obtain h | h := Mod.mem_named.1 h
  · exact .inl (by simp [Mod.apply, h])
  · exact .inr (by simp [Mod.apply, h])

theorem Booking.mem_modified_named {i : SrcId} : i ∈ (b.modified m).named ↔ i ∈ (m.apply b.fields).named := by
  rw [Machine.mem_named]
  refine ⟨?_, .inl⟩
  rintro (h | ⟨m', hm', -⟩)
  · exact h
  · cases hm'

theorem Booking.mem_unnamed (hm : b.pending = some m) {i : SrcId} :
    i ∈ b.unnamed m ↔ i ∈ b.fields.named ∧ i ∉ (m.apply b.fields).named := by
  unfold Booking.unnamed
  rw [List.mem_filter, Bool.not_eq_true', List.contains_eq_mem, decide_eq_false_iff_not, Booking.mem_modified_named, Machine.mem_named]
  constructor
  · rintro ⟨h | ⟨m', hm', h⟩, hno⟩
    · exact ⟨h, hno⟩
    · rw [hm] at hm'
      cases hm'
      exact absurd (Mod.named_apply h) hno
  · exact fun ⟨h, hno⟩ => ⟨.inl h, hno⟩

theorem Booking.unnamed_nil (hm : b.pending = some m) (h : ∀ i ∈ b.fields.named, i ∈ (m.apply b.fields).named) : b.unnamed m = [] :=
  List.eq_nil_iff_forall_not_mem.2 fun i hi => by
    obtain ⟨hin, hno⟩ := (Booking.mem_unnamed hm).1 hi
    exact hno (h i hin)

theorem Booking.unnamed_one (hm : b.pending = some m) {j : SrcId}
    (h : ∀ i, i ∈ b.fields.named ∧ i ∉ (m.apply b.fields).named ↔ i = j) : b.unnamed m = [j] := by
  have hnodup : b.named.Nodup := once_nodup _
  refine List.perm_singleton.1 ((List.perm_ext_iff_of_nodup (hnodup.filter _) (List.nodup_singleton j)).2 fun i => ?_)
  rw [List.mem_singleton, ← h i]
  exact Booking.mem_unnamed hm

end

/-! ## Stage 1 (R80) -/

section
variable {t : Tick} {s : State} {ts : List Tick} {k : Nat} {b : Booking} {m : Mod}

theorem State.moveRefs_fewer (s : State) (n : Nat) {before after : List SrcId} (h : ∀ i ∈ after, i ∈ before) :
    s.moveRefs n before after = (before.filter fun i => !after.contains i).foldl State.loseRef s := by
  have hnone : (after.filter fun i => !before.contains i) = [] := List.filter_eq_nil_iff.2 fun i hi => by simpa using h i hi
  unfold State.moveRefs
  rw [hnone]
  rfl

theorem stage1_lone_applies (hm : b.pending = some m) (hend : b.state.isEnded = false) (he : b.endPending = false) :
    stage1 t (s.lone ts k b) = (((b.unnamed m).foldl State.loseRef s).lone ts k { b.modified m with state := b.stateAfter m t.nt },
      [(k, (applied t.nt b m).2)]) := by
  have hslot : stage1 t (s.lone ts k b) = stage1Slot t (s.lone ts k b, []) k := rfl
  have hsub := applied_named (nt := t.nt) hm
  have hlost : (b.named.filter fun i => !(applied t.nt b m).1.named.contains i) = b.unnamed m := rfl
  have hend' : (applied t.nt b m).1.endPending = false := by
    unfold applied selectorAfter
    dsimp only
    split <;> exact he
  rw [hslot]
  unfold stage1Slot
  simp only [State.lone_booking, hend, hm]
  rw [if_neg (by simp), State.lone_setBooking, State.moveRefs_fewer _ _ hsub, hlost, State.loseRefs_lone]
  unfold endIfPending
  rw [State.lone_booking]
  dsimp only
  rw [if_neg (by simp [hend'])]
  rfl

theorem wholeTick_lone_applies (hm : b.pending = some m) (hend : b.state.isEnded = false) (he : b.endPending = false) :
    wholeTick t (s.lone ts k b) = restOfTick t [(k, (applied t.nt b m).2)]
      (((b.unnamed m).foldl State.loseRef s).lone ts k { b.modified m with state := b.stateAfter m t.nt }) := by
  rw [wholeTick_eq, stage1_lone_applies hm hend he]

end

theorem noteOf_self (k : Nat) (n : TickNote) : noteOf [(k, n)] k = n := by simp [noteOf, tabFind]

/-! ## No changed threshold is reached -/

/-- A note that says nothing to the later stages of the tick, for the booking as stage 1 leaves it. -/
structure TickNote.Mute (n : TickNote) (nt : Word) (b : Booking) : Prop where
  preroll : n.prerollChanged = true → reached nt b.fields.prerollPoint = false
  start : n.startChanged = true → reached nt b.fields.start = false
  plan : n.planChanged = true → reached nt b.fields.plannedEnd = false
  window : n.windowChanged = true → reached nt b.fields.windowEnd = false ∧ b.state ≠ .extended
  dropped : n.dropped = []
  added : n.added = []

theorem and_not_of_imp {x c : Bool} (h : c = true → x = false) : (x && !c) = x := by
  cases c <;> simp_all

namespace TickNote.Mute
variable {n : TickNote} {t : Tick} {b c : Booking} {s : State} {ts : List Tick} {k : Nat} (h : n.Mute t.nt b)
include h

theorem windowActs : windowActs t.nt n b = Machine.windowActs t.nt .nothing b := by
  have hw : (windowReached t.nt b && !n.windowChanged) = windowReached t.nt b := and_not_of_imp fun hc => by
    obtain ⟨hr, hs⟩ := h.window hc
    simp [windowReached, hr, hs]
  have hp : (n.planChanged && reached t.nt b.fields.plannedEnd) = false := by
    cases hc : n.planChanged with
    | false => rfl
    | true => rw [h.plan hc]; rfl
  unfold Machine.windowActs
  rw [hw, Bool.and_assoc ((b.state == .held) || (b.state == .live)), hp]
  simp [TickNote.nothing]

variable (hf : c.fields = b.fields)
include hf

theorem planPasses : planPasses t.nt n c = Machine.planPasses t.nt .nothing c := by
  have hp := and_not_of_imp h.plan
  unfold Machine.planPasses
  rw [hf, hp]
  simp [TickNote.nothing]

theorem startPasses : startPasses t.nt n c = Machine.startPasses t.nt .nothing c := by
  have hp := and_not_of_imp h.start
  unfold Machine.startPasses
  rw [hf, hp]
  simp [TickNote.nothing]

theorem prerollPasses : prerollPasses t.nt n c = Machine.prerollPasses t.nt .nothing c := by
  have hp := and_not_of_imp h.preroll
  unfold Machine.prerollPasses
  rw [hf, hp]
  simp [TickNote.nothing]

theorem goLive (hne : c.state ≠ .extended) : goLive t.nt n k c (s.lone ts k c) = Machine.goLive t.nt .nothing k c (s.lone ts k c) := by
  rw [goLive_lone hne, goLive_lone hne, h.planPasses hf]

theorem passStart (hne : c.state ≠ .extended) :
    passStart t.nt n k c (s.lone ts k c) = Machine.passStart t.nt .nothing k c (s.lone ts k c) := by
  have hs := h.startPasses hf
  unfold Machine.startPasses at hs
  unfold Machine.passStart
  rw [hs, h.goLive hf hne]

theorem passEarly (hc : c = b) (hs : c.state = .booked ∨ c.state = .preroll) :
    passEarly t n k c (s.lone ts k c) = Machine.passEarly t .nothing k c (s.lone ts k c) := by
  have hw := h.windowActs
  have hp := h.prerollPasses hf
  rw [← hc] at hw
  unfold Machine.prerollPasses at hp
  unfold Machine.passEarly
  have hstays := h.passStart (s := s) (ts := ts) (k := k) hf (by obtain hs | hs := hs <;> simp [hs])
  have hstart := h.passStart (s := s) (ts := ts) (k := k) (c := { c with state := .preroll }) hf (by simp)
  simp only [hw, hp, State.lone_setBooking, hstart, hstays]

theorem stage3Slot (hc : c.state = .booked ∨ c.state = .preroll → c = b) :
    stage3Slot t [(k, n)] (s.lone ts k c) k = Machine.stage3Slot t [] (s.lone ts k c) k := by
  have hnone : noteOf [] k = .nothing := rfl
  have hadded : n.added = TickNote.nothing.added := h.added
  unfold Machine.stage3Slot
  rw [State.lone_booking, noteOf_self, hnone]
  dsimp only
  cases hs : c.state with
  | booked => exact h.passEarly hf (hc (.inl hs)) (.inl hs)
  | preroll => exact h.passEarly hf (hc (.inr hs)) (.inr hs)
  | held =>
    dsimp only
    unfold passHeld
    rw [h.goLive hf (by simp [hs])]
  | live =>
    dsimp only
    rw [passPlan_lone _ _ _ _ hs, passPlan_lone _ _ _ _ hs, h.planPasses hf, hadded]
  | overrun =>
    dsimp only
    rw [hadded]
  | extended => rfl
  | ended bill => rfl

omit hf in
/-- Stages 2 to 5 go as if nothing had been noted. -/
theorem restOfTick (hend : b.state.isEnded = false) :
    restOfTick t [(k, n)] (s.lone ts k b) = Machine.restOfTick t [] (s.lone ts k b) := by
  have hnone : noteOf [] k = .nothing := rfl
  have hself : Machine.windowActs t.nt (noteOf [(k, n)] k) b = Machine.windowActs t.nt .nothing b := by rw [noteOf_self, h.windowActs]
  have hdropped : (noteOf [(k, n)] k).dropped = [] := by rw [noteOf_self, h.dropped]
  have hstages {c : Booking} (hf : c.fields = b.fields) (hc : c.state = .booked ∨ c.state = .preroll → c = b)
      (h2 : stage2Slot t [(k, n)] (s.lone ts k b) k = s.lone ts k c) (h2' : stage2Slot t [] (s.lone ts k b) k = s.lone ts k c) :
      Machine.restOfTick t [(k, n)] (s.lone ts k b) = Machine.restOfTick t [] (s.lone ts k b) := by
    have e2 : stage2 t [(k, n)] (s.lone ts k b) = s.lone ts k c := h2
    have e2' : stage2 t [] (s.lone ts k b) = s.lone ts k c := h2'
    have e3 : stage3 t [(k, n)] (s.lone ts k c) = stage3 t [] (s.lone ts k c) := h.stage3Slot hf hc
    unfold Machine.restOfTick
    rw [e2, e2', e3]
  by_cases hacts : Machine.windowActs t.nt .nothing b = true
  · by_cases hx : b.state.isLive = true ∧ b.fields.extend = true
    · obtain ⟨hl, hx⟩ := hx
      refine hstages (c := { b with state := .extended }) rfl (by simp) ?_ ?_
      · rw [stage2Slot_live hl fun _ => hx, hself, if_pos hacts, hdropped, dropLegs_nil]
      · rw [stage2Slot_live hl fun _ => hx, hnone, if_pos hacts]
        exact dropLegs_nil ..
    · have hx : b.state.isLive = true → b.fields.extend = false := fun hl => by simpa [hl] using hx
      rw [restOfTick_ends hend (hself.trans hacts) hx, restOfTick_ends hend hacts hx]
  · have hacts : Machine.windowActs t.nt .nothing b = false := by simpa using hacts
    refine hstages rfl (fun _ => rfl) ?_ ?_
    · rw [stage2Slot_rests fun _ => hself.trans hacts, hdropped, dropLegs_nil]
    · rw [stage2Slot_rests fun _ => hacts]
      exact dropLegs_nil ..

end TickNote.Mute

end Sys2Proof.Machine
end

