-- ==== Sys2Proof/Proofs/LoneThresholds.lean ====
section
/-! The thresholds of the one booking of a table (R80, R81, R84 to R87, R90, R91, R127, R138): the cases of O39, each by the rule of its
tick. -/

namespace Sys2Proof.Machine

/-! ## Passages with nothing noted -/

section
variable {nt : Word} {b : Booking}

theorem windowActs_nothing : windowActs nt .nothing b = windowReached nt b := by
  simp [windowActs, TickNote.nothing]

theorem windowReached_iff : windowReached nt b = true ↔ reached nt b.fields.windowEnd = true ∨ b.state = .extended := by
  simp [windowReached]

theorem prerollPasses_nothing : prerollPasses nt .nothing b = reached nt b.fields.prerollPoint := by
  simp [prerollPasses, TickNote.nothing]

theorem startPasses_nothing : startPasses nt .nothing b = reached nt b.fields.start := by
  simp [startPasses, TickNote.nothing]

theorem planPasses_nothing : planPasses nt .nothing b = reached nt b.fields.plannedEnd := by
  simp [planPasses, TickNote.nothing]

/-- The state of a live booking after stages 2 and 3 when no threshold has been changed. -/
theorem liveStateAfter_unchanged {n : TickNote} (hp : n.planChanged = false) (hw : n.windowChanged = false) : liveStateAfter nt n b =
    if reached nt b.fields.windowEnd = true ∨ b.state = .extended then .extended
    else if reached nt b.fields.plannedEnd = true ∨ b.state = .overrun then .overrun
    else .live := by
  have hacts : windowActs nt n b = windowReached nt b := by simp [windowActs, hp, hw]
  have hplan : planPasses nt n b = reached nt b.fields.plannedEnd := by simp [planPasses, hp]
  unfold liveStateAfter
  rw [hacts, hplan]
  simp only [windowReached_iff, or_assoc, or_self]

theorem State.isHolding_of {s : State} {x : Group} (h1 : 1 ≤ b.fields.group) (hx : s.groups[b.fields.group - 1]? = some x)
    (hh : x.state = .holding) : s.isHolding b = true ∧ ∀ g : Nat, g = b.fields.group → s.joinGroup g
      = { s with groups := s.groups.setIfInBounds (g - 1) { x with held := x.held + 1 } } := by
  have hgroup : s.groupOf b.fields.group = some x := (State.groupOf_place h1).trans hx
  constructor
  · unfold State.isHolding
    rw [hgroup]
    simp [hh]
  · rintro g rfl
    unfold State.joinGroup
    rw [hgroup]
    exact State.setGroup_place h1 _

end

/-! ## Legs dropped and added (R85, R90) -/

theorem tabPut_self {α : Type} {t : List (Nat × α)} (h : Rising t) {k : Nat} {x : α} (hx : tabFind t k = some x) : tabPut t k x = t := by
  induction t with
  | nil => cases hx
  | cons e r ih =>
    obtain ⟨j, y⟩ := e
    unfold tabFind at hx
    unfold tabPut
    by_cases hj : j = k
    · rw [if_pos hj] at hx
      cases hx
      rw [if_neg (by omega), if_pos hj.symm, hj]
    · rw [if_neg hj] at hx
      have hlt := h.head_lt _ (tabFind_mem hx)
      rw [if_neg (Nat.lt_asymm hlt), if_neg (Ne.symm hj), ih h.tail hx]

theorem tabPut_tabPut {α : Type} (t : List (Nat × α)) (k : Nat) (x y : α) : tabPut (tabPut t k x) k y = tabPut t k y := by
  induction t with
  | nil => simp [tabPut]
  | cons e r ih =>
    obtain ⟨j, z⟩ := e
    by_cases hlt : k < j
    · simp [tabPut, hlt]
    · by_cases hj : k = j
      · simp [tabPut, hj]
      · simp [tabPut, hlt, hj, ih]

theorem TablesInForm.setSource_self {s : State} (h : TablesInForm s) {i : SrcId} {x : Source} (hx : s.source i = some x) :
    s.setSource x = s := by
  unfold State.setSource
  rw [h.source_id hx, tabPut_self h.sources hx]

theorem State.setSource_setSource (s : State) {x y : Source} (h : y.id = x.id) : (s.setSource x).setSource y = s.setSource y := by
  unfold State.setSource
  dsimp only
  rw [h, tabPut_tabPut]

section
variable {s : State} {ts : List Tick} {k : Nat} {b : Booking} {x : Source}

/-- The legs of a slot's booking that are dropped, and the list that is kept (R48, R85). -/
def Source.dropped (x : Source) (k : Nat) (ps : List Pair) : List Leg := x.legs.filter fun l => l.owner == k && ps.contains l.pair
def Source.kept (x : Source) (k : Nat) (ps : List Pair) : Source :=
  { x with legs := x.legs.filter fun l => !(l.owner == k && ps.contains l.pair) }

theorem dropLegs_lone (hT : TablesInForm s) (hl : b.state.isLive = true) (hx : s.source b.selected = some x) (ps : List Pair) :
    dropLegs k ps (s.lone ts k b) = (s.setSource (x.kept k ps)).lone ts k
      { b with
        delivered := b.delivered + sumLegs Leg.sent (x.dropped k ps), dropped := b.dropped + sumLegs Leg.dropped (x.dropped k ps) } := by
  unfold dropLegs Source.kept Source.dropped
  rw [State.lone_booking]
  dsimp only
  by_cases hps : ps = []
  · rw [if_neg (by simp [hps]), hps]
    simp [sumLegs, hT.setSource_self hx]
  · rw [if_pos ⟨hl, hps⟩]
    unfold State.takeLegs State.removeLegs
    rw [State.lone_source, hx]
    simp

theorem installAdded_lone {nt : Word} {ps : List Pair} (hT : TablesInForm s) (hst : b.state = .live ∨ b.state = .overrun)
    (hx : s.source b.selected = some x) (htaken : ps = [] ∨ s.installCheck b.selected ps = .taken) :
    installAdded nt ps k (s.lone ts k b) = (s.setSource { x with legs := x.legs ++ ps.map (newLeg k) }).lone ts k b := by
  by_cases hps : ps = []
  · rw [hps, installAdded_nil]
    simp [hT.setSource_self hx]
  · have hne : b.state ≠ .extended := by obtain h | h := hst <;> simp [h]
    unfold installAdded
    rw [State.lone_booking]
    dsimp only
    rw [if_pos ⟨hst, hps⟩, (State.lone_noneExtended hne).clearGround, State.install_lone,
      State.install_taken hx (htaken.resolve_left hps)]

variable {t : Tick} {notes : Notes}

/-- A record in the state `st`, the sums of the legs that have gone added to its totals (R48, R85). -/
def Booking.totalled (b : Booking) (gone : List Leg) (st : BookingState) : Booking :=
  { b with state := st, delivered := b.delivered + sumLegs Leg.sent gone, dropped := b.dropped + sumLegs Leg.dropped gone }

/-- A live booking on its main whose legs change: the dropped ones leave the list with their sums, the added ones come to its end. -/
theorem restOfTick_legs (hT : TablesInForm s) (h : b.Alone) (hl : b.state.isLive = true)
    (hx : windowActs t.nt (noteOf notes k) b = true → b.fields.extend = true) (hmain : s.source b.fields.main = some x) {st : BookingState}
    (hst : liveStateAfter t.nt (noteOf notes k) b = st) {ph : Phase} (hph : phaseOf st = some ph) {dropped added : List Pair}
    (hd : (noteOf notes k).dropped = dropped) (hadded : added = if st = .extended then [] else (noteOf notes k).added)
    (htaken : added = [] ∨ (s.setSource (x.kept k dropped)).installCheck b.fields.main added = .taken) :
    restOfTick t notes (s.lone ts k b) =
      (s.setSource { x with legs := (x.kept k dropped).legs ++ added.map (newLeg k) }).lone ts k
        { b with
          state := st, delivered := b.delivered + sumLegs Leg.sent (x.dropped k dropped)
          dropped := b.dropped + sumLegs Leg.dropped (x.dropped k dropped)
          meter := b.meter.liveTick ph (s.feedClassOf b) t.stepped } := by
  have hsel (c : Booking) (hf : c.fields = b.fields) (hp : c.position = b.position) : c.selected = b.fields.main := by
    unfold Booking.selected
    rw [hp, h.2.1, hf]
  have hid : x.id = b.fields.main := hT.source_id hmain
  have hkept : (s.setSource (x.kept k dropped)).source b.fields.main = some (x.kept k dropped) := by
    rw [← hid]
    exact State.setSource_source_self s (x.kept k dropped)
  let st2 : BookingState := if windowActs t.nt (noteOf notes k) b = true then .extended else b.state
  have hl2 : st2.isLive = true := by
    unfold st2
    split
    · rfl
    · exact hl
  have h2 : stage2Slot t notes (s.lone ts k b) k = (s.setSource (x.kept k dropped)).lone ts k (b.totalled (x.dropped k dropped) st2) := by
    rw [stage2Slot_live hl hx, hd]
    exact dropLegs_lone (b := { b with state := st2 }) hT hl2 ((congrArg s.source (hsel _ rfl rfl)).trans hmain) dropped
  have h3 : stage3Slot t notes ((s.setSource (x.kept k dropped)).lone ts k (b.totalled (x.dropped k dropped) st2)) k =
      (s.setSource { x with legs := (x.kept k dropped).legs ++ added.map (newLeg k) }).lone ts k (b.totalled (x.dropped k dropped) st) := by
    rw [stage3Slot_live hl2]
    unfold liveStateAfter at hst
    by_cases hext : windowActs t.nt (noteOf notes k) b = true ∨ b.state = .extended
    · have hst2 : st2 = .extended := by
        unfold st2
        obtain h | h := hext
        · exact if_pos h
        · rw [h, ite_self]
      rw [if_pos hext] at hst
      rw [if_pos (show (b.totalled (x.dropped k dropped) st2).state = .extended from hst2), hadded, ← hst, if_pos rfl, hst2]
      simp [Source.kept]
    · obtain ⟨hw, hne⟩ := not_or.1 hext
      have hst2 : st2 = b.state := if_neg hw
      rw [if_neg hext] at hst
      have hst' : st = .live ∨ st = .overrun := by rw [← hst]; split <;> simp
      rw [if_neg (show ¬ (b.totalled (x.dropped k dropped) st2).state = .extended from hst2 ▸ hne), hst2]
      rw [if_neg (by obtain h | h := hst' <;> simp [h])] at hadded
      have hinstall := installAdded_lone (ts := ts) (k := k) (b := b.totalled (x.dropped k dropped) st) (nt := t.nt)
        (hT.setSource (x.kept k dropped)) hst'
        ((congrArg _ (hsel (b.totalled (x.dropped k dropped) st) rfl rfl)).trans hkept)
        (htaken.imp_right fun h => (congrArg (State.installCheck _ · added) (hsel (b.totalled (x.dropped k dropped) st) rfl rfl)).trans h)
      have hcollapse := State.setSource_setSource s (x := x.kept k dropped)
        (y := { x with legs := (x.kept k dropped).legs ++ added.map (newLeg k) }) rfl
      rw [← hadded]
      refine Eq.trans ?_ (hinstall.trans (congrArg (State.lone · ts k (b.totalled (x.dropped k dropped) st)) hcollapse))
      rw [← hst]
      rfl
  have halone : (b.totalled (x.dropped k dropped) st).Alone := h
  have hlive : st.isLive = true := hst ▸ liveStateAfter_isLive ..
  have hwatch := State.watchOf_setSource (s := s) (x := x) (y := { x with legs := (x.kept k dropped).legs ++ added.map (newLeg k) })
    (hid ▸ hmain) rfl rfl
  rw [restOfTick_lone h2 h3 (selectorSlot_alone halone hlive t.nt)]
  exact meterSlot_lone hph (State.feedClassOf_congr (hwatch _) rfl rfl rfl)

end

/-! ## The selector's conditions (R117, R120 to R122) -/

section
variable {s : State} {ts : List Tick} {k : Nat} {b : Booking}

theorem State.spareFailedCondition_iff {f : Fields} {sp : SrcId} (hs : f.spare = some sp) :
    s.spareFailedCondition f = true ↔ s.watchOf sp = .failed ∧ s.watchOf f.main ≠ .failed := by
  simp [State.spareFailedCondition, State.spareWatch, hs]

theorem State.restoreCondition_iff {f : Fields} : s.restoreCondition f = true ↔ f.revertive = true ∧ s.watchOf f.main = .ok := by
  simp [State.restoreCondition]

/-- A booking on a main in OK, with no countdown running and no request for its spare, is left there. -/
theorem selectorSlot_mainOk (hl : b.state.isLive = true) (ha : b.afresh = false) (hh : b.holdOffLeft = none) (hw : b.wtrLeft = none)
    (hp : b.position = .onMain) (hr : b.request ≠ .forceSpare) (hok : s.watchOf b.fields.main = .ok) (nt : Word) :
    selectorSlot nt (s.lone ts k b) k = s.lone ts k b := by
  refine selectorSlot_chosen hl ha hh hw ?_
  have hf : s.failureCondition b.fields = false := by
    unfold State.failureCondition
    rw [hok]
    rfl
  unfold State.choice
  rw [hp, hf]
  cases hq : b.request <;> simp_all

end

end Sys2Proof.Machine
end

