-- ==== Sys2Proof/Proofs/LoneModifiedTick.lean ====
section
/-! The tick on which the modification of the one booking of a table is applied, case by case (R80, R81, R84 to R87, R90, R91, R127). -/

namespace Sys2Proof.Machine

/-! ## The record and the notes that stage 1 leaves -/

/-- The record after stage 1: the modification applied, the state following its thresholds (R80). -/
def Booking.appliedAt (b : Booking) (m : Mod) (nt : Word) : Booking := { b.modified m with state := b.stateAfter m nt }

/-- The state after the references of sources no longer named are lost (R35, R80). -/
def State.losing (s : State) (b : Booking) (m : Mod) : State := (b.unnamed m).foldl State.loseRef s

/-- The window end acts on the applying tick: it is reached, or counts as reached, the modification leaves it, and the booking does not
stop before it at a changed planned end (R81, R84). -/
def Booking.EndsAfter (b : Booking) (m : Mod) (nt : Word) : Prop :=
  (reached nt (m.apply b.fields).windowEnd = true ∨ b.stateAfter m nt = .extended)
    ∧ (m.apply b.fields).windowEnd = b.fields.windowEnd
    ∧ ¬ ((b.stateAfter m nt = .held ∨ b.stateAfter m nt = .live) ∧ (m.apply b.fields).plannedEnd ≠ b.fields.plannedEnd
      ∧ reached nt (m.apply b.fields).plannedEnd = true)

section
variable {b : Booking} {m : Mod} {nt : Word}

theorem windowActs_applied : windowActs nt (applied nt b m).2 (b.appliedAt m nt) = true ↔ b.EndsAfter m nt := by
  rw [applied_note]
  unfold windowActs windowReached Booking.EndsAfter Booking.appliedAt
  simp [Booking.modified_fields]
  tauto

theorem prerollPasses_applied : prerollPasses nt (applied nt b m).2 (b.appliedAt m nt) = true
    ↔ reached nt (m.apply b.fields).prerollPoint = true ∧ (m.apply b.fields).prerollPoint = b.fields.prerollPoint := by
  rw [applied_note]
  unfold prerollPasses Booking.appliedAt
  simp [Booking.modified_fields]

theorem startPasses_applied : startPasses nt (applied nt b m).2 (b.appliedAt m nt) = true
    ↔ reached nt (m.apply b.fields).start = true ∧ (m.apply b.fields).start = b.fields.start := by
  rw [applied_note]
  unfold startPasses Booking.appliedAt
  simp [Booking.modified_fields]

theorem planPasses_applied : planPasses nt (applied nt b m).2 (b.appliedAt m nt) = true
    ↔ reached nt (m.apply b.fields).plannedEnd = true ∧ (m.apply b.fields).plannedEnd = b.fields.plannedEnd := by
  rw [applied_note]
  unfold planPasses Booking.appliedAt
  simp [Booking.modified_fields]

theorem applied_dropped (hl : b.state.isLive = true → (m.apply b.fields).legs = b.fields.legs) : (applied nt b m).2.dropped = [] := by
  rw [applied_note]
  dsimp only
  split
  · next h => simp [hl h]
  · rfl

theorem applied_added (hl : b.state.isLive = true → (m.apply b.fields).legs = b.fields.legs) : (applied nt b m).2.added = [] := by
  rw [applied_note]
  dsimp only
  split
  · next h =>
    have hlive : b.state.isLive = true := by
      rw [← Booking.stateAfter_isLive (m := m) (nt := nt)]
      obtain h | h := h <;> rw [h] <;> rfl
    simp [hl hlive]
  · rfl

theorem Booking.stateAfter_extended (h : b.stateAfter m nt = .extended) :
    (m.apply b.fields).windowEnd = b.fields.windowEnd ∨ reached nt (m.apply b.fields).windowEnd = true := by
  by_contra hno
  obtain ⟨hne, hr⟩ := not_or.1 hno
  have hr : reached nt (m.apply b.fields).windowEnd = false := by simpa using hr
  unfold Booking.stateAfter stateBack thresholdNote at h
  cases hs : b.state with
  | extended =>
    rw [hs] at h
    dsimp only at h
    rw [if_pos (by simp [hne, hr])] at h
    split at h <;> cases h
  | preroll =>
    rw [hs] at h
    dsimp only at h
    split at h <;> cases h
  | overrun =>
    rw [hs] at h
    dsimp only at h
    split at h <;> cases h
  | _ =>
    rw [hs] at h
    cases h

theorem Booking.modified_alone (hal : b.Alone) (hsp : (m.apply b.fields).spare = none) : (b.modified m).Alone := by
  obtain ⟨hs, hp, hh, hw, haf⟩ := hal
  have hsel : selectorAfter b (m.apply b.fields) = b := selectorAfter_same (.inl hs)
  unfold Booking.modified
  rw [hsel]
  exact ⟨hsp, hp, hh, hw, haf⟩

theorem Booking.modified_meter : (b.modified m).meter = b.meter := by
  unfold Booking.modified selectorAfter
  split <;> rfl

end

/-! ## The tick -/

/-- The tick `t` is about to be taken on a table of one booking, not ended and with no END waiting, whose modification is `m`. -/
structure ModifiedTick (s : State) (k : Nat) (b : Booking) (t : Tick) (rest : List Tick) (m : Mod) : Prop where
  awake : s.inReset = false
  tick : s.bookingTicks = t :: rest
  table : s.bookings = [(k, b)]
  noEnd : b.endPending = false
  pending : b.pending = some m
  active : b.state.isEnded = false

namespace ModifiedTick
variable {s : State} {k : Nat} {b : Booking} {t : Tick} {rest : List Tick} {m : Mod} (h : ModifiedTick s k b t rest m)
include h

theorem exec_eq {v : State} (hv : restOfTick t [(k, (applied t.nt b m).2)] ((s.losing b m).lone rest k (b.appliedAt m t.nt)) = v) :
    exec .bookingTick s = .next v := by
  rw [exec_bookingTick_lone h.awake h.tick h.table, wholeTick_lone_applies h.pending h.active h.noEnd]
  exact congrArg _ hv

theorem losing_same (hn : ∀ i ∈ b.fields.named, i ∈ (m.apply b.fields).named) : s.losing b m = s := by
  unfold State.losing
  rw [Booking.unnamed_nil h.pending hn]
  rfl

/-- No changed threshold is reached: the tick is that of the modified record. -/
theorem mute (hpre : (m.apply b.fields).prerollPoint ≠ b.fields.prerollPoint → reached t.nt (m.apply b.fields).prerollPoint = false)
    (hstart : (m.apply b.fields).start ≠ b.fields.start → reached t.nt (m.apply b.fields).start = false)
    (hplan : (m.apply b.fields).plannedEnd ≠ b.fields.plannedEnd → reached t.nt (m.apply b.fields).plannedEnd = false)
    (hwin : (m.apply b.fields).windowEnd ≠ b.fields.windowEnd → reached t.nt (m.apply b.fields).windowEnd = false)
    (hlegs : b.state.isLive = true → (m.apply b.fields).legs = b.fields.legs) :
    exec .bookingTick s = exec .bookingTick ((s.losing b m).lone s.bookingTicks k (b.appliedAt m t.nt)) := by
  have hended : (b.appliedAt m t.nt).state.isEnded = false := (stateBack_same ..).2.1.trans h.active
  have hmute : (applied t.nt b m).2.Mute t.nt (b.appliedAt m t.nt) := by
    have hdropped := applied_dropped (nt := t.nt) hlegs
    have hadded := applied_added (nt := t.nt) hlegs
    rw [applied_note] at hdropped hadded ⊢
    refine ⟨fun hc => hpre (of_decide_eq_true hc), fun hc => hstart (of_decide_eq_true hc), fun hc => hplan (of_decide_eq_true hc),
      fun hc => ⟨hwin (of_decide_eq_true hc), fun hext => ?_⟩, hdropped, hadded⟩
    have hne := of_decide_eq_true hc
    obtain hsame | hr := Booking.stateAfter_extended hext
    · exact hne hsame
    · rw [hwin hne] at hr
      cases hr
  have hnoEnd : (b.appliedAt m t.nt).endPending = false := by
    unfold Booking.appliedAt Booking.modified selectorAfter
    dsimp only
    split <;> exact h.noEnd
  have hawake : ((s.losing b m).lone s.bookingTicks k (b.appliedAt m t.nt)).inReset = false :=
    (foldl_same State.inReset State.loseRef (by simp) _ s).trans h.awake
  rw [exec_bookingTick_lone hawake h.tick rfl]
  refine h.exec_eq ?_
  rw [hmute.restOfTick hended]
  exact (wholeTick_lone rfl hnoEnd).symm

theorem booked (hno : ¬ b.EndsAfter m t.nt) (hst : b.stateAfter m t.nt = .booked)
    (hp : reached t.nt (m.apply b.fields).prerollPoint = false ∨ (m.apply b.fields).prerollPoint ≠ b.fields.prerollPoint) :
    exec .bookingTick s = .next ((s.losing b m).lone rest k { b.modified m with state := .booked }) := by
  have hw := (Bool.eq_false_iff).2 (mt windowActs_applied.1 hno)
  have hpre : prerollPasses t.nt (applied t.nt b m).2 (b.appliedAt m t.nt) = false :=
    Bool.eq_false_iff.2 fun hp' => by
      obtain ⟨hr, he⟩ := prerollPasses_applied.1 hp'
      obtain hp | hp := hp
      · rw [hp] at hr; cases hr
      · exact hp he
  rw [← noteOf_self k (applied t.nt b m).2] at hw hpre
  refine h.exec_eq ((restOfTick_booked hw hst hpre).trans ?_)
  unfold Booking.appliedAt
  rw [hst]

theorem preroll (hno : ¬ b.EndsAfter m t.nt)
    (hst : b.stateAfter m t.nt = .preroll ∨ b.stateAfter m t.nt = .booked ∧ reached t.nt (m.apply b.fields).prerollPoint = true
      ∧ (m.apply b.fields).prerollPoint = b.fields.prerollPoint)
    (hp : reached t.nt (m.apply b.fields).start = false ∨ (m.apply b.fields).start ≠ b.fields.start) :
    exec .bookingTick s = .next ((s.losing b m).lone rest k { b.modified m with state := .preroll }) := by
  have hw := (Bool.eq_false_iff).2 (mt windowActs_applied.1 hno)
  have hearly := hst.imp_right fun hb => (⟨hb.1, prerollPasses_applied.2 hb.2⟩ : _ ∧ _)
  have hstart : startPasses t.nt (applied t.nt b m).2 (b.appliedAt m t.nt) = false :=
    Bool.eq_false_iff.2 fun hp' => by
      obtain ⟨hr, he⟩ := startPasses_applied.1 hp'
      obtain hp | hp := hp
      · rw [hp] at hr; cases hr
      · exact hp he
  rw [← noteOf_self k (applied t.nt b m).2] at hw hearly hstart
  exact h.exec_eq (restOfTick_preroll hw hearly hstart)

theorem held (hno : ¬ b.EndsAfter m t.nt) (hst : b.stateAfter m t.nt = .held)
    (hg : reached t.nt (m.apply b.fields).windowEnd = true ∨ s.isHolding (b.modified m) = true) :
    exec .bookingTick s = .next ((s.losing b m).lone rest k { b.modified m with meter := b.meter.heldTick t.stepped }) := by
  have hw := (Bool.eq_false_iff).2 (mt windowActs_applied.1 hno)
  have hgroups : (s.losing b m).groups = s.groups := foldl_same State.groups State.loseRef (by simp) _ s
  have hholding : (s.losing b m).isHolding (b.appliedAt m t.nt) = s.isHolding (b.modified m) := by
    unfold State.isHolding
    rw [State.groupOf_congr hgroups]
    rfl
  have hback : b.state = .held := (stateBack_same ..).2.2.1.1 hst
  rw [← noteOf_self k (applied t.nt b m).2] at hw
  refine h.exec_eq ((restOfTick_held hw hst (hg.imp_right hholding.trans)).trans ?_)
  unfold Booking.appliedAt
  dsimp only
  rw [hst, Booking.modified_meter, ← hback, ← Booking.modified_state (b := b) (m := m)]

theorem ends (hyes : b.EndsAfter m t.nt) (hx : (b.stateAfter m t.nt).isLive = false ∨ (m.apply b.fields).extend = false)
    (hn : s.bills.records.length < 64) :
    ∃ v bill, exec .bookingTick s = .next v ∧ v.bookings = [] ∧ v.bills.records = s.bills.records ++ [⟨s.bills.next, bill⟩]
      ∧ bill.ref = b.ref ∧ bill.outcome = .endedAtLimit ∧ bill.endNt = t.nt := by
  have hw := windowActs_applied.2 hyes
  have hended : (b.appliedAt m t.nt).state.isEnded = false := (stateBack_same ..).2.1.trans h.active
  have hbills : (s.losing b m).bills = s.bills := foldl_same State.bills State.loseRef (by simp) _ s
  let u := (s.losing b m).lone rest k (b.appliedAt m t.nt)
  have hfreed : u.freeSlot k = { u with bookings := [] } := congrArg (fun bs => { u with bookings := bs }) (by simp [u, tabDel])
  obtain ⟨hbookings, hbill, -⟩ := State.endBooking_room (s := u) (k := k) (b := b.appliedAt m t.nt) (by rw [hfreed]; rfl)
    (by rw [show u.bills = s.bills from hbills]; exact hn) .endedAtLimit t.nt
  rw [← noteOf_self k (applied t.nt b m).2] at hw
  have htick := h.exec_eq (restOfTick_ends hended hw fun hl => hx.resolve_left (by rw [show (b.stateAfter m t.nt).isLive = true from hl]; simp))
  obtain ⟨hout, hnt⟩ := closeBill_total_fields (u.closing k (b.appliedAt m t.nt)) .endedAtLimit t.nt
  refine ⟨_, _, htick, ?_, ?_, ?_, hout, hnt⟩
  · rw [hbookings]
    simp [u, tabDel]
  · rw [hbill]
    show u.bills.records ++ [⟨u.bills.next, _⟩] = _
    rw [show u.bills = s.bills from hbills]
  · rw [closeBill_ref, (closing_fields u k (b.appliedAt m t.nt)).1]
    exact selectorAfter_ref b _

end ModifiedTick

end Sys2Proof.Machine
end

