-- ==== Sys2Proof/Proofs/LoneModifiedLive.lean ====
section
/-! The tick on which the modification of the one booking of a table is applied, for a live booking and for a change of its legs or its
spare (R80, R81, R85, R90, R120 to R122, R127). -/

namespace Sys2Proof.Machine

section
variable {b : Booking} {m : Mod} {nt : Word} {notes : Notes}

theorem liveStateAfter_applied_extended (h : b.EndsAfter m nt ∨ b.stateAfter m nt = .extended) :
    liveStateAfter nt (applied nt b m).2 (b.appliedAt m nt) = .extended :=
  if_pos (h.imp_left windowActs_applied.2)

theorem liveStateAfter_applied_overrun (hno : ¬ b.EndsAfter m nt) (hne : b.stateAfter m nt ≠ .extended)
    (h : (reached nt (m.apply b.fields).plannedEnd = true ∧ (m.apply b.fields).plannedEnd = b.fields.plannedEnd)
      ∨ b.stateAfter m nt = .overrun) : liveStateAfter nt (applied nt b m).2 (b.appliedAt m nt) = .overrun :=
  (if_neg (not_or.2 ⟨mt windowActs_applied.1 hno, hne⟩)).trans (if_pos (h.imp_left planPasses_applied.2))

theorem liveStateAfter_applied_live (hno : ¬ b.EndsAfter m nt) (hst : b.stateAfter m nt = .live)
    (h : ¬ (reached nt (m.apply b.fields).plannedEnd = true ∧ (m.apply b.fields).plannedEnd = b.fields.plannedEnd)) :
    liveStateAfter nt (applied nt b m).2 (b.appliedAt m nt) = .live :=
  (if_neg (not_or.2 ⟨mt windowActs_applied.1 hno, fun e => by rw [show b.stateAfter m nt = .extended from e] at hst; cases hst⟩)).trans
    (if_neg (not_or.2 ⟨mt planPasses_applied.1 h, fun e => by rw [show b.stateAfter m nt = .overrun from e] at hst; cases hst⟩))

/-- Where the planned end and the window end stand, the passages are those of a tick without a modification. -/
theorem liveStateAfter_stands (hp : (m.apply b.fields).plannedEnd = b.fields.plannedEnd)
    (hw : (m.apply b.fields).windowEnd = b.fields.windowEnd) (hst : b.stateAfter m nt = b.state) :
    liveStateAfter nt (applied nt b m).2 (b.appliedAt m nt) =
      if reached nt (m.apply b.fields).windowEnd = true ∨ b.state = .extended then .extended
      else if reached nt (m.apply b.fields).plannedEnd = true ∨ b.state = .overrun then .overrun
      else .live := by
  rw [← hst]
  exact liveStateAfter_unchanged (by simp [applied_note, hp]) (by simp [applied_note, hw])

theorem windowActs_stands (hx : reached nt (m.apply b.fields).windowEnd = true ∨ b.state = .extended → (m.apply b.fields).extend = true)
    (hst : b.stateAfter m nt = b.state) (h : windowActs nt (applied nt b m).2 (b.appliedAt m nt) = true) :
    (b.appliedAt m nt).fields.extend = true := by
  obtain ⟨hr, -⟩ := windowActs_applied.1 h
  exact hx (hst ▸ hr)

theorem Booking.named_kept (hmain : (m.apply b.fields).main = b.fields.main)
    (hspare : b.fields.spare = none ∨ (m.apply b.fields).spare = b.fields.spare) :
    ∀ i ∈ b.fields.named, i ∈ (m.apply b.fields).named := by
  intro i hi
  rw [Fields.mem_named] at hi ⊢
  rw [hmain]
  refine hi.imp_right fun hs => ?_
  obtain hn | he := hspare
  · rw [hn] at hs; cases hs
  · rw [he]; exact hs

end

/-- The record with a modification applied that leaves the selector's part as it was, in the state `st`. -/
def Booking.remade (b : Booking) (m : Mod) (st : BookingState) : Booking :=
  { b with state := st, fields := m.apply b.fields, pending := none }

namespace ModifiedTick
variable {s : State} {k : Nat} {b : Booking} {t : Tick} {rest : List Tick} {m : Mod} (h : ModifiedTick s k b t rest m)
include h

/-! ## A live booking whose legs stand -/

/-- The tick of a live booking, by what its selector leaves. -/
theorem live (hlegs : (m.apply b.fields).legs = b.fields.legs) (hl : b.state.isLive = true)
    (hx : windowActs t.nt (applied t.nt b m).2 (b.appliedAt m t.nt) = true → (m.apply b.fields).extend = true) {st : BookingState}
    (hst : liveStateAfter t.nt (applied t.nt b m).2 (b.appliedAt m t.nt) = st) {b4 : Booking}
    (h4 : selectorSlot t.nt ((s.losing b m).lone rest k { b.modified m with state := st }) k = (s.losing b m).lone rest k b4)
    {ph : Phase} (hph : phaseOf b4.state = some ph) {c : FeedClass} (hc : (s.losing b m).feedClassOf b4 = c) :
    exec .bookingTick s = .next ((s.losing b m).lone rest k { b4 with meter := b4.meter.liveTick ph c t.stepped }) := by
  rw [← noteOf_self k (applied t.nt b m).2] at hx hst
  refine h.exec_eq (restOfTick_live (Booking.stateAfter_isLive.trans hl) hx ?_ (fun _ => ?_) (hst ▸ h4) hph hc)
  · rw [noteOf_self]
    exact applied_dropped fun _ => hlegs
  · rw [noteOf_self]
    exact applied_added fun _ => hlegs

/-- On the main with no spare. -/
theorem live_alone (hal : b.Alone) (hspare : (m.apply b.fields).spare = none) (hmain : (m.apply b.fields).main = b.fields.main)
    (hlegs : (m.apply b.fields).legs = b.fields.legs) (hl : (b.stateAfter m t.nt).isLive = true)
    (hx : b.EndsAfter m t.nt → (m.apply b.fields).extend = true) {st : BookingState}
    (hst : liveStateAfter t.nt (applied t.nt b m).2 (b.appliedAt m t.nt) = st) {ph : Phase} (hph : phaseOf st = some ph) :
    exec .bookingTick s = .next (s.lone rest k
      { b.modified m with state := st, meter := b.meter.liveTick ph (s.feedClassOf (b.modified m)) t.stepped }) := by
  have hsame := h.losing_same (Booking.named_kept hmain (.inl hal.1))
  have halone : ({ b.modified m with state := st } : Booking).Alone := Booking.modified_alone hal hspare
  have hlive : st.isLive = true := hst ▸ liveStateAfter_isLive ..
  have htick := h.live hlegs (Booking.stateAfter_isLive.symm.trans hl) (fun hw => hx (windowActs_applied.1 hw)) hst
    (selectorSlot_alone halone hlive t.nt) hph rfl
  rw [hsame] at htick
  rw [htick, ← Booking.modified_meter (b := b) (m := m)]
  rfl

/-- With its main and its thresholds as they were, and a spare now: the tick by the rule of its position (R117). -/
theorem live_spare (hmain : (m.apply b.fields).main = b.fields.main)
    (hspare : b.fields.spare = none ∨ (m.apply b.fields).spare = b.fields.spare) (hlegs : (m.apply b.fields).legs = b.fields.legs)
    (hp : (m.apply b.fields).plannedEnd = b.fields.plannedEnd) (hw : (m.apply b.fields).windowEnd = b.fields.windowEnd)
    (hl : b.state.isLive = true)
    (hx : reached t.nt (m.apply b.fields).windowEnd = true ∨ b.state = .extended → (m.apply b.fields).extend = true)
    {st : BookingState}
    (hst : (if reached t.nt (m.apply b.fields).windowEnd = true ∨ b.state = .extended then .extended
      else if reached t.nt (m.apply b.fields).plannedEnd = true ∨ b.state = .overrun then .overrun
      else .live) = st) {ho wt : Option Nat}
    (h4 : selectorSlot t.nt (s.lone rest k (b.remade m st)) k = s.lone rest k { b.remade m st with holdOffLeft := ho, wtrLeft := wt })
    {ph : Phase} (hph : phaseOf st = some ph) :
    exec .bookingTick s = .next (s.lone rest k
      { b.modified m with
        state := st, meter := b.meter.liveTick ph (s.feedClassOf (b.modified m)) t.stepped, holdOffLeft := ho, wtrLeft := wt }) := by
  have hsame := h.losing_same (Booking.named_kept hmain hspare)
  have hmod : b.modified m = { b with fields := m.apply b.fields, pending := none } := by
    unfold Booking.modified
    rw [selectorAfter_same hspare]
  have hback : b.stateAfter m t.nt = b.state := Booking.stateAfter_same (fun e => by rw [e] at hl; cases hl) hp hw
  have htick := h.live (s := s) hlegs hl (windowActs_stands hx hback) ((liveStateAfter_stands hp hw hback).trans hst)
    (by rw [hsame, hmod]; exact h4) hph rfl
  rw [hsame] at htick
  rw [htick, hmod]
  rfl

/-! ## Its legs change (R85, R90) -/

theorem legs {x : Source} (hT : TablesInForm s) (hal : b.Alone) (hf : m.apply b.fields = { b.fields with legs := (m.apply b.fields).legs })
    (hsrc : s.source b.fields.main = some x) (hl : b.state.isLive = true) {st : BookingState}
    (hst : (if reached t.nt (m.apply b.fields).windowEnd = true ∨ b.state = .extended then .extended
      else if reached t.nt (m.apply b.fields).plannedEnd = true ∨ b.state = .overrun then .overrun
      else .live) = st)
    (hx : st = .extended → (m.apply b.fields).extend = true) {ph : Phase} (hph : phaseOf st = some ph) {dropped added : List Pair}
    (hd : (b.fields.legs.filter fun q => !(m.apply b.fields).legs.contains q) = dropped)
    (hadded : (if st = .extended then [] else (m.apply b.fields).legs.filter fun q => !b.fields.legs.contains q) = added)
    (htaken : added = [] ∨ (s.setSource (x.kept k dropped)).installCheck b.fields.main added = .taken) :
    exec .bookingTick s = .next ((s.setSource { x with legs := (x.kept k dropped).legs ++ added.map (newLeg k) }).lone rest k
      { b.modified m with
        state := st, delivered := b.delivered + sumLegs Leg.sent (x.dropped k dropped)
        dropped := b.dropped + sumLegs Leg.dropped (x.dropped k dropped)
        meter := b.meter.liveTick ph (s.feedClassOf (b.modified m)) t.stepped }) := by
  have hmain : (m.apply b.fields).main = b.fields.main := by rw [hf]
  have hspare : (m.apply b.fields).spare = b.fields.spare := by rw [hf]
  have hp : (m.apply b.fields).plannedEnd = b.fields.plannedEnd := by rw [hf]; rfl
  have hw : (m.apply b.fields).windowEnd = b.fields.windowEnd := by rw [hf]; rfl
  have hsame := h.losing_same (Booking.named_kept hmain (.inr hspare))
  have hback : b.stateAfter m t.nt = b.state := Booking.stateAfter_same (fun e => by rw [e] at hl; cases hl) hp hw
  have hst' := (liveStateAfter_stands hp hw hback).trans hst
  have hext (hr : reached t.nt (m.apply b.fields).windowEnd = true ∨ b.state = .extended) : (m.apply b.fields).extend = true :=
    hx (by rw [← hst, if_pos hr])
  have hacts := windowActs_stands hext hback
  have hdropped : (applied t.nt b m).2.dropped = dropped := by
    rw [applied_note, ← hd]
    exact if_pos hl
  have hnew : added = if st = .extended then [] else (applied t.nt b m).2.added := by
    rw [← hadded, applied_note, hback]
    split
    · rfl
    · next hne =>
      obtain e | e | e := BookingState.isLive_iff.1 hl
      · simp [e]
      · simp [e]
      · exact absurd (by rw [← hst, if_pos (.inr e)]) hne
  have halone : (b.appliedAt m t.nt).Alone := Booking.modified_alone hal (hspare.trans hal.1)
  rw [← noteOf_self k (applied t.nt b m).2] at hst' hacts hdropped hnew
  have htick := restOfTick_legs (ts := rest) hT halone (Booking.stateAfter_isLive.trans hl) hacts ((congrArg s.source hmain).trans hsrc)
    hst' hph hdropped hnew (htaken.imp_right (hmain ▸ ·))
  have hmod : b.modified m = { b with fields := m.apply b.fields, pending := none } := by
    unfold Booking.modified
    rw [selectorAfter_same (.inl hal.1)]
  refine h.exec_eq ?_
  rw [hsame, htick]
  unfold Booking.appliedAt
  rw [hmod]
  rfl

/-! ## Its spare changes (R80, R127) -/

section
variable {sp : SrcId} {new : Option SrcId} (hsp : b.fields.spare = some sp) (hne : sp ≠ b.fields.main) (hnew : new ≠ some sp)
  (hf : m.apply b.fields = { b.fields with spare := new })
include hsp hne hnew hf

theorem losing_spare : s.losing b m = s.loseRef sp := by
  have hone : b.unnamed m = [sp] := Booking.unnamed_one h.pending fun i => by
    rw [Fields.mem_named, Fields.mem_named, hf, hsp]
    constructor
    · rintro ⟨hm | hs, hno⟩
      · exact absurd (.inl hm) hno
      · exact (Option.some.inj hs).symm
    · rintro rfl
      exact ⟨.inr rfl, by rintro (e | e); exacts [hne e, hnew e]⟩
  unfold State.losing
  rw [hone]
  rfl

omit hne h in
theorem modified_spare : (b.modified m).holdOffLeft = none ∧ (b.modified m).wtrLeft = none
    ∧ (b.modified m).position = b.position ∧ (b.modified m).afresh = b.afresh
    ∧ (b.request ≠ .forceSpare → (b.modified m).request ≠ .forceSpare) := by
  have hchanged : (m.apply b.fields).spare ≠ b.fields.spare := by rw [hf, hsp]; exact hnew
  unfold Booking.modified selectorAfter
  rw [if_pos ⟨by rw [hsp]; rfl, hchanged⟩]
  refine ⟨rfl, rfl, rfl, rfl, fun hr => ?_⟩
  dsimp only
  split
  · simp
  · exact hr

theorem live_newSpare (hT : TablesInForm s) (hst : b.state = .live) (hwin : reached t.nt (m.apply b.fields).windowEnd = false)
    (hplan : reached t.nt (m.apply b.fields).plannedEnd = false) (hpos : b.position = .onMain) (haf : b.afresh = false)
    (hreq : b.request ≠ .forceSpare) (hok : s.watchOf b.fields.main = .ok) :
    exec .bookingTick s = .next ((s.loseRef sp).lone rest k
      { b.modified m with
        state := .live, meter := b.meter.liveTick .scheduled (s.feedClassOf (b.modified m)) t.stepped }) := by
  have hl : b.state.isLive = true := by rw [hst]; rfl
  have hp : (m.apply b.fields).plannedEnd = b.fields.plannedEnd := by rw [hf]; rfl
  have hw : (m.apply b.fields).windowEnd = b.fields.windowEnd := by rw [hf]; rfl
  have hmain : (m.apply b.fields).main = b.fields.main := by rw [hf]
  have hback : b.stateAfter m t.nt = b.state := Booking.stateAfter_same (fun e => by rw [e] at hl; cases hl) hp hw
  have hwatch : (s.loseRef sp).watchOf b.fields.main = s.watchOf b.fields.main := by
    unfold State.watchOf
    rw [State.loseRef_source hT, if_neg hne.symm]
  obtain ⟨hho, hwt, hpos', haf', hreq'⟩ := modified_spare hsp hnew hf
  have hsel : (b.modified m).selected = b.fields.main := by
    unfold Booking.selected
    rw [hpos', hpos]
    exact hmain
  have hx : ¬ (reached t.nt (m.apply b.fields).windowEnd = true ∨ b.state = .extended) := by simp [hwin, hst]
  have hst' := liveStateAfter_stands hp hw hback
  rw [if_neg hx, if_neg (by simp [hplan, hst])] at hst'
  have h4 := selectorSlot_mainOk (s := s.loseRef sp) (ts := rest) (k := k) (b := { b.modified m with state := .live }) rfl
    (haf'.trans haf) hho hwt (hpos'.trans hpos) (hreq' hreq) ((congrArg _ hmain).trans (hwatch.trans hok)) t.nt
  have hlose := h.losing_spare hsp hne hnew hf
  have htick := h.live (s := s) (by rw [hf]) hl (windowActs_stands (fun hr => absurd hr hx) hback) hst'
    (by rw [hlose]; exact h4) (ph := .scheduled) rfl rfl
  rw [hlose] at htick
  have hclass : (s.loseRef sp).feedClassOf { b.modified m with state := .live } = s.feedClassOf (b.modified m) :=
    State.feedClassOf_congr (by rw [hsel]; exact hwatch) (State.loseRef_ports ..) rfl rfl
  rw [htick, hclass, ← Booking.modified_meter (b := b) (m := m)]

end

end ModifiedTick

end Sys2Proof.Machine
end

