-- ==== Sys2Proof/Proofs/LoneThresholdsSettled.lean ====
section
/-! The thresholds of the one booking of a table, with and without a modification applied on the tick (O39): each case by the rule of its
tick. -/

namespace Sys2Proof.Machine

/-! ## The tick with no modification -/

/-- The tick `t` is about to be taken on a table of one booking, with no END and no modification waiting. -/
structure PlainTick (s : State) (k : Nat) (b : Booking) (t : Tick) (rest : List Tick) : Prop where
  awake : s.inReset = false
  tick : s.bookingTicks = t :: rest
  table : s.bookings = [(k, b)]
  noEnd : b.endPending = false
  noMod : b.pending = none

namespace PlainTick
variable {s : State} {k : Nat} {b : Booking} {t : Tick} {rest : List Tick} (h : PlainTick s k b t rest)
include h

theorem exec_eq {v : State} (hv : restOfTick t [] (s.lone rest k b) = v) : exec .bookingTick s = .next v := by
  rw [exec_bookingTick_lone h.awake h.tick h.table, wholeTick_lone h.noMod h.noEnd, hv]

theorem live {st : BookingState} {ph : Phase} (hal : b.Alone) (hl : b.state.isLive = true)
    (hx : windowReached t.nt b = true → b.fields.extend = true) (hst : liveStateAfter t.nt .nothing b = st) (hph : phaseOf st = some ph) :
    exec .bookingTick s = .next (s.lone rest k
      { b with state := st, meter := b.meter.liveTick ph (s.feedClassOf b) t.stepped }) :=
  h.exec_eq (restOfTick_alone hal hl (fun hw => hx (windowActs_nothing ▸ hw)) rfl (fun _ => rfl) hst hph)

section
variable (hwin : reached t.nt b.fields.windowEnd = false)
include hwin

omit h in
theorem windowReached_false (hne : b.state ≠ .extended) : windowReached t.nt b = false := by
  simpa [windowReached, hne] using hwin

omit h in
theorem windowActs_false (hne : b.state ≠ .extended) : windowActs t.nt (noteOf [] k) b = false :=
  windowActs_nothing.trans (windowReached_false hwin hne)

theorem booked (hst : b.state = .booked) (hp : reached t.nt b.fields.prerollPoint = false) :
    exec .bookingTick s = .next (s.lone rest k b) :=
  h.exec_eq (restOfTick_booked (windowActs_false hwin (by simp [hst])) hst (prerollPasses_nothing.trans hp))

theorem held (hst : b.state = .held) (hg : s.isHolding b = true) :
    exec .bookingTick s = .next (s.lone rest k { b with meter := b.meter.heldTick t.stepped }) :=
  h.exec_eq (restOfTick_held (windowActs_false hwin (by simp [hst])) hst (.inr hg))

section
variable (hst : b.state = .preroll ∨ b.state = .booked ∧ reached t.nt b.fields.prerollPoint = true)
include hst

omit h hwin in
theorem early : b.state ≠ .extended
    ∧ (b.state = .preroll ∨ b.state = .booked ∧ prerollPasses t.nt (noteOf [] k) b = true) := by
  refine ⟨?_, hst.imp_right (And.imp_right prerollPasses_nothing.trans)⟩
  obtain e | ⟨e, -⟩ := hst <;> simp [e]

theorem preroll (hs : reached t.nt b.fields.start = false) : exec .bookingTick s = .next (s.lone rest k { b with state := .preroll }) := by
  obtain ⟨hne, hpass⟩ := early (k := k) hst
  exact h.exec_eq (restOfTick_preroll (windowActs_false hwin hne) hpass (startPasses_nothing.trans hs))

theorem joins (hs : reached t.nt b.fields.start = true) (hg : s.isHolding b = true) : exec .bookingTick s =
    .next ((s.joinGroup b.fields.group).lone rest k { b with state := .held, meter := b.meter.heldTick t.stepped }) := by
  obtain ⟨hne, hpass⟩ := early (k := k) hst
  exact h.exec_eq (restOfTick_joins (windowActs_false hwin hne) hpass (startPasses_nothing.trans hs) hg)

end

theorem stays_live (hal : b.Alone) (hst : b.state = .live) (hp : reached t.nt b.fields.plannedEnd = false) :
    exec .bookingTick s = .next (s.lone rest k
      { b with state := .live, meter := b.meter.liveTick .scheduled (s.feedClassOf b) t.stepped }) := by
  have hno := windowReached_false hwin (b := b) (by simp [hst])
  refine h.live hal (by rw [hst]; rfl) (fun hw => absurd (hno.symm.trans hw) Bool.false_ne_true) ?_ rfl
  rw [liveStateAfter_unchanged rfl rfl, if_neg (by simp [hst, hwin]), if_neg (by simp [hst, hp])]

theorem overruns (hal : b.Alone) (hst : b.state = .overrun ∨ b.state = .live ∧ reached t.nt b.fields.plannedEnd = true) :
    exec .bookingTick s = .next (s.lone rest k
      { b with state := .overrun, meter := b.meter.liveTick .overrun (s.feedClassOf b) t.stepped }) := by
  have hne : b.state ≠ .extended := by obtain e | ⟨e, -⟩ := hst <;> simp [e]
  have hno := windowReached_false hwin hne
  refine h.live hal (by obtain e | ⟨e, -⟩ := hst <;> rw [e] <;> rfl) (fun hw => absurd (hno.symm.trans hw) Bool.false_ne_true) ?_ rfl
  rw [liveStateAfter_unchanged rfl rfl, if_neg (by simp [hne, hwin])]
  exact if_pos (hst.symm.imp_left And.right)

end

theorem extends_ (hal : b.Alone) (hl : b.state.isLive = true)
    (hst : reached t.nt b.fields.windowEnd = true ∨ b.state = .extended) (hx : b.fields.extend = true) :
    exec .bookingTick s = .next (s.lone rest k
      { b with state := .extended, meter := b.meter.liveTick .extended (s.feedClassOf b) t.stepped }) :=
  h.live hal hl (fun _ => hx) ((liveStateAfter_unchanged rfl rfl).trans (if_pos hst)) rfl

end PlainTick

/-! ## The record and the states that a modification leaves, written out -/

section
variable {b : Booking} {m : Mod} {nt : Word}

theorem Booking.modified_eq (b : Booking) (m : Mod) : b.modified m =
    { b with
      fields := m.apply b.fields, pending := none
      holdOffLeft := if (b.fields.spare.isSome && decide ((m.apply b.fields).spare ≠ b.fields.spare)) = true then none else b.holdOffLeft
      wtrLeft := if (b.fields.spare.isSome && decide ((m.apply b.fields).spare ≠ b.fields.spare)) = true then none else b.wtrLeft
      request :=
        if (b.fields.spare.isSome && decide ((m.apply b.fields).spare ≠ b.fields.spare)) = true ∧ (m.apply b.fields).spare = none
            ∧ (b.request = .forceMain ∨ b.request = .forceSpare) then .noRequest
        else b.request } := by
  unfold Booking.modified selectorAfter
  by_cases hch : b.fields.spare.isSome = true ∧ (m.apply b.fields).spare ≠ b.fields.spare
  · have hnew : (b.fields.spare.isSome && decide ((m.apply b.fields).spare ≠ b.fields.spare)) = true := by simpa using hch
    rw [if_pos hch]
    simp only [hnew, if_true, true_and]
  · have hnew : (b.fields.spare.isSome && decide ((m.apply b.fields).spare ≠ b.fields.spare)) = false := by simpa using hch
    rw [if_neg hch]
    simp only [hnew, Bool.false_eq_true, if_false, false_and]

theorem Booking.stateAfter_eq : b.stateAfter m nt = match b.state with
    | .preroll =>
      if decide ((m.apply b.fields).prerollPoint ≠ b.fields.prerollPoint) = true ∧ reached nt (m.apply b.fields).prerollPoint = false then .booked
      else .preroll
    | .overrun =>
      if decide ((m.apply b.fields).plannedEnd ≠ b.fields.plannedEnd) = true ∧ reached nt (m.apply b.fields).plannedEnd = false then .live
      else .overrun
    | .extended =>
      if decide ((m.apply b.fields).windowEnd ≠ b.fields.windowEnd) = true ∧ reached nt (m.apply b.fields).windowEnd = false then
        if reached nt (m.apply b.fields).plannedEnd then .overrun else .live
      else .extended
    | x => x := by
  unfold Booking.stateAfter stateBack thresholdNote
  cases b.state <;> simp

/-- The phase in which a live booking's tick is metered (R138). -/
def livePhase : BookingState → Phase
  | .extended => .extended
  | .overrun => .overrun
  | _ => .scheduled

theorem phaseOf_isLive {st : BookingState} (h : st.isLive = true) : phaseOf st = some (livePhase st) := by
  obtain e | e | e := BookingState.isLive_iff.1 h <;> rw [e] <;> rfl

theorem isLive_ite {p q : Prop} [Decidable p] [Decidable q] :
    (if p then .extended else if q then .overrun else .live : BookingState).isLive = true := by
  split
  · rfl
  · split <;> rfl

end

/-- Settles O39: the passages by the rule of each, and the tick with a modification as the tick of the modified record. -/
theorem loneBookingPassesItsThresholds : Obligations.LoneBookingPassesItsThresholds := by
  intro s k b t rest ha ht hs he after isUp live sumOf isHeld phaseIn alone
  refine ⟨fun hp => ?_, fun m hm hend => ?_⟩
  · have h : PlainTick s k b t rest := ⟨ha, ht, hs, he, hp⟩
    refine ⟨fun hwin => ⟨h.booked hwin, h.preroll hwin, fun x ⟨h1, hx, hh⟩ => ?_, h.stays_live hwin, h.overruns hwin,
      fun hal hst => h.extends_ hal (by rw [hst]; rfl) (.inr hst)⟩, fun hal hwin hx hl => h.extends_ hal hl (.inl hwin) hx⟩
    obtain ⟨hhold, hjoin⟩ := State.isHolding_of h1 hx hh
    refine ⟨fun hst hstart => (h.joins hwin hst hstart hhold).trans ?_, fun hst => h.held hwin hst hhold⟩
    rw [hjoin _ rfl]
    rfl
  · intro f newSpare c lost preMoved startMoved planMoved windowMoved st stops ends
    have h : ModifiedTick s k b t rest m := ⟨ha, ht, hs, he, hm, hend⟩
    have hc : b.modified m = c := b.modified_eq m
    have hst : b.stateAfter m t.nt = st := Booking.stateAfter_eq
    have hlost (b' : Booking) : (s.losing b m).lone rest k b' = lost b' := by
      unfold State.losing Booking.unnamed
      rw [hc]
      rfl
    have hends : b.EndsAfter m t.nt ↔ ends := by
      unfold Booking.EndsAfter ends stops
      rw [hst]
      simp [windowMoved, planMoved, isUp, f]
    have hgo {b' : Booking} (e : exec .bookingTick s = .next ((s.losing b m).lone rest k b')) : exec .bookingTick s = .next (lost b') :=
      e.trans (congrArg _ (hlost b'))
    refine ⟨fun hpre hstart hplan hwin hlegs => ?_, ⟨fun hno => ⟨fun hb hp => ?_, fun hb hp => ?_, fun hb hg => ?_,
      fun hal hspare hmain hlegs => ⟨fun hb hp => ?_, fun hb => ?_, fun hb => ?_⟩⟩, fun hal hspare hmain hlegs hyes hl hx => ?_,
      fun hyes hx hn => ?_⟩, fun x hT hal hf hx hl => ?_, fun sp new hT hsp hne hchange hnew hnm hf hwin => ?_,
      fun sp hsp hwas hmain hlegs hstart hdur hall hl hr haf hx => ?_⟩
    · have hmute := h.mute (fun e => hpre (decide_eq_true e)) (fun e => hstart (decide_eq_true e)) (fun e => hplan (decide_eq_true e))
        (fun e => hwin (decide_eq_true e)) hlegs
      unfold Booking.appliedAt at hmute
      rw [hc, hst] at hmute
      exact hmute.trans (congrArg (fun v : State => exec .bookingTick { v with bookingTicks := s.bookingTicks }) (hlost _))
    · rw [← hc]
      exact hgo (h.booked (mt hends.1 hno) (hst.trans hb) (hp.imp_right of_decide_eq_true))
    · rw [← hc]
      refine hgo (h.preroll (mt hends.1 hno) ?_ (hp.imp_right of_decide_eq_true))
      rw [hst]
      exact hb.imp_right fun hb => ⟨hb.1, hb.2.1, not_not.1 (of_decide_eq_false hb.2.2)⟩
    · rw [← hc]
      refine hgo (h.held (mt hends.1 hno) (hst.trans hb) (hg.imp_right ?_))
      rintro ⟨x, h1, hx, hh⟩
      exact (State.isHolding_of (b := b.modified m) h1 hx hh).1
    · rw [← hc]
      exact h.live_alone hal hspare hmain hlegs (by rw [hst, hb]; rfl) (fun e => absurd (hends.1 e) hno)
        (liveStateAfter_applied_live (mt hends.1 hno) (hst.trans hb) fun ⟨hr, hsame⟩ =>
          hp.elim (fun e => Bool.false_ne_true (e.symm.trans hr)) fun e => of_decide_eq_true e hsame) rfl
    · rw [← hc]
      refine h.live_alone hal hspare hmain hlegs ?_ (fun e => absurd (hends.1 e) hno)
        (liveStateAfter_applied_overrun (mt hends.1 hno) ?_ ?_) rfl
      · rw [hst]
        obtain hb | ⟨hb, -⟩ := hb <;> rw [hb] <;> rfl
      · rw [hst]
        obtain hb | ⟨hb, -⟩ := hb <;> rw [hb] <;> simp
      · rw [hst]
        exact hb.symm.imp_left fun hb => ⟨hb.2.1, not_not.1 (of_decide_eq_false hb.2.2)⟩
    · rw [← hc]
      exact h.live_alone hal hspare hmain hlegs (by rw [hst, hb]; rfl) (fun e => absurd (hends.1 e) hno)
        (liveStateAfter_applied_extended (.inr (hst.trans hb))) rfl
    · rw [← hc]
      exact h.live_alone hal hspare hmain hlegs (hst ▸ hl) (fun _ => hx) (liveStateAfter_applied_extended (.inl (hends.2 hyes))) rfl
    · exact h.ends (hends.2 hyes) (hst ▸ hx) hn
    · intro st' hext dropped added gone kept htaken
      rw [← hc]
      exact h.legs hT hal hf hx hl (st := st') rfl hext (phaseOf_isLive isLive_ite) rfl rfl htaken
    · have hlose : lost = fun b' => (s.loseRef sp).lone rest k b' := funext fun b' => by
        rw [← hlost, h.losing_spare hsp hne hnew hf]
      have hp : f.plannedEnd = b.fields.plannedEnd := by rw [hf]; rfl
      have hw : f.windowEnd = b.fields.windowEnd := by rw [hf]; rfl
      have hpre : f.prerollPoint = b.fields.prerollPoint := by rw [hf]; rfl
      have hback : b.stateAfter m t.nt = b.state := Booking.stateAfter_same (fun _ => hpre) hp hw
      have hstays (hne : b.state ≠ .extended) : ¬ b.EndsAfter m t.nt := by
        rintro ⟨hr | hext, -⟩
        · rw [show reached t.nt (m.apply b.fields).windowEnd = false from hwin] at hr
          cases hr
        · exact hne (hback ▸ hext)
      intro lostOne
      have hone {b' : Booking} (e : exec .bookingTick s = .next ((s.losing b m).lone rest k b')) :
          exec .bookingTick s = .next (lostOne b') := (hgo e).trans (by rw [hlose]; rfl)
      rw [← hc]
      refine ⟨fun hb hp => ?_, fun hb ⟨x, h1, hx, hh⟩ => ?_, fun hb hplan hpos haf hreq hok => ?_⟩
      · have htick := h.booked (hstays (by simp [hb])) (hback.trans hb) (.inl hp)
        rw [← hb, ← Booking.modified_state (b := b) (m := m)] at htick
        exact hone htick
      · exact hone (h.held (hstays (by simp [hb])) (hback.trans hb) (.inr (State.isHolding_of (b := b.modified m) h1 hx hh).1))
      · exact h.live_newSpare hsp hne hnew hf hT hb hwin hplan hpos haf hreq hok
    · intro st' stays mainState spareState fails restores
      have hl' : st'.isLive = true := isLive_ite
      have hp : f.plannedEnd = b.fields.plannedEnd := by unfold Fields.plannedEnd; rw [hstart, hdur]
      have hw : f.windowEnd = b.fields.windowEnd := by unfold Fields.windowEnd; rw [hp, hall]
      have hgoes {ho wt : Option Nat} (h4 : (s.lone rest k (b.remade m st')).runSelector k (b.remade m st') t.nt
            = s.lone rest k { b.remade m st' with holdOffLeft := ho, wtrLeft := wt }) :
          exec .bookingTick s = .next (stays ho wt) := by
        unfold stays
        rw [← hc]
        exact h.live_spare hmain (hwas.imp_right fun e => hsp.trans e.symm) hlegs hp hw hl hx rfl
          ((selectorSlot_lone (b := b.remade m st') hl' haf).trans h4) (phaseOf_isLive hl')
      have hfails : s.failureCondition f = true ↔ fails := by
        rw [State.failureCondition_iff hsp]
        unfold fails spareState mainState
        rw [hmain]
      have hspareFailed : s.spareFailedCondition f = true ↔ spareState = .failed ∧ mainState ≠ .failed := by
        rw [State.spareFailedCondition_iff hsp]
        unfold spareState mainState
        rw [hmain]
      have hrestores : s.restoreCondition f = true ↔ restores := by
        rw [State.restoreCondition_iff]
        unfold restores mainState
        rw [hmain]
      have hmainRule {ho : Option Nat} (hpos : b.position = .onMain) (e : (s.lone rest k (b.remade m st')).holdOffRule k (b.remade m st') t.nt
          = s.lone rest k { b.remade m st' with holdOffLeft := ho }) : exec .bookingTick s = .next (stays ho b.wtrLeft) :=
        hgoes ((runSelector_onMain (b := b.remade m st') hr hpos).trans e)
      have hspareRule {wt : Option Nat} (hpos : b.position = .onSpare) (e : (s.lone rest k (b.remade m st')).onSpareRule k (b.remade m st') t.nt
          = s.lone rest k { b.remade m st' with wtrLeft := wt }) : exec .bookingTick s = .next (stays b.holdOffLeft wt) :=
        hgoes ((runSelector_onSpare (b := b.remade m st') hr hpos).trans e)
      have hcounts (v n : Nat) : countDown v (some (n + 2)) = n + 1 := rfl
      refine ⟨fun hpos => ⟨fun hfail n hn => ?_, fun hfail hn hoff => ?_, fun hno => ?_⟩, fun hpos _ hok => ?_⟩
      · refine hmainRule hpos (holdOffRule_counts (b := b.remade m st') (n := n) (hfails.2 hfail) ?_)
        rw [show (b.remade m st').holdOffLeft = some (n + 2) from hn, hcounts]
      · obtain ⟨n, hoff⟩ := Nat.exists_eq_succ_of_ne_zero hoff
        rw [hoff]
        refine hmainRule hpos (holdOffRule_counts (b := b.remade m st') (hfails.2 hfail) ?_)
        rw [show (b.remade m st').holdOffLeft = none from hn]
        exact hoff
      · exact hmainRule hpos (holdOffRule_idle (b := b.remade m st') (Bool.eq_false_iff.2 (mt hfails.1 hno)))
      · have hsound := Bool.eq_false_iff.2 (mt hspareFailed.1 hok)
        refine ⟨fun hback n hn => ?_, fun hback hn hwtr => ?_, fun hno => ?_⟩
        · refine hspareRule hpos (onSpareRule_counts (b := b.remade m st') (n := n) hsound (hrestores.2 hback) ?_)
          rw [show (b.remade m st').wtrLeft = some (n + 2) from hn, hcounts]
        · obtain ⟨n, hwtr⟩ := Nat.exists_eq_succ_of_ne_zero hwtr
          rw [hwtr]
          refine hspareRule hpos (onSpareRule_counts (b := b.remade m st') hsound (hrestores.2 hback) ?_)
          rw [show (b.remade m st').wtrLeft = none from hn]
          exact hwtr
        · exact hspareRule hpos (onSpareRule_idle (b := b.remade m st') hsound (Bool.eq_false_iff.2 (mt hrestores.1 hno)))

end Sys2Proof.Machine
end

