-- ==== Sys2Proof/Proofs/Cuts.lean ====
section
/-! Which EXTENDED booking a cut takes, and the three passes where one booking of the table is EXTENDED (R89). -/

namespace Sys2Proof.Machine

/-! ## The booking to be cut -/

/-- Of two bookings the first is cut no later than the second: more extended ticks, or as many and no higher a slot (R89). -/
def CutBefore (a b : Nat × Booking) : Prop := b.2.meter.extended < a.2.meter.extended ∨ b.2.meter.extended = a.2.meter.extended ∧ a.1 ≤ b.1

theorem CutBefore.refl (a : Nat × Booking) : CutBefore a a := .inr ⟨rfl, Nat.le_refl _⟩

theorem CutBefore.trans {a b c : Nat × Booking} (h : CutBefore a b) (h' : CutBefore b c) : CutBefore a c := by
  unfold CutBefore at *
  omega

theorem cutFirst_before {a b : Nat × Booking} (h : a.1 < b.1) : CutBefore (cutFirst a b) a ∧ CutBefore (cutFirst a b) b := by
  unfold cutFirst CutBefore
  split <;> omega

/-- Of bookings in rising slots, the fold comes to the one that is cut before all. -/
theorem foldl_cutFirst_before (es : List (Nat × Booking)) (e : Nat × Booking) (h : Rising es) (hlt : ∀ d ∈ es, e.1 < d.1) :
    ∀ d ∈ e :: es, CutBefore (es.foldl cutFirst e) d := by
  induction es generalizing e with
  | nil =>
    intro d hd
    rw [List.mem_singleton.1 hd]
    exact CutBefore.refl _
  | cons a es ih =>
    have hone : cutFirst e a = e ∨ cutFirst e a = a := by
      unfold cutFirst
      split
      · exact .inr rfl
      · exact .inl rfl
    have hrest := ih (cutFirst e a) h.tail (by
      obtain h1 | h1 := hone <;> rw [h1]
      · exact fun d hd => hlt d (List.mem_cons_of_mem _ hd)
      · exact h.head_lt)
    obtain ⟨he, ha⟩ := cutFirst_before (hlt a List.mem_cons_self)
    have htop := hrest _ List.mem_cons_self
    intro d hd
    rw [List.foldl_cons]
    obtain rfl | hd := List.mem_cons.1 hd
    · exact htop.trans he
    obtain rfl | hd := List.mem_cons.1 hd
    · exact htop.trans ha
    · exact hrest d (List.mem_cons_of_mem _ hd)

/-- A booking has a leg that `at_` picks, by its leg list and the leg. -/
def State.HasLeg (s : State) (k : Nat) (at_ : SrcId → Leg → Bool) : Prop :=
  ∃ e ∈ s.sources, ∃ l ∈ e.2.legs, l.owner = k ∧ at_ e.2.id l = true

section
variable {s : State} {at_ : SrcId → Leg → Bool}

/-- The EXTENDED bookings with a leg that `at_` picks. -/
def State.candidates (s : State) (at_ : SrcId → Leg → Bool) : List (Nat × Booking) :=
  s.bookings.filter fun e => e.2.state == .extended && s.sources.any fun d => d.2.legs.any fun l => l.owner == e.1 && at_ d.2.id l

theorem State.toCut_eq : s.toCut at_ = match s.candidates at_ with
    | [] => none
    | e :: rest => some (rest.foldl cutFirst e).1 := rfl

theorem State.mem_candidates (hT : TablesInForm s) {k : Nat} {b : Booking} :
    (k, b) ∈ s.candidates at_ ↔ s.booking k = some b ∧ b.state = .extended ∧ s.HasLeg k at_ := by
  unfold State.candidates State.HasLeg
  rw [List.mem_filter, hT.mem_bookings]
  simp

theorem State.toCut_none (hT : TablesInForm s) (h : s.toCut at_ = none) {k : Nat} {b : Booking} (hb : s.booking k = some b)
    (he : b.state = .extended) : ¬ s.HasLeg k at_ := fun hl => by
  have hmem := (State.mem_candidates hT).2 ⟨hb, he, hl⟩
  rw [State.toCut_eq] at h
  split at h
  · next hnil =>
    rw [hnil] at hmem
    cases hmem
  · cases h

theorem State.toCut_some (hT : TablesInForm s) {k : Nat} (h : s.toCut at_ = some k) :
    ∃ b, s.booking k = some b ∧ b.state = .extended ∧ s.HasLeg k at_
      ∧ ∀ j c, s.booking j = some c → c.state = .extended → s.HasLeg j at_ → CutBefore (k, b) (j, c) := by
  rw [State.toCut_eq] at h
  split at h
  · cases h
  · next e es hes =>
    cases h
    have hrising : Rising (e :: es) := by
      rw [← hes]
      exact hT.bookings.sublist (List.filter_sublist.map _)
    have hmem : es.foldl cutFirst e ∈ s.candidates at_ := hes ▸ foldl_cutFirst_mem es e
    obtain ⟨hb, he, hl⟩ := (State.mem_candidates hT).1 hmem
    exact ⟨_, hb, he, hl, fun j c hc hx hleg =>
      foldl_cutFirst_before es e hrising.tail hrising.head_lt _ (hes ▸ (State.mem_candidates hT).2 ⟨hc, hx, hleg⟩)⟩

/-! ## The cut -/

theorem cutSlot_eq {k : Nat} {b : Booking} (hb : s.booking k = some b) (nt : Word) (n : Nat) :
    cutSlot nt (s, n) k = (s.endBooking k b .cut nt, n + 1) := by
  unfold cutSlot State.endSlot
  rw [hb]

theorem State.endBooking_waits {k : Nat} {b : Booking} (hn : 64 ≤ s.bills.records.length) (o : BillOutcome) (nt : Word) :
    (s.endBooking k b o nt).booking k = some { (s.closing k b).clear with state := .ended (closeBill (s.closing k b) o nt) } := by
  unfold State.booking
  rw [(State.endBooking_full hn o nt).1, tabFind_put_self]

theorem State.endBooking_free {k : Nat} {b : Booking} (hn : s.bills.records.length < 64) (o : BillOutcome) (nt : Word) :
    (s.endBooking k b o nt).booking k = none := by
  unfold State.booking
  rw [(State.endBooking_written hn o nt).1, tabFind_del_self]

end

/-- What a cut does to the table and the bills (R83, R89). -/
theorem cutSlot_ends {s : State} {k : Nat} {b : Booking} (hb : s.booking k = some b) (nt : Word) (n : Nat) :
    let c := cutSlot nt (s, n) k
    c.2 = n + 1 ∧ (∀ j, j ≠ k → c.1.booking j = s.booking j)
      ∧ (s.bills.records.length < 64 → c.1.booking k = none
          ∧ ∃ bill, c.1.bills.records = s.bills.records ++ [⟨s.bills.next, bill⟩] ∧ bill.outcome = .cut ∧ bill.endNt = nt)
      ∧ (64 ≤ s.bills.records.length →
          ∃ b' bill, c.1.booking k = some b' ∧ b'.state = .ended bill ∧ bill.outcome = .cut ∧ bill.endNt = nt) := by
  intro c
  have hc : c = (s.endBooking k b .cut nt, n + 1) := cutSlot_eq hb nt n
  rw [hc]
  obtain ⟨hout, hnt⟩ := closeBill_total_fields (s.closing k b) .cut nt
  refine ⟨rfl, fun j hj => State.endBooking_booking s b .cut nt hj, fun hn => ⟨State.endBooking_free hn .cut nt, ?_⟩,
    fun hn => ⟨_, _, State.endBooking_waits hn .cut nt, rfl, hout, hnt⟩⟩
  rw [(State.endBooking_written hn .cut nt).2]
  exact ⟨_, rfl, hout, hnt⟩

/-! ## The holder of a pair (R44, R89) -/

/-- One booking is cut at the first of a list that asks for it, and none when none does. -/
theorem foldl_cutOnce {α : Type} {f : Cuts → α → Cuts} {P : α → Prop} {c d : Cuts} (hcut : ∀ a, P a → f c a = d)
    (hspare : ∀ a, ¬ P a → f c a = c) (hafter : ∀ a, f d a = d) (as : List α) :
    ((∃ a ∈ as, P a) → as.foldl f c = d) ∧ ((¬ ∃ a ∈ as, P a) → as.foldl f c = c) := by
  induction as with
  | nil => simp
  | cons a as ih =>
    obtain ⟨ihd, ihc⟩ := ih
    rw [List.foldl_cons]
    by_cases ha : P a
    · rw [hcut a ha, foldl_fixed hafter]
      exact ⟨fun _ => rfl, fun hno => absurd ⟨a, List.mem_cons_self, ha⟩ hno⟩
    · rw [hspare a ha]
      refine ⟨fun ⟨x, hx, hp⟩ => ihd ?_, fun hno => ihc fun ⟨x, hx, hp⟩ => hno ⟨x, List.mem_cons_of_mem _ hx, hp⟩⟩
      obtain rfl | hx := List.mem_cons.1 hx
      · exact absurd hp ha
      · exact ⟨x, hx, hp⟩

/-- Every pair is on one leg at most (R44). -/
def State.PairsOnce (s : State) : Prop := (s.sources.flatMap fun e => e.2.legs.map Leg.pair).Nodup

theorem State.PairsOnce.leg_eq {s : State} (h : s.PairsOnce) {d e : Nat × Source} (hd : d ∈ s.sources) (he : e ∈ s.sources) {l m : Leg}
    (hl : l ∈ d.2.legs) (hm : m ∈ e.2.legs) (hp : l.pair = m.pair) : l = m := by
  have hnodup : ((s.sources.flatMap fun e => e.2.legs).map Leg.pair).Nodup := by
    rw [List.map_flatMap]
    exact h
  exact List.inj_on_of_nodup_map hnodup (List.mem_flatMap.2 ⟨d, hd, hl⟩) (List.mem_flatMap.2 ⟨e, he, hm⟩) hp

/-- The owner that pass 1 finds for a pair (R89). -/
def State.holderOf (s : State) (q : Pair) : Option Nat :=
  s.sources.findSome? fun e => (e.2.legs.find? fun l => l.pair == q).map Leg.owner

theorem State.holderOf_some {s : State} {q : Pair} {k : Nat} (h : s.holderOf q = some k) : s.HasLeg k fun _ l => l.pair == q := by
  obtain ⟨e, he, hk⟩ := List.exists_of_findSome?_eq_some h
  obtain ⟨l, hl, ho⟩ := Option.map_eq_some_iff.1 hk
  exact ⟨e, he, l, List.mem_of_find?_eq_some hl, ho, List.find?_some (p := fun l : Leg => l.pair == q) hl⟩

theorem State.holderOf_none {s : State} {q : Pair} {k : Nat} (h : s.holderOf q = none) : ¬ s.HasLeg k fun _ l => l.pair == q := by
  rintro ⟨e, he, l, hl, -, hq⟩
  have hnone := List.findSome?_eq_none_iff.1 h e he
  exact List.find?_eq_none.1 (Option.map_eq_none_iff.1 hnone) l hl hq

theorem State.PairsOnce.holderOf {s : State} (h : s.PairsOnce) {q : Pair} {j : Nat} (hl : s.HasLeg j fun _ l => l.pair == q) :
    s.holderOf q = some j := by
  cases hk : s.holderOf q with
  | none => exact absurd hl (State.holderOf_none hk)
  | some k =>
    obtain ⟨d, hd, l, hl, rfl, hq⟩ := hl
    obtain ⟨e, he, m, hm, rfl, hq'⟩ := State.holderOf_some hk
    rw [h.leg_eq hd he hl hm ((beq_iff_eq.1 hq).trans (beq_iff_eq.1 hq').symm)]

/-! ## One EXTENDED booking -/

/-- The booking `c` of slot `j` is EXTENDED, and no other is. -/
structure State.OnlyExtended (s : State) (j : Nat) (c : Booking) : Prop where
  tables : TablesInForm s
  booking : s.booking j = some c
  extended : c.state = .extended
  only : ∀ i b, s.booking i = some b → b.state = .extended → i = j

namespace State.OnlyExtended
variable {s : State} {j : Nat} {c : Booking} (h : s.OnlyExtended j c) (nt : Word) (n : Nat)
include h

theorem toCut {at_ : SrcId → Leg → Bool} (hl : s.HasLeg j at_) : s.toCut at_ = some j := by
  cases hcut : s.toCut at_ with
  | none => exact absurd hl (State.toCut_none h.tables hcut h.booking h.extended)
  | some k =>
    obtain ⟨b, hb, he, -⟩ := State.toCut_some h.tables hcut
    rw [h.only k b hb he]

theorem toCut_none {at_ : SrcId → Leg → Bool} (hl : ¬ s.HasLeg j at_) : s.toCut at_ = none := by
  cases hcut : s.toCut at_ with
  | none => rfl
  | some k =>
    obtain ⟨b, hb, he, hleg, -⟩ := State.toCut_some h.tables hcut
    rw [h.only k b hb he] at hleg
    exact absurd hleg hl

/-- The state after the cut. -/
theorem cut_noneExtended : (s.endBooking j c .cut nt).NoneExtended := by
  intro e he hx
  obtain hn | hn := Nat.lt_or_ge s.bills.records.length 64
  · rw [(State.endBooking_written hn .cut nt).1] at he
    obtain ⟨hin, hne⟩ := List.mem_filter.1 he
    exact absurd (h.only _ _ (h.tables.mem_bookings.1 hin) hx) (by simpa using hne)
  · rw [(State.endBooking_full hn .cut nt).1, (h.tables.bookings.put _ _).mem_iff (k := e.1) (x := e.2), tabFind_put] at he
    split at he
    · rw [← Option.some.inj he] at hx
      cases hx
    · next hne => exact hne (h.only _ _ he hx)

theorem cutWhile_cuts {tooMuch : State → Bool} {at_ : SrcId → Leg → Bool} (hm : tooMuch s = true) (hl : s.HasLeg j at_) {fuel : Nat}
    (hf : fuel ≠ 0) : cutWhile nt tooMuch at_ fuel (s, n) = (s.endBooking j c .cut nt, n + 1) := by
  obtain ⟨fuel, rfl⟩ := Nat.exists_eq_succ_of_ne_zero hf
  unfold cutWhile
  rw [if_pos hm, h.toCut hl]
  dsimp only
  rw [cutSlot_eq h.booking, (h.cut_noneExtended nt).cutWhile]

theorem cutWhile_spares {tooMuch : State → Bool} {at_ : SrcId → Leg → Bool} (hno : ¬ (tooMuch s = true ∧ s.HasLeg j at_)) (fuel : Nat) :
    cutWhile nt tooMuch at_ fuel (s, n) = (s, n) := by
  cases fuel with
  | zero => rfl
  | succ fuel =>
    unfold cutWhile
    split
    · next hm => rw [h.toCut_none fun hl => hno ⟨hm, hl⟩]
    · rfl

/-! ## The three passes (R89) -/

theorem extendedHolding_of (hp : s.PairsOnce) {q : Pair} (hl : s.HasLeg j fun _ l => l.pair == q) : s.extendedHolding q = some j := by
  have hholder := hp.holderOf hl
  unfold State.holderOf at hholder
  unfold State.extendedHolding
  rw [hholder]
  simp [h.booking, h.extended]

theorem extendedHolding_none {q : Pair} (hl : ¬ s.HasLeg j fun _ l => l.pair == q) : s.extendedHolding q = none := by
  cases hk : s.extendedHolding q with
  | none => rfl
  | some k =>
    obtain ⟨b, hb, he⟩ := State.extendedHolding_extended hk
    unfold State.extendedHolding at hk
    obtain ⟨i, hi, hik⟩ := Option.bind_eq_some_iff.1 hk
    have hij : i = k := by
      split at hik
      · split at hik
        · exact Option.some.inj hik
        · cases hik
      · cases hik
    have hleg := State.holderOf_some hi
    rw [hij, h.only k b hb he] at hleg
    exact absurd hleg hl

theorem bookings_length : s.bookings.length ≠ 0 := fun hz => by
  have hb := h.booking
  unfold State.booking at hb
  rw [List.length_eq_zero_iff.1 hz] at hb
  cases hb

theorem cutPairs (hp : s.PairsOnce) (ps : List Pair) :
    ((∃ q ∈ ps, s.HasLeg j fun _ l => l.pair == q) → Machine.cutPairs nt ps (s, n) = (s.endBooking j c .cut nt, n + 1))
      ∧ ((¬ ∃ q ∈ ps, s.HasLeg j fun _ l => l.pair == q) → Machine.cutPairs nt ps (s, n) = (s, n)) := by
  refine foldl_cutOnce (fun q hq => ?_) (fun q hq => ?_) (fun q => ?_) ps
  · rw [h.extendedHolding_of hp hq]
    exact cutSlot_eq h.booking nt n
  · rw [h.extendedHolding_none hq]
  · rw [(h.cut_noneExtended nt).extendedHolding]

theorem cutCapacity (bandwidth : Nat) (ps : List Pair) :
    ((∃ p ∈ once (ps.map Pair.port), (s.port p).capacity < s.installed p + bandwidth * pairsOn p ps
        ∧ s.HasLeg j fun _ l => l.pair.port == p) →
      Machine.cutCapacity nt bandwidth ps (s, n) = (s.endBooking j c .cut nt, n + 1))
      ∧ ((¬ ∃ p ∈ once (ps.map Pair.port), (s.port p).capacity < s.installed p + bandwidth * pairsOn p ps
          ∧ s.HasLeg j fun _ l => l.pair.port == p) → Machine.cutCapacity nt bandwidth ps (s, n) = (s, n)) := by
  refine foldl_cutOnce (fun p hp => ?_) (fun p hp => ?_) (fun p => ?_) _
  · exact h.cutWhile_cuts nt n (decide_eq_true hp.1) hp.2 h.bookings_length
  · exact h.cutWhile_spares nt n (fun hq => hp ⟨of_decide_eq_true hq.1, hq.2⟩) _
  · exact (h.cut_noneExtended nt).cutWhile ..

theorem cutPlaces (i : SrcId) (m : Nat) :
    (16 < s.legCount i + m ∧ (s.HasLeg j fun k _ => k == i) → Machine.cutPlaces nt i m (s, n) = (s.endBooking j c .cut nt, n + 1))
      ∧ (¬ (16 < s.legCount i + m ∧ s.HasLeg j fun k _ => k == i) → Machine.cutPlaces nt i m (s, n) = (s, n)) :=
  ⟨fun hp => h.cutWhile_cuts nt n (decide_eq_true hp.1) hp.2 h.bookings_length,
    fun hno => h.cutWhile_spares nt n (fun hp => hno ⟨of_decide_eq_true hp.1, hp.2⟩) _⟩

end State.OnlyExtended

/-- The EXTENDED booking of slot `j` is in the way of legs to be installed on a source: it holds one of the pairs, or has a leg where
they find too little capacity or too few places (R89). -/
def State.InTheWay (s : State) (j : Nat) (i : SrcId) (bandwidth : Nat) (ps : List Pair) : Prop :=
  (∃ q ∈ ps, s.HasLeg j fun _ l => l.pair == q)
    ∨ (∃ p ∈ once (ps.map Pair.port), (s.port p).capacity < s.installed p + bandwidth * pairsOn p ps
        ∧ s.HasLeg j fun _ l => l.pair.port == p)
    ∨ 16 < s.legCount i + ps.length ∧ s.HasLeg j fun k _ => k == i

theorem State.OnlyExtended.clearGround {s : State} {j : Nat} {c : Booking} (h : s.OnlyExtended j c) (nt : Word) (hp : s.PairsOnce)
    (i : SrcId) (bandwidth : Nat) (ps : List Pair) :
    (s.InTheWay j i bandwidth ps → s.clearGround nt i bandwidth ps = (s.endBooking j c .cut nt, 1))
      ∧ (¬ s.InTheWay j i bandwidth ps → s.clearGround nt i bandwidth ps = (s, 0)) := by
  have hafter := h.cut_noneExtended nt
  obtain ⟨hp1, hp0⟩ := h.cutPairs nt 0 hp ps
  obtain ⟨hc1, hc0⟩ := h.cutCapacity nt 0 bandwidth ps
  obtain ⟨hl1, hl0⟩ := h.cutPlaces nt 0 i ps.length
  unfold State.clearGround State.InTheWay
  refine ⟨fun hway => ?_, fun hno => ?_⟩
  · by_cases hpair : ∃ q ∈ ps, s.HasLeg j fun _ l => l.pair == q
    · rw [hp1 hpair, hafter.cutCapacity, hafter.cutPlaces]
    rw [hp0 hpair]
    by_cases hcap : ∃ p ∈ once (ps.map Pair.port), (s.port p).capacity < s.installed p + bandwidth * pairsOn p ps
        ∧ s.HasLeg j fun _ l => l.pair.port == p
    · rw [hc1 hcap, hafter.cutPlaces]
    rw [hc0 hcap]
    exact hl1 ((hway.resolve_left hpair).resolve_left hcap)
  · obtain ⟨hpair, hrest⟩ := not_or.1 hno
    obtain ⟨hcap, hplaces⟩ := not_or.1 hrest
    rw [hp0 hpair, hc0 hcap, hl0 hplaces]

end Sys2Proof.Machine
end

