-- ==== Sys2Proof/Proofs/TwoBookings.lean ====
section
/-! The tick of a table of two bookings, one of them EXTENDED and left alone until it is cut (R79, R89, R93). -/

namespace Sys2Proof.Machine

/-- The table holds the bookings `c` of slot `j` and `b` of slot `k`, and no other. -/
structure State.Two (s : State) (j : Nat) (c : Booking) (k : Nat) (b : Booking) : Prop where
  tables : TablesInForm s
  table : s.bookings = [(j, c), (k, b)] ∨ s.bookings = [(k, b), (j, c)]

namespace State.Two
variable {s : State} {j k : Nat} {c b : Booking} (h : s.Two j c k b)
include h

theorem ne : j ≠ k := by
  have hr := h.tables.bookings
  obtain e | e := h.table <;> rw [e] at hr
  · exact Nat.ne_of_lt (hr.head_lt (k, b) (by simp))
  · exact Nat.ne_of_gt (hr.head_lt (j, c) (by simp))

theorem booking_left : s.booking j = some c := (h.tables.mem_bookings (e := (j, c))).1 (by obtain e | e := h.table <;> simp [e])

theorem booking_right : s.booking k = some b := (h.tables.mem_bookings (e := (k, b))).1 (by obtain e | e := h.table <;> simp [e])

theorem only {i : Nat} {a : Booking} (ha : s.booking i = some a) : i = j ∧ a = c ∨ i = k ∧ a = b := by
  have hm := (h.tables.mem_bookings (e := (i, a))).2 ha
  obtain e | e := h.table <;> rw [e] at hm <;> simp at hm
  · exact hm
  · exact hm.symm

theorem slots : s.slots = [j, k] ∨ s.slots = [k, j] := by
  unfold State.slots
  exact h.table.imp (fun e => by rw [e]; rfl) (fun e => by rw [e]; rfl)

theorem of_bookings {v : State} (hT : TablesInForm v) (hb : v.bookings = s.bookings) : v.Two j c k b := ⟨hT, hb ▸ h.table⟩

theorem setBooking (a : Booking) : (s.setBooking k a).Two j c k a := by
  have hr := h.tables.bookings
  refine ⟨h.tables.setBooking k a, ?_⟩
  unfold State.setBooking
  obtain e | e := h.table <;> rw [e] at hr ⊢
  · have hlt : j < k := hr.head_lt (k, b) (by simp)
    exact .inl (by simp [tabPut, Nat.lt_asymm hlt, (Nat.ne_of_lt hlt).symm])
  · exact .inr (by simp [tabPut])

theorem onlyExtended (hc : c.state = .extended) (hb : b.state ≠ .extended) : s.OnlyExtended j c :=
  ⟨h.tables, h.booking_left, hc, fun i a ha he => by
    obtain ⟨hi, -⟩ | ⟨-, rfl⟩ := h.only ha
    · exact hi
    · exact absurd he hb⟩

/-- No other booking waits for room in the Bill Queue (R149). -/
theorem freeSlot_waiters (hb : b.state.isEnded = false) : (s.freeSlot j).waiters = 0 := by
  have hne := h.ne
  unfold State.waiters State.freeSlot tabDel
  obtain e | e := h.table <;> rw [e] <;> simp [hne.symm, hb]

/-- What a cut of the first booking leaves of table, bills and notices (R83, R89). -/
theorem cutOnce (hb : b.state.isEnded = false) (nt : Word) : CutOnce s (s.endBooking j c .cut nt) j c nt [] := by
  obtain ⟨hout, hnt⟩ := closeBill_total_fields (s.closing j c) .cut nt
  refine ⟨closeBill (s.closing j c) .cut nt, (closeBill_ref ..).trans (closing_fields s j c).1, hout, hnt, fun hn => ?_, fun hn => ?_⟩
  · obtain ⟨-, hbills, hmgmt⟩ := State.endBooking_room (b := c) (h.freeSlot_waiters hb) hn .cut nt
    exact ⟨State.endBooking_free hn .cut nt, congrArg BillQueue.records hbills, hmgmt⟩
  · obtain ⟨-, hbills, hmgmt⟩ := State.endBooking_full (s := s) (k := j) (b := c) hn .cut nt
    exact ⟨hbills, ⟨_, State.endBooking_waits hn .cut nt, rfl⟩, hmgmt⟩

end State.Two

/-- What comes after a cut raises its own notices and leaves the bills and the slot's state. -/
theorem CutOnce.carry {s u v w : State} {j : Nat} {c : Booking} {nt : Word} {more : List NoticeContent} (h : CutOnce u v j c nt [])
    (hbills : u.bills = s.bills) (hmgmt : u.mgmt = s.mgmt) (htime : u.time = s.time) (hv : v.time = u.time)
    (hstate : (w.booking j).map Booking.state = (v.booking j).map Booking.state) (hw : w.bills = v.bills)
    (hmore : w.mgmt = (v.raiseAll more).mgmt) : CutOnce s w j c nt more := by
  obtain ⟨bill, href, hout, hnt, hroom, hfull⟩ := h
  have hnotes {cs : List NoticeContent} (e : v.mgmt = (u.raiseAll cs).mgmt) : w.mgmt = (s.raiseAll (cs ++ more)).mgmt := by
    rw [hmore, State.raiseAll_append]
    refine State.raiseAll_mgmt_congr ?_ ?_ more
    · exact e.trans (State.raiseAll_mgmt_congr hmgmt (by rw [htime]) cs)
    · rw [hv, htime, State.raiseAll_same State.time (by simp)]
  refine ⟨bill, href, hout, hnt, fun hn => ?_, fun hn => ?_⟩
  · obtain ⟨hfree, hrecords, hm⟩ := hroom (hbills ▸ hn)
    rw [hfree] at hstate
    have hall := hnotes hm
    rw [hbills] at hall
    exact ⟨Option.map_eq_none_iff.1 hstate, by rw [hw, hrecords, hbills], by simpa using hall⟩
  · obtain ⟨hsame, ⟨c', hc', hst⟩, hm⟩ := hfull (hbills ▸ hn)
    rw [hc'] at hstate
    obtain ⟨c'', hc'', he⟩ := Option.map_eq_some_iff.1 hstate
    exact ⟨hw.trans (hsame.trans hbills), ⟨c'', hc'', he.trans hst⟩, hnotes hm⟩

/-! ## A booking left alone in stages 1 to 3 -/

/-- The slot is FREE, or its booking waits in ENDED or runs on. -/
def State.Rests (s : State) (j : Nat) : Prop := ∀ c, s.booking j = some c → RunsOn c ∨ c.state.isEnded = true

namespace State.Rests
variable {s : State} {j : Nat} (h : s.Rests j) (t : Tick)
include h

theorem stage1Slot (notes : Notes) : stage1Slot t (s, notes) j = (s, notes) := by
  unfold Machine.stage1Slot
  dsimp only
  cases hb : s.booking j with
  | none => rfl
  | some c =>
    obtain ⟨hst, -, -, -, hp, he⟩ | hended := h c hb
    · simp [hst, BookingState.isEnded, hp, endIfPending, hb, he]
    · simp [hended]

theorem stage2Slot {notes : Notes} (hn : noteOf notes j = .nothing) : stage2Slot t notes s j = s := by
  unfold Machine.stage2Slot
  cases hb : s.booking j with
  | none => rfl
  | some c =>
    dsimp only
    rw [hn, TickNote.nothing, dropLegs_nil]
    obtain ⟨hst, hx, -⟩ | hended := h c hb
    · simp [atWindowEnd, hst, hx]
    · obtain ⟨bill, hst⟩ := BookingState.isEnded_iff.1 hended
      simp [hst, BookingState.isRunning]

theorem stage3Slot (notes : Notes) : stage3Slot t notes s j = s := by
  unfold Machine.stage3Slot
  cases hb : s.booking j with
  | none => rfl
  | some c =>
    dsimp only
    obtain ⟨hst, -⟩ | hended := h c hb
    · simp [hst]
    · obtain ⟨bill, hst⟩ := BookingState.isEnded_iff.1 hended
      simp [hst]

end State.Rests

theorem foldl_pair {α : Type} {f : α → Nat → α} {a : α} {j k : Nat} {ks : List Nat} (hks : ks = [j, k] ∨ ks = [k, j]) (h : f a j = a)
    (h' : f (f a k) j = f a k) : ks.foldl f a = f a k := by
  obtain rfl | rfl := hks
  · exact congrArg (f · k) h
  · exact h'

theorem State.Two.rests {s : State} {j k : Nat} {c b : Booking} (h : s.Two j c k b) (hc : RunsOn c) : s.Rests j := fun d hd => by
  rw [h.booking_left] at hd
  exact .inl (Option.some.inj hd ▸ hc)

/-- Stages 1 to 3 are those of the second booking. -/
theorem State.Two.wholeTick {s s1 s2 s3 : State} {j k : Nat} {c b b1 b2 : Booking} {t : Tick} {notes : Notes} (h : s.Two j c k b)
    (hc : RunsOn c) (h1 : stage1Slot t (s, []) k = (s1, notes)) (ht1 : s1.Two j c k b1) (hn : noteOf notes j = .nothing)
    (h2 : stage2Slot t notes s1 k = s2) (ht2 : s2.Two j c k b2) (h3 : stage3Slot t notes s2 k = s3) (hr : s3.Rests j) :
    wholeTick t s = stage5 t (stage4 t s3) := by
  have e1 : stage1 t s = (s1, notes) := by
    refine (foldl_pair h.slots ((h.rests hc).stage1Slot t []) ?_).trans h1
    rw [h1]
    exact (ht1.rests hc).stage1Slot t notes
  have e2 : stage2 t notes s1 = s2 := by
    refine (foldl_pair ht1.slots ((ht1.rests hc).stage2Slot t hn) ?_).trans h2
    rw [h2]
    exact (ht2.rests hc).stage2Slot t hn
  have e3 : stage3 t notes s2 = s3 := by
    refine (foldl_pair ht2.slots ((ht2.rests hc).stage3Slot t notes) ?_).trans h3
    rw [h3]
    exact hr.stage3Slot t notes
  rw [wholeTick_eq, e1]
  unfold restOfTick
  rw [e2, e3]

/-! ## Stages 4 and 5 of a booking with no spare -/

/-- What stages 4 and 5 leave of a booking that is not switched. -/
def Booking.standing (b : Booking) : Word × Fields × BookingState × Position := (b.ref, b.fields, b.state, b.position)

theorem Booking.standing_iff {a b : Booking} :
    a.standing = b.standing ↔ a.ref = b.ref ∧ a.fields = b.fields ∧ a.state = b.state ∧ a.position = b.position := by
  unfold Booking.standing
  simp only [Prod.mk.injEq]

/-- From `s` to `v` nothing has changed but countdowns and meters. -/
structure State.Calm (s v : State) : Prop where
  sources : v.sources = s.sources
  ports : v.ports = s.ports
  bills : v.bills = s.bills
  mgmt : v.mgmt = s.mgmt
  bookings : ∀ i, (v.booking i).map Booking.standing = (s.booking i).map Booking.standing

namespace State.Calm
variable {s u v : State}

theorem refl (s : State) : s.Calm s := ⟨rfl, rfl, rfl, rfl, fun _ => rfl⟩

theorem trans (h : s.Calm u) (h' : u.Calm v) : s.Calm v :=
  ⟨h'.sources.trans h.sources, h'.ports.trans h.ports, h'.bills.trans h.bills, h'.mgmt.trans h.mgmt,
    fun i => (h'.bookings i).trans (h.bookings i)⟩

theorem setBooking {k : Nat} {b b' : Booking} (hb : s.booking k = some b) (hst : b'.standing = b.standing) : s.Calm (s.setBooking k b') := by
  refine ⟨rfl, rfl, rfl, rfl, fun i => ?_⟩
  by_cases hi : i = k
  · rw [hi, State.setBooking_booking_self, hb]
    exact congrArg some hst
  · rw [State.setBooking_booking_ne s b' hi]

theorem booking (h : s.Calm v) {k : Nat} {b : Booking} (hb : s.booking k = some b) :
    ∃ b', v.booking k = some b' ∧ b'.standing = b.standing := by
  have hk := h.bookings k
  rw [hb] at hk
  exact Option.map_eq_some_iff.1 hk

theorem state (h : s.Calm v) (i : Nat) : (v.booking i).map Booking.state = (s.booking i).map Booking.state := by
  have hcomp (u : State) : (u.booking i).map Booking.state = ((u.booking i).map Booking.standing).map fun x => x.2.2.1 := by
    rw [Option.map_map]
    rfl
  rw [hcomp, hcomp, h.bookings]

end State.Calm

section
variable {s : State} {k : Nat} {b : Booking} {t : Tick} {nt : Word}

theorem meterSlot_calm (s : State) (k : Nat) (t : Tick) : s.Calm (meterSlot t s k) := by
  unfold meterSlot
  split
  · exact .refl s
  · next b hb =>
    split
    · exact .setBooking hb rfl
    · split
      · exact .setBooking hb rfl
      · exact .refl s

theorem stage5_calm (s : State) (t : Tick) : s.Calm (stage5 t s) :=
  foldl_keeps (State.Calm s) _ (fun u k hu => hu.trans (meterSlot_calm u k t)) _ s (.refl s)

theorem State.setBooking_setBooking (s : State) (k : Nat) (b c : Booking) : (s.setBooking k b).setBooking k c = s.setBooking k c := by
  unfold State.setBooking
  dsimp only
  rw [tabPut_tabPut]

/-- On the main with no spare, the selector touches the countdowns alone (R119, R120). -/
theorem runSelector_noSpare (hs : b.fields.spare = none) (hp : b.position = .onMain) :
    ∃ h w, s.runSelector k b nt = s.setBooking k { b with holdOffLeft := h, wtrLeft := w } := by
  have hreq : b.request = .noRequest ∨ b.request = .forceSpare ∨ b.request = .forceMain ∨ b.request = .lockMain := by
    cases b.request <;> simp
  obtain hr | hr | hr := hreq
  · rw [runSelector_onMain hr hp]
    unfold State.holdOffRule
    rw [State.failureCondition_noSpare hs]
    exact ⟨none, b.wtrLeft, rfl⟩
  · rw [runSelector_forceSpare hr hp]
    unfold State.forceSwitch
    dsimp only
    rw [if_pos hs]
    exact ⟨none, none, rfl⟩
  · exact ⟨none, none, runSelector_met (b := b) (by obtain hr | hr := hr <;> simp [hr, hp])⟩

theorem selectorSlot_noSpare (hb : s.booking k = some b) (hs : b.fields.spare = none) (hp : b.position = .onMain) :
    selectorSlot nt s k = s
      ∨ ∃ h w a, selectorSlot nt s k = s.setBooking k { b with holdOffLeft := h, wtrLeft := w, afresh := a } := by
  unfold selectorSlot
  rw [hb]
  dsimp only
  split
  · exact .inl rfl
  · refine .inr ?_
    split
    · obtain ⟨h, w, e⟩ := runSelector_noSpare (s := s.setBooking k b.stopCountdowns) (k := k) (nt := nt) (b := b.stopCountdowns) hs hp
      exact ⟨h, w, false, e.trans (State.setBooking_setBooking ..)⟩
    · obtain ⟨h, w, e⟩ := runSelector_noSpare (s := s) (k := k) (nt := nt) hs hp
      exact ⟨h, w, b.afresh, e⟩

/-- No live booking has a spare, and each is on its main. -/
def State.Spareless (s : State) : Prop :=
  ∀ i b, s.booking i = some b → b.state.isLive = true → b.fields.spare = none ∧ b.position = .onMain

theorem State.Spareless.calm {v : State} (h : s.Spareless) (hv : s.Calm v) : v.Spareless := fun i b hb hl => by
  have hi := hv.bookings i
  rw [hb] at hi
  obtain ⟨a, ha, he⟩ := Option.map_eq_some_iff.1 hi.symm
  obtain ⟨-, hf, hst, hp⟩ := Booking.standing_iff.1 he
  obtain ⟨hs, hm⟩ := h i a ha (hst ▸ hl)
  exact ⟨hf ▸ hs, hp ▸ hm⟩

theorem selectorSlot_calm (h : ∀ b, s.booking k = some b → b.state.isLive = true → b.fields.spare = none ∧ b.position = .onMain) :
    s.Calm (selectorSlot nt s k) := by
  cases hb : s.booking k with
  | none =>
    have hsame : selectorSlot nt s k = s := by unfold selectorSlot; rw [hb]
    rw [hsame]
    exact .refl s
  | some b =>
    by_cases hl : b.state.isLive = true
    · obtain ⟨hs, hp⟩ := h b hb hl
      obtain e | ⟨ho, w, a, e⟩ := selectorSlot_noSpare (nt := nt) hb hs hp <;> rw [e]
      · exact .refl s
      · exact .setBooking hb rfl
    · have hsame : selectorSlot nt s k = s := by unfold selectorSlot; rw [hb]; simp [hl]
      rw [hsame]
      exact .refl s

theorem stages45_calm (h : s.Spareless) : s.Calm (stage5 t (stage4 t s)) := by
  have h4 : s.Calm (stage4 t s) :=
    foldl_keeps (State.Calm s) _ (fun u k hu => hu.trans (selectorSlot_calm fun b => h.calm hu k b)) _ s (.refl s)
  exact h4.trans (stage5_calm _ t)

end

end Sys2Proof.Machine
end

