-- ==== Sys2Proof/Proofs/CutsForLegs.lean ====
section
/-! The cuts before legs are installed, on the tick of a table of two bookings: for a LIVE entry and for added legs (R88 to R90). -/

namespace Sys2Proof.Machine

/-! ## The booking in the way -/

/-- The leg is the slot's, on the list of this source. -/
def State.Owns (s : State) (j : Nat) (i : SrcId) (l : Leg) : Prop := l.owner = j ∧ ∃ y, s.source i = some y ∧ l ∈ y.legs

theorem State.hasLeg_iff {s : State} (hT : TablesInForm s) {j : Nat} {at_ : SrcId → Leg → Bool} :
    s.HasLeg j at_ ↔ ∃ i l, s.Owns j i l ∧ at_ i l = true := by
  constructor
  · rintro ⟨e, he, l, hl, ho, hat⟩
    exact ⟨e.2.id, l, ⟨ho, e.2, (hT.mem_sources.1 he).2, hl⟩, hat⟩
  · rintro ⟨i, l, ⟨ho, y, hy, hl⟩, hat⟩
    obtain rfl := hT.source_id hy
    exact ⟨(srcKey y.id, y), hT.mem_sources.2 ⟨rfl, hy⟩, l, hl, ho, hat⟩

/-- What is in the way, leg by leg; `s` shows the same legs of the slot as the state `u` of the passes. -/
theorem State.inTheWay_iff {s u : State} (hT : TablesInForm s) {j : Nat} (hlegs : ∀ at_, u.HasLeg j at_ ↔ s.HasLeg j at_) {i : SrcId}
    {y : Source} (hy : u.source i = some y) {bandwidth : Nat} {ps : List Pair} : u.InTheWay j i bandwidth ps ↔
      (∃ i l, s.Owns j i l ∧ l.pair ∈ ps)
        ∨ (∃ i l, s.Owns j i l ∧ (∃ q ∈ ps, q.port = l.pair.port)
            ∧ (u.port l.pair.port).capacity < u.installed l.pair.port + bandwidth * pairsOn l.pair.port ps)
        ∨ ∃ l, s.Owns j i l ∧ 16 < y.legs.length + ps.length := by
  have hcount : u.legCount i = y.legs.length := by unfold State.legCount; rw [hy]
  unfold State.InTheWay
  simp only [hlegs, State.hasLeg_iff hT, hcount, mem_once, List.mem_map]
  refine or_congr ?_ (or_congr ?_ ?_)
  · constructor
    · rintro ⟨q, hq, i, l, ho, hp⟩
      exact ⟨i, l, ho, beq_iff_eq.1 hp ▸ hq⟩
    · rintro ⟨i, l, ho, hp⟩
      exact ⟨l.pair, hp, i, l, ho, beq_self_eq_true _⟩
  · constructor
    · rintro ⟨p, ⟨q, hq, rfl⟩, hc, i, l, ho, hp⟩
      have hp := beq_iff_eq.1 hp
      exact ⟨i, l, ho, ⟨q, hq, hp.symm⟩, hp ▸ hc⟩
    · rintro ⟨i, l, ho, ⟨q, hq, hp⟩, hc⟩
      exact ⟨l.pair.port, ⟨q, hq, hp⟩, hc, i, l, ho, beq_self_eq_true _⟩
  · constructor
    · rintro ⟨hc, i, l, ho, hi⟩
      exact ⟨l, beq_iff_eq.1 hi ▸ ho, hc⟩
    · rintro ⟨l, ho, hc⟩
      exact ⟨hc, i, l, ho, beq_self_eq_true _⟩

/-! ## The table after the cuts -/

/-- The state after the cuts: the first booking has been cut, or nothing has changed. -/
def State.CutOrNot (s u : State) (j : Nat) (c : Booking) (nt : Word) : Prop := u = s.endBooking j c .cut nt ∨ u = s

section
variable {s u : State} {j k : Nat} {c b : Booking} {nt : Word} (h : s.Two j c k b) (hu : s.CutOrNot u j c nt)
include h hu

theorem State.CutOrNot.booking_right : u.booking k = some b := by
  obtain rfl | rfl := hu
  · rw [State.endBooking_booking s c .cut nt h.ne.symm, h.booking_right]
  · exact h.booking_right

/-- Whatever the table still holds is the second booking, the first as it was, or the first in ENDED. -/
theorem State.CutOrNot.only {i : Nat} {a : Booking} (ha : u.booking i = some a) :
    i = k ∧ a = b ∨ i = j ∧ (a = c ∨ a.state.isEnded = true) := by
  obtain rfl | rfl := hu
  · by_cases hi : i = j
    · refine .inr ⟨hi, .inr ?_⟩
      rw [hi] at ha
      obtain hn | hn := Nat.lt_or_ge s.bills.records.length 64
      · rw [State.endBooking_free hn] at ha
        cases ha
      · rw [State.endBooking_waits hn] at ha
        rw [← Option.some.inj ha]
        rfl
    · rw [State.endBooking_booking s c .cut nt hi] at ha
      obtain ⟨hj, -⟩ | hk := h.only ha
      · exact absurd hj hi
      · exact .inl hk
  · obtain ⟨hj, hc⟩ | hk := h.only ha
    · exact .inr ⟨hj, .inl hc⟩
    · exact .inl hk

variable (hc : RunsOn c)
include hc

/-- The first booking rests, and no live booking has a spare, whatever the second becomes with none. -/
theorem State.CutOrNot.rests {v : State} (hv : ∀ i, i ≠ k → v.booking i = u.booking i) : v.Rests j := fun a ha => by
  rw [hv j h.ne] at ha
  obtain ⟨hj, -⟩ | ⟨-, rfl | hended⟩ := hu.only h ha
  · exact absurd hj h.ne
  · exact .inl hc
  · exact .inr hended

theorem State.CutOrNot.spareless {v : State} {b' : Booking} (hv : ∀ i, i ≠ k → v.booking i = u.booking i) (hk : v.booking k = some b')
    (hs : b'.fields.spare = none) (hp : b'.position = .onMain) : v.Spareless := fun i a ha hl => by
  by_cases hi : i = k
  · rw [hi, hk] at ha
    exact Option.some.inj ha ▸ ⟨hs, hp⟩
  · rw [hv i hi] at ha
    obtain ⟨hik, -⟩ | ⟨-, rfl | hended⟩ := hu.only h ha
    · exact absurd hik hi
    · exact ⟨hc.2.2.1, hc.2.2.2.1⟩
    · obtain ⟨bill, hst⟩ := BookingState.isEnded_iff.1 hended
      rw [hst] at hl
      cases hl

end

/-! ## What the tick shows of the cut -/

section
variable {s0 s v w : State} {j k : Nat} {c b : Booking} {nt : Word} {more : List NoticeContent} (h : s.Two j c k b)
  (hbills : s.bills = s0.bills) (hmgmt : s.mgmt = s0.mgmt) (htime : s.time = s0.time) (hcalm : v.Calm w)
include h hbills hmgmt htime hcalm

theorem State.Two.seen_cut (hb : b.state.isEnded = false) (hv : ∀ i, i ≠ k → v.booking i = (s.endBooking j c .cut nt).booking i)
    (hvb : v.bills = (s.endBooking j c .cut nt).bills) (hvm : v.mgmt = ((s.endBooking j c .cut nt).raiseAll more).mgmt) :
    CutOnce s0 w j c nt more :=
  (h.cutOnce hb nt).carry hbills hmgmt htime (State.endBooking_time ..) ((hcalm.state j).trans (congrArg _ (hv j h.ne)))
    (hcalm.bills.trans hvb) (hcalm.mgmt.trans hvm)

theorem State.Two.seen_notCut (hc : c.state = .extended) (hv : ∀ i, i ≠ k → v.booking i = s.booking i) (hvb : v.bills = s.bills)
    (hvm : v.mgmt = (s.raiseAll more).mgmt) : NotCut s0 w j more := by
  refine ⟨hcalm.bills.trans (hvb.trans hbills), ?_,
    hcalm.mgmt.trans (hvm.trans (State.raiseAll_mgmt_congr hmgmt (by rw [htime]) more))⟩
  obtain ⟨c', hc', hst⟩ := hcalm.booking ((hv j h.ne).trans h.booking_left)
  obtain ⟨-, -, hst, -⟩ := Booking.standing_iff.1 hst
  exact ⟨c', hc', hst.trans hc⟩

end

/-! ## A LIVE entry (R88, R89, R96) -/

section
variable {s u : State} {j k : Nat} {c b : Booking} {nt : Word}

/-- The state of the LIVE entry of a booking with no spare, its ground cleared with so many cuts. -/
def State.entry (s u : State) (k : Nat) (b : Booking) (nt : Word) (cuts : Nat) : State :=
  ((u.install k b.fields.main b.fields.legs).setBooking k (s.entered b nt)).raise
    (.bookingLive k b.ref b.fields.account nt .onMain b.fields.main
      (snapshotOf b.fields.tariffClass (s.tariff b.fields.tariffClass)).noTariff cuts .live)

theorem State.choice_noSpare (hs : b.fields.spare = none) : s.choice b = .onMain := by
  unfold State.choice
  exact if_pos hs

theorem State.enterLive_noSpare (hs : b.fields.spare = none) (hh : b.state ≠ .held) {cuts : Nat}
    (hclear : s.clearGround nt b.fields.main b.fields.bandwidth b.fields.legs = (u, cuts)) :
    s.enterLive k b nt false = s.entry u k b nt cuts := by
  have hchoice := State.choice_noSpare (s := s) hs
  unfold State.enterLive Booking.selected
  dsimp only
  rw [if_neg hh, hchoice]
  dsimp only [Booking.stopCountdowns]
  rw [hclear]
  unfold State.entry State.entered
  rw [hchoice]
  rfl

theorem State.entry_shows (s u : State) (k : Nat) (b : Booking) (nt : Word) (cuts : Nat) :
    (s.entry u k b nt cuts).booking k = some (s.entered b nt) ∧ (∀ i, i ≠ k → (s.entry u k b nt cuts).booking i = u.booking i)
      ∧ (s.entry u k b nt cuts).bills = u.bills
      ∧ (s.entry u k b nt cuts).mgmt = (u.raiseAll [.bookingLive k b.ref b.fields.account nt .onMain b.fields.main
          (snapshotOf b.fields.tariffClass (s.tariff b.fields.tariffClass)).noTariff cuts .live]).mgmt := by
  unfold State.entry
  refine ⟨?_, fun i hi => ?_, ?_, ?_⟩
  · rw [State.booking_congr (State.raise_bookings ..), State.setBooking_booking_self]
  · rw [State.booking_congr (State.raise_bookings ..), State.setBooking_booking_ne _ _ hi, State.booking_congr (State.install_bookings ..)]
  · simp
  · exact State.raise_mgmt_congr (by simp) (by simp) _

theorem stage1Slot_idle {t : Tick} (hb : s.booking k = some b) (hp : b.pending = none) (he : b.endPending = false) (notes : Notes) :
    stage1Slot t (s, notes) k = (s, notes) := by
  unfold stage1Slot endIfPending
  simp [hb, hp, he]

theorem stage2Slot_idle {t : Tick} {notes : Notes} (hb : s.booking k = some b)
    (hw : b.state.isRunning = true → windowActs t.nt (noteOf notes k) b = false) :
    stage2Slot t notes s k = dropLegs k (noteOf notes k).dropped s := by
  have hno : (b.state.isRunning && windowActs t.nt (noteOf notes k) b) = false := by
    cases hr : b.state.isRunning with
    | false => rfl
    | true => rw [hw hr]; rfl
  unfold stage2Slot
  rw [hb]
  dsimp only
  rw [hno, if_neg Bool.false_ne_true]

/-- Stage 3 for a PREROLL booking with no spare that goes LIVE, and no further (R86, R88). -/
theorem stage3Slot_goesLive {t : Tick} (hb : s.booking k = some b) (hst : b.state = .preroll) (hs : b.fields.spare = none)
    (hstart : reached t.nt b.fields.start = true) (hplan : reached t.nt b.fields.plannedEnd = false)
    (hwin : reached t.nt b.fields.windowEnd = false) (hg : s.isHolding b = false) {cuts : Nat}
    (hclear : s.clearGround t.nt b.fields.main b.fields.bandwidth b.fields.legs = (u, cuts)) :
    stage3Slot t [] s k = s.entry u k b t.nt cuts := by
  have hnone : noteOf [] k = .nothing := rfl
  have hacts : windowActs t.nt .nothing b = false := by simp [windowActs_nothing, windowReached, hwin, hst]
  have hno : planPasses t.nt .nothing b = false := planPasses_nothing.trans hplan
  have hno' : planPasses t.nt .nothing (s.entered b t.nt) = false := planPasses_nothing.trans hplan
  have henter := State.enterLive_noSpare hs (by simp [hst]) hclear (k := k)
  unfold stage3Slot
  rw [hb]
  dsimp only
  rw [hst, hnone]
  dsimp only
  unfold passEarly
  rw [hacts, if_neg Bool.false_ne_true, if_neg (by simp [hst]), passStart_enters (startPasses_nothing.trans hstart) hg]
  unfold goLive passPlan
  rw [hno, henter, (State.entry_shows s u k b t.nt cuts).1]
  simp [hno']

end

/-- The second clause of O43: the cuts of a LIVE entry. -/
theorem entry_cuts {s : State} {j k : Nat} {c b : Booking} {t : Tick} {rest : List Tick} (ha : s.inReset = false)
    (ht : s.bookingTicks = t :: rest) (h : State.Two { s with bookingTicks := rest } j c k b) (hp : s.PairsOnce) (hc : RunsOn c)
    (hst : b.state = .preroll) (hs : b.fields.spare = none) (hpend : b.pending = none) (hend : b.endPending = false)
    (hstart : reached t.nt b.fields.start = true) (hplan : reached t.nt b.fields.plannedEnd = false)
    (hwin : reached t.nt b.fields.windowEnd = false) (hg : s.isHolding b = false) :
    ∃ v b', exec .bookingTick s = .next v ∧ v.booking k = some b' ∧ b'.state = .live
      ∧ (s.InTheWay j b.fields.main b.fields.bandwidth b.fields.legs → CutOnce s v j c t.nt [.bookingLive k b.ref b.fields.account t.nt
          .onMain b.fields.main (snapshotOf b.fields.tariffClass (s.tariff b.fields.tariffClass)).noTariff 1 .live])
      ∧ (¬ s.InTheWay j b.fields.main b.fields.bandwidth b.fields.legs → NotCut s v j [.bookingLive k b.ref b.fields.account t.nt
          .onMain b.fields.main (snapshotOf b.fields.tariffClass (s.tariff b.fields.tariffClass)).noTariff 0 .live]) := by
  let s1 : State := { s with bookingTicks := rest }
  have hne : b.state ≠ .extended := by simp [hst]
  obtain ⟨hcuts, hspares⟩ := (h.onlyExtended hc.1 hne).clearGround t.nt hp b.fields.main b.fields.bandwidth b.fields.legs
  have htick {u : State} {cuts : Nat} (hu : s1.CutOrNot u j c t.nt)
      (hclear : s1.clearGround t.nt b.fields.main b.fields.bandwidth b.fields.legs = (u, cuts)) :
      exec .bookingTick s = .next (stage5 t (stage4 t (s1.entry u k b t.nt cuts)))
        ∧ (s1.entry u k b t.nt cuts).Calm (stage5 t (stage4 t (s1.entry u k b t.nt cuts))) := by
    obtain ⟨hk, hothers, -⟩ := State.entry_shows s1 u k b t.nt cuts
    refine ⟨?_, stages45_calm (hu.spareless h hc hothers hk hs (State.choice_noSpare hs))⟩
    rw [exec_bookingTick ha ht]
    refine congrArg _ (h.wholeTick hc (stage1Slot_idle h.booking_right hpend hend []) h rfl ?_ h
      (stage3Slot_goesLive h.booking_right hst hs hstart hplan hwin hg hclear) (hu.rests h hc hothers))
    rw [stage2Slot_idle h.booking_right (by simp [hst, BookingState.isRunning])]
    exact dropLegs_nil ..
  have hlive {u : State} {cuts : Nat} {w : State} (hw : (s1.entry u k b t.nt cuts).Calm w) : ∃ b', w.booking k = some b' ∧ b'.state = .live := by
    obtain ⟨b', hb', he⟩ := hw.booking (State.entry_shows s1 u k b t.nt cuts).1
    obtain ⟨-, -, hst', -⟩ := Booking.standing_iff.1 he
    exact ⟨b', hb', hst'⟩
  by_cases hway : s1.InTheWay j b.fields.main b.fields.bandwidth b.fields.legs
  · obtain ⟨hexec, hcalm⟩ := htick (.inl rfl) (hcuts hway)
    obtain ⟨b', hb', hst'⟩ := hlive hcalm
    obtain ⟨-, hothers, hbills, hmgmt⟩ := State.entry_shows s1 (s1.endBooking j c .cut t.nt) k b t.nt 1
    exact ⟨_, b', hexec, hb', hst', fun _ => h.seen_cut rfl rfl rfl hcalm (by rw [hst]; rfl) hothers hbills hmgmt,
      fun hno => absurd hway hno⟩
  · obtain ⟨hexec, hcalm⟩ := htick (.inr rfl) (hspares hway)
    obtain ⟨b', hb', hst'⟩ := hlive hcalm
    obtain ⟨-, hothers, hbills, hmgmt⟩ := State.entry_shows s1 s1 k b t.nt 0
    exact ⟨_, b', hexec, hb', hst', fun hyes => absurd hyes hway, fun _ => h.seen_notCut rfl rfl rfl hcalm hc.1 hothers hbills hmgmt⟩

end Sys2Proof.Machine
end

