-- ==== Sys2Proof/Proofs/CutSources.lean ====
section
/-! The sources after a cut, and what an install request then finds (R47, R83, R90). -/

namespace Sys2Proof.Machine

theorem Rising.ext {α : Type} {t u : List (Nat × α)} (ht : Rising t) (hu : Rising u) (h : ∀ k, tabFind t k = tabFind u k) : t = u := by
  have hmem (e : Nat × α) : e ∈ t ↔ e ∈ u := by
    rw [ht.mem_iff (k := e.1) (x := e.2), hu.mem_iff (k := e.1) (x := e.2), h]
  have hnodup {v : List (Nat × α)} (hv : Rising v) : v.Nodup := List.Nodup.of_map Prod.fst (hv.imp Nat.ne_of_lt)
  have hsorted {v : List (Nat × α)} (hv : Rising v) : v.Pairwise fun a b => a.1 < b.1 := List.pairwise_map.1 hv
  exact ((List.perm_ext_iff_of_nodup (hnodup ht) (hnodup hu)).2 hmem).eq_of_pairwise
    (fun a b _ _ hab hba => absurd hab (Nat.lt_asymm hba)) (hsorted ht) (hsorted hu)

/-- A source with its reference count left out of sight. -/
def Source.unreferenced (x : Source) : Source := { x with refs := 0 }

/-- The sources with their reference counts left out of sight. -/
def State.unreferenced (s : State) : State := { s with sources := s.sources.map fun e => (e.1, e.2.unreferenced) }

section
variable {s u v : State}

theorem State.unreferenced_source (i : SrcId) : s.unreferenced.source i = (s.source i).map Source.unreferenced := tabFind_map ..

/-- An install request looks at no reference count (R47). -/
theorem State.unreferenced_installCheck (i : SrcId) (ps : List Pair) : s.unreferenced.installCheck i ps = s.installCheck i ps := by
  have hheld (q : Pair) : s.unreferenced.pairHeld q = s.pairHeld q := by
    simp [State.unreferenced, State.pairHeld, Source.unreferenced, Function.comp_def]
  have hinstalled (p : Port) : s.unreferenced.installed p = s.installed p := by
    simp [State.unreferenced, State.installed, Source.unreferenced, Function.comp_def]
  have hport (p : Port) : s.unreferenced.port p = s.port p := rfl
  unfold State.installCheck
  rw [State.unreferenced_source, show s.unreferenced.pairHeld = s.pairHeld from funext hheld]
  cases s.source i with
  | none => rfl
  | some x => simp [hinstalled, hport, Source.unreferenced]

theorem TablesInForm.unreferenced (h : TablesInForm s) : TablesInForm s.unreferenced := by
  refine ⟨h.bookings, h.sources.map _, fun e he => ?_⟩
  obtain ⟨d, hd, rfl⟩ := List.mem_map.1 he
  exact h.keys d hd

theorem TablesInForm.sources_ext (hu : TablesInForm u) (hv : TablesInForm v) (h : ∀ i, u.source i = v.source i) : u.sources = v.sources := by
  have hnone {w : State} (hw : TablesInForm w) {k : Nat} (hk : ∀ i, k ≠ srcKey i) : tabFind w.sources k = none := by
    cases hf : tabFind w.sources k with
    | none => rfl
    | some x => exact absurd (hw.keys _ (tabFind_mem hf)) (hk x.id)
  refine hu.sources.ext hv.sources fun k => ?_
  by_cases hk : ∃ i, k = srcKey i
  · obtain ⟨i, rfl⟩ := hk
    exact h i
  · have hk := not_exists.1 hk
    rw [hnone hu hk, hnone hv hk]

/-- Two states with the same ports and the same sources, reference counts aside, answer an install request alike. -/
theorem State.installCheck_congr (hu : TablesInForm u) (hv : TablesInForm v) (hp : u.ports = v.ports)
    (h : ∀ i, (u.source i).map Source.unreferenced = (v.source i).map Source.unreferenced) (i : SrcId) (ps : List Pair) :
    u.installCheck i ps = v.installCheck i ps := by
  have hsources : u.unreferenced.sources = v.unreferenced.sources := hu.unreferenced.sources_ext hv.unreferenced fun i => by
    rw [State.unreferenced_source, State.unreferenced_source, h]
  rw [← State.unreferenced_installCheck (s := u), ← State.unreferenced_installCheck (s := v)]
  unfold State.installCheck State.source State.pairHeld State.installed State.port
  rw [hsources, show u.unreferenced.ports = v.unreferenced.ports from hp]

end

/-! ## The sources after the cut -/

section
variable {s : State} {j : Nat} {c : Booking}

/-- The legs of a slot taken off every list. -/
def State.withoutLegs (s : State) (j : Nat) : State := { s with sources := s.sources.map fun e => (e.1, e.2.without j) }

theorem State.withoutLegs_source (i : SrcId) : (s.withoutLegs j).source i = (s.source i).map (Source.without j) := tabFind_map ..

theorem TablesInForm.withoutLegs (h : TablesInForm s) : TablesInForm (s.withoutLegs j) := by
  refine ⟨h.bookings, h.sources.map _, fun e he => ?_⟩
  obtain ⟨d, hd, rfl⟩ := List.mem_map.1 he
  exact h.keys d hd

theorem OnItsList.without (hon : OnItsList s j c) {i : SrcId} {x : Source} (hx : s.source i = some x) (hi : i ≠ c.fields.main) :
    x.without j = x := by
  unfold Source.without
  rw [List.filter_eq_self.2]
  intro l hl
  rw [bne_iff_ne]
  exact fun ho => hi (hon.1 i x hx ⟨l, hl, ho⟩)

theorem RunsOn.named (hc : RunsOn c) {i : SrcId} : i ∈ c.named ↔ i = c.fields.main := by
  obtain ⟨-, -, hs, -, hp, -⟩ := hc
  rw [Machine.mem_named, Fields.mem_named, hs, hp]
  simp

/-- After the cut of a booking whose source another names, each source stands as it was but for its legs. -/
theorem State.cut_source (hT : TablesInForm s) (hc : RunsOn c) (hon : OnItsList s j c) (nt : Word) (i : SrcId) :
    ((s.endBooking j c .cut nt).source i).map Source.unreferenced = (s.source i).map fun x => (x.without j).unreferenced := by
  have hlive : c.state.isLive = true := by rw [hc.1]; rfl
  have hsel : c.selected = c.fields.main := by
    unfold Booking.selected
    rw [hc.2.2.2.1]
  rw [State.source_congr (State.endBooking_sources s j c .cut nt), State.vacate_source hT]
  cases hx : s.source i with
  | none => rfl
  | some x =>
    dsimp only [Option.bind_some, Option.map_some]
    by_cases hi : i = c.fields.main
    · rw [if_pos (hc.named.2 hi), if_pos (hon.2 x (hi ▸ hx)), if_pos ⟨hlive, hi.trans hsel.symm⟩]
      rfl
    · rw [if_neg (mt hc.named.1 hi), if_neg fun e => hi (e.2.trans hsel), hon.without hx hi]
      rfl

theorem State.cut_legs (hT : TablesInForm s) (hc : RunsOn c) (hon : OnItsList s j c) (nt : Word) {i : SrcId} {x : Source}
    (hx : s.source i = some x) : ∃ y, (s.endBooking j c .cut nt).source i = some y ∧ y.id = x.id ∧ y.legs = (x.without j).legs := by
  have hi := State.cut_source hT hc hon nt i
  rw [hx] at hi
  obtain ⟨y, hy, he⟩ := Option.map_eq_some_iff.1 hi
  have hid : y.unreferenced.id = (x.without j).unreferenced.id := congrArg Source.id he
  have hlegs : y.unreferenced.legs = (x.without j).unreferenced.legs := congrArg Source.legs he
  exact ⟨y, hy, hid, hlegs⟩

theorem bookingClosed_tablesInForm : BookingClosed TablesInForm where
  source _ _ _ y _ _ h := h.setSource y
  move _ _ _ _ _ x' y' _ _ _ _ h := (h.setSource x').setSource y'
  create _ _ _ _ h := h.setSource _
  drop _ i h := h.delSource i
  booking _ k b h := h.setBooking k b
  free _ k h := h.freeSlot k
  group _ _ _ h := h.of_tables (by simp) (by simp)
  notice _ c h := h.raise c
  bill _ _ _ _ h := h.of_tables rfl rfl

theorem State.cut_installCheck (hT : TablesInForm s) (hc : RunsOn c) (hon : OnItsList s j c) (nt : Word) (i : SrcId) (ps : List Pair) :
    (s.endBooking j c .cut nt).installCheck i ps = (s.withoutLegs j).installCheck i ps := by
  refine State.installCheck_congr (bookingClosed_tablesInForm.endBooking j c .cut nt hT) hT.withoutLegs (State.endBooking_ports ..) (fun i => ?_) i ps
  rw [State.cut_source hT hc hon, State.withoutLegs_source, Option.map_map]
  rfl

end

end Sys2Proof.Machine
end

