-- ==== Sys2Proof/Proofs/CutsForAddedLegs.lean ====
section
/-! The cuts before the legs that a modification added are installed (R85, R90). -/

namespace Sys2Proof.Machine

section
variable {s : State} {j k : Nat} {c b : Booking} {m : Mod} {t : Tick} {x : Source}

/-! ## The second booking's slot in stages 1 to 3 -/

theorem stage1Slot_applies (hb : s.booking k = some b) (hm : b.pending = some m) (hend : b.state.isEnded = false) (he : b.endPending = false)
    (hn : ∀ i ∈ b.fields.named, i ∈ (m.apply b.fields).named) :
    stage1Slot t (s, []) k = (s.setBooking k (b.appliedAt m t.nt), [(k, (applied t.nt b m).2)]) := by
  have hend' : (b.appliedAt m t.nt).endPending = false := by
    unfold Booking.appliedAt Booking.modified selectorAfter
    dsimp only
    split <;> exact he
  have hmoved := (s.setBooking k (b.appliedAt m t.nt)).moveRefs_fewer b.fields.bandwidth (applied_named (nt := t.nt) hm)
  rw [show (b.named.filter fun i => !(applied t.nt b m).1.named.contains i) = [] from Booking.unnamed_nil hm hn, List.foldl_nil] at hmoved
  unfold stage1Slot
  simp only [hb, hend, hm]
  rw [if_neg (by simp)]
  refine Prod.ext ?_ rfl
  refine (congrArg (endIfPending t k) hmoved).trans ?_
  unfold endIfPending
  rw [State.setBooking_booking_self]
  simp [hend']

theorem dropLegs_shows (hT : TablesInForm s) (hb : s.booking k = some b) (hl : b.state.isLive = true)
    (hx : s.source b.selected = some x) (ps : List Pair) :
    ∃ d e, dropLegs k ps s = (s.setSource (x.kept k ps)).setBooking k { b with delivered := d, dropped := e } := by
  by_cases hps : ps = []
  · refine ⟨b.delivered, b.dropped, ?_⟩
    have hkept : x.kept k ps = x := by simp [Source.kept, hps]
    have hsame : s.setBooking k b = s := by
      unfold State.setBooking
      rw [tabPut_self hT.bookings hb]
    rw [hkept, hT.setSource_self hx, hps, dropLegs_nil]
    exact hsame.symm
  · refine ⟨b.delivered + sumLegs Leg.sent (x.dropped k ps), b.dropped + sumLegs Leg.dropped (x.dropped k ps), ?_⟩
    unfold dropLegs
    rw [hb]
    dsimp only
    rw [if_pos ⟨hl, hps⟩]
    unfold State.takeLegs State.removeLegs
    rw [hx]
    rfl

theorem stage3Slot_adds {notes : Notes} (hb : s.booking k = some b)
    (hst : b.state = .live ∧ reached t.nt b.fields.plannedEnd = false ∨ b.state = .overrun) :
    stage3Slot t notes s k = installAdded t.nt (noteOf notes k).added k s := by
  unfold stage3Slot
  rw [hb]
  dsimp only
  obtain ⟨hst, hp⟩ | hst := hst
  · have hno : planPasses t.nt (noteOf notes k) b = false := by simp [planPasses, hp]
    rw [hst]
    dsimp only
    unfold passPlan
    rw [hb]
    simp [hno]
  · rw [hst]

theorem installAdded_clears {nt : Word} {ps : List Pair} (hb : s.booking k = some b) (hst : b.state = .live ∨ b.state = .overrun)
    (hps : ps ≠ []) : installAdded nt ps k s = (s.clearGround nt b.selected b.fields.bandwidth ps).1.install k b.selected ps := by
  unfold installAdded
  rw [hb]
  exact if_pos ⟨hst, hps⟩

/-! ## The lists without the dropped legs -/

section
variable (hx : s.source x.id = some x) (ps : List Pair)
include hx

theorem State.kept_owns (hne : j ≠ k) (i : SrcId) (l : Leg) : (s.setSource (x.kept k ps)).Owns j i l ↔ s.Owns j i l := by
  unfold State.Owns
  refine and_congr_right fun ho => ?_
  rw [State.setSource_source]
  by_cases hi : i = x.id
  · rw [hi, if_pos (show x.id = (x.kept k ps).id from rfl), hx]
    simp [Source.kept, ho, hne]
  · rw [if_neg (show ¬ i = (x.kept k ps).id from hi)]

theorem State.kept_hasLeg (hT : TablesInForm s) (hne : j ≠ k) (at_ : SrcId → Leg → Bool) :
    (s.setSource (x.kept k ps)).HasLeg j at_ ↔ s.HasLeg j at_ := by
  rw [State.hasLeg_iff hT, State.hasLeg_iff (hT.setSource _)]
  simp only [State.kept_owns hx ps hne]

theorem State.PairsOnce.kept (hT : TablesInForm s) (h : s.PairsOnce) : (s.setSource (x.kept k ps)).PairsOnce := by
  refine (pairs_nodup_iff _).2 fun q => ?_
  have hq := (pairs_nodup_iff s).1 h q
  have hsum := tabSum_setSource (y := x.kept k ps) hT hx rfl fun x => x.legs.countP fun l => l.pair == q
  have hle : (x.kept k ps).legs.countP (fun l => l.pair == q) ≤ x.legs.countP fun l => l.pair == q := List.filter_sublist.countP_le
  unfold State.pairTally at hq ⊢
  omega

theorem OnItsList.kept (hne : j ≠ k) (h : OnItsList s j c) : OnItsList (s.setSource (x.kept k ps)) j c := by
  refine ⟨fun i y hy ⟨l, hl, ho⟩ => ?_, fun y hy => ?_⟩
  · obtain ⟨-, z, hz, hlz⟩ := (State.kept_owns hx ps hne i l).1 ⟨ho, y, hy, hl⟩
    exact h.1 i z hz ⟨l, hlz, ho⟩
  · rw [State.setSource_source] at hy
    split at hy
    · next hi =>
      rw [← Option.some.inj hy]
      exact h.2 x (by rw [hi]; exact hx)
    · exact h.2 y hy

end

/-- The list of a source. -/
def State.Listed (s : State) (i : SrcId) (ls : List Leg) : Prop := (s.source i).map Source.legs = some ls

theorem State.Listed.calm {v w : State} {i : SrcId} {ls : List Leg} (h : v.Listed i ls) (hw : v.Calm w) : w.Listed i ls := by
  unfold State.Listed
  rw [State.source_congr hw.sources]
  exact h

theorem State.install_listed {u : State} (hT : TablesInForm u) {i : SrcId} {y : Source} (hy : u.source i = some y) {ps : List Pair}
    (ht : u.installCheck i ps = .taken) (k : Nat) : (u.install k i ps).Listed i (y.legs ++ ps.map (newLeg k)) := by
  unfold State.Listed
  rw [State.install_taken hy ht, ← hT.source_id hy,
    State.setSource_source_self u { y with legs := y.legs ++ ps.map (newLeg k) }]
  rfl

end

/-! ## The tick (R80, R85, R90) -/

/-- The tick `t` is about to be taken on a table of two bookings: `c` of slot `j` runs on, and the modification `m` of the LIVE or OVERRUN
booking `b` of slot `k` changes its legs alone. -/
structure AddingTick (s : State) (j : Nat) (c : Booking) (k : Nat) (b : Booking) (m : Mod) (t : Tick) (rest : List Tick) (x : Source)
    (dropped added : List Pair) : Prop where
  awake : s.inReset = false
  tick : s.bookingTicks = t :: rest
  two : State.Two { s with bookingTicks := rest } j c k b
  runsOn : RunsOn c
  installs : b.state = .live ∧ reached t.nt (m.apply b.fields).plannedEnd = false ∨ b.state = .overrun
  window : reached t.nt (m.apply b.fields).windowEnd = false
  noSpare : b.fields.spare = none
  onMain : b.position = .onMain
  pending : b.pending = some m
  noEnd : b.endPending = false
  legsAlone : m.apply b.fields = { b.fields with legs := (m.apply b.fields).legs }
  main : s.source b.fields.main = some x
  dropped_eq : (b.fields.legs.filter fun q => !(m.apply b.fields).legs.contains q) = dropped
  added_eq : ((m.apply b.fields).legs.filter fun q => !b.fields.legs.contains q) = added

/-- The state after stages 1 and 2: the dropped legs gone from the list, the record remade. -/
def State.dropped (s : State) (k : Nat) (b : Booking) (rest : List Tick) (x : Source) (dropped : List Pair) : State :=
  (State.setSource { s with bookingTicks := rest } (x.kept k dropped)).setBooking k b

namespace AddingTick
variable {s : State} {j k : Nat} {c b : Booking} {m : Mod} {t : Tick} {rest : List Tick} {x : Source} {dropped added : List Pair}
  (h : AddingTick s j c k b m t rest x dropped added)
include h

theorem states : b.state.isLive = true ∧ b.state.isEnded = false ∧ b.state ≠ .extended ∧ (b.state = .live ∨ b.state = .overrun) := by
  obtain ⟨e, -⟩ | e := h.installs <;> simp [e, BookingState.isLive, BookingState.isEnded]

theorem fields_same : (m.apply b.fields).main = b.fields.main ∧ (m.apply b.fields).spare = none
    ∧ (m.apply b.fields).bandwidth = b.fields.bandwidth ∧ (m.apply b.fields).plannedEnd = b.fields.plannedEnd
    ∧ (m.apply b.fields).windowEnd = b.fields.windowEnd := by
  rw [h.legsAlone]
  exact ⟨rfl, h.noSpare, rfl, rfl, rfl⟩

theorem source_id : x.id = b.fields.main := h.two.tables.source_id h.main

theorem stateAfter : b.stateAfter m t.nt = b.state := by
  obtain ⟨-, -, -, hp, hw⟩ := h.fields_same
  refine Booking.stateAfter_same (fun e => ?_) hp hw
  obtain ⟨hl, -⟩ := h.states
  rw [e] at hl
  cases hl

theorem applied_eq : b.appliedAt m t.nt = b.remade m b.state := by
  unfold Booking.appliedAt Booking.modified Booking.remade
  rw [selectorAfter_same (.inl h.noSpare), h.stateAfter]

theorem note : (applied t.nt b m).2.dropped = dropped ∧ (applied t.nt b m).2.added = added := by
  obtain ⟨hl, -, -, hst⟩ := h.states
  rw [applied_note, h.stateAfter, ← h.dropped_eq, ← h.added_eq]
  exact ⟨if_pos hl, if_pos hst⟩

theorem window_rests : windowActs t.nt (noteOf [(k, (applied t.nt b m).2)] k) (b.remade m b.state) = false := by
  obtain ⟨-, -, hne, -⟩ := h.states
  have hreach : windowReached t.nt (b.remade m b.state) = false := by
    unfold windowReached
    rw [show (b.remade m b.state).fields.windowEnd = (m.apply b.fields).windowEnd from rfl, h.window]
    simpa [Booking.remade] using hne
  unfold windowActs
  rw [hreach]
  rfl

/-- Stages 1 to 3 come to the install of the added legs. -/
theorem reaches : ∃ b2 : Booking, b2.state = b.state ∧ b2.fields = m.apply b.fields ∧ b2.position = .onMain
    ∧ (s.dropped k b2 rest x dropped).Two j c k b2
    ∧ ∀ v, installAdded t.nt added k (s.dropped k b2 rest x dropped) = v → v.Rests j →
        exec .bookingTick s = .next (stage5 t (stage4 t v)) := by
  let s1 : State := { s with bookingTicks := rest }
  obtain ⟨hlive, hended, -, -⟩ := h.states
  obtain ⟨hmain, -⟩ := h.fields_same
  obtain ⟨hdropped, hadded⟩ := h.note
  have h1 : (s1.setBooking k (b.remade m b.state)).Two j c k (b.remade m b.state) := h.two.setBooking _
  have hstage1 := stage1Slot_applies (t := t) h.two.booking_right h.pending hended h.noEnd (Booking.named_kept hmain (.inl h.noSpare))
  rw [h.applied_eq] at hstage1
  have hsel : (b.remade m b.state).selected = b.fields.main := by
    unfold Booking.selected Booking.remade
    dsimp only
    rw [h.onMain]
    exact hmain
  obtain ⟨d, e, hdrop⟩ := dropLegs_shows (s := s1.setBooking k (b.remade m b.state)) (k := k) h1.tables h1.booking_right hlive
    ((congrArg s.source hsel).trans h.main) dropped
  have hs2 := hdrop.trans (State.setBooking_setBooking (s1.setSource (x.kept k dropped)) k (b.remade m b.state) _)
  have h2 := (h.two.of_bookings (v := s1.setSource (x.kept k dropped)) (h.two.tables.setSource _) rfl).setBooking
    { b.remade m b.state with delivered := d, dropped := e }
  have hother : noteOf [(k, (applied t.nt b m).2)] j = .nothing := by
    unfold noteOf tabFind
    rw [if_neg h.two.ne.symm]
    rfl
  refine ⟨{ b.remade m b.state with delivered := d, dropped := e }, rfl, rfl, h.onMain, h2, fun v hv hr => ?_⟩
  rw [exec_bookingTick h.awake h.tick]
  refine congrArg _ (h.two.wholeTick h.runsOn hstage1 h1 hother ?_ h2 ?_ hr)
  · rw [stage2Slot_idle h1.booking_right fun _ => h.window_rests, noteOf_self, hdropped]
    exact hs2
  · rw [stage3Slot_adds h2.booking_right h.installs, noteOf_self, hadded]
    exact hv

/-- The tick whose stage 3 ends in `v`, the tables of `v` being those of the cuts. -/
theorem tick_seen {b2 : Booking} {s2 v w : State} (h2 : s2.Two j c k b2) (hst : b2.state = b.state) (hf : b2.fields = m.apply b.fields)
    (hpos : b2.position = .onMain) (hw : s2.CutOrNot w j c t.nt) (hv : v.bookings = w.bookings) :
    v.Rests j ∧ v.Calm (stage5 t (stage4 t v))
      ∧ ∃ b', (stage5 t (stage4 t v)).booking k = some b' ∧ b'.state = b.state ∧ b'.fields = m.apply b.fields := by
  obtain ⟨-, hs, -⟩ := h.fields_same
  have hothers (i : Nat) (_ : i ≠ k) : v.booking i = w.booking i := State.booking_congr hv i
  have hk : v.booking k = some b2 := (State.booking_congr hv k).trans (hw.booking_right h2)
  have hcalm : v.Calm (stage5 t (stage4 t v)) :=
    stages45_calm (hw.spareless h2 h.runsOn hothers hk (by rw [hf]; exact hs) hpos)
  obtain ⟨b', hb', hstand⟩ := hcalm.booking hk
  obtain ⟨-, hf', hst', -⟩ := Booking.standing_iff.1 hstand
  exact ⟨hw.rests h2 h.runsOn hothers, hcalm, b', hb', hst'.trans hst, hf'.trans hf⟩

/-- The third clause of O43: the cuts before added legs. -/
theorem cuts (hp : s.PairsOnce) (hon : OnItsList s j c) :
    let u := s.setSource (x.kept k dropped)
    ∃ v b', exec .bookingTick s = .next v ∧ v.booking k = some b' ∧ b'.state = b.state ∧ b'.fields = m.apply b.fields
      ∧ (added ≠ [] ∧ u.InTheWay j b.fields.main b.fields.bandwidth added → CutOnce s v j c t.nt []
          ∧ ((u.withoutLegs j).installCheck b.fields.main added = .taken →
            v.Listed b.fields.main (((x.kept k dropped).without j).legs ++ added.map (newLeg k))))
      ∧ (¬ (added ≠ [] ∧ u.InTheWay j b.fields.main b.fields.bandwidth added) → NotCut s v j []
          ∧ (u.installCheck b.fields.main added = .taken →
            v.Listed b.fields.main ((x.kept k dropped).legs ++ added.map (newLeg k)))) := by
  intro u
  obtain ⟨b2, hst, hf, hpos, h2, hreach⟩ := h.reaches
  obtain ⟨-, hended, hne, hinstalls⟩ := h.states
  obtain ⟨hmain, -, hband, -⟩ := h.fields_same
  have hx : s.source x.id = some x := h.source_id ▸ h.main
  have hon2 : OnItsList (s.dropped k b2 rest x dropped) j c := hon.kept hx dropped h.two.ne
  have hp2 : (s.dropped k b2 rest x dropped).PairsOnce :=
    State.PairsOnce.kept (s := { s with bookingTicks := rest }) hx dropped h.two.tables hp
  have hx2 : (s.dropped k b2 rest x dropped).source b.fields.main = some (x.kept k dropped) := by
    rw [← h.source_id]
    exact State.setSource_source_self { s with bookingTicks := rest } (x.kept k dropped)
  have hended2 : b2.state.isEnded = false := by rw [hst]; exact hended
  have hsel : b2.selected = b.fields.main := by
    unfold Booking.selected
    rw [hpos, hf, hmain]
  obtain ⟨hcuts, hspares⟩ := (h2.onlyExtended h.runsOn.1 (by rw [hst]; exact hne)).clearGround t.nt hp2 b.fields.main
    b.fields.bandwidth added
  have hclears (hnil : added ≠ []) := installAdded_clears (nt := t.nt) h2.booking_right (by rw [hst]; exact hinstalls) hnil
  rw [hsel, hf, hband] at hclears
  by_cases hway : added ≠ [] ∧ u.InTheWay j b.fields.main b.fields.bandwidth added
  · have h3 := hclears hway.1
    rw [hcuts hway.2] at h3
    obtain ⟨hr, hcalm, b', hb', hst', hf'⟩ := h.tick_seen h2 hst hf hpos (.inl rfl) (State.install_bookings ..)
    obtain ⟨y, hy, -, hylegs⟩ := State.cut_legs h2.tables h.runsOn hon2 t.nt hx2
    refine ⟨_, b', hreach _ h3 hr, hb', hst', hf', fun _ => ⟨h2.seen_cut rfl rfl rfl hcalm hended2 (fun i _ => ?_)
      (State.install_bills ..) (State.install_mgmt ..), fun htaken => ?_⟩, fun hno => absurd hway hno⟩
    · exact State.booking_congr (State.install_bookings ..) i
    · rw [← hylegs]
      refine State.Listed.calm (State.install_listed (bookingClosed_tablesInForm.endBooking j c .cut t.nt h2.tables) hy ?_ k) hcalm
      rw [State.cut_installCheck h2.tables h.runsOn hon2]
      exact htaken
  · by_cases hnil : added = []
    · have h3 : installAdded t.nt added k (s.dropped k b2 rest x dropped) = s.dropped k b2 rest x dropped := by rw [hnil, installAdded_nil]
      obtain ⟨hr, hcalm, b', hb', hst', hf'⟩ := h.tick_seen h2 hst hf hpos (.inr rfl) rfl
      refine ⟨_, b', hreach _ h3 hr, hb', hst', hf', fun hyes => absurd hyes hway, fun _ => ⟨h2.seen_notCut rfl rfl rfl hcalm
        h.runsOn.1 (fun _ _ => rfl) rfl rfl, fun _ => State.Listed.calm ?_ hcalm⟩⟩
      unfold State.Listed
      rw [hx2, hnil]
      simp
    · have h3 := hclears hnil
      rw [hspares fun hw => hway ⟨hnil, hw⟩] at h3
      obtain ⟨hr, hcalm, b', hb', hst', hf'⟩ := h.tick_seen h2 hst hf hpos (.inr rfl) (State.install_bookings ..)
      exact ⟨_, b', hreach _ h3 hr, hb', hst', hf', fun hyes => absurd hyes hway, fun _ => ⟨h2.seen_notCut rfl rfl rfl hcalm
        h.runsOn.1 (fun i _ => State.booking_congr (State.install_bookings ..) i) (State.install_bills ..) (State.install_mgmt ..),
        fun htaken => State.Listed.calm (State.install_listed h2.tables hx2 htaken k) hcalm⟩⟩

end AddingTick

end Sys2Proof.Machine
end

