-- ==== Sys2Proof/Proofs/CutsForSwitch.lean ====
section
/-! A switch beside an EXTENDED booking: its cuts, its move and its notice (R117, R119 to R124). -/

namespace Sys2Proof.Machine

/-! ## One attempt at a switch (R123, R124) -/

/-- The cuts that a switch makes for room (R123). -/
def State.switchCuts (s : State) (k : Nat) (b : Booking) (to_ : Position) (nt : Word) : Cuts :=
  if b.state = .extended then (s, 0) else cutPlaces nt (b.fields.at to_) (s.ownedOn k b.selected) (s, 0)

/-- The notice of a switch (R97, R123). -/
def State.switchNote (s : State) (k : Nat) (b : Booking) (to_ : Position) (cause : SwitchCause) (nt : Word) (cuts : Nat) : NoticeContent :=
  .selectorSwitch k b.ref b.fields.account nt b.position to_ cause (b.fields.at to_) (s.watchOf b.fields.main)
    ((s.spareWatch b.fields).getD .unwatched) cuts (b.meter.countSwitch cause.isForced).switches (b.meter.countSwitch cause.isForced).forced

/-- The record after a switch (R123). -/
def Booking.switched (b : Booking) (to_ : Position) (cause : SwitchCause) : Booking :=
  { b with position := to_, holdOffLeft := none, wtrLeft := none, meter := b.meter.countSwitch cause.isForced }

section
variable {s w : State} {k n : Nat} {b : Booking} {to_ : Position} {cause : SwitchCause} {nt : Word} {x y : Source}
  (hcuts : s.switchCuts k b to_ nt = (w, n)) (hx : w.source x.id = some x) (hy : w.source y.id = some y) (hsel : b.selected = x.id)
  (hto : b.fields.at to_ = y.id)
include hcuts hx hy hsel hto

theorem trySwitch_noRoom (hfull : 16 < y.legs.length + (x.legs.filter fun l => l.owner == k).length) : s.trySwitch k b to_ cause nt = w := by
  rw [← List.countP_eq_length_filter] at hfull
  have hmove := State.moveLegs_full hx hy hfull
  unfold State.switchCuts at hcuts
  unfold State.trySwitch
  dsimp only
  rw [hcuts, hsel, hto]
  dsimp only
  rw [hmove]

theorem trySwitch_room (hroom : ¬ 16 < y.legs.length + (x.legs.filter fun l => l.owner == k).length) :
    s.trySwitch k b to_ cause nt = ((w.legsMoved k x y).setBooking k (b.switched to_ cause)).raise (s.switchNote k b to_ cause nt n) := by
  rw [← List.countP_eq_length_filter, Nat.not_lt] at hroom
  have hmove := State.moveLegs_taken hx hy hroom
  unfold State.switchCuts at hcuts
  unfold State.trySwitch State.switchNote
  dsimp only
  rw [hcuts, hsel, hto]
  dsimp only
  rw [hmove]
  rfl

end

/-! ## Where no cut can be made -/

/-- No booking but that of slot `k` is EXTENDED with a leg on this list. -/
def State.NoCutAt (s : State) (k : Nat) (i : SrcId) : Prop :=
  ∀ j a, j ≠ k → s.booking j = some a → a.state = .extended → ¬ s.HasLeg j fun m _ => m == i

section
variable {s : State} {k : Nat} {b : Booking} {to_ : Position} {nt : Word}

theorem State.NoCutAt.switchCuts (hT : TablesInForm s) (hb : s.booking k = some b) (h : b.state ≠ .extended → s.NoCutAt k (b.fields.at to_)) :
    s.switchCuts k b to_ nt = (s, 0) := by
  unfold State.switchCuts
  split
  · rfl
  · next hne =>
    have hnone : s.toCut (fun m _ => m == b.fields.at to_) = none := by
      cases hcut : s.toCut fun m _ => m == b.fields.at to_ with
      | none => rfl
      | some j =>
        obtain ⟨a, ha, hst, hleg, -⟩ := State.toCut_some hT hcut
        refine absurd hleg (h hne j a ?_ ha hst)
        rintro rfl
        rw [hb] at ha
        exact hne (Option.some.inj ha ▸ hst)
    unfold Machine.cutPlaces
    dsimp only
    cases s.bookings.length with
    | zero => rfl
    | succ fuel =>
      unfold cutWhile
      rw [hnone]
      exact ite_self _

/-- A restore where the list of the main is full changes the countdown alone (R122, R124). -/
theorem State.wtrRule_full {x y : Source} (hT : TablesInForm s) (hb : s.booking k = some b)
    (hcut : b.state ≠ .extended → s.NoCutAt k b.fields.main) (hx : s.source x.id = some x) (hy : s.source y.id = some y)
    (hsel : b.selected = x.id) (hto : b.fields.main = y.id)
    (hfull : 16 < y.legs.length + (x.legs.filter fun l => l.owner == k).length) : s.Calm (s.wtrRule k b nt) := by
  unfold State.wtrRule
  split
  · dsimp only
    split
    · have hcuts : (s.setBooking k { b with wtrLeft := some (countDown b.fields.wtr b.wtrLeft) }).switchCuts k
          { b with wtrLeft := some (countDown b.fields.wtr b.wtrLeft) } .onMain nt = (_, 0) :=
        State.NoCutAt.switchCuts (hT.setBooking k _) (State.setBooking_booking_self ..) fun hne i a hi ha =>
          hcut hne i a hi ((State.setBooking_booking_ne s _ hi).symm.trans ha)
      rw [trySwitch_noRoom hcuts hx hy hsel hto hfull]
      exact .setBooking hb rfl
    · exact .setBooking hb rfl
  · exact .setBooking hb rfl

end

/-! ## The rules that try a switch (R119 to R122, R126) -/

/-- The record that stage 4 takes: one whose request CLEAR has ended is taken with its countdowns absent (R126). -/
def Booking.counted (b : Booking) : Booking := if b.afresh then b.stopCountdowns else b

/-- The same record but for its countdowns. -/
def Booking.Recounted (b a : Booking) : Prop := ∃ h w f, a = { b with holdOffLeft := h, wtrLeft := w, afresh := f }

section
variable {s : State} {k : Nat} {a b : Booking} {to_ : Position} {cause : SwitchCause} {nt : Word}

theorem Booking.counted_recounted (b : Booking) : b.Recounted b.counted := by
  unfold Booking.counted
  split
  · exact ⟨none, none, false, rfl⟩
  · exact ⟨b.holdOffLeft, b.wtrLeft, b.afresh, rfl⟩

theorem Booking.Recounted.trans {d : Booking} (h : b.Recounted a) (h' : a.Recounted d) : b.Recounted d := by
  obtain ⟨_, _, _, rfl⟩ := h
  obtain ⟨x, y, z, rfl⟩ := h'
  exact ⟨x, y, z, rfl⟩

theorem Booking.counted_left (b : Booking) : b.counted.holdOffLeft = (if b.afresh then none else b.holdOffLeft)
    ∧ b.counted.wtrLeft = if b.afresh then none else b.wtrLeft := by
  unfold Booking.counted
  split <;> exact ⟨rfl, rfl⟩

theorem TablesInForm.setBooking_self (hT : TablesInForm s) (hb : s.booking k = some b) : s.setBooking k b = s := by
  unfold State.setBooking
  rw [tabPut_self hT.bookings hb]

theorem selectorSlot_live (hT : TablesInForm s) (hb : s.booking k = some b) (hl : b.state.isLive = true) :
    selectorSlot nt s k = (s.setBooking k b.counted).runSelector k b.counted nt := by
  unfold selectorSlot Booking.counted
  rw [hb]
  dsimp only
  rw [hl, if_neg (by simp)]
  split
  · rfl
  · rw [hT.setBooking_self hb]

/-- What a rule does that tries a switch: where the switch of the recounted record `a` is made it stops, and where it is not, the
wait-to-restore rule may follow (R121). -/
def State.Tries (s : State) (k : Nat) (b : Booking) (to_ : Position) (cause : SwitchCause) (nt : Word) (v : State) : Prop :=
  ∃ a, b.Recounted a ∧
    let u := (s.setBooking k a).trySwitch k a to_ cause nt
    ∀ b1, u.booking k = some b1 → v = u ∨ b1.position ≠ to_ ∧ to_ = .onMain ∧ v = u.wtrRule k b1 nt

theorem forceSwitch_tries (hs : b.fields.spare ≠ none) :
    s.Tries k b to_ cause nt ((s.setBooking k b).forceSwitch k b to_ cause nt) := by
  refine ⟨{ b with holdOffLeft := none, wtrLeft := none }, ⟨none, none, b.afresh, rfl⟩, fun _ _ => .inl ?_⟩
  unfold State.forceSwitch
  dsimp only
  rw [if_neg hs, State.setBooking_setBooking]

theorem holdOffRule_tries (hf : s.failureCondition b.fields = true) (hleft : countDown b.fields.holdOff b.holdOffLeft = 0) :
    s.Tries k b .onSpare .failure nt ((s.setBooking k b).holdOffRule k b nt) := by
  refine ⟨{ b with holdOffLeft := some (countDown b.fields.holdOff b.holdOffLeft) }, ⟨_, b.wtrLeft, b.afresh, rfl⟩, fun _ _ => .inl ?_⟩
  unfold State.holdOffRule
  rw [if_pos (show (s.setBooking k b).failureCondition b.fields = true from hf)]
  dsimp only
  rw [if_pos hleft, State.setBooking_setBooking]

theorem wtrRule_tries (hr : s.restoreCondition b.fields = true) (hleft : countDown b.fields.wtr b.wtrLeft = 0) :
    s.Tries k b .onMain .restore nt ((s.setBooking k b).wtrRule k b nt) := by
  refine ⟨{ b with wtrLeft := some (countDown b.fields.wtr b.wtrLeft) }, ⟨b.holdOffLeft, _, b.afresh, rfl⟩, fun _ _ => .inl ?_⟩
  unfold State.wtrRule
  rw [if_pos (show (s.setBooking k b).restoreCondition b.fields = true from hr)]
  dsimp only
  rw [if_pos hleft, State.setBooking_setBooking]

theorem spareFailed_tries (hsp : s.spareFailedCondition b.fields = true) :
    s.Tries k b .onMain .spareFailed nt ((s.setBooking k b).onSpareRule k b nt) := by
  refine ⟨b, ⟨b.holdOffLeft, b.wtrLeft, b.afresh, rfl⟩, fun b1 hb1 => ?_⟩
  unfold State.onSpareRule
  rw [if_pos (show (s.setBooking k b).spareFailedCondition b.fields = true from hsp)]
  dsimp only
  rw [hb1]
  dsimp only
  split
  · exact .inl rfl
  · next hp => exact .inr ⟨hp, rfl, rfl⟩

theorem onSpareRule_restores (hsp : s.spareFailedCondition b.fields = false) :
    (s.setBooking k b).onSpareRule k b nt = (s.setBooking k b).wtrRule k b nt := by
  unfold State.onSpareRule
  exact if_neg (by rw [show (s.setBooking k b).spareFailedCondition b.fields = false from hsp]; exact Bool.false_ne_true)

theorem State.Tries.of_recounted {v : State} (h : s.Tries k a to_ cause nt v) (hb : b.Recounted a) : s.Tries k b to_ cause nt v := by
  obtain ⟨d, hd, hv⟩ := h
  exact ⟨d, hb.trans hd, hv⟩

/-- The requests and conditions on which a switch is tried (section 7.4). -/
def State.SwitchDue (s : State) (b : Booking) (to_ : Position) (cause : SwitchCause) : Prop :=
  (b.request, to_, cause) ∈ [(Request.forceSpare, Position.onSpare, SwitchCause.forceSpare), (.forceMain, .onMain, .forceMain),
      (.lockMain, .onMain, .lockMain)]
    ∨ b.request = .noRequest
      ∧ (to_ = .onSpare ∧ cause = .failure ∧ s.failureCondition b.fields = true
            ∧ countDown b.fields.holdOff (if b.afresh then none else b.holdOffLeft) = 0
          ∨ to_ = .onMain ∧ cause = .spareFailed ∧ s.spareFailedCondition b.fields = true
          ∨ to_ = .onMain ∧ cause = .restore ∧ s.spareFailedCondition b.fields = false ∧ s.restoreCondition b.fields = true
            ∧ countDown b.fields.wtr (if b.afresh then none else b.wtrLeft) = 0)

theorem runSelector_toMain (h : b.request = .forceMain ∧ cause = .forceMain ∨ b.request = .lockMain ∧ cause = .lockMain)
    (hp : b.position = .onSpare) : s.runSelector k b nt = s.forceSwitch k b .onMain cause nt := by
  unfold State.runSelector
  obtain ⟨hr, rfl⟩ | ⟨hr, rfl⟩ := h <;> rw [hr, hp]

theorem selectorSlot_tries (hT : TablesInForm s) (hb : s.booking k = some b) (hl : b.state.isLive = true) {sp : SrcId}
    (hs : b.fields.spare = some sp) (hpos : b.position ≠ to_) (hdue : s.SwitchDue b to_ cause) :
    s.Tries k b to_ cause nt (selectorSlot nt s k) := by
  obtain ⟨hhold, hwtr⟩ := b.counted_left
  have hfields : b.counted.fields = b.fields ∧ b.counted.request = b.request ∧ b.counted.position = b.position := by
    unfold Booking.counted
    split <;> exact ⟨rfl, rfl, rfl⟩
  obtain ⟨hf, hreq, hp⟩ := hfields
  have hspare : b.counted.fields.spare ≠ none := by rw [hf, hs]; simp
  rw [selectorSlot_live hT hb hl]
  refine State.Tries.of_recounted ?_ b.counted_recounted
  have hmain (h : to_ = .onMain) : b.counted.position = .onSpare := by
    rw [hp]
    cases hq : b.position with
    | onMain => exact absurd (hq.trans h.symm) hpos
    | onSpare => rfl
  have hspareTo (h : to_ = .onSpare) : b.counted.position = .onMain := by
    rw [hp]
    cases hq : b.position with
    | onMain => rfl
    | onSpare => exact absurd (hq.trans h.symm) hpos
  obtain hforce | ⟨hr, ⟨rfl, rfl, hfail, hleft⟩ | ⟨rfl, rfl, hfail⟩ | ⟨rfl, rfl, hok, hback, hleft⟩⟩ := hdue
  · simp only [List.mem_cons, Prod.mk.injEq, List.not_mem_nil, or_false] at hforce
    obtain ⟨hr, rfl, rfl⟩ | ⟨hr, rfl, rfl⟩ | ⟨hr, rfl, rfl⟩ := hforce
    · rw [runSelector_forceSpare (hreq.trans hr) (hspareTo rfl)]
      exact forceSwitch_tries hspare
    · rw [runSelector_toMain (.inl ⟨hreq.trans hr, rfl⟩) (hmain rfl)]
      exact forceSwitch_tries hspare
    · rw [runSelector_toMain (.inr ⟨hreq.trans hr, rfl⟩) (hmain rfl)]
      exact forceSwitch_tries hspare
  · rw [runSelector_onMain (hreq.trans hr) (hspareTo rfl)]
    exact holdOffRule_tries (by rw [hf]; exact hfail) (by rw [hf, hhold]; exact hleft)
  · rw [runSelector_onSpare (hreq.trans hr) (hmain rfl)]
    exact spareFailed_tries (by rw [hf]; exact hfail)
  · rw [runSelector_onSpare (hreq.trans hr) (hmain rfl), onSpareRule_restores (by rw [hf]; exact hok)]
    exact wtrRule_tries (by rw [hf]; exact hback) (by rw [hf, hwtr]; exact hleft)

end

end Sys2Proof.Machine
end

