-- ==== Sys2Proof/Proofs/SwitchSeen.lean ====
section
/-! What a switch beside an EXTENDED booking shows: the record, the two lists, the bills and the notices (R123, R124). -/

namespace Sys2Proof.Machine

section
variable {s v w : State} {j k : Nat} {c : Booking} {nt : Word} {more : List NoticeContent}

theorem CutOnce.calm (h : CutOnce s v j c nt more) (hw : v.Calm w) : CutOnce s w j c nt more := by
  obtain ⟨bill, href, hout, hnt, hroom, hfull⟩ := h
  have hstate := hw.state j
  refine ⟨bill, href, hout, hnt, fun hn => ?_, fun hn => ?_⟩
  · obtain ⟨hfree, hrecords, hm⟩ := hroom hn
    rw [hfree] at hstate
    exact ⟨Option.map_eq_none_iff.1 hstate, hw.bills ▸ hrecords, hw.mgmt.trans hm⟩
  · obtain ⟨hsame, ⟨c', hc', hst⟩, hm⟩ := hfull hn
    rw [hc'] at hstate
    obtain ⟨d, hd, he⟩ := Option.map_eq_some_iff.1 hstate
    exact ⟨hw.bills.trans hsame, ⟨d, hd, he.trans hst⟩, hw.mgmt.trans hm⟩

theorem NotCut.calm (h : NotCut s v j more) (hw : v.Calm w) : NotCut s w j more := by
  obtain ⟨hbills, ⟨c', hc', hst⟩, hm⟩ := h
  obtain ⟨d, hd, he⟩ := hw.booking hc'
  obtain ⟨-, -, hst', -⟩ := Booking.standing_iff.1 he
  exact ⟨hw.bills.trans hbills, ⟨d, hd, hst'.trans hst⟩, hw.mgmt.trans hm⟩

end

/-- What is seen of a switch that was tried: the state and position of slot `k`, the two lists, and whether slot `j` was cut for it. -/
structure SwitchSeen (s v : State) (j : Nat) (c : Booking) (k : Nat) (nt : Word) (st : BookingState) (pos : Position) (x y : SrcId)
    (lx ly : List Leg) (cut : Prop) (more : List NoticeContent) : Prop where
  record : ∃ b, v.booking k = some b ∧ b.state = st ∧ b.position = pos
  source : v.Listed x lx
  target : v.Listed y ly
  cutOnce : cut → CutOnce s v j c nt more
  notCut : ¬ cut → NotCut s v j more
  rests : ∀ a, v.booking j = some a → a.state.isLive = true → a.fields.spare = none ∧ a.position = .onMain

section
variable {s v w : State} {j k n : Nat} {c b : Booking} {nt : Word} {to_ : Position} {cause : SwitchCause} {x y : Source}

theorem SwitchSeen.calm {st : BookingState} {pos : Position} {i i' : SrcId} {li li' : List Leg} {cut : Prop} {more : List NoticeContent}
    (h : SwitchSeen s v j c k nt st pos i i' li li' cut more) (hw : v.Calm w) : SwitchSeen s w j c k nt st pos i i' li li' cut more := by
  obtain ⟨b, hb, hst, hp⟩ := h.record
  obtain ⟨d, hd, he⟩ := hw.booking hb
  obtain ⟨-, -, hst', hp'⟩ := Booking.standing_iff.1 he
  refine ⟨⟨d, hd, hst'.trans hst, hp'.trans hp⟩, h.source.calm hw, h.target.calm hw, fun hc => (h.cutOnce hc).calm hw,
    fun hc => (h.notCut hc).calm hw, fun a ha hl => ?_⟩
  have hj := hw.bookings j
  rw [ha] at hj
  obtain ⟨e, he', hstand⟩ := Option.map_eq_some_iff.1 hj.symm
  obtain ⟨-, hf, hstate, hpos⟩ := Booking.standing_iff.1 hstand
  rw [← hf, ← hpos]
  exact h.rests e he' (hstate ▸ hl)

/-- The legs to be moved find no place on the list (R49). -/
def NoPlaces (k : Nat) (x : Source) (ls : List Leg) : Prop := 16 < ls.length + (x.legs.filter fun l => l.owner == k).length

/-- The booking of slot `j` is cut for the switch of slot `k` (R123). -/
def CutForSwitch (j k : Nat) (b : Booking) (x y : Source) : Prop :=
  b.state ≠ .extended ∧ NoPlaces k x y.legs ∧ ∃ l ∈ y.legs, l.owner = j

/-- The list of the target and the number of cuts, after the cuts. -/
def TargetList (j k : Nat) (b : Booking) (x y : Source) (ls : List Leg) (n : Nat) : Prop :=
  CutForSwitch j k b x y ∧ ls = (y.without j).legs ∧ n = 1 ∨ ¬ CutForSwitch j k b x y ∧ ls = y.legs ∧ n = 0

theorem State.hasLeg_list (hT : TablesInForm s) (hy : s.source y.id = some y) :
    (s.HasLeg j fun i _ => i == y.id) ↔ ∃ l ∈ y.legs, l.owner = j := by
  rw [State.hasLeg_iff hT]
  constructor
  · rintro ⟨i, l, ⟨ho, z, hz, hl⟩, hi⟩
    rw [beq_iff_eq.1 hi, hy] at hz
    exact ⟨l, Option.some.inj hz ▸ hl, ho⟩
  · rintro ⟨l, hl, ho⟩
    exact ⟨y.id, l, ⟨ho, y, hy, hl⟩, beq_self_eq_true _⟩

section
variable (h : s.Two j c k b) (hc : RunsOn c) (hon : OnItsList s j c) (hx : s.source x.id = some x) (hsel : b.selected = x.id)
  (hy : s.source y.id = some y) (hto : b.fields.at to_ = y.id) (hne : x.id ≠ y.id) {ls : List Leg} (hls : TargetList j k b x y ls n)
include h hc hon hx hsel hy hto hne hls

/-- The state in which the legs are moved, or find no place. -/
theorem switch_ground : ∃ w x' y', s.switchCuts k b to_ nt = (w, n) ∧ (CutForSwitch j k b x y → w = s.endBooking j c .cut nt)
    ∧ (¬ CutForSwitch j k b x y → w = s) ∧ w.source x.id = some x' ∧ x'.id = x.id ∧ x'.legs = x.legs
    ∧ w.source y.id = some y' ∧ y'.id = y.id ∧ y'.legs = ls ∧ (NoPlaces k x ls → b.state ≠ .extended → w.NoCutAt k y.id) := by
  have howned : s.ownedOn k b.selected = (x.legs.filter fun l => l.owner == k).length := by
    unfold State.ownedOn
    rw [hsel, hx]
    exact List.countP_eq_length_filter
  have hcount : s.legCount y.id = y.legs.length := by unfold State.legCount; rw [hy]
  have hleg := State.hasLeg_list (j := j) h.tables hy
  unfold State.switchCuts
  rw [hto, howned]
  obtain ⟨hcut, rfl, rfl⟩ | ⟨hno, rfl, rfl⟩ := hls
  · obtain ⟨hst, hfull, hl⟩ := id hcut
    have honly := h.onlyExtended hc.1 hst
    obtain ⟨l, hly, ho⟩ := id hl
    have hmain : x.id ≠ c.fields.main := (hon.1 y.id y hy ⟨l, hly, ho⟩) ▸ hne
    obtain ⟨x', hx', hxid, hxlegs⟩ := State.cut_legs h.tables hc hon nt hx
    obtain ⟨y', hy', hyid, hylegs⟩ := State.cut_legs h.tables hc hon nt hy
    rw [hon.without hx hmain] at hxlegs
    rw [if_neg hst]
    exact ⟨_, x', y', (honly.cutPlaces nt 0 y.id _).1 ⟨by rw [hcount]; exact hfull, hleg.2 hl⟩, fun _ => rfl, fun hno => absurd hcut hno,
      hx', hxid, hxlegs, hy', hyid, hylegs, fun _ _ i a _ ha he =>
        absurd he (honly.cut_noneExtended nt (i, a) ((bookingClosed_tablesInForm.endBooking j c .cut nt h.tables).mem_bookings.2 ha))⟩
  · refine ⟨s, x, y, ?_, fun hyes => absurd hyes hno, fun _ => rfl, hx, rfl, rfl, hy, rfl, rfl, fun hfull hst i a hi ha _ => ?_⟩
    · split
      · rfl
      · next hst =>
        refine ((h.onlyExtended hc.1 hst).cutPlaces nt 0 y.id _).2 fun ⟨hfull, hl⟩ => hno ⟨hst, ?_, hleg.1 hl⟩
        rw [hcount] at hfull
        exact hfull
    · obtain ⟨rfl, -⟩ | ⟨hik, -⟩ := h.only ha
      · exact fun hl => hno ⟨hst, hfull, hleg.1 hl⟩
      · exact absurd hik hi

end

/-- The bills and notices after the switch's cuts, and what is raised after them. -/
theorem switch_bills {s0 u : State} (h : s.Two j c k b) (hc : RunsOn c) (hb : b.state.isEnded = false) {more : List NoticeContent}
    (hbills : s.bills = s0.bills) (hmgmt : s.mgmt = s0.mgmt) (htime : s.time = s0.time)
    (hyes : CutForSwitch j k b x y → w = s.endBooking j c .cut nt) (hno : ¬ CutForSwitch j k b x y → w = s)
    (hothers : ∀ i, i ≠ k → u.booking i = w.booking i) (hub : u.bills = w.bills) (hum : u.mgmt = (w.raiseAll more).mgmt) :
    (CutForSwitch j k b x y → CutOnce s0 u j c nt more) ∧ (¬ CutForSwitch j k b x y → NotCut s0 u j more) := by
  refine ⟨fun hcut => ?_, fun hcut => ?_⟩
  · rw [hyes hcut] at hothers hub hum
    exact h.seen_cut hbills hmgmt htime (.refl u) hb hothers hub hum
  · rw [hno hcut] at hothers hub hum
    exact h.seen_notCut hbills hmgmt htime (.refl u) hc.1 hothers hub hum

/-- What the move of a switch leaves (R49, R123). -/
theorem switched_shows (hne : x.id ≠ y.id) (k : Nat) (b : Booking) (note : NoticeContent) :
    let u := ((w.legsMoved k x y).setBooking k b).raise note
    u.booking k = some b ∧ (∀ i, i ≠ k → u.booking i = w.booking i) ∧ u.bills = w.bills ∧ u.mgmt = (w.raiseAll [note]).mgmt
      ∧ u.Listed x.id (x.legs.filter fun l => l.owner != k) ∧ u.Listed y.id (y.legs ++ x.legs.filter fun l => l.owner == k) := by
  intro u
  have hlist (i : SrcId) (ls : List Leg) (h : (w.legsMoved k x y).Listed i ls) : u.Listed i ls := by
    unfold State.Listed
    rw [State.source_congr (State.raise_sources ..)]
    exact h
  refine ⟨?_, fun i hi => ?_, State.raise_bills ..,
    State.raise_mgmt_congr (u := (w.legsMoved k x y).setBooking k b) (v := w) rfl rfl note, hlist _ _ ?_, hlist _ _ ?_⟩
  · exact (State.booking_congr (State.raise_bookings ..) k).trans (State.setBooking_booking_self ..)
  · exact (State.booking_congr (State.raise_bookings ..) i).trans (State.setBooking_booking_ne _ _ hi)
  · unfold State.Listed
    rw [State.legsMoved_source, if_neg hne, if_pos rfl]
    rfl
  · unfold State.Listed
    rw [State.legsMoved_source, if_pos rfl]
    rfl

/-- A switch that is tried, by whether the legs find their places once the cuts are made (R123, R124). -/
theorem switch_seen (h : s.Two j c k b) (hc : RunsOn c) (hon : OnItsList s j c) (hx : s.source x.id = some x) (hsel : b.selected = x.id)
    (hy : s.source y.id = some y) (hto : b.fields.at to_ = y.id) (hne : x.id ≠ y.id) {ls : List Leg} (hls : TargetList j k b x y ls n)
    (hb : b.state.isEnded = false) (hv : s.Tries k b to_ cause nt v) :
    (NoPlaces k x ls → SwitchSeen s v j c k nt b.state b.position x.id y.id x.legs ls (CutForSwitch j k b x y) [])
      ∧ (¬ NoPlaces k x ls → SwitchSeen s v j c k nt b.state to_ x.id y.id (x.legs.filter fun l => l.owner != k)
          (ls ++ x.legs.filter fun l => l.owner == k) (CutForSwitch j k b x y) [s.switchNote k b to_ cause nt n]) := by
  obtain ⟨a, ⟨ho, wt, fr, rfl⟩, hv⟩ := hv
  have h5 := h.setBooking { b with holdOffLeft := ho, wtrLeft := wt, afresh := fr }
  obtain ⟨w, x', y', hcuts, hyes, hno, hx', hxid, hxlegs, hy', hyid, hylegs, hnocut⟩ :=
    switch_ground (nt := nt) h5 hc hon hx hsel hy hto hne hls
  have hw : (s.setBooking k { b with holdOffLeft := ho, wtrLeft := wt, afresh := fr }).CutOrNot w j c nt := by
    by_cases hcut : CutForSwitch j k b x y
    · exact .inl (hyes hcut)
    · exact .inr (hno hcut)
  have hTw : TablesInForm w := by
    obtain rfl | rfl := hw
    · exact bookingClosed_tablesInForm.endBooking j c .cut nt h5.tables
    · exact h5.tables
  have hwk := hw.booking_right h5
  have hrests {u : State} (hu : ∀ i, i ≠ k → u.booking i = w.booking i) (e : Booking) (he : u.booking j = some e)
      (hl : e.state.isLive = true) : e.fields.spare = none ∧ e.position = .onMain := by
    rw [hu j h.ne] at he
    obtain ⟨hjk, -⟩ | ⟨-, rfl | hended⟩ := hw.only h5 he
    · exact absurd hjk h.ne
    · exact ⟨hc.2.2.1, hc.2.2.2.1⟩
    · obtain ⟨bill, hst⟩ := BookingState.isEnded_iff.1 hended
      rw [hst] at hl
      cases hl
  have hlists {u : State} {i : SrcId} {z : Source} (hz : u.source i = some z) : u.Listed i z.legs := by
    unfold State.Listed
    rw [hz]
    rfl
  have hplaces : NoPlaces k x ls ↔ 16 < y'.legs.length + (x'.legs.filter fun l => l.owner == k).length := by
    rw [hxlegs, hylegs]
    exact Iff.rfl
  rw [← hxid] at hx'
  rw [← hyid] at hy'
  refine ⟨fun hfull => ?_, fun hroom => ?_⟩
  · have hstays := trySwitch_noRoom (cause := cause) hcuts hx' hy' (hsel.trans hxid.symm) (hto.trans hyid.symm) (hplaces.1 hfull)
    rw [hstays] at hv
    have hcalm : w.Calm v := by
      obtain rfl | ⟨-, rfl, rfl⟩ := hv _ hwk
      · exact .refl v
      · refine State.wtrRule_full hTw hwk (fun hst => ?_) hx' hy' (hsel.trans hxid.symm) (hto.trans hyid.symm) (hplaces.1 hfull)
        rw [show b.fields.main = y.id from hto]
        exact hnocut hfull hst
    obtain ⟨hcut, hspare⟩ := switch_bills (s0 := s) (more := []) h5 hc hb rfl rfl rfl hyes hno (fun _ _ => rfl) rfl rfl
    rw [hxid] at hx'
    rw [hyid] at hy'
    exact SwitchSeen.calm ⟨⟨_, hwk, rfl, rfl⟩, hxlegs ▸ hlists hx', hylegs ▸ hlists hy', hcut, hspare, hrests fun _ _ => rfl⟩ hcalm
  · have hmoves := trySwitch_room (cause := cause) hcuts hx' hy' (hsel.trans hxid.symm) (hto.trans hyid.symm) (mt hplaces.2 hroom)
    rw [hmoves] at hv
    obtain ⟨hk, hothers, hbills, hmgmt, hlx, hly⟩ := switched_shows (w := w) (x := x') (y := y') (by rw [hxid, hyid]; exact hne) k
      (({ b with holdOffLeft := ho, wtrLeft := wt, afresh := fr } : Booking).switched to_ cause) (s.switchNote k b to_ cause nt n)
    obtain rfl | ⟨hpos, -⟩ := hv _ hk
    · obtain ⟨hcut, hspare⟩ := switch_bills (s0 := s) h5 hc hb rfl rfl rfl hyes hno hothers hbills hmgmt
      rw [hxid, hxlegs] at hlx
      rw [hyid, hylegs, hxlegs] at hly
      exact ⟨⟨_, hk, rfl, rfl⟩, hlx, hly, hcut, hspare, hrests hothers⟩
    · exact absurd rfl hpos

end

end Sys2Proof.Machine
end

