-- ==== Sys2Proof/Proofs/SwitchTick.lean ====
section
/-! The tick of a live booking that switches beside an EXTENDED one (R79, R84, R91, R93, R123). -/

namespace Sys2Proof.Machine

section
variable {s v : State} {j k : Nat} {c b : Booking} {t : Tick} {nt : Word}

/-! ## Stages 2 and 3 of the live booking -/

theorem stages23_setBooking (hT : TablesInForm s) (hb : s.booking k = some b) (hl : b.state.isLive = true)
    (hx : windowReached t.nt b = true → b.fields.extend = true) :
    ∃ b2, stage2Slot t [] s k = s.setBooking k b2 ∧
      stage3Slot t [] (s.setBooking k b2) k = s.setBooking k { b with state := liveStateAfter t.nt .nothing b } := by
  have hnone : noteOf [] k = .nothing := rfl
  have hdropped : TickNote.nothing.dropped = [] := rfl
  have hadded : TickNote.nothing.added = [] := rfl
  have hrun : b.state.isRunning = true := BookingState.isRunning_iff.2 (.inr hl)
  by_cases hw : windowReached t.nt b = true
  · have hst : liveStateAfter t.nt .nothing b = .extended := if_pos (.inl (windowActs_nothing.trans hw))
    rw [hst]
    refine ⟨{ b with state := .extended }, ?_, ?_⟩
    · unfold stage2Slot
      rw [hb]
      dsimp only
      rw [hnone, hdropped, dropLegs_nil, hrun, windowActs_nothing, hw, if_pos (by rfl)]
      unfold atWindowEnd
      obtain hst | hst | hst := BookingState.isLive_iff.1 hl
      · rw [hst]
        exact if_pos (hx hw)
      · rw [hst]
        exact if_pos (hx hw)
      · have hsame : { b with state := .extended } = b := by rw [← hst]
        rw [hsame, hst, hT.setBooking_self hb]
        exact if_pos (hx hw)
    · unfold stage3Slot
      rw [State.setBooking_booking_self]
  · have hw : windowReached t.nt b = false := by simpa using hw
    have hno : windowActs t.nt (noteOf [] k) b = false := windowActs_nothing.trans hw
    refine ⟨b, ?_, ?_⟩
    · rw [stage2Slot_idle hb fun _ => hno, hT.setBooking_self hb]
      exact dropLegs_nil ..
    · rw [hT.setBooking_self hb]
      unfold stage3Slot
      rw [hb]
      dsimp only
      rw [hnone, hadded]
      simp only [installAdded_nil]
      have hnotExt : b.state ≠ .extended := fun e => by simp [windowReached, e] at hw
      have hst : liveStateAfter t.nt .nothing b = if planPasses t.nt .nothing b = true ∨ b.state = .overrun then .overrun else .live :=
        if_neg (not_or.2 ⟨by rw [windowActs_nothing, hw]; exact Bool.false_ne_true, hnotExt⟩)
      rw [hst]
      obtain hs | hs | hs := BookingState.isLive_iff.1 hl
      · rw [hs]
        dsimp only
        unfold passPlan
        rw [hb]
        dsimp only
        by_cases hp : planPasses t.nt .nothing b = true
        · rw [if_pos ⟨hs, hp⟩, if_pos (.inl hp)]
        · rw [if_neg (fun h => hp h.2), if_neg (by simp [hp])]
          have hsame : { b with state := .live } = b := by rw [← hs]
          rw [hsame, hT.setBooking_self hb]
      · rw [hs, if_pos (.inr rfl)]
        have hsame : { b with state := .overrun } = b := by rw [← hs]
        rw [hsame, hT.setBooking_self hb]
      · exact absurd hs hnotExt

/-! ## Stage 4 -/

theorem State.Two.swap (h : s.Two j c k b) : s.Two k b j c := ⟨h.tables, h.table.symm⟩

/-- The EXTENDED booking's own slot in stage 4, where it comes first. -/
theorem State.Two.selector_left (h : s.Two j c k b) (hc : RunsOn c) (nt : Word) :
    ∃ c', (selectorSlot nt s j).Two j c' k b ∧ RunsOn c' ∧ c'.ref = c.ref ∧ c'.fields = c.fields
      ∧ (selectorSlot nt s j).sources = s.sources ∧ (selectorSlot nt s j).bills = s.bills ∧ (selectorSlot nt s j).mgmt = s.mgmt
      ∧ (selectorSlot nt s j).time = s.time := by
  obtain e | ⟨ho, wt, a, e⟩ := selectorSlot_noSpare (nt := nt) h.booking_left hc.2.2.1 hc.2.2.2.1 <;> rw [e]
  · exact ⟨c, h, hc, rfl, rfl, rfl, rfl, rfl, rfl⟩
  · exact ⟨_, (h.swap.setBooking { c with holdOffLeft := ho, wtrLeft := wt, afresh := a }).swap, hc, rfl, rfl, rfl, rfl, rfl, rfl⟩

theorem CutOnce.of_same {u : State} {c' : Booking} {more : List NoticeContent} (h : CutOnce u v j c' nt more) (href : c'.ref = c.ref)
    (hf : c'.fields = c.fields) (hbills : u.bills = s.bills) (hmgmt : u.mgmt = s.mgmt) (htime : u.time = s.time) :
    CutOnce s v j c nt more := by
  have hraise (cs : List NoticeContent) : (u.raiseAll cs).mgmt = (s.raiseAll cs).mgmt :=
    State.raiseAll_mgmt_congr hmgmt (by rw [htime]) cs
  unfold CutOnce at h ⊢
  simp only [hbills, href, hf, hraise] at h
  exact h

theorem NotCut.of_same {u : State} {more : List NoticeContent} (h : NotCut u v j more) (hbills : u.bills = s.bills)
    (hmgmt : u.mgmt = s.mgmt) (htime : u.time = s.time) : NotCut s v j more := by
  obtain ⟨hb, hc, hm⟩ := h
  exact ⟨hb.trans hbills, hc, hm.trans (State.raiseAll_mgmt_congr hmgmt (by rw [htime]) more)⟩

theorem SwitchSeen.of_same {u : State} {c' : Booking} {st : BookingState} {pos : Position} {i i' : SrcId} {li li' : List Leg} {cut : Prop}
    {more : List NoticeContent} (h : SwitchSeen u v j c' k nt st pos i i' li li' cut more) (href : c'.ref = c.ref)
    (hf : c'.fields = c.fields) (hbills : u.bills = s.bills) (hmgmt : u.mgmt = s.mgmt) (htime : u.time = s.time) :
    SwitchSeen s v j c k nt st pos i i' li li' cut more :=
  ⟨h.record, h.source, h.target, fun hc => (h.cutOnce hc).of_same href hf hbills hmgmt htime,
    fun hc => (h.notCut hc).of_same hbills hmgmt htime, h.rests⟩

theorem OnItsList.of_sources {u : State} {c' : Booking} (h : OnItsList s j c) (hs : u.sources = s.sources) (hf : c'.fields = c.fields) :
    OnItsList u j c' := by
  unfold OnItsList
  simp only [State.source_congr hs, hf]
  exact h

theorem State.spareWatch_congr {u : State} (hs : u.sources = s.sources) (f : Fields) : u.spareWatch f = s.spareWatch f := by
  unfold State.spareWatch
  rw [show u.watchOf = s.watchOf from funext (State.watchOf_congr hs)]

theorem State.SwitchDue.of_sources {u : State} {to_ : Position} {cause : SwitchCause} (h : s.SwitchDue b to_ cause)
    (hs : u.sources = s.sources) : u.SwitchDue b to_ cause := by
  unfold State.SwitchDue State.failureCondition State.spareFailedCondition State.restoreCondition at h ⊢
  simp only [State.watchOf_congr hs, State.spareWatch_congr hs]
  exact h

theorem State.switchNote_congr {u : State} (hs : u.sources = s.sources) (k : Nat) (b : Booking) (to_ : Position) (cause : SwitchCause)
    (nt : Word) (n : Nat) : u.switchNote k b to_ cause nt n = s.switchNote k b to_ cause nt n := by
  unfold State.switchNote
  rw [State.watchOf_congr hs, State.spareWatch_congr hs]

/-- Stages 4 and 5, in whichever order the two slots come. -/
theorem stages45_switch {n : Nat} {to_ : Position} {cause : SwitchCause} {x y : Source} {sp : SrcId} (h : s.Two j c k b) (hc : RunsOn c)
    (hon : OnItsList s j c) (hx : s.source x.id = some x) (hsel : b.selected = x.id) (hy : s.source y.id = some y)
    (hto : b.fields.at to_ = y.id) (hne : x.id ≠ y.id) {ls : List Leg} (hls : TargetList j k b x y ls n) (hl : b.state.isLive = true)
    (hs : b.fields.spare = some sp) (hpos : b.position ≠ to_) (hdue : s.SwitchDue b to_ cause) :
    (NoPlaces k x ls → SwitchSeen s (stage5 t (stage4 t s)) j c k t.nt b.state b.position x.id y.id x.legs ls (CutForSwitch j k b x y) [])
      ∧ (¬ NoPlaces k x ls → SwitchSeen s (stage5 t (stage4 t s)) j c k t.nt b.state to_ x.id y.id
          (x.legs.filter fun l => l.owner != k) (ls ++ x.legs.filter fun l => l.owner == k) (CutForSwitch j k b x y)
          [s.switchNote k b to_ cause t.nt n]) := by
  have hended : b.state.isEnded = false := by obtain e | e | e := BookingState.isLive_iff.1 hl <;> rw [e] <;> rfl
  have hseen {u : State} {c' : Booking} (hu : u.Two j c' k b) (hc' : RunsOn c') (href : c'.ref = c.ref) (hf : c'.fields = c.fields)
      (hsources : u.sources = s.sources) (hbills : u.bills = s.bills) (hmgmt : u.mgmt = s.mgmt) (htime : u.time = s.time) :
      (NoPlaces k x ls → SwitchSeen s (selectorSlot t.nt u k) j c k t.nt b.state b.position x.id y.id x.legs ls (CutForSwitch j k b x y) [])
        ∧ (¬ NoPlaces k x ls → SwitchSeen s (selectorSlot t.nt u k) j c k t.nt b.state to_ x.id y.id
            (x.legs.filter fun l => l.owner != k) (ls ++ x.legs.filter fun l => l.owner == k) (CutForSwitch j k b x y)
            [s.switchNote k b to_ cause t.nt n]) := by
    have htries := selectorSlot_tries (nt := t.nt) hu.tables hu.booking_right hl hs hpos (hdue.of_sources hsources)
    obtain ⟨hfull, hroom⟩ := switch_seen hu hc' (hon.of_sources hsources hf) ((State.source_congr hsources _).trans hx) hsel
      ((State.source_congr hsources _).trans hy) hto hne hls hended htries
    rw [State.switchNote_congr hsources] at hroom
    exact ⟨fun hp => (hfull hp).of_same href hf hbills hmgmt htime, fun hp => (hroom hp).of_same href hf hbills hmgmt htime⟩
  obtain e | e := h.slots
  · obtain ⟨c', hu, hc', href, hf, hsources, hbills, hmgmt, htime⟩ := h.selector_left hc t.nt
    obtain ⟨hfull, hroom⟩ := hseen hu hc' href hf hsources hbills hmgmt htime
    have hstage : stage4 t s = selectorSlot t.nt (selectorSlot t.nt s j) k := by
      unfold stage4
      rw [e]
      rfl
    rw [hstage]
    exact ⟨fun hp => (hfull hp).calm (stage5_calm ..), fun hp => (hroom hp).calm (stage5_calm ..)⟩
  · obtain ⟨hfull, hroom⟩ := hseen h hc rfl rfl rfl rfl rfl rfl
    have hstage : stage4 t s = selectorSlot t.nt (selectorSlot t.nt s k) j := by
      unfold stage4
      rw [e]
      rfl
    rw [hstage]
    exact ⟨fun hp => (hfull hp).calm ((selectorSlot_calm (hfull hp).rests).trans (stage5_calm ..)),
      fun hp => (hroom hp).calm ((selectorSlot_calm (hroom hp).rests).trans (stage5_calm ..))⟩

end

/-- The fourth clause of O43: the tick of a switch beside an EXTENDED booking. -/
theorem switch_tick {s : State} {j k n : Nat} {c b : Booking} {t : Tick} {rest : List Tick} {sp : SrcId} {x y : Source} {to_ : Position}
    {cause : SwitchCause} (ha : s.inReset = false) (ht : s.bookingTicks = t :: rest)
    (h : State.Two { s with bookingTicks := rest } j c k b) (hc : RunsOn c) (hon : OnItsList s j c) (hl : b.state.isLive = true)
    (hs : b.fields.spare = some sp) (hp : b.pending = none) (he : b.endPending = false)
    (hext : windowReached t.nt b = true → b.fields.extend = true) {st : BookingState} (hst : liveStateAfter t.nt .nothing b = st)
    (hx : s.source x.id = some x) (hsel : b.selected = x.id) (hy : s.source y.id = some y) (hto : b.fields.at to_ = y.id)
    (hne : x.id ≠ y.id) {ls : List Leg} (hls : TargetList j k { b with state := st } x y ls n) (hpos : b.position ≠ to_)
    (hdue : s.SwitchDue b to_ cause) :
    ∃ v, exec .bookingTick s = .next v
      ∧ (NoPlaces k x ls → SwitchSeen s v j c k t.nt st b.position x.id y.id x.legs ls (CutForSwitch j k { b with state := st } x y) [])
      ∧ (¬ NoPlaces k x ls → SwitchSeen s v j c k t.nt st to_ x.id y.id (x.legs.filter fun l => l.owner != k)
          (ls ++ x.legs.filter fun l => l.owner == k) (CutForSwitch j k { b with state := st } x y)
          [s.switchNote k b to_ cause t.nt n]) := by
  obtain ⟨b2, h2, h3⟩ := stages23_setBooking (t := t) h.tables h.booking_right hl hext
  rw [hst] at h3
  have h3' := h.setBooking { b with state := st }
  have hst' : st.isLive = true := hst ▸ liveStateAfter_isLive ..
  have htick := h.wholeTick hc (stage1Slot_idle h.booking_right hp he []) h rfl h2 (h.setBooking b2) h3 (h3'.rests hc)
  obtain ⟨hfull, hroom⟩ := stages45_switch (t := t) h3' hc hon hx hsel hy hto hne hls hst' hs hpos hdue
  refine ⟨_, (exec_bookingTick ha ht).trans (congrArg _ htick), fun hp => ?_, fun hp => ?_⟩
  · exact (hfull hp).of_same rfl rfl rfl rfl rfl
  · exact (hroom hp).of_same rfl rfl rfl rfl rfl

end Sys2Proof.Machine
end

