-- ==== Sys2Proof/Proofs/CutsSettled.lean ====
section
/-! Which EXTENDED booking a cut takes, and the cuts of a booking tick (O43): each clause by the rule of its tick. -/

namespace Sys2Proof.Machine

theorem snapshotOf_noTariff (cls : Nat) (o : Option Tariff) : (snapshotOf cls o).noTariff = o.isNone := by
  cases o <;> rfl

theorem State.isHolding_false {s : State} {b : Booking} (h : ∀ g, s.groupOf b.fields.group = some g → g.state ≠ .holding) :
    s.isHolding b = false := by
  unfold State.isHolding
  split
  · next g hg => simpa using h g hg
  · rfl

section
variable {s : State} {b : Booking} {sp : SrcId} {to_ : Position} {cause : SwitchCause} (hs : b.fields.spare = some sp)
include hs

theorem Fields.at_eq : b.fields.at to_ = if to_ = .onMain then b.fields.main else sp := by
  cases to_ with
  | onMain => rfl
  | onSpare => unfold Fields.at; rw [hs]; rfl

theorem Booking.selected_ne (hne : b.fields.main ≠ sp) (hpos : b.position ≠ to_) : b.selected ≠ b.fields.at to_ := by
  have hsel : b.selected = b.fields.at b.position := by
    unfold Booking.selected Fields.at
    cases b.position <;> rfl
  rw [hsel, Fields.at_eq hs, Fields.at_eq hs]
  cases hp : b.position with
  | onMain => rw [if_pos rfl, if_neg fun e => hpos (hp.trans e.symm)]; exact hne
  | onSpare =>
    have hto : to_ = .onMain := by
      cases to_ with
      | onMain => rfl
      | onSpare => exact absurd hp hpos
    rw [if_neg (by simp), if_pos hto]
    exact hne.symm

theorem State.switchDue_iff : s.SwitchDue b to_ cause ↔
    (b.request, to_, cause) ∈ [(Request.forceSpare, Position.onSpare, SwitchCause.forceSpare), (.forceMain, .onMain, .forceMain),
        (.lockMain, .onMain, .lockMain)]
      ∨ b.request = .noRequest
        ∧ (to_ = .onSpare ∧ cause = .failure
              ∧ ((s.watchOf b.fields.main = .failed ∨ s.watchOf b.fields.main = .degraded ∧ b.fields.switchOnDegrade = true)
                ∧ s.watchOf sp ≠ .failed ∧ ¬ (s.watchOf sp = .degraded ∧ b.fields.switchOnDegrade = true))
              ∧ countDown b.fields.holdOff (if b.afresh then none else b.holdOffLeft) = 0
            ∨ to_ = .onMain ∧ cause = .spareFailed ∧ (s.watchOf sp = .failed ∧ s.watchOf b.fields.main ≠ .failed)
            ∨ to_ = .onMain ∧ cause = .restore ∧ ¬ (s.watchOf sp = .failed ∧ s.watchOf b.fields.main ≠ .failed)
              ∧ b.fields.revertive = true ∧ s.watchOf b.fields.main = .ok
              ∧ countDown b.fields.wtr (if b.afresh then none else b.wtrLeft) = 0) := by
  unfold State.SwitchDue
  simp only [State.failureCondition_iff hs, ← Bool.not_eq_true, State.spareFailedCondition_iff hs, State.restoreCondition_iff, and_assoc]

omit hs in
/-- A switch is forced exactly when its cause is a request (R119, R123). -/
theorem State.SwitchDue.forced (h : s.SwitchDue b to_ cause) : cause.isForced = decide (b.request ≠ .noRequest) := by
  obtain hforce | ⟨hr, ⟨-, rfl, -⟩ | ⟨-, rfl, -⟩ | ⟨-, rfl, -⟩⟩ := h
  · simp only [List.mem_cons, Prod.mk.injEq, List.not_mem_nil, or_false] at hforce
    obtain ⟨hr, -, rfl⟩ | ⟨hr, -, rfl⟩ | ⟨hr, -, rfl⟩ := hforce <;> rw [hr] <;> rfl
  all_goals rw [hr]; rfl

theorem State.switchNote_eq (h : s.SwitchDue b to_ cause) (k : Nat) (nt : Word) (n : Nat) : s.switchNote k b to_ cause nt n =
    .selectorSwitch k b.ref b.fields.account nt b.position to_ cause (b.fields.at to_) (s.watchOf b.fields.main) (s.watchOf sp) n
      (b.meter.countSwitch (decide (b.request ≠ .noRequest))).switches (b.meter.countSwitch (decide (b.request ≠ .noRequest))).forced := by
  have hspare : s.spareWatch b.fields = some (s.watchOf sp) := by
    unfold State.spareWatch
    rw [hs]
    rfl
  unfold State.switchNote
  rw [hspare, h.forced]
  rfl

end

/-- Settles O43: the first clause by the fold over the candidates, the others by the three passes where one booking is EXTENDED. -/
theorem cutsTakeTheLongestExtended : Obligations.CutsTakeTheLongestExtended := by
  refine ⟨fun s at_ hT => ?_, fun s j k c b t rest x ha hT hnodup ht htable hc hb hg hx => ?_,
    fun s j k c b m t rest x ha hT hnodup ht htable hc hon => ?_,
    fun s j k c b t rest sp x y to_ cause ha hT ht htable hc hon hl hs hne hp he hext hx hy hpos => ?_⟩
  · refine ⟨fun hnone k b ⟨hb, he, hl⟩ => State.toCut_none hT hnone hb he hl, fun k hk => ?_⟩
    obtain ⟨b, hb, he, hl, hfirst⟩ := State.toCut_some hT hk
    exact ⟨b, ⟨hb, he, hl⟩, fun j c ⟨hc, hx, hleg⟩ => hfirst j c hc hx hleg, fun nt n => cutSlot_ends hb nt n⟩
  · intro itsLeg inTheWay liveNote
    have h : State.Two { s with bookingTicks := rest } j c k b := ⟨hT.of_tables rfl rfl, htable⟩
    obtain ⟨hst, hs, hp, he, hstart, hplan, hwin⟩ := hb
    obtain ⟨v, b', hexec, hb', hst', hcut, hspare⟩ :=
      entry_cuts ha ht h hnodup hc hst hs hp he hstart hplan hwin (State.isHolding_false hg)
    have hway : s.InTheWay j b.fields.main b.fields.bandwidth b.fields.legs ↔ inTheWay := State.inTheWay_iff hT (fun _ => Iff.rfl) hx
    rw [hway, snapshotOf_noTariff] at hcut hspare
    exact ⟨v, b', hexec, hb', hst', hcut, hspare⟩
  · intro f hst hwin hs hpos hm he hf hx dropped added kept u without itsLeg inTheWay listed
    have h : State.Two { s with bookingTicks := rest } j c k b := ⟨hT.of_tables rfl rfl, htable⟩
    have hadding : AddingTick s j c k b m t rest x dropped added := ⟨ha, ht, h, hc, hst, hwin, hs, hpos, hm, he, hf, hx, rfl, rfl⟩
    obtain ⟨v, b', hexec, hb', hst', hf', hcut, hspare⟩ := hadding.cuts hnodup hon
    have hid : x.id = b.fields.main := hT.source_id hx
    have hkept : (s.setSource (x.kept k dropped)).source b.fields.main = some (x.kept k dropped) := by
      rw [← hid]
      exact State.setSource_source_self s (x.kept k dropped)
    have hway : (added ≠ [] ∧ (s.setSource (x.kept k dropped)).InTheWay j b.fields.main b.fields.bandwidth added) ↔ inTheWay :=
      and_congr_right fun _ => State.inTheWay_iff hT (State.kept_hasLeg (hid ▸ hx) dropped hT h.ne) hkept
    rw [hway] at hcut hspare
    exact ⟨v, b', hexec, hb', hst', hf', hcut, hspare⟩
  · intro st mainState spareState left fails spareFails hcause moving others full inTheWay m note
    have h : State.Two { s with bookingTicks := rest } j c k b := ⟨hT.of_tables rfl rfl, htable⟩
    have hsel : b.selected = x.id := (hT.source_id hx).symm
    have hat : b.fields.at to_ = y.id := (Fields.at_eq hs).trans (hT.source_id hy).symm
    have hids : x.id ≠ y.id := by
      rw [← hsel, ← hat]
      exact Booking.selected_ne hs hne hpos
    have hx' : s.source x.id = some x := hsel ▸ hx
    have hy' : s.source y.id = some y := (hT.source_id hy).symm ▸ hy
    have hst : liveStateAfter t.nt .nothing b = st := liveStateAfter_unchanged rfl rfl
    have hdue : s.SwitchDue b to_ cause := (State.switchDue_iff hs).2 hcause
    have hnote (n : Nat) : s.switchNote k b to_ cause t.nt n = note n := by
      rw [State.switchNote_eq hs hdue, hat]
    have htick {ls : List Leg} {n : Nat} (hls : TargetList j k { b with state := st } x y ls n) :=
      switch_tick ha ht h hc hon hl hs hp he (fun hw => hext (windowReached_iff.1 hw)) hst hx' hsel hy' hat hids hls hpos hdue
    simp only [hnote] at htick
    by_cases hway : inTheWay
    · obtain ⟨v, hexec, hfull, hroom⟩ := htick (.inl ⟨hway, rfl, rfl⟩)
      by_cases hf : full others
      · have hseen := hfull hf
        obtain ⟨b', hb', hst', hpos'⟩ := hseen.record
        exact ⟨v, b', hexec, hb', hst', fun _ => ⟨fun _ => ⟨hseen.cutOnce hway, hpos', hseen.target, hseen.source⟩,
          fun hno => absurd hf hno⟩, fun hno => absurd hway hno⟩
      · have hseen := hroom hf
        obtain ⟨b', hb', hst', hpos'⟩ := hseen.record
        exact ⟨v, b', hexec, hb', hst', fun _ => ⟨fun hyes => absurd hyes hf,
          fun _ => ⟨hseen.cutOnce hway, hpos', hseen.target, hseen.source⟩⟩, fun hno => absurd hway hno⟩
    · obtain ⟨v, hexec, hfull, hroom⟩ := htick (.inr ⟨hway, rfl, rfl⟩)
      by_cases hf : full y.legs
      · have hseen := hfull hf
        obtain ⟨b', hb', hst', hpos'⟩ := hseen.record
        exact ⟨v, b', hexec, hb', hst', fun hyes => absurd hyes hway,
          fun _ => ⟨fun _ => ⟨hseen.notCut hway, hpos', hseen.target, hseen.source⟩, fun hno => absurd hf hno⟩⟩
      · have hseen := hroom hf
        obtain ⟨b', hb', hst', hpos'⟩ := hseen.record
        exact ⟨v, b', hexec, hb', hst', fun hyes => absurd hyes hway,
          fun _ => ⟨fun hyes => absurd hyes hf, fun _ => ⟨hseen.notCut hway, hpos', hseen.target, hseen.source⟩⟩⟩

end Sys2Proof.Machine
end
